-- ==== Sys2Proof/Word.lean ====
section
/-! DEFINITION. The word types of the GESA codec block (00_scope R10, R11). -/

namespace Sys2Proof

/-- A byte of a buffer; a symbol (00_scope R10, R16). -/
abbrev Byte := BitVec 8

/-- A register, an address, a command word (00_scope R11: REG_WIDTH, ADDR_WIDTH). -/
abbrev Word := BitVec 64

/-- A codeword or a bit stream, first bit first (00_scope R15). -/
abbrev Bits := List Bool

end Sys2Proof
end

