-- ==== Sys2Proof/Syntax.lean ====
section
/-! DEFINITION. The commands of the block, its fault codes, its register names and what its host can do. -/

namespace Sys2Proof

/-- The seventeen commands of 30_encoding R116, one constructor per row of the opcode table. -/
inductive Instr where
  | nop
  | softReset
  | hufCount
  | hufLoadFreq
  | hufBuild
  /-- Format S: the symbol to look up. -/
  | hufCode (sym : Byte)
  /-- Format S: the symbol to append. -/
  | hufPutSym (sym : Byte)
  | hufGetSym
  | hufEncode
  | hufDecode
  | lzwEncode
  /-- Format L: `strict` is bit 8 of the word. -/
  | lzwDecode (strict : Bool)
  | bwInit
  /-- Format N: how many bits to write. -/
  | bwPut (n : BitVec 7)
  | bwFinish
  | brInit
  /-- Format N: how many bits to read. -/
  | brGet (n : BitVec 7)
  deriving DecidableEq, Repr

/-- Why a command word is illegal (30_encoding R117, R118). -/
inductive Illegal where
  /-- No row of the opcode map has this opcode. -/
  | unassignedOpcode
  /-- A must-be-zero bit of the format is 1. -/
  | mustBeZero
  /-- The count of a Format N word is 0 or above 64. -/
  | countOutOfRange
  deriving DecidableEq, Repr

/-- The values STATUS.FAULT can hold (60_exceptions R271). -/
inductive FaultCode where
  /-- NONE, 0x00: no fault. -/
  | noFault
  | illegalCmd
  | busError
  | addrRange
  | regionOverlap
  | capacity
  | hufEmptyCode
  | hufEndOfStream
  | hufNullChild
  | hufNoTree
  | hufFreqOverflow
  | lzwInvalidCode
  | lzwShortOutput
  | lzwLongOutput
  | bitEndOfStream
  | bitWriterClosed
  deriving DecidableEq, Repr, Inhabited

/-- The ids of the regions a command can name (20_memory R84). -/
inductive RegionId where
  | src
  | metaTable
  | dst
  deriving DecidableEq, Repr

/-- The named registers of 10_state R33. -/
inductive Reg where
  | id | cmd | status | faultInfo | irqEn
  | srcAddr | srcLen | dstAddr | dstCap | dstLen | metaAddr
  | origSize | codeCount | dictSize
  | bwData | bwState | brByte | brBit | brData
  | symOut | hufState | codeLen | codeW0 | codeW1 | codeW2 | codeW3
  deriving DecidableEq, Repr

/-- One action of the host (10_state R30, R34; 30_encoding R120, R121). -/
inductive HostOp where
  /-- Write `value` to byte offset `off` of the register block of instance `k`, `size` bytes wide. -/
  | wr (k off size : Nat) (value : Word)
  /-- Read `size` bytes at byte offset `off` of the register block of instance `k`. -/
  | rd (k off size : Nat)
  /-- Write one byte of the host's address space. -/
  | memWr (addr : Nat) (value : Byte)
  /-- Read one byte of the host's address space. -/
  | memRd (addr : Nat)
  /-- Read STATUS of instance `k` until BUSY is 0. -/
  | wait (k : Nat)
  deriving DecidableEq, Repr

/-- Whose move it is. -/
inductive Turn where
  /-- The engine of instance `k` (10_state R53). -/
  | engine (k : Nat)
  /-- The host. -/
  | host (op : HostOp)
  /-- The platform asserts (`true`) or releases (`false`) the reset input of instance `k` (70_reset R310). -/
  | reset (k : Nat) (asserted : Bool)
  deriving DecidableEq, Repr

end Sys2Proof
end

