-- ==== Sys2Proof/Config.lean ====
section
/-! DEFINITION. What the spec fixes for every block, and the free values it calls draws. -/

namespace Sys2Proof.Config

/-- LZW_INIT (00_scope R10). -/
def lzwInit : Nat := 256

/-- LZW_MAX (00_scope R10). -/
def lzwMax : Nat := 4096

/-- MMIO_SIZE (00_scope R11). -/
def mmioSize : Nat := 256

/-- FREQ_TABLE_BYTES (00_scope R11). -/
def freqTableBytes : Nat := 1024

/-- How many byte addresses the DMA space has (20_memory R80). -/
def addressSpace : Nat := 2 ^ 64

/-- DESIGN CHOICE (entry 5): a draw (00_scope R22) of a 64-bit value, the `slot`-th one of draw event `event`; a free
value, nothing is known of it. Safe. -/
opaque drawWord (event slot : Nat) : Word

/-- DESIGN CHOICE (entry 5): a draw of the byte at address `addr` in draw event `event`. Safe. -/
opaque drawByte (event addr : Nat) : Byte

/-- DESIGN CHOICE (entry 5): a draw of a fault code (20_memory R91); it ranges over the codes of 60_exceptions R271,
NONE included. Safe. -/
opaque drawFault (event : Nat) : FaultCode

end Sys2Proof.Config
end

