-- ==== Sys2Proof/Machine/State.lean ====
section
/-! DEFINITION. The state of the system: every block instance, DMA memory, the platform and the host's moves, as plain
data (10_state R30, R64). -/

namespace Sys2Proof.Machine

/-- Why the machine stops because something does not exist. Every fault the spec gives the block is recorded in STATUS
and is a next state, not one of these (60_exceptions R270). -/
inductive Fault where
  /-- Raised by a host memory access at an address past the 2^64 bytes of the DMA space (20_memory R80). Safe. -/
  | noSuchAddress
  /-- Raised by a move that names an instance that is not there (60_exceptions R283). Safe. -/
  | noSuchBlock
  deriving DecidableEq, Repr

/-- What the model refuses. -/
inductive Refusal where
  /-- An instruction with no meaning in the model: raised by nothing, every arm has its meaning. Safe. -/
  | notModelled (mnemonic : String)
  /-- Raised by a host access to a register block that is not 8 bytes wide and 8-byte aligned: "A model refuses any other
  access" (10_state R34). Safe. -/
  | badAccess
  /-- Raised by a command, past all its checks, with a region on memory that is not idempotent, "a model refuses such a
  launch" (20_memory R87), and by a host access to such memory. Safe. -/
  | notIdempotent
  deriving DecidableEq, Repr

/-- A byte range `[base, base + len)`. -/
structure Range where
  base : Nat
  len : Nat
  deriving DecidableEq, Repr

/-- A region of a command (20_memory R84). -/
structure Region where
  id : RegionId
  base : Nat
  len : Nat
  /-- The command writes it (it reads it otherwise). -/
  write : Bool
  deriving DecidableEq, Repr

/-- STATUS, field by field (10_state R36). -/
structure Status where
  busy : Bool
  done : Bool
  err : Bool
  werr : Bool
  fault : FaultCode
  lastOp : Byte
  deriving DecidableEq, Repr

/-- The frequency table: 256 counts (10_state R56). -/
abbrev FreqTable := Vector (BitVec 32) 256

/-- The model's own record of what the host may rely on (20_memory R90 to R92; entries 6, 8, 9). -/
structure Track where
  /-- The host has read STATUS with BUSY = 0 since the last acceptance. -/
  seen : Bool
  /-- Written regions of the commands accepted since the host last read STATUS with BUSY = 0. -/
  unseen : List Range
  /-- A host write has made the outcome of the pending command a draw (20_memory R91). -/
  raced : Bool
  /-- The bytes of the pending command's regions that a region of another instance overlaps, one of the two written
  (20_memory R92). -/
  shared : List Range
  deriving DecidableEq, Repr

/-- The state of one block instance (10_state R64). -/
structure Block where
  /-- MMIO_BASE, a parameter of the platform (00_scope R12). -/
  mmioBase : Word
  /-- The reset input (70_reset R310). -/
  inReset : Bool
  status : Status
  faultInfo : Word
  irqEn : Bool
  srcAddr : Word
  srcLen : Word
  dstAddr : Word
  dstCap : Word
  dstLen : Word
  metaAddr : Word
  origSize : Word
  codeCount : Word
  dictSize : BitVec 16
  bwData : Word
  bwAcc : Byte
  bwCnt : BitVec 3
  bwOpen : Bool
  brByte : Word
  brBit : BitVec 3
  brData : Word
  symOut : Byte
  codeLen : Byte
  /-- CODE_W3, CODE_W2, CODE_W1 and CODE_W0 as one number (10_state R50). -/
  code : BitVec 256
  treeValid : Bool
  freq : FreqTable
  /-- The command word accepted and not yet executed (10_state R52). -/
  pending : Option Word
  track : Track
  deriving DecidableEq, Repr

/-- What the platform fixes beside MMIO_BASE (00_scope R12). -/
structure Platform where
  /-- The addresses at which the platform does not answer a DMA access: ADMIT is false there. -/
  holes : List Range
  /-- The addresses of memory that is not idempotent (20_memory R87). -/
  devices : List Range
  deriving DecidableEq, Repr

/-- DMA memory: the bytes that are not 0, addresses strictly rising (entry 2). -/
abbrev Memory := List Host.Cell

/-- The whole system. The N_INST instances, in order, are `before`, `cur`, `after`; `cur` is the one whose engine `exec`
moves. -/
structure State where
  before : List Block
  cur : Block
  after : List Block
  mem : Memory
  platform : Platform
  /-- What happens next, in order (the model's own, entry 3). -/
  turns : List Turn
  /-- What the host's reads returned, newest first (the host's own state, 10_state R64). -/
  log : List Word
  /-- How many draw events there have been (the model's own, entry 5). -/
  draws : Nat
  deriving DecidableEq, Repr

/-- What a step answers. -/
abbrev Result := Host.Outcome State Fault Refusal

/-- An instance right after reset (10_state R63, 70_reset R311), its register block at `base`. -/
def Block.reset (base : Word) : Block where
  mmioBase := base
  inReset := false
  status := { busy := false, done := false, err := false, werr := false, fault := .noFault, lastOp := 0 }
  faultInfo := 0
  irqEn := false
  srcAddr := 0
  srcLen := 0
  dstAddr := 0
  dstCap := 0
  dstLen := 0
  metaAddr := 0
  origSize := 0
  codeCount := 0
  dictSize := 0
  bwData := 0
  bwAcc := 0
  bwCnt := 0
  bwOpen := false
  brByte := 0
  brBit := 0
  brData := 0
  symOut := 0
  codeLen := 0
  code := 0
  treeValid := false
  freq := Vector.replicate 256 0
  pending := none
  track := { seen := true, unseen := [], raced := false, shared := [] }

/-- The system right after reset, for any parameters (00_scope R12) and any contents of memory (70_reset R312): instance 0
at `base`, the others at `bases`. -/
def State.resetOn (platform : Platform) (base : Word) (bases : List Word) (mem : Memory) : State where
  before := []
  cur := Block.reset base
  after := bases.map Block.reset
  mem := mem
  platform := platform
  turns := []
  log := []
  draws := 0

/-- The machine right after reset. DESIGN CHOICE (entries 1, 2, 10), unsafe: one instance at 0xFFFF000000000000, every
other address answered by idempotent memory that holds 0. -/
def State.reset : State :=
  State.resetOn { holes := [], devices := [] } 0xFFFF000000000000 [] []

end Sys2Proof.Machine
end

