-- ==== Sys2Proof/Machine/Ops.lean ====
section
/-! DEFINITION. The named operations: memory (00_scope R17), region checks (20_memory R85), the end of a command with
and without a fault (10_state R53, 60_exceptions R274), draws (00_scope R22). -/

namespace Sys2Proof.Machine

/-! ### DMA memory -/

/-- What an address that memory does not list reads as. DESIGN CHOICE (entry 2), unsafe: 0. -/
def unlistedByte : Byte := 0

/-- `MemRead8` (00_scope R17). -/
def Memory.read : Memory → Nat → Byte
  | [], _ => unlistedByte
  | (k, v) :: m, a => if k = a then v else Memory.read m a

/-- `MemWrite8` (00_scope R17), keeping the addresses rising and listing no byte that reads the same unlisted. -/
def Memory.write : Memory → Nat → Byte → Memory
  | [], a, v => if v = unlistedByte then [] else [(a, v)]
  | (k, w) :: m, a, v =>
    if a < k then (if v = unlistedByte then (k, w) :: m else (a, v) :: (k, w) :: m)
    else if a = k then (if v = unlistedByte then m else (a, v) :: m)
    else (k, w) :: Memory.write m a v

/-- The `n` bytes from address `a` up. -/
def Memory.readBytes (m : Memory) (a : Nat) : Nat → List Byte
  | 0 => []
  | n + 1 => m.read a :: Memory.readBytes m (a + 1) n

/-- Stores the bytes from address `a` up. -/
def Memory.writeBytes (m : Memory) (a : Nat) : List Byte → Memory
  | [] => m
  | b :: bs => Memory.writeBytes (m.write a b) (a + 1) bs

/-- The little-endian value of some bytes (20_memory R82). -/
def leValue : List Byte → Nat
  | [] => 0
  | b :: bs => b.toNat + 256 * leValue bs

/-- The `n` little-endian bytes of a value (20_memory R82). -/
def leBytes : Nat → Nat → List Byte
  | 0, _ => []
  | n + 1, v => BitVec.ofNat 8 v :: leBytes n (v / 256)

/-- `MemRead(a, n)` (00_scope R17). -/
def Memory.readLE (m : Memory) (a n : Nat) : Nat := leValue (m.readBytes a n)

/-- `MemWrite(a, n, v)` (00_scope R17). -/
def Memory.writeLE (m : Memory) (a n v : Nat) : Memory := m.writeBytes a (leBytes n v)

/-- The canonical form from address `lo` up: addresses strictly rising, no byte listed that reads the same unlisted. -/
def Memory.wfFrom : Nat → Memory → Bool
  | _, [] => true
  | lo, (k, v) :: m => decide (lo ≤ k) && decide (v ≠ unlistedByte) && Memory.wfFrom (k + 1) m

/-- Memory has its canonical form. -/
def Memory.wf (m : Memory) : Bool := Memory.wfFrom 0 m

/-- Every listed address is one of the 2^64 of the DMA space (20_memory R80). -/
def Memory.inSpace (m : Memory) : Bool := m.all fun c => decide (c.1 < Config.addressSpace)

/-! ### Ranges, regions and ADMIT -/

/-- The address lies in the range. -/
def Range.has (r : Range) (a : Nat) : Bool := decide (r.base ≤ a) && decide (a < r.base + r.len)

/-- Two ranges share a byte: the overlap test of 20_memory R85. -/
def Range.overlaps (p q : Range) : Bool :=
  decide (0 < p.len) && decide (0 < q.len) && decide (p.base < q.base + q.len) && decide (q.base < p.base + p.len)

/-- The bytes two overlapping ranges share. -/
def Range.inter (p q : Range) : Range where
  base := max p.base q.base
  len := min (p.base + p.len) (q.base + q.len) - max p.base q.base

def Region.range (r : Region) : Range := { base := r.base, len := r.len }

/-- The instances in order (60_exceptions R283). -/
def State.blocks (s : State) : List Block := s.before ++ s.cur :: s.after

/-- The register block of an instance (10_state R33). -/
def Block.window (b : Block) : Range := { base := b.mmioBase.toNat, len := Config.mmioSize }

/-- Where ADMIT is false: where the platform does not answer, and inside every register block (20_memory R87). -/
def State.denied (s : State) : List Range := s.platform.holes ++ s.blocks.map Block.window

/-- `ADMIT(a)` (00_scope R12). -/
def State.admitted (s : State) (a : Nat) : Bool := !(s.denied.any fun h => h.has a)

/-- The number of a region id (20_memory R84). -/
def regionNum : RegionId → Nat
  | .src => 0
  | .metaTable => 1
  | .dst => 2

/-- The pairs of a list, in order. -/
def pairs : List Region → List (Region × Region)
  | [] => []
  | p :: ps => ps.map (fun q => (p, q)) ++ pairs ps

/-- Check 1 of 20_memory R85: the first region that passes 2^64. -/
def rangeFault (rs : List Region) : Option Region :=
  rs.find? fun r => decide (0 < r.len) && decide (Config.addressSpace < r.base + r.len)

/-- Check 2 of 20_memory R85: the first pair of regions that overlap, at least one of them written. -/
def overlapFault (rs : List Region) : Option (Region × Region) :=
  (pairs rs).find? fun x => (x.1.write || x.2.write) && x.1.range.overlaps x.2.range

/-- The lowest address of a region that lies in one of some ranges. -/
def firstIn (ranges : List Range) (r : Region) : Option Nat :=
  ((ranges.filter fun h => h.overlaps r.range).map fun h => max h.base r.base).min?

/-- Check 3 of 20_memory R85: the lowest address of the first region with one that ADMIT denies. -/
def busFault (denied : List Range) (rs : List Region) : Option Nat := rs.findSome? (firstIn denied)

/-- What the region checks say. -/
inductive Verdict where
  | pass
  | fault (code : FaultCode) (info : Nat)
  /-- A region stands on memory that is not idempotent (20_memory R87). -/
  | refuse
  deriving DecidableEq, Repr

/-- `RegionChecks` (20_memory R85) for regions given in id order, then the refusal of 20_memory R87. -/
def checkRegions (denied devices : List Range) (rs : List Region) : Verdict :=
  match rangeFault rs with
  | some r => .fault .addrRange (regionNum r.id)
  | none =>
    match overlapFault rs with
    | some (p, q) => .fault .regionOverlap (regionNum p.id * 256 + regionNum q.id)
    | none =>
      match busFault denied rs with
      | some a => .fault .busError a
      | none => if rs.any (fun r => devices.any fun d => d.overlaps r.range) then .refuse else .pass

/-! ### The end of a command -/

/-- A value recorded in a 64-bit field, saturated (00_scope R13, 60_exceptions R271). -/
def sat64 (n : Nat) : Word := BitVec.ofNat 64 (min n (2 ^ 64 - 1))

/-- Recording a fault (60_exceptions R274): the block's way of taking an exception. Nothing else is saved. -/
def Block.raise (b : Block) (code : FaultCode) (info : Nat) : Block :=
  { b with
    status := { b.status with err := true, fault := code, busy := false }
    faultInfo := sat64 info
    pending := none }

/-- Completion without a fault (10_state R53). -/
def Block.complete (b : Block) : Block :=
  { b with status := { b.status with done := true, busy := false }, pending := none }

/-- The host's return from a fault (60_exceptions R279, R280): a STATUS write clears the W1C bits it writes 1 to
(10_state R36). -/
def Block.writeStatus (b : Block) (v : Word) : Block :=
  { b with
    status := { b.status with
      done := b.status.done && !v.getLsbD 1
      err := b.status.err && !v.getLsbD 2
      werr := b.status.werr && !v.getLsbD 3 } }

/-- The current instance's command ends in a precise fault (60_exceptions R275). -/
def State.fail (s : State) (code : FaultCode) (info : Nat) : Result :=
  .next { s with cur := s.cur.raise code info }

/-- The current instance's command ends in a fault after it has left instance state `b` and memory `m` (60_exceptions
R276). -/
def State.abort (s : State) (code : FaultCode) (info : Nat) (b : Block) (m : Memory) : Result :=
  .next { s with cur := b.raise code info, mem := m }

/-- The current instance's command completes, leaving instance state `b` and memory `m` (10_state R53). -/
def State.finish (s : State) (b : Block) (m : Memory) : Result :=
  .next { s with cur := b.complete, mem := m }

/-- Runs the region checks of a command, then the rest of it. -/
def State.guard (s : State) (rs : List Region) (k : Result) : Result :=
  match checkRegions s.denied s.platform.devices rs with
  | .pass => k
  | .fault code info => s.fail code info
  | .refuse => .refused .notIdempotent

/-! ### The current instance -/

/-- Makes instance `k` the current one; `none` where there is no such instance. -/
def State.focus (s : State) (k : Nat) : Option State :=
  match s.blocks.drop k with
  | [] => none
  | b :: bs => some { s with before := s.blocks.take k, cur := b, after := bs }

/-! ### Draws -/

/-- Gives every byte of the range a draw of event `e` (00_scope R22). -/
def drawRange (e : Nat) (m : Memory) (base : Nat) : Nat → Memory
  | 0 => m
  | n + 1 =>
    let m' := drawRange e m base n
    if base + n < Config.addressSpace then m'.write (base + n) (Config.drawByte e (base + n)) else m'

/-- Gives every byte of the ranges a draw of event `e`. -/
def drawAll (e : Nat) (m : Memory) : List Range → Memory
  | [] => m
  | r :: rs => drawAll e (drawRange e m r.base r.len) rs

/-- Makes every byte of the ranges a draw, in one new draw event; with no range, nothing happens. -/
def State.drawBytes (s : State) (rs : List Range) : State :=
  match rs with
  | [] => s
  | r :: rs => { s with mem := drawAll s.draws s.mem (r :: rs), draws := s.draws + 1 }

end Sys2Proof.Machine
end

