-- ==== Sys2Proof/Machine/Control.lean ====
section
/-! DEFINITION. The control commands (43_control). -/

namespace Sys2Proof.Machine

/-- What SOFT_RESET puts back to its reset value (43_control R261). -/
def Block.softReset (b : Block) : Block :=
  { b with
    freq := Vector.replicate 256 0
    treeValid := false
    bwAcc := 0
    bwCnt := 0
    bwOpen := false
    dstLen := 0
    brByte := 0
    brBit := 0
    brData := 0
    symOut := 0
    codeLen := 0
    code := 0
    dictSize := 0 }

/-- NOP (43_control R260). -/
def execNop (s : State) : Result := s.finish s.cur s.mem

/-- SOFT_RESET (43_control R261). -/
def execSoftReset (s : State) : Result := s.finish s.cur.softReset s.mem

end Sys2Proof.Machine
end

