-- ==== Sys2Proof/WellFormed.lean ====
section
/-! DEFINITION. Which instructions a command word can stand for. -/

namespace Sys2Proof

/-- A Format N count is 1 to 64 (30_encoding R113). -/
def countLegal (n : BitVec 7) : Bool := decide (1 ≤ n.toNat) && decide (n.toNat ≤ 64)

/-- The operand checks of 30_encoding R113; every operand of the other formats is legal (R111, R112, R114). -/
def Instr.wf : Instr → Bool
  | .bwPut n => countLegal n
  | .brGet n => countLegal n
  | .nop => true
  | .softReset => true
  | .hufCount => true
  | .hufLoadFreq => true
  | .hufBuild => true
  | .hufCode _ => true
  | .hufPutSym _ => true
  | .hufGetSym => true
  | .hufEncode => true
  | .hufDecode => true
  | .lzwEncode => true
  | .lzwDecode _ => true
  | .bwInit => true
  | .bwFinish => true
  | .brInit => true

end Sys2Proof
end

