-- ==== Sys2Proof/Decode.lean ====
section
/-! DEFINITION. Command words to instructions and back (30_encoding R110 to R119). -/

namespace Sys2Proof

/-- OP, bits [7:0] of the command word (30_encoding R110). -/
def opcode (w : Word) : Byte := w.extractLsb' 0 8

/-- N, bits [22:16] (30_encoding R113, R115). -/
def fieldN (w : Word) : BitVec 7 := w.extractLsb' 16 7

/-- SYM, bits [23:16] (30_encoding R114, R115). -/
def fieldSym (w : Word) : Byte := w.extractLsb' 16 8

/-- Format A: bits [63:8] must be 0 (30_encoding R111). -/
def formatA (w : Word) (i : Instr) : Except Illegal Instr :=
  if w.extractLsb' 8 56 = 0 then .ok i else .error .mustBeZero

/-- Format L: STRICT in bit [8], bits [63:9] must be 0 (30_encoding R112). -/
def formatL (w : Word) (mk : Bool → Instr) : Except Illegal Instr :=
  if w.extractLsb' 9 55 = 0 then .ok (mk (w.getLsbD 8)) else .error .mustBeZero

/-- Format N: bits [15:8] and [63:23] must be 0, and the count must be legal (30_encoding R113). -/
def formatN (w : Word) (mk : BitVec 7 → Instr) : Except Illegal Instr :=
  if w.extractLsb' 8 8 = 0 ∧ w.extractLsb' 23 41 = 0 then
    if countLegal (fieldN w) then .ok (mk (fieldN w)) else .error .countOutOfRange
  else .error .mustBeZero

/-- Format S: bits [15:8] and [63:24] must be 0 (30_encoding R114). -/
def formatS (w : Word) (mk : Byte → Instr) : Except Illegal Instr :=
  if w.extractLsb' 8 8 = 0 ∧ w.extractLsb' 24 40 = 0 then .ok (mk (fieldSym w)) else .error .mustBeZero

/-- `Decode` of 30_encoding R117 over the opcode map of R116; an illegal word is rejected by name. -/
def decode (w : Word) : Except Illegal Instr :=
  match (opcode w).toNat with
  | 0x00 => formatA w .nop
  | 0x01 => formatA w .softReset
  | 0x10 => formatA w .hufCount
  | 0x11 => formatA w .hufLoadFreq
  | 0x12 => formatA w .hufBuild
  | 0x13 => formatS w .hufCode
  | 0x14 => formatS w .hufPutSym
  | 0x15 => formatA w .hufGetSym
  | 0x16 => formatA w .hufEncode
  | 0x17 => formatA w .hufDecode
  | 0x20 => formatA w .lzwEncode
  | 0x21 => formatL w .lzwDecode
  | 0x30 => formatA w .bwInit
  | 0x31 => formatN w .bwPut
  | 0x32 => formatA w .bwFinish
  | 0x38 => formatA w .brInit
  | 0x39 => formatN w .brGet
  | _ => .error .unassignedOpcode

/-- A word with opcode `op` and an operand of `k` bits standing from bit `lo` up (30_encoding R112 to R114). -/
def encodeField {k : Nat} (op : Byte) (lo : Nat) (v : BitVec k) : Word :=
  (v.setWidth 64 <<< lo) ||| op.setWidth 64

/-- The command word of an instruction, from the formats and the opcode map (30_encoding R111 to R116). -/
def encode : Instr → Word
  | .nop => 0x00
  | .softReset => 0x01
  | .hufCount => 0x10
  | .hufLoadFreq => 0x11
  | .hufBuild => 0x12
  | .hufCode s => encodeField 0x13 16 s
  | .hufPutSym s => encodeField 0x14 16 s
  | .hufGetSym => 0x15
  | .hufEncode => 0x16
  | .hufDecode => 0x17
  | .lzwEncode => 0x20
  | .lzwDecode strict => encodeField 0x21 8 (BitVec.ofBool strict)
  | .bwInit => 0x30
  | .bwPut n => encodeField 0x31 16 n
  | .bwFinish => 0x32
  | .brInit => 0x38
  | .brGet n => encodeField 0x39 16 n

/-- What the decoder reads from the command word whose `nbits` lowest bits are `w`'s and whose other bits are 0. -/
def decodeTableWord (nbits w : Nat) : Option Instr :=
  match decode (BitVec.ofNat 64 (w % 2 ^ nbits)) with
  | .ok i => some i
  | .error _ => none

end Sys2Proof
end

