-- ==== Sys2Proof/Machine/Flags.lean ====
section
/-! DEFINITION. The status flags: their values, the words software reads, acceptance, the interrupt line. -/

namespace Sys2Proof.Machine

/-- The number of a fault code (60_exceptions R271). -/
def faultNum : FaultCode → Byte
  | .noFault => 0x00
  | .illegalCmd => 0x01
  | .busError => 0x02
  | .addrRange => 0x03
  | .regionOverlap => 0x04
  | .capacity => 0x05
  | .hufEmptyCode => 0x10
  | .hufEndOfStream => 0x11
  | .hufNullChild => 0x12
  | .hufNoTree => 0x13
  | .hufFreqOverflow => 0x14
  | .lzwInvalidCode => 0x20
  | .lzwShortOutput => 0x21
  | .lzwLongOutput => 0x22
  | .bitEndOfStream => 0x30
  | .bitWriterClosed => 0x31

/-- A field of a register, standing from bit `lo` up. -/
def placed {k : Nat} (lo : Nat) (v : BitVec k) : Word := v.setWidth 64 <<< lo

/-- One flag of a register, at bit `lo`. -/
def flagAt (lo : Nat) (f : Bool) : Word := placed lo (BitVec.ofBool f)

/-- STATUS as the host reads it (10_state R36). -/
def Status.word (t : Status) : Word :=
  flagAt 0 t.busy ||| flagAt 1 t.done ||| flagAt 2 t.err ||| flagAt 3 t.werr |||
    placed 8 (faultNum t.fault) ||| placed 16 t.lastOp

/-- BW_STATE as the host reads it (10_state R47). -/
def Block.bwStateWord (b : Block) : Word :=
  placed 0 b.bwAcc ||| placed 8 b.bwCnt ||| flagAt 16 b.bwOpen

/-- The 256 symbols in order (00_scope R10). -/
def allSymbols : List Byte := (List.range 256).map (BitVec.ofNat 8)

/-- `FREQ[s]` (10_state R56). -/
def FreqTable.count (f : FreqTable) (s : Byte) : BitVec 32 := f[s.toNat]'s.isLt

/-- Each symbol with its count, in order. -/
def FreqTable.entries (f : FreqTable) : List (Byte × BitVec 32) := allSymbols.zip f.toList

/-- `NLEAVES(F)` (41_huffman R171). -/
def nleaves (f : FreqTable) : Nat := (f.entries.filter fun e => e.2 ≠ 0).length

/-- HUF_STATE.NLEAVES (10_state R51). -/
def Block.nleaves (b : Block) : BitVec 9 :=
  if b.treeValid then BitVec.ofNat 9 (Machine.nleaves b.freq) else 0

/-- HUF_STATE as the host reads it (10_state R51). -/
def Block.hufStateWord (b : Block) : Word := placed 0 b.nleaves ||| flagAt 16 b.treeValid

/-- Acceptance of command word `w` (10_state R52); the host has then seen nothing of its results (20_memory R90). -/
def Block.accept (b : Block) (w : Word) : Block :=
  { b with
    status := { b.status with
      busy := true
      done := false
      err := false
      fault := .noFault
      lastOp := w.setWidth 8 }
    faultInfo := 0
    pending := some w
    track := { b.track with seen := false, raced := false, shared := [] } }

/-- The interrupt line `irq(i)` (60_exceptions R278). -/
def Block.irq (b : Block) : Bool := b.irqEn && (b.status.done || b.status.err)

end Sys2Proof.Machine
end

