-- ==== Sys2Proof/Machine/Operands.lean ====
section
/-! DEFINITION. Where the commands find their operands: the regions the parameter registers name (10_state R39 to R44,
20_memory R84) and the memory formats (20_memory R95, R96). -/

namespace Sys2Proof.Machine

/-- `[SRC_ADDR, SRC_ADDR+SRC_LEN)`, read. -/
def Block.srcRegion (b : Block) : Region :=
  { id := .src, base := b.srcAddr.toNat, len := b.srcLen.toNat, write := false }

/-- `[SRC_ADDR, SRC_ADDR+2·CODE_COUNT)`, read; the length does not wrap. -/
def Block.codesRegion (b : Block) : Region :=
  { id := .src, base := b.srcAddr.toNat, len := 2 * b.codeCount.toNat, write := false }

/-- `[META_ADDR, META_ADDR+1024)`. -/
def Block.metaRegion (b : Block) (write : Bool) : Region :=
  { id := .metaTable, base := b.metaAddr.toNat, len := Config.freqTableBytes, write := write }

/-- `[DST_ADDR, DST_ADDR+DST_CAP)`, written. -/
def Block.dstRegion (b : Block) : Region :=
  { id := .dst, base := b.dstAddr.toNat, len := b.dstCap.toNat, write := true }

/-- The table of 20_memory R84: the regions of each command, in id order. -/
def Block.regions (b : Block) : Instr → List Region
  | .nop => []
  | .softReset => []
  | .bwInit => []
  | .brInit => []
  | .hufBuild => []
  | .hufCode _ => []
  | .bwPut _ => [b.dstRegion]
  | .bwFinish => [b.dstRegion]
  | .hufPutSym _ => [b.dstRegion]
  | .brGet _ => [b.srcRegion]
  | .hufGetSym => [b.srcRegion]
  | .hufCount => [b.srcRegion, b.metaRegion true]
  | .hufLoadFreq => [b.metaRegion false]
  | .hufEncode => [b.srcRegion, b.metaRegion true, b.dstRegion]
  | .hufDecode => [b.srcRegion, b.metaRegion false, b.dstRegion]
  | .lzwEncode => [b.srcRegion, b.dstRegion]
  | .lzwDecode _ => [b.codesRegion, b.dstRegion]

/-- The regions of the pending command; an illegal word names none. -/
def Block.regionsInFlight (b : Block) : List Region :=
  match b.pending with
  | none => []
  | some w =>
    match decode w with
    | .ok i => b.regions i
    | .error _ => []

/-- The ranges of the regions the pending command may write. -/
def Block.writtenInFlight (b : Block) : List Range :=
  (b.regionsInFlight.filter fun r => r.write).map Region.range

/-- The bytes of the source buffer (20_memory R84). -/
def State.srcBytes (s : State) : List Byte := s.mem.readBytes s.cur.srcAddr.toNat s.cur.srcLen.toNat

/-- The bytes of the META region for a table (20_memory R95). -/
def FreqTable.bytes (f : FreqTable) : List Byte := f.entries.flatMap fun e => leBytes 4 e.2.toNat

/-- The table the META region at address `a` holds (20_memory R95). -/
def Memory.readFreq (m : Memory) (a : Nat) : FreqTable :=
  { toArray := (allSymbols.map fun s => BitVec.ofNat 32 (m.readLE (a + 4 * s.toNat) 4)).toArray
    size_toArray := by simp [allSymbols] }

/-- `n` codes of the code buffer at address `a` (20_memory R96). -/
def Memory.readCodes (m : Memory) (a : Nat) : Nat → List Nat
  | 0 => []
  | n + 1 => m.readLE a 2 :: Memory.readCodes m (a + 2) n

end Sys2Proof.Machine
end

