-- ==== Sys2Proof/Machine/BitIO.lean ====
section
/-! DEFINITION. The bit writer and the bit reader (40_bitio). -/

namespace Sys2Proof.Machine

/-- `PutBit(b)` (40_bitio R141), on an instance and memory. -/
def putBit (x : Block × Memory) (bit : Bool) : Block × Memory :=
  let acc := (x.1.bwAcc <<< 1) ||| (BitVec.ofBool bit).setWidth 8
  if x.1.bwCnt = 7 then
    ({ x.1 with dstLen := x.1.dstLen + 1, bwAcc := 0, bwCnt := 0 },
      x.2.write (x.1.dstAddr.toNat + x.1.dstLen.toNat) acc)
  else
    ({ x.1 with bwAcc := acc, bwCnt := x.1.bwCnt + 1 }, x.2)

/-- `PutBit` of each bit in order. -/
def putBits (x : Block × Memory) (bits : Bits) : Block × Memory := bits.foldl putBit x

/-- `Pushes(k)` (40_bitio R141). -/
def Block.pushes (b : Block) (k : Nat) : Nat := (b.bwCnt.toNat + k) / 8

/-- The byte the flush of a partial byte writes (40_bitio R145). -/
def Block.flushByte (b : Block) : Byte := b.bwAcc <<< (8 - b.bwCnt.toNat)

/-- Flushes the partial byte where there is one (40_bitio R145, the last lines of 41_huffman R182). -/
def flush (x : Block × Memory) : Block × Memory :=
  if x.1.bwCnt = 0 then x
  else
    ({ x.1 with dstLen := x.1.dstLen + 1 },
      x.2.write (x.1.dstAddr.toNat + x.1.dstLen.toNat) x.1.flushByte)

/-- Closes the writer: ACC, CNT and OPEN become 0. -/
def Block.closeWriter (b : Block) : Block := { b with bwAcc := 0, bwCnt := 0, bwOpen := false }

/-- Opens an empty writer at the start of the destination (40_bitio R143). -/
def Block.openWriter (b : Block) : Block := { b with bwAcc := 0, bwCnt := 0, bwOpen := true, dstLen := 0 }

/-- `Avail()` (40_bitio R142); natural subtraction stops at 0. -/
def Block.avail (b : Block) : Nat := 8 * b.srcLen.toNat - (8 * b.brByte.toNat + b.brBit.toNat)

/-- `GetBit()` (40_bitio R142): the bit, and the instance with the position moved past it. -/
def getBit (m : Memory) (b : Block) : Bool × Block :=
  ((m.read (b.srcAddr.toNat + b.brByte.toNat)).getLsbD (7 - b.brBit.toNat),
    if b.brBit = 7 then { b with brBit := 0, brByte := b.brByte + 1 } else { b with brBit := b.brBit + 1 })

/-- `GetBit()` `n` times: the bits in order, and the instance after them. -/
def getBits (m : Memory) (b : Block) : Nat → Bits × Block
  | 0 => ([], b)
  | n + 1 =>
    let r := getBits m (getBit m b).2 n
    ((getBit m b).1 :: r.1, r.2)

/-- The value of some bits, the first bit the most significant (00_scope R15). -/
def bitsValue (bits : Bits) : Nat := bits.foldl (fun v bit => 2 * v + bit.toNat) 0

/-- `v[N−1], …, v[0]`: the bits BW_PUT N writes, in order (40_bitio R144). -/
def lowBits (n : Nat) (v : Word) : Bits := (List.range n).map fun i => v.getLsbD (n - 1 - i)

/-- BW_INIT (40_bitio R143). -/
def execBwInit (s : State) : Result := s.finish s.cur.openWriter s.mem

/-- BW_PUT N (40_bitio R144); FAULT_INFO of CAPACITY saturates as 60_exceptions R271 says (entry 15). -/
def execBwPut (n : BitVec 7) (s : State) : Result :=
  if s.cur.bwOpen then
    s.guard (s.cur.regions (.bwPut n)) <|
      let p := s.cur.pushes n.toNat
      if 0 < p ∧ s.cur.dstCap.toNat < s.cur.dstLen.toNat + p then s.fail .capacity (s.cur.dstLen.toNat + p)
      else
        let x := putBits (s.cur, s.mem) (lowBits n.toNat s.cur.bwData)
        s.finish x.1 x.2
  else s.fail .bitWriterClosed 0

/-- BW_FINISH (40_bitio R145). -/
def execBwFinish (s : State) : Result :=
  if s.cur.bwOpen then
    s.guard (s.cur.regions .bwFinish) <|
      if s.cur.bwCnt ≠ 0 ∧ s.cur.dstCap.toNat < s.cur.dstLen.toNat + 1 then s.fail .capacity (s.cur.dstLen.toNat + 1)
      else
        let x := flush (s.cur, s.mem)
        s.finish x.1.closeWriter x.2
  else s.fail .bitWriterClosed 0

/-- BR_INIT (40_bitio R146). -/
def execBrInit (s : State) : Result := s.finish { s.cur with brByte := 0, brBit := 0 } s.mem

/-- BR_GET N (40_bitio R147). -/
def execBrGet (n : BitVec 7) (s : State) : Result :=
  s.guard (s.cur.regions (.brGet n)) <|
    if s.cur.avail < n.toNat then s.fail .bitEndOfStream s.cur.avail
    else
      let r := getBits s.mem s.cur n.toNat
      s.finish { r.2 with brData := BitVec.ofNat 64 (bitsValue r.1) } s.mem

end Sys2Proof.Machine
end

