-- ==== Sys2Proof/Machine/Huffman.lean ====
section
/-! DEFINITION. The Huffman tree, its codewords, and the Huffman commands (41_huffman). -/

namespace Sys2Proof.Machine

/-- A node of the Huffman tree (10_state R57, 41_huffman R171). -/
inductive HufTree where
  | leaf (sym : Byte) (freq : Nat)
  | node (freq seq : Nat) (left right : HufTree)
  deriving DecidableEq, Repr

/-- The frequency of a node, an exact natural (41_huffman R171). -/
def HufTree.freq : HufTree → Nat
  | .leaf _ f => f
  | .node f _ _ _ => f

/-- The second part of the queue key: the symbol, or the sentinel −1 (41_huffman R172). -/
def HufTree.symKey : HufTree → Int
  | .leaf s _ => s.toNat
  | .node _ _ _ _ => -1

/-- The third part of the queue key: the creation number of an internal node (41_huffman R172). -/
def HufTree.seqKey : HufTree → Nat
  | .leaf _ _ => 0
  | .node _ k _ _ => k

/-- The queue order of 41_huffman R172. -/
def HufTree.popsBefore (a b : HufTree) : Bool :=
  decide (a.freq < b.freq) || (decide (a.freq = b.freq) &&
    (decide (a.symKey < b.symKey) || (decide (a.symKey = b.symKey) && decide (a.seqKey < b.seqKey))))

/-- `PopMin(Q)` (41_huffman R172): the node with the least key, and the others. -/
def popMin : List HufTree → Option (HufTree × List HufTree)
  | [] => none
  | t :: q =>
    match popMin q with
    | none => some (t, [])
    | some (m, rest) => if m.popsBefore t then some (m, t :: rest) else some (t, q)

/-- The loop of `BuildTree` (41_huffman R171) on queue `q`, with `k` the next creation number; `fuel` bounds its turns. -/
def mergeTrees : (fuel k : Nat) → List HufTree → Option HufTree
  | 0, _, _ => none
  | fuel + 1, k, q =>
    match popMin q with
    | none => none
    | some (l, q₁) =>
      match popMin q₁ with
      | none => some l
      | some (r, q₂) => mergeTrees fuel (k + 1) (.node (l.freq + r.freq) k l r :: q₂)

/-- The leaves of the table, one per symbol that occurs (41_huffman R171). -/
def leaves (f : FreqTable) : List HufTree :=
  (f.entries.filter fun e => e.2 ≠ 0).map fun e => .leaf e.1 e.2.toNat

/-- `BuildTree(F)` (41_huffman R171); each turn takes one node out of the queue, so its length is fuel enough. -/
def buildTree (f : FreqTable) : Option HufTree := mergeTrees (leaves f).length 0 (leaves f)

/-- `Assign(n, p)` (41_huffman R173): each symbol below `n` with its codeword. -/
def HufTree.assign : HufTree → Bits → List (Byte × Bits)
  | .leaf s _, p => [(s, p)]
  | .node _ _ l r, p => l.assign (p ++ [false]) ++ r.assign (p ++ [true])

/-- `CodeTable(root)` (41_huffman R173), the slots that are not empty. -/
def codeTable : Option HufTree → List (Byte × Bits)
  | none => []
  | some (.leaf s _) => [(s, [false])]
  | some (.node f k l r) => (HufTree.node f k l r).assign []

/-- `CT[s]`; an empty slot is the empty bit sequence. -/
def codeOf (ct : List (Byte × Bits)) (s : Byte) : Bits := (ct.lookup s).getD []

/-- The code table the instance holds while TREE_VALID is 1 (10_state R58). -/
def Block.codeTable (b : Block) : List (Byte × Bits) := Machine.codeTable (buildTree b.freq)

/-- `DecodeSymbol` (41_huffman R175) from a node: the symbol, or `none` at the end of the stream, and the instance with
its reader where the walk stopped. -/
def decodeSymbol (m : Memory) : HufTree → Block → Option Byte × Block
  | .leaf s _, b => (some s, b)
  | .node _ _ l r, b =>
    if b.avail = 0 then (none, b)
    else if (getBit m b).1 then decodeSymbol m r (getBit m b).2 else decodeSymbol m l (getBit m b).2

/-- The counting loop of 41_huffman R176 and R182: the table, or the symbol whose count is full. -/
def countBytes : List Byte → FreqTable → Except Byte FreqTable
  | [], f => .ok f
  | b :: bs, f =>
    if f.count b = 0xFFFFFFFF then .error b else countBytes bs (f.set b.toNat (f.count b + 1) b.isLt)

/-- The table of zeros. -/
def FreqTable.zero : FreqTable := Vector.replicate 256 0

/-- The payload length in bits (41_huffman R182). -/
def payloadBits (f : FreqTable) (ct : List (Byte × Bits)) : Nat :=
  (f.entries.map fun e => e.2.toNat * (codeOf ct e.1).length).sum

/-- The second pass of 41_huffman R182: writes the codeword of each byte; stops at a byte with an empty slot. -/
def encodeBytes (ct : List (Byte × Bits)) : List Byte → Block × Memory → Option Byte × Block × Memory
  | [], x => (none, x)
  | b :: bs, x =>
    match codeOf ct b with
    | [] => (some b, x)
    | bit :: bits => encodeBytes ct bs (putBits x (bit :: bits))

/-- The loop of 41_huffman R183 for `n` symbols: those decoded, the instance after them, and whether the stream ended
early. -/
def decodeSymbols (m : Memory) (root : HufTree) : Nat → Block → List Byte × Block × Bool
  | 0, b => ([], b, false)
  | n + 1, b =>
    match decodeSymbol m root b with
    | (none, b') => ([], b', true)
    | (some s, b') =>
      let r := decodeSymbols m root n b'
      (s :: r.1, r.2)

/-- HUF_COUNT (41_huffman R176). -/
def execHufCount (s : State) : Result :=
  s.guard (s.cur.regions .hufCount) <|
    match countBytes s.srcBytes FreqTable.zero with
    | .error b => s.fail .hufFreqOverflow b.toNat
    | .ok f =>
      s.finish { s.cur with freq := f, treeValid := false, origSize := s.cur.srcLen }
        (s.mem.writeBytes s.cur.metaAddr.toNat f.bytes)

/-- HUF_LOAD_FREQ (41_huffman R177). -/
def execHufLoadFreq (s : State) : Result :=
  s.guard (s.cur.regions .hufLoadFreq) <|
    s.finish { s.cur with freq := s.mem.readFreq s.cur.metaAddr.toNat, treeValid := false } s.mem

/-- HUF_BUILD (41_huffman R178): the tree and the code table follow from FREQ and TREE_VALID (10_state R57, R58). -/
def execHufBuild (s : State) : Result := s.finish { s.cur with treeValid := true } s.mem

/-- HUF_CODE SYM (41_huffman R179). -/
def execHufCode (sym : Byte) (s : State) : Result :=
  if s.cur.treeValid then
    match codeOf s.cur.codeTable sym with
    | [] => s.fail .hufEmptyCode sym.toNat
    | bit :: bits =>
      s.finish
        { s.cur with
          codeLen := BitVec.ofNat 8 (bit :: bits).length
          code := BitVec.ofNat 256 (bitsValue (bit :: bits)) } s.mem
  else s.fail .hufNoTree 0

/-- HUF_PUT_SYM SYM (41_huffman R180). -/
def execHufPutSym (sym : Byte) (s : State) : Result :=
  if s.cur.treeValid then
    if s.cur.bwOpen then
      s.guard (s.cur.regions (.hufPutSym sym)) <|
        match codeOf s.cur.codeTable sym with
        | [] => s.fail .hufEmptyCode sym.toNat
        | bit :: bits =>
          let p := s.cur.pushes (bit :: bits).length
          if 0 < p ∧ s.cur.dstCap.toNat < s.cur.dstLen.toNat + p then s.fail .capacity (s.cur.dstLen.toNat + p)
          else
            let x := putBits (s.cur, s.mem) (bit :: bits)
            s.finish x.1 x.2
    else s.fail .bitWriterClosed 0
  else s.fail .hufNoTree 0

/-- HUF_GET_SYM (41_huffman R181); at the end of the stream the position is the one before the command. -/
def execHufGetSym (s : State) : Result :=
  if s.cur.treeValid then
    s.guard (s.cur.regions .hufGetSym) <|
      match buildTree s.cur.freq with
      | none => s.fail .hufNullChild 0
      | some root =>
        match decodeSymbol s.mem root s.cur with
        | (none, _) => s.fail .hufEndOfStream 0
        | (some sym, b) => s.finish { b with symOut := sym } s.mem
  else s.fail .hufNoTree 0

/-- HUF_ENCODE (41_huffman R182). Both passes read the same source bytes: the command writes none of them (20_memory R85,
R93). -/
def execHufEncode (s : State) : Result :=
  s.guard (s.cur.regions .hufEncode) <|
    match countBytes s.srcBytes FreqTable.zero with
    | .error b => s.fail .hufFreqOverflow b.toNat
    | .ok f =>
      let ct := codeTable (buildTree f)
      let need := (payloadBits f ct + 7) / 8
      if s.cur.dstCap.toNat < need then s.fail .capacity need
      else
        let b := { s.cur.openWriter with freq := f, treeValid := true, origSize := s.cur.srcLen }
        match encodeBytes ct s.srcBytes (b, s.mem.writeBytes s.cur.metaAddr.toNat f.bytes) with
        | (some sym, x) => s.abort .hufEmptyCode sym.toNat x.1 x.2
        | (none, x) => s.finish (flush x).1.closeWriter (flush x).2

/-- HUF_DECODE (41_huffman R183). The payload is read as it stood before the command: the command writes none of it
(20_memory R85, R93). -/
def execHufDecode (s : State) : Result :=
  s.guard (s.cur.regions .hufDecode) <|
    if s.cur.dstCap.toNat < s.cur.origSize.toNat then s.fail .capacity s.cur.origSize.toNat
    else
      let f := s.mem.readFreq s.cur.metaAddr.toNat
      let b := { s.cur.closeWriter with freq := f, treeValid := true, brByte := 0, brBit := 0, dstLen := 0 }
      match buildTree f with
      | none => if s.cur.origSize = 0 then s.finish b s.mem else s.fail .hufNullChild 0
      | some root =>
        let r := decodeSymbols s.mem root s.cur.origSize.toNat b
        let b' := { r.2.1 with dstLen := BitVec.ofNat 64 r.1.length }
        let m := s.mem.writeBytes s.cur.dstAddr.toNat r.1
        if r.2.2 then s.abort .hufEndOfStream r.1.length b' m else s.finish b' m

end Sys2Proof.Machine
end

