-- ==== Sys2Proof/Machine/Lzw.lean ====
section
/-! DEFINITION. The LZW dictionary and the LZW commands (42_lzw). -/

namespace Sys2Proof.Machine

/-- The strings a dictionary has beyond the 256 single bytes: the one at position `j` has code 256 + `j` (42_lzw R220). -/
abbrev Dict := List (List Byte)

/-- The next-code counter, which is the size of the dictionary (42_lzw R221, R222). -/
def Dict.next (d : Dict) : Nat := Config.lzwInit + d.length

/-- The code of a string, where the dictionary has it: `D` of 42_lzw R221. -/
def Dict.code (d : Dict) : List Byte → Option Nat
  | [] => none
  | [v] => some v.toNat
  | v :: w :: str => (d.idxOf? (v :: w :: str)).map (Config.lzwInit + ·)

/-- The string of a code, where the dictionary has it: `T` of 42_lzw R222. -/
def Dict.entry (d : Dict) (c : Nat) : Option (List Byte) :=
  if c < Config.lzwInit then some [BitVec.ofNat 8 c] else d[c - Config.lzwInit]?

/-- Adds a string at the next code while the dictionary is not full. -/
def Dict.grow (d : Dict) (str : List Byte) : Dict := if d.next < Config.lzwMax then d ++ [str] else d

/-- The loop of `LzwEncode` (42_lzw R221) from `cur` and `d` on: the codes it emits, the last one included, and the final
next-code counter. -/
def lzwEncodeFrom (d : Dict) (cur : List Byte) : List Byte → List Nat × Nat
  | [] => ((d.code cur).toList, d.next)
  | b :: bs =>
    match d.code (cur ++ [b]) with
    | some _ => lzwEncodeFrom d (cur ++ [b]) bs
    | none =>
      let r := lzwEncodeFrom (d.grow (cur ++ [b])) [b] bs
      ((d.code cur).toList ++ r.1, r.2)

/-- `LzwEncode(B)` (42_lzw R221). -/
def lzwEncode (bytes : List Byte) : List Nat × Nat := if bytes = [] then ([], 0) else lzwEncodeFrom [] [] bytes

/-- The loop of `LzwDecode` (42_lzw R222) from code index `i` on: the bytes it produces, and the index and value of the
invalid code it stops at. -/
def lzwDecodeFrom (d : Dict) (cur : List Byte) (i : Nat) : List Nat → List Byte × Option (Nat × Nat)
  | [] => ([], none)
  | c :: cs =>
    match (d.entry c).orElse fun _ => if c = d.next then some (cur ++ cur.take 1) else none with
    | none => ([], some (i, c))
    | some e =>
      let r := lzwDecodeFrom (d.grow (cur ++ e.take 1)) e (i + 1) cs
      (e ++ r.1, r.2)

/-- `LzwDecode(C)` (42_lzw R222). -/
def lzwDecode : List Nat → List Byte × Option (Nat × Nat)
  | [] => ([], none)
  | c :: cs =>
    match Dict.entry [] c with
    | none => ([], some (0, c))
    | some e =>
      let r := lzwDecodeFrom [] e 1 cs
      (e ++ r.1, r.2)

/-- `Info(i, c)` (42_lzw R222), for a 16-bit code value `c`. -/
def lzwInfo (i c : Nat) : Nat := min i (2 ^ 48 - 1) * 2 ^ 16 + c

/-- The bytes of some codes in the code buffer (20_memory R96). -/
def codeBytes (codes : List Nat) : List Byte := codes.flatMap (leBytes 2)

/-- LZW_ENCODE (42_lzw R223): the codes that fit are written before CAPACITY is raised at the first that does not. -/
def execLzwEncode (s : State) : Result :=
  s.guard (s.cur.regions .lzwEncode) <|
    let r := lzwEncode s.srcBytes
    let fit := s.cur.dstCap.toNat / 2
    let b := { s.cur.closeWriter with dstLen := BitVec.ofNat 64 (2 * min r.1.length fit) }
    let m := s.mem.writeBytes s.cur.dstAddr.toNat (codeBytes (r.1.take fit))
    if fit < r.1.length then s.abort .capacity (2 * (fit + 1)) b m
    else
      s.finish
        { b with
          codeCount := BitVec.ofNat 64 r.1.length
          dictSize := BitVec.ofNat 16 r.2
          origSize := s.cur.srcLen } m

/-- LZW_DECODE and LZW_DECODE.STRICT (42_lzw R224): the bytes below ORIG_SIZE are written as they are produced, the others
dropped. -/
def execLzwDecode (strict : Bool) (s : State) : Result :=
  s.guard (s.cur.regions (.lzwDecode strict)) <|
    let size := s.cur.origSize.toNat
    if s.cur.dstCap.toNat < size then s.fail .capacity size
    else
      let r := lzwDecode (s.mem.readCodes s.cur.srcAddr.toNat s.cur.codeCount.toNat)
      let b := { s.cur.closeWriter with dstLen := BitVec.ofNat 64 (min r.1.length size) }
      let m := s.mem.writeBytes s.cur.dstAddr.toNat (r.1.take size)
      match r.2 with
      | some (i, c) => s.abort .lzwInvalidCode (lzwInfo i c) b m
      | none =>
        if r.1.length < size then s.abort .lzwShortOutput r.1.length b m
        else if size < r.1.length ∧ strict then s.abort .lzwLongOutput r.1.length b m
        else s.finish b m

end Sys2Proof.Machine
end

