-- ==== Sys2Proof/Machine/Dispatch.lean ====
section
/-! DEFINITION. The meaning of each command, executed by the engine of the current instance (10_state R53). -/

namespace Sys2Proof.Machine

def exec (i : Instr) (s : State) : Host.Outcome State Fault Refusal :=
  match i with
  | .nop => Sys2Proof.Machine.execNop s
  | .softReset => Sys2Proof.Machine.execSoftReset s
  | .hufCount => Sys2Proof.Machine.execHufCount s
  | .hufLoadFreq => Sys2Proof.Machine.execHufLoadFreq s
  | .hufBuild => Sys2Proof.Machine.execHufBuild s
  | .hufCode sym => Sys2Proof.Machine.execHufCode sym s
  | .hufPutSym sym => Sys2Proof.Machine.execHufPutSym sym s
  | .hufGetSym => Sys2Proof.Machine.execHufGetSym s
  | .hufEncode => Sys2Proof.Machine.execHufEncode s
  | .hufDecode => Sys2Proof.Machine.execHufDecode s
  | .lzwEncode => Sys2Proof.Machine.execLzwEncode s
  | .lzwDecode strict => Sys2Proof.Machine.execLzwDecode strict s
  | .bwInit => Sys2Proof.Machine.execBwInit s
  | .bwPut n => Sys2Proof.Machine.execBwPut n s
  | .bwFinish => Sys2Proof.Machine.execBwFinish s
  | .brInit => Sys2Proof.Machine.execBrInit s
  | .brGet n => Sys2Proof.Machine.execBrGet n s

end Sys2Proof.Machine
end

