-- ==== Sys2Proof/Machine/Registers.lean ====
section
/-! DEFINITION. The register block as the host sees it (10_state R32 to R51). -/

namespace Sys2Proof.Machine

/-- The register map (10_state R33). -/
def regOffset : Reg → Nat
  | .id => 0x000
  | .cmd => 0x008
  | .status => 0x010
  | .faultInfo => 0x018
  | .irqEn => 0x020
  | .srcAddr => 0x028
  | .srcLen => 0x030
  | .dstAddr => 0x038
  | .dstCap => 0x040
  | .dstLen => 0x048
  | .metaAddr => 0x050
  | .origSize => 0x058
  | .codeCount => 0x060
  | .dictSize => 0x068
  | .bwData => 0x070
  | .bwState => 0x078
  | .brByte => 0x080
  | .brBit => 0x088
  | .brData => 0x090
  | .symOut => 0x098
  | .hufState => 0x0A0
  | .codeLen => 0x0A8
  | .codeW0 => 0x0B0
  | .codeW1 => 0x0B8
  | .codeW2 => 0x0C0
  | .codeW3 => 0x0C8

/-- The register at an offset, where one is named there (10_state R33). -/
def regAt : Nat → Option Reg
  | 0x000 => some .id
  | 0x008 => some .cmd
  | 0x010 => some .status
  | 0x018 => some .faultInfo
  | 0x020 => some .irqEn
  | 0x028 => some .srcAddr
  | 0x030 => some .srcLen
  | 0x038 => some .dstAddr
  | 0x040 => some .dstCap
  | 0x048 => some .dstLen
  | 0x050 => some .metaAddr
  | 0x058 => some .origSize
  | 0x060 => some .codeCount
  | 0x068 => some .dictSize
  | 0x070 => some .bwData
  | 0x078 => some .bwState
  | 0x080 => some .brByte
  | 0x088 => some .brBit
  | 0x090 => some .brData
  | 0x098 => some .symOut
  | 0x0A0 => some .hufState
  | 0x0A8 => some .codeLen
  | 0x0B0 => some .codeW0
  | 0x0B8 => some .codeW1
  | 0x0C0 => some .codeW2
  | 0x0C8 => some .codeW3
  | _ => none

/-- An access the register block allows: 8 bytes wide, 8-byte aligned, inside the block (10_state R33, R34). -/
def accessOk (off size : Nat) : Bool := decide (size = 8) && decide (off % 8 = 0) && decide (off < Config.mmioSize)

/-- The constant of ID (10_state R32): "GESA" in [31:0], the version in [39:32]. -/
def idValue : Word := 0x0000000141534547

/-- The value of a register (10_state R32 to R51); CMD reads as 0. -/
def Block.readReg (b : Block) : Reg → Word
  | .id => idValue
  | .cmd => 0
  | .status => b.status.word
  | .faultInfo => b.faultInfo
  | .irqEn => flagAt 0 b.irqEn
  | .srcAddr => b.srcAddr
  | .srcLen => b.srcLen
  | .dstAddr => b.dstAddr
  | .dstCap => b.dstCap
  | .dstLen => b.dstLen
  | .metaAddr => b.metaAddr
  | .origSize => b.origSize
  | .codeCount => b.codeCount
  | .dictSize => b.dictSize.setWidth 64
  | .bwData => b.bwData
  | .bwState => b.bwStateWord
  | .brByte => b.brByte
  | .brBit => b.brBit.setWidth 64
  | .brData => b.brData
  | .symOut => b.symOut.setWidth 64
  | .hufState => b.hufStateWord
  | .codeLen => b.codeLen.setWidth 64
  | .codeW0 => b.code.extractLsb' 0 64
  | .codeW1 => b.code.extractLsb' 64 64
  | .codeW2 => b.code.extractLsb' 128 64
  | .codeW3 => b.code.extractLsb' 192 64

/-- The value read at an offset; a reserved offset reads 0 (10_state R34). -/
def Block.readAt (b : Block) (off : Nat) : Word :=
  match regAt off with
  | some r => b.readReg r
  | none => 0

/-- What a host write of `v` to a register other than CMD does while BUSY is 0: read-only registers ignore it (10_state
R34, R36, R38 to R46). -/
def Block.writeReg (b : Block) (v : Word) : Reg → Block
  | .id => b
  | .cmd => b
  | .status => b.writeStatus v
  | .faultInfo => b
  | .irqEn => { b with irqEn := v.getLsbD 0 }
  | .srcAddr => { b with srcAddr := v }
  | .srcLen => { b with srcLen := v }
  | .dstAddr => { b with dstAddr := v }
  | .dstCap => { b with dstCap := v }
  | .dstLen => b
  | .metaAddr => { b with metaAddr := v }
  | .origSize => { b with origSize := v }
  | .codeCount => { b with codeCount := v }
  | .dictSize => b
  | .bwData => { b with bwData := v }
  | .bwState => b
  | .brByte => b
  | .brBit => b
  | .brData => b
  | .symOut => b
  | .hufState => b
  | .codeLen => b
  | .codeW0 => b
  | .codeW1 => b
  | .codeW2 => b
  | .codeW3 => b

/-- What a host write does while BUSY is 1: STATUS and IRQ_EN take it as usual, every other write is dropped and sets
WERR (10_state R54). -/
def Block.writeBusy (b : Block) (v : Word) (r : Option Reg) : Block :=
  match r with
  | some .status => b.writeReg v .status
  | some .irqEn => b.writeReg v .irqEn
  | _ => { b with status := { b.status with werr := true } }

end Sys2Proof.Machine
end

