-- ==== Sys2Proof/Machine/Outputs.lean ====
section
/-! DEFINITION. What a command writes beside memory, and drawing some of it (00_scope R22, 20_memory R91, R92). -/

namespace Sys2Proof.Machine

/-- The outputs a command can have beside memory. -/
inductive Output where
  /-- Success or a fault: DONE and ERR, and FAULT with them. -/
  | ending
  /-- FAULT, where a fault is certain. -/
  | faultCode
  | faultInfo
  /-- OPEN. -/
  | bwOpen
  /-- ACC and CNT. -/
  | writer
  | dstLen
  | brByte
  | brBit
  | brData
  | symOut
  /-- `FREQ[sym]`. -/
  | freq (sym : Byte)
  | treeValid
  | origSize
  | codeCount
  | dictSize
  deriving DecidableEq, Repr

/-- FREQ, entry by entry. -/
def freqOutputs : List Output := allSymbols.map .freq

/-- The registers and the table that each command with regions writes, from the command's own rule (40_bitio R144, R145,
R147, 41_huffman R176, R177, R180 to R183, 42_lzw R223, R224); no other command can be raced (20_memory R91). -/
def outputs : Instr → List Output
  | .bwPut _ => [.writer, .dstLen]
  | .bwFinish => [.bwOpen, .writer, .dstLen]
  | .hufPutSym _ => [.writer, .dstLen]
  | .brGet _ => [.brByte, .brBit, .brData]
  | .hufGetSym => [.brByte, .brBit, .symOut]
  | .hufCount => [.treeValid, .origSize] ++ freqOutputs
  | .hufLoadFreq => .treeValid :: freqOutputs
  | .hufEncode => [.bwOpen, .writer, .dstLen, .treeValid, .origSize] ++ freqOutputs
  | .hufDecode => [.bwOpen, .writer, .dstLen, .brByte, .brBit, .treeValid] ++ freqOutputs
  | .lzwEncode => [.bwOpen, .writer, .dstLen, .codeCount, .dictSize, .origSize]
  | .lzwDecode _ => [.bwOpen, .writer, .dstLen]
  | .nop => []
  | .softReset => []
  | .bwInit => []
  | .brInit => []
  | .hufBuild => []
  | .hufCode _ => []

/-- The ranges of the regions command `i` may write. -/
def Block.written (b : Block) (i : Instr) : List Range := ((b.regions i).filter fun r => r.write).map Region.range

/-- STATUS at the end of a command with fault code `code`, NONE meaning success (10_state R36). -/
def Status.ended (t : Status) (code : FaultCode) : Status :=
  { t with busy := false, done := decide (code = .noFault), err := decide (code ≠ .noFault), fault := code }

/-- A drawn fault code of a command that is certain to fault: every code but NONE (60_exceptions R271; entry 7). -/
def drawError (e : Nat) : FaultCode := if Config.drawFault e = .noFault then .illegalCmd else Config.drawFault e

/-- STATUS where only which fault a command ends in is a draw. -/
def Status.drawCode (t : Status) (e : Nat) : Status := if t.err then { t with fault := drawError e } else t

/-- A drawn CNT, OPEN being `isOpen`; with OPEN = 0 it is 0 (10_state R47; entry 7). -/
def drawCnt (e : Nat) (isOpen : Bool) : BitVec 3 := if isOpen then (Config.drawWord e 1).setWidth 3 else 0

/-- A drawn ACC, its bits from CNT up being 0 (10_state R47; entry 7). -/
def drawAcc (e : Nat) (cnt : BitVec 3) : Byte := (Config.drawWord e 2).setWidth 8 &&& BitVec.ofNat 8 (2 ^ cnt.toNat - 1)

/-- Makes the outputs `os` of an instance draws of event `e` (20_memory R91, R92). -/
def Block.drawOutputs (b : Block) (e : Nat) (os : List Output) : Block :=
  let isOpen := if .bwOpen ∈ os then (Config.drawWord e 6).getLsbD 0 else b.bwOpen
  let cnt := if .writer ∈ os then drawCnt e isOpen else b.bwCnt
  { b with
    status :=
      if .ending ∈ os then b.status.ended (Config.drawFault e)
      else if .faultCode ∈ os then b.status.drawCode e
      else b.status
    faultInfo := if .faultInfo ∈ os then Config.drawWord e 0 else b.faultInfo
    bwOpen := isOpen
    bwCnt := cnt
    bwAcc := if .writer ∈ os then drawAcc e cnt else b.bwAcc
    dstLen := if .dstLen ∈ os then Config.drawWord e 3 else b.dstLen
    brByte := if .brByte ∈ os then Config.drawWord e 4 else b.brByte
    brBit := if .brBit ∈ os then (Config.drawWord e 5).setWidth 3 else b.brBit
    brData := if .brData ∈ os then Config.drawWord e 7 else b.brData
    symOut := if .symOut ∈ os then (Config.drawWord e 8).setWidth 8 else b.symOut
    treeValid := if .treeValid ∈ os then (Config.drawWord e 9).getLsbD 0 else b.treeValid
    origSize := if .origSize ∈ os then Config.drawWord e 10 else b.origSize
    codeCount := if .codeCount ∈ os then Config.drawWord e 11 else b.codeCount
    dictSize := if .dictSize ∈ os then (Config.drawWord e 12).setWidth 16 else b.dictSize
    freq := Vector.ofFn fun k =>
      if .freq (BitVec.ofNat 8 k.val) ∈ os then (Config.drawWord e (256 + k.val)).setWidth 32 else b.freq[k] }

end Sys2Proof.Machine
end

