-- ==== Sys2Proof/Machine/Shared.lean ====
section
/-! DEFINITION. What a command computes from the bytes its regions share with another instance's (20_memory R92). DESIGN CHOICE
(entry 6): it is what is not the same whatever values those bytes hold. -/

namespace Sys2Proof.Machine

/-- The value of an output in an instance, as a number. -/
def Output.value (b : Block) : Output → Nat
  | .ending => b.status.done.toNat + 2 * b.status.err.toNat
  | .faultCode => (faultNum b.status.fault).toNat
  | .faultInfo => b.faultInfo.toNat
  | .bwOpen => b.bwOpen.toNat
  | .writer => b.bwAcc.toNat + 256 * b.bwCnt.toNat
  | .dstLen => b.dstLen.toNat
  | .brByte => b.brByte.toNat
  | .brBit => b.brBit.toNat
  | .brData => b.brData.toNat
  | .symOut => b.symOut.toNat
  | .freq sym => (b.freq.count sym).toNat
  | .treeValid => b.treeValid.toNat
  | .origSize => b.origSize.toNat
  | .codeCount => b.codeCount.toNat
  | .dictSize => b.dictSize.toNat

/-- How many bytes one write of a command to a region has: a count of META (20_memory R95), a code (20_memory R96), or a
byte. -/
def writeWidth : Instr → RegionId → Nat
  | _, .metaTable => 4
  | .lzwEncode, .dst => 2
  | _, _ => 1

/-- The places of the writes to a region, `w` bytes each. -/
def Region.places (r : Region) (w : Nat) : List Range :=
  (List.range ((r.len + w - 1) / w)).map fun k => { base := r.base + w * k, len := min w (r.len - w * k) }

/-- The places of the writes of command `i`. -/
def Block.places (b : Block) (i : Instr) : List Range :=
  (b.regions i).flatMap fun r => if r.write then r.places (writeWidth i r.id) else []

/-- The shared bytes that command `i` of the current instance reads: of its read regions, and of no region it writes (20_memory
R85). -/
def State.sharedInputs (s : State) (i : Instr) : List Nat :=
  ((s.cur.track.shared.flatMap fun q => List.range' q.base q.len).filter fun a =>
    ((s.cur.regions i).any fun r => !r.write && r.range.has a) && !(s.cur.written i).any fun q => q.has a).dedup

/-- The memories that differ from `m` at most in some bytes: each of them holding each of its 256 values. -/
def Memory.fillings (m : Memory) : List Nat → List Memory
  | [] => [m]
  | a :: addrs => (m.fillings addrs).flatMap fun m' => (List.range 256).map fun v => m'.write a (BitVec.ofNat 8 v)

/-- What command `i` leaves, for every value of the shared bytes it reads. -/
def State.sharedRuns (s : State) (i : Instr) : List State :=
  (s.mem.fillings (s.sharedInputs i)).filterMap fun m =>
    match exec i { s with mem := m } with
    | .next t => some t
    | .fault _ => none
    | .refused _ => none

/-- `f` does not give the same for all the states. -/
def varies {α : Type} [DecidableEq α] (f : State → α) : List State → Bool
  | [] => false
  | t :: ts => ts.any fun u => f u ≠ f t

/-- Outputs and bytes of memory that a command computes from shared bytes. -/
structure Computed where
  outs : List Output
  bytes : List Range
  deriving DecidableEq, Repr

/-- What command `i` of the current instance computes from shared bytes. -/
def State.computedFromShared (s : State) (i : Instr) : Computed :=
  let runs := s.sharedRuns i
  { outs := (.ending :: .faultCode :: .faultInfo :: outputs i).filter fun o => varies (fun t => o.value t.cur) runs
    bytes := (s.cur.places i).filter fun q => varies (fun t => t.mem.readBytes q.base q.len) runs }

end Sys2Proof.Machine
end

