-- ==== Sys2Proof/Machine/Race.lean ====
section
/-! DEFINITION. Races: which accesses make a command's outcome a draw, and what the draw leaves (20_memory R91, R92). -/

namespace Sys2Proof.Machine

/-- The regions still at stake at instance `b`: those of its pending command and the written ones the host has not acquired
(20_memory R90, R92; entry 8). -/
def Block.atStake (b : Block) : List Region :=
  b.regionsInFlight ++ b.track.unseen.map fun r => { id := .dst, base := r.base, len := r.len, write := true }

/-- The bytes of the regions of `mine` that a region of `theirs` overlaps, one of the two written (20_memory R92). -/
def sharedRanges (mine theirs : List Region) : List Range :=
  mine.flatMap fun p =>
    (theirs.filter fun q => (p.write || q.write) && p.range.overlaps q.range).map fun q => p.range.inter q.range

/-- Marks the pending command of `b` with the bytes it shares with regions `theirs`. -/
def Block.markRaces (b : Block) (theirs : List Region) : Block :=
  { b with track := { b.track with shared := b.track.shared ++ sharedRanges b.regionsInFlight theirs } }

/-- Acceptance of `w` (10_state R52) with the regions it may write noted as not acquired by the host (20_memory R90). -/
def Block.submit (b : Block) (w : Word) : Block :=
  let b := b.accept w
  { b with track := { b.track with unseen := b.track.unseen ++ b.writtenInFlight } }

/-- The current instance accepts command word `w` (10_state R52), and its races with the other instances are noted. -/
def State.accept (s : State) (w : Word) : State :=
  let b := s.cur.submit w
  { s with
    before := s.before.map fun o => o.markRaces b.regionsInFlight
    cur := b.markRaces ((s.before ++ s.after).flatMap Block.atStake)
    after := s.after.map fun o => o.markRaces b.regionsInFlight }

/-- A host write to byte `a` makes the outcome of a pending command with a region there a draw (20_memory R91). DESIGN CHOICE
(entry 22), unsafe: once the command has completed, a write to a byte of its regions is no race, though the host has not yet
read STATUS; the byte written stands. -/
def Block.hostWrote (a : Nat) (b : Block) : Block :=
  if b.regionsInFlight.any fun r => r.range.has a then { b with track := { b.track with raced := true } } else b

/-- No race is noted any more. -/
def Block.unmark (b : Block) : Block := { b with track := { b.track with raced := false, shared := [] } }

/-- The outcome of the command `i` of the current instance after a host race: how it ends, its output registers and the bytes
of its written regions are draws, and BUSY falls (20_memory R91); so are the bytes it shares with another instance's, those of
its read regions too (20_memory R92; entry 6). -/
def State.raceOutcome (s : State) (i : Instr) : State :=
  { s with
    cur := { (s.cur.drawOutputs s.draws (.ending :: .faultInfo :: outputs i)).unmark with pending := none }
    mem := drawAll s.draws s.mem (s.cur.written i ++ s.cur.track.shared)
    draws := s.draws + 1 }

/-- What command `i` of the current instance leaves whose regions share bytes with another instance's, `t` being what the
command leaves in `s`: the shared bytes, and what is computed from them, are draws (20_memory R92). -/
def State.sharedOutcome (s : State) (i : Instr) (t : State) : State :=
  let c := s.computedFromShared i
  { t with
    cur := (t.cur.drawOutputs s.draws c.outs).unmark
    mem := drawAll s.draws t.mem (c.bytes ++ s.cur.track.shared)
    draws := s.draws + 1 }

end Sys2Proof.Machine
end

