-- ==== Sys2Proof/Machine/Engine.lean ====
section
/-! DEFINITION. The moves: an engine executes its pending command, the host reads and writes, the platform resets. -/

namespace Sys2Proof.Machine

/-- The command `i` of the current instance ends in a draw after a host race; on memory that is not idempotent it is still
refused (20_memory R87, R91). -/
def State.racedTurn (s : State) (i : Instr) : Result :=
  match checkRegions s.denied s.platform.devices (s.cur.regions i) with
  | .refuse => .refused .notIdempotent
  | _ => .next (s.raceOutcome i)

/-- The command `i` of the current instance is executed although its regions share bytes with another instance's: those bytes
and what is computed from them are draws (20_memory R92; entry 6). -/
def State.sharedTurn (s : State) (i : Instr) : Result :=
  match exec i s with
  | .next t => .next (s.sharedOutcome i t)
  | .fault f => .fault f
  | .refused r => .refused r

/-- The engine of the current instance moves: it decodes and executes its pending command, to its end, in one step
(10_state R53, 30_encoding R117); with no command pending nothing happens. -/
def State.engineTurn (s : State) : Result :=
  match s.cur.pending with
  | none => .next s
  | some w =>
    match decode w with
    | .error _ => s.fail .illegalCmd w.toNat
    | .ok i =>
      if s.cur.track.raced then s.racedTurn i
      else
        match s.cur.track.shared with
        | [] => exec i s
        | _ :: _ => s.sharedTurn i

/-- The position of the first instance with a command pending, counting from `k`. -/
def firstPending (k : Nat) : List Block → Option Nat
  | [] => none
  | b :: bs => if b.pending.isSome then some k else firstPending (k + 1) bs

/-- With no turn listed: the current instance's engine moves if it has a command pending, else the first engine that has
one, else nothing happens (entry 3). -/
def State.idleTurn (s : State) : Result :=
  if s.cur.pending.isSome then s.engineTurn
  else
    match firstPending 0 s.blocks with
    | none => .next s
    | some k =>
      match s.focus k with
      | none => .next s
      | some t => t.engineTurn

/-- A read returned `v` to the host. -/
def State.logged (s : State) (v : Word) : State := { s with log := v :: s.log }

/-- A register read returned a draw to the host (10_state R55). -/
def State.loggedDraw (s : State) : State := { s.logged (Config.drawWord s.draws 0) with draws := s.draws + 1 }

/-- The read of byte `a` returned a draw to the host (20_memory R91). -/
def State.loggedByteDraw (s : State) (a : Nat) : State :=
  { s.logged ((Config.drawByte s.draws a).setWidth 64) with draws := s.draws + 1 }

/-- The host has read STATUS with BUSY = 0: the results of the command are visible from now on (20_memory R90). -/
def Block.acquire (b : Block) : Block := { b with track := { b.track with seen := true, unseen := [] } }

/-- The host reads the register at offset `off` of the current instance. While BUSY is 1 every register but ID, STATUS and
IRQ_EN reads as a draw (10_state R55), and so, until the results are visible, does every one that holds a value (20_memory
R90; entry 9); while BUSY is 0 CMD and the reserved offsets read 0 (10_state R34, R35). DESIGN CHOICE (entry 21), safe: while
BUSY is 1 a reserved offset reads as a draw too. Under reset every read returns 0 (70_reset R310). -/
def State.hostRead (s : State) (off : Nat) : State :=
  if s.cur.inReset then s.logged 0
  else
    match regAt off with
    | some .id => s.logged (s.cur.readReg .id)
    | some .irqEn => s.logged (s.cur.readReg .irqEn)
    | some .status =>
      let t := s.logged (s.cur.readReg .status)
      if s.cur.status.busy then t else { t with cur := t.cur.acquire }
    | some .cmd => if s.cur.status.busy then s.loggedDraw else s.logged (s.cur.readReg .cmd)
    | none => if s.cur.status.busy then s.loggedDraw else s.logged 0
    | some r => if s.cur.status.busy || !s.cur.track.seen then s.loggedDraw else s.logged (s.cur.readReg r)

/-- The host writes `v` to the register at offset `off` of the current instance (10_state R34, R52, R54); under reset the
write is ignored (70_reset R310). -/
def State.hostWrite (s : State) (off : Nat) (v : Word) : State :=
  if s.cur.inReset then s
  else if s.cur.status.busy then { s with cur := s.cur.writeBusy v (regAt off) }
  else
    match regAt off with
    | some .cmd => s.accept v
    | some r => { s with cur := s.cur.writeReg v r }
    | none => s

/-- Does what `f` says to the system with instance `k` the current one. -/
def State.on (s : State) (k : Nat) (f : State → Result) : Result :=
  match s.focus k with
  | none => .fault .noSuchBlock
  | some t => f t

/-- A byte of the host's address space that the host may access as memory: inside the DMA space (20_memory R80), outside
every register block (10_state R34) and outside memory that is not idempotent (20_memory R87). -/
def State.hostMem (s : State) (a : Nat) (k : Result) : Result :=
  if Config.addressSpace ≤ a then .fault .noSuchAddress
  else if s.blocks.any fun b => b.window.has a then .refused .badAccess
  else if s.platform.devices.any fun d => d.has a then .refused .notIdempotent
  else k

/-- Some command's written region that the host has not acquired holds the byte (20_memory R90, R91). -/
def State.unseenByte (s : State) (a : Nat) : Bool :=
  s.blocks.any fun b => b.track.unseen.any fun r => r.has a

/-- One action of the host; a WAIT whose time has come is its last read of STATUS (30_encoding R121). -/
def State.hostOp (s : State) : HostOp → Result
  | .wr k off size v =>
    if accessOk off size then s.on k fun t => .next (t.hostWrite off v) else .refused .badAccess
  | .rd k off size =>
    if accessOk off size then s.on k fun t => .next (t.hostRead off) else .refused .badAccess
  | .memWr a v =>
    s.hostMem a <| .next
      { s with
        mem := s.mem.write a v
        before := s.before.map (Block.hostWrote a)
        cur := s.cur.hostWrote a
        after := s.after.map (Block.hostWrote a) }
  | .memRd a =>
    s.hostMem a <| .next (if s.unseenByte a then s.loggedByteDraw a else s.logged ((s.mem.read a).setWidth 64))
  | .wait k => s.on k fun t => .next (t.hostRead (regOffset .status))

/-- The platform drives the reset input of the current instance (70_reset R310): asserting it abandons the pending
command, whose written regions become draws, as do the bytes it shares with another instance's (20_memory R92), and puts the
instance in its reset state; releasing it changes the input only. -/
def State.resetTurn (s : State) (asserted : Bool) : State :=
  if asserted then
    let t := s.drawBytes (s.cur.writtenInFlight ++ s.cur.track.shared)
    { t with cur := { Block.reset s.cur.mmioBase with inReset := true } }
  else { s with cur := { s.cur with inReset := false } }

/-- `WAIT` of instance `k` (30_encoding R121) in a system whose turns begin with it: while BUSY is 1 the wait stays where
it is and the engine moves (entry 20); with BUSY = 0 the read of STATUS ends it, `rest` being the turns after it. -/
def State.waitTurn (s : State) (k : Nat) (rest : List Turn) : Result :=
  s.on k fun t =>
    if t.cur.status.busy then t.engineTurn else { t with turns := rest }.hostOp (.wait k)

/-- One step: the first turn is taken, or, with none listed, the engines move on their own. -/
def State.takeTurn (s : State) : Result :=
  match s.turns with
  | [] => s.idleTurn
  | .engine k :: rest => { s with turns := rest }.on k State.engineTurn
  | .host (.wait k) :: rest => s.waitTurn k rest
  | .host op :: rest => { s with turns := rest }.hostOp op
  | .reset k asserted :: rest => { s with turns := rest }.on k fun t => .next (t.resetTurn asserted)

/-- The current instance with command word `w` just accepted, no race noted and no other turn before its engine's. -/
def State.withPending (s : State) (w : Word) : State :=
  { s with cur := { s.cur.submit w with inReset := false }, turns := [] }

end Sys2Proof.Machine
end

