-- ==== Sys2Proof/Machine/Step.lean ====
section
/-! DEFINITION. The machine's step. -/

namespace Sys2Proof.Machine

/-- One move of the system. -/
def step (s : State) : Host.Outcome State Fault Refusal := s.takeTurn

/-- The current instance with the command word whose `nbits` lowest bits are `w`'s accepted, so that the next step executes
it (entry 4). -/
def State.withFetchWord (s : State) (nbits w : Nat) : State := s.withPending (BitVec.ofNat 64 (w % 2 ^ nbits))

end Sys2Proof.Machine
end

