-- ==== Sys2Proof/Machine/Script.lean ====
section
/-! DEFINITION. The statements of a host script as turns of the machine (30_encoding R120, R121). -/

namespace Sys2Proof.Machine

/-- `WR <REG>, <value>` to instance `k`. -/
def scriptWr (k : Nat) (r : Reg) (v : Word) : Turn := .host (.wr k (regOffset r) 8 v)

/-- `RD <REG>` of instance `k`. -/
def scriptRd (k : Nat) (r : Reg) : Turn := .host (.rd k (regOffset r) 8)

/-- `CMD.RAW <value>`. -/
def scriptRaw (k : Nat) (v : Word) : Turn := scriptWr k .cmd v

/-- `CMD <MNEMONIC> [<operand>]`: writes the command's word to CMD. -/
def scriptCmd (k : Nat) (i : Instr) : Turn := scriptRaw k (encode i)

/-- `WAIT`. -/
def scriptWait (k : Nat) : Turn := .host (.wait k)

/-- `RUN <MNEMONIC> [<operand>]`: the command, then WAIT. -/
def scriptRun (k : Nat) (i : Instr) : List Turn := [scriptCmd k i, scriptWait k]

/-- `CLR`: clears DONE, ERR and WERR. -/
def scriptClr (k : Nat) : Turn := scriptWr k .status 0xE

/-- `SETBUF SRC, <addr>, <len>`. -/
def scriptSrc (k : Nat) (addr len : Word) : List Turn := [scriptWr k .srcAddr addr, scriptWr k .srcLen len]

/-- `SETBUF DST, <addr>, <cap>`. -/
def scriptDst (k : Nat) (addr cap : Word) : List Turn := [scriptWr k .dstAddr addr, scriptWr k .dstCap cap]

end Sys2Proof.Machine
end

