-- ==== Sys2Proof/Safety.lean ====
section
/-! DEFINITION. What claims call legal: the invariants of an instance and of the system, and the vocabulary of the
statements about streams, payloads and memory. -/

namespace Sys2Proof.Machine

/-- What the rules promise of one instance at every moment: of STATUS and FAULT_INFO 10_state R36, R52 and 60_exceptions
R271, of the writer 10_state R47, of an instance under reset 70_reset R310. -/
structure Block.Legal (b : Block) : Prop where
  /-- "DONE and ERR are never both 1." -/
  oneOutcome : ¬(b.status.done = true ∧ b.status.err = true)
  /-- "BUSY = 1 implies DONE = 0 and ERR = 0." -/
  busyOutcome : b.status.busy = true → b.status.done = false ∧ b.status.err = false
  /-- BUSY is 1 exactly while a command is pending. -/
  busyPending : b.status.busy = b.pending.isSome
  /-- Acceptance has cleared the fault code and FAULT_INFO. -/
  busyFault : b.status.busy = true → b.status.fault = .noFault ∧ b.faultInfo = 0
  /-- LAST_OP is the opcode of the pending command. -/
  pendingOp : ∀ w, b.pending = some w → b.status.lastOp = opcode w
  /-- A command that succeeded left fault code NONE, one that faulted another code. -/
  doneFault : b.status.done = true → b.status.fault = .noFault
  errFault : b.status.err = true → b.status.fault ≠ .noFault
  /-- "OPEN = 0 implies ACC = 0 and CNT = 0". -/
  closedWriter : b.bwOpen = false → b.bwAcc = 0 ∧ b.bwCnt = 0
  /-- "ACC[7:CNT] are 0". -/
  accBits : b.bwAcc.toNat < 2 ^ b.bwCnt.toNat
  /-- Under reset no command is pending. -/
  resetIdle : b.inReset = true → b.pending = none

/-- The system invariant: memory is canonical and inside the DMA space, and every instance is legal. -/
structure State.Inv (s : State) : Prop where
  memCanonical : s.mem.wf = true
  memInSpace : s.mem.inSpace = true
  blocksLegal : ∀ b ∈ s.blocks, b.Legal

/-- No race has been noted for the pending command of the current instance. -/
abbrev State.Quiet (s : State) : Prop := s.cur.track.raced = false ∧ s.cur.track.shared = []

/-- The region checks of `i` pass in `s`, on memory that is idempotent (20_memory R85, R87). -/
abbrev State.ChecksPass (s : State) (i : Instr) : Prop :=
  checkRegions s.denied s.platform.devices (s.cur.regions i) = .pass

/-- The state in which the current instance's command has completed, leaving `b` and memory `m`. -/
def State.completed (s : State) (b : Block) (m : Memory) : State := { s with cur := b.complete, mem := m }

/-- The state in which the current instance's command has ended in a precise fault (60_exceptions R275). -/
def State.faulted (s : State) (code : FaultCode) (info : Nat) : State := { s with cur := s.cur.raise code info }

/-- `m'` reads as `m` at every address outside the range. -/
def SameOutside (r : Range) (m m' : Memory) : Prop := ∀ a, r.has a = false → m'.read a = m.read a

/-- The bits of a byte in stream order (00_scope R15). -/
def byteBits (v : Byte) : Bits := (List.range 8).map fun j => v.getLsbD (7 - j)

/-- The bit stream of some bytes: `Stream` of 00_scope R19. -/
def streamBits (bytes : List Byte) : Bits := bytes.flatMap byteBits

/-- The byte whose first stream bits are `bits` and whose others are 0 (00_scope R15). -/
def packByte (bits : Bits) : Byte := BitVec.ofNat 8 (bitsValue bits * 2 ^ (8 - bits.length))

/-- The first `n` whole bytes of a bit sequence (00_scope R15). -/
def packWhole : Nat → Bits → List Byte
  | 0, _ => []
  | n + 1, bits => packByte (bits.take 8) :: packWhole n (bits.drop 8)

/-- The bytes of a bit sequence, the last one zero-padded on the low bits (20_memory R97). -/
def packAll (bits : Bits) : List Byte := packWhole ((bits.length + 7) / 8) bits

/-- The bits that stand in the writer's partial byte, first-written first (10_state R47). -/
def Block.partialBits (b : Block) : Bits :=
  (List.range b.bwCnt.toNat).map fun j => b.bwAcc.getLsbD (b.bwCnt.toNat - 1 - j)

/-- The reader's position as a stream bit number (10_state R48). -/
def Block.streamPos (b : Block) : Nat := 8 * b.brByte.toNat + b.brBit.toNat

/-- The stream bits the reader has not read yet (10_state R48). -/
def State.unread (s : State) : Bits := (streamBits s.srcBytes).drop s.cur.streamPos

/-- The concatenated codewords of some symbols. -/
def payload (ct : List (Byte × Bits)) (syms : List Byte) : Bits := syms.flatMap (codeOf ct)

/-- The state prerequisite a command misses, in the order of 60_exceptions R277: a tree, then an open writer. -/
def Block.prereqFault (b : Block) : Instr → Option FaultCode
  | .hufCode _ => if b.treeValid then none else some .hufNoTree
  | .hufGetSym => if b.treeValid then none else some .hufNoTree
  | .hufPutSym _ => if b.treeValid then (if b.bwOpen then none else some .bitWriterClosed) else some .hufNoTree
  | .bwPut _ => if b.bwOpen then none else some .bitWriterClosed
  | .bwFinish => if b.bwOpen then none else some .bitWriterClosed
  | .nop => none
  | .softReset => none
  | .hufCount => none
  | .hufLoadFreq => none
  | .hufBuild => none
  | .hufEncode => none
  | .hufDecode => none
  | .lzwEncode => none
  | .lzwDecode _ => none
  | .bwInit => none
  | .brInit => none
  | .brGet _ => none

/-- Which words `Decode` calls legal (30_encoding R117). -/
abbrev LegalWord (w : Word) : Prop :=
  (opcode w ∈ ([0x00, 0x01, 0x10, 0x11, 0x12, 0x15, 0x16, 0x17, 0x20, 0x30, 0x32, 0x38] : List Byte) ∧
      w.extractLsb' 8 56 = 0) ∨
    (opcode w = 0x21 ∧ w.extractLsb' 9 55 = 0) ∨
    (opcode w ∈ ([0x31, 0x39] : List Byte) ∧ w.extractLsb' 8 8 = 0 ∧ w.extractLsb' 23 41 = 0 ∧
      1 ≤ (w.extractLsb' 16 7).toNat ∧ (w.extractLsb' 16 7).toNat ≤ 64) ∨
    (opcode w ∈ ([0x13, 0x14] : List Byte) ∧ w.extractLsb' 8 8 = 0 ∧ w.extractLsb' 24 40 = 0)

/-- A region passes 2^64: what check 1 of 20_memory R85 looks for. -/
abbrev Region.PastEnd (r : Region) : Prop := 0 < r.len ∧ 2 ^ 64 < r.base + r.len

/-- Two regions overlap and one is written: what check 2 of 20_memory R85 looks for. -/
abbrev RegionsClash (p q : Region) : Prop :=
  0 < p.len ∧ 0 < q.len ∧ (p.write = true ∨ q.write = true) ∧ p.base < q.base + q.len ∧ q.base < p.base + p.len

/-- ADMIT holds on every byte of the region. -/
def State.RegionAdmitted (s : State) (r : Region) : Prop :=
  ∀ a, r.base ≤ a → a < r.base + r.len → s.admitted a = true

/-- The commands in turn, the host writing the value beside each to BW_DATA before it; `none` where one does not complete. -/
def runAll : List (Instr × Word) → State → Option State
  | [], s => some s
  | (i, v) :: cmds, s =>
    match exec i { s with cur := { s.cur with bwData := v } } with
    | .next t => if t.cur.status.err then none else runAll cmds t
    | .fault _ => none
    | .refused _ => none

/-- BR_GET of each count in turn: the bits read, in order (40_bitio R147); `none` where one does not complete. -/
def readAll : List (BitVec 7) → State → Option Bits
  | [], _ => some []
  | n :: ns, s =>
    match exec (.brGet n) s with
    | .next t => if t.cur.status.err then none else (readAll ns t).map fun bits => lowBits n.toNat t.cur.brData ++ bits
    | .fault _ => none
    | .refused _ => none

/-- The bits a BW_PUT or HUF_PUT_SYM appends, `v` being BW_DATA and `ct` the code table (40_bitio R144, 41_huffman R180). -/
def appendedBits (ct : List (Byte × Bits)) (v : Word) : Instr → Bits
  | .bwPut n => lowBits n.toNat v
  | .hufPutSym sym => codeOf ct sym
  | .nop => []
  | .softReset => []
  | .hufCount => []
  | .hufLoadFreq => []
  | .hufBuild => []
  | .hufCode _ => []
  | .hufGetSym => []
  | .hufEncode => []
  | .hufDecode => []
  | .lzwEncode => []
  | .lzwDecode _ => []
  | .bwInit => []
  | .bwFinish => []
  | .brInit => []
  | .brGet _ => []

/-- The bits a sequence of BW_PUTs and HUF_PUT_SYMs writes. -/
def appendedStream (ct : List (Byte × Bits)) (cmds : List (Instr × Word)) : Bits :=
  cmds.flatMap fun c => appendedBits ct c.2 c.1

/-- The symbols of the leaves below a node, left to right. -/
def HufTree.syms : HufTree → List Byte
  | .leaf s _ => [s]
  | .node _ _ l r => l.syms ++ r.syms

/-- The loop of `BuildTree` (41_huffman R171) on the queue `q`, the next node created having number `k`, ends with `root`. -/
inductive TreeLoop : (k : Nat) → (q : List HufTree) → (root : HufTree) → Prop where
  /-- "if |Q| = 1: return the one node in Q". -/
  | done (k : Nat) (t : HufTree) : TreeLoop k [t] t
  /-- A turn: `l` is popped first, `r` second, and the node that joins them goes back into the queue. -/
  | turn {k : Nat} {q q₁ q₂ : List HufTree} {l r root : HufTree} : popMin q = some (l, q₁) → popMin q₁ = some (r, q₂) →
      TreeLoop (k + 1) (.node (l.freq + r.freq) k l r :: q₂) root → TreeLoop k q root

/-- The bits `p` are a path from a node to a leaf of symbol `sym`: 0 for a left edge, 1 for a right one (41_huffman R173). -/
inductive HufTree.Path : HufTree → (sym : Byte) → (p : Bits) → Prop where
  | leaf (sym : Byte) (f : Nat) : Path (.leaf sym f) sym []
  | left {f k : Nat} {l r : HufTree} {sym : Byte} {p : Bits} : Path l sym p → Path (.node f k l r) sym (false :: p)
  | right {f k : Nat} {l r : HufTree} {sym : Byte} {p : Bits} : Path r sym p → Path (.node f k l r) sym (true :: p)

/-- The string of code `c` in a dictionary that grew by each of the strings `phrases`, in order, with the first byte of the
next one added (42_lzw R221, R222). -/
def phraseEntry (phrases : List (List Byte)) (c : Nat) : List Byte :=
  if c < 256 then [BitVec.ofNat 8 c] else phrases.getD (c - 256) [] ++ (phrases.getD (c - 255) []).take 1

/-- The faults each command can raise past decoding (60_exceptions R273). -/
def commandFaults : Instr → List FaultCode
  | .nop => []
  | .softReset => []
  | .bwInit => []
  | .brInit => []
  | .hufBuild => []
  | .hufCode _ => [.hufNoTree, .hufEmptyCode]
  | .bwPut _ => [.bitWriterClosed, .addrRange, .busError, .capacity]
  | .bwFinish => [.bitWriterClosed, .addrRange, .busError, .capacity]
  | .hufPutSym _ => [.hufNoTree, .bitWriterClosed, .addrRange, .busError, .hufEmptyCode, .capacity]
  | .brGet _ => [.addrRange, .busError, .bitEndOfStream]
  | .hufGetSym => [.hufNoTree, .addrRange, .busError, .hufNullChild, .hufEndOfStream]
  | .hufCount => [.addrRange, .regionOverlap, .busError, .hufFreqOverflow]
  | .hufLoadFreq => [.addrRange, .busError]
  | .hufEncode => [.addrRange, .regionOverlap, .busError, .hufFreqOverflow, .capacity]
  | .hufDecode => [.addrRange, .regionOverlap, .busError, .capacity, .hufNullChild, .hufEndOfStream]
  | .lzwEncode => [.addrRange, .regionOverlap, .busError, .capacity]
  | .lzwDecode strict =>
    [.addrRange, .regionOverlap, .busError, .capacity, .lzwInvalidCode, .lzwShortOutput] ++
      if strict then [.lzwLongOutput] else []

/-- The partial faults of each command (60_exceptions R276). -/
def partialFaults : Instr → List FaultCode
  | .hufDecode => [.hufEndOfStream]
  | .lzwEncode => [.capacity]
  | .lzwDecode _ => [.lzwInvalidCode, .lzwShortOutput, .lzwLongOutput]
  | .nop => []
  | .softReset => []
  | .hufCount => []
  | .hufLoadFreq => []
  | .hufBuild => []
  | .hufCode _ => []
  | .hufPutSym _ => []
  | .hufGetSym => []
  | .hufEncode => []
  | .bwInit => []
  | .bwPut _ => []
  | .bwFinish => []
  | .brInit => []
  | .brGet _ => []

/-- The instance `c` is `b` with the outputs `os` made draws of event `e` (20_memory R91, R92), but for what is pending and the
marks of races. -/
structure Drawn (e : Nat) (os : List Output) (b c : Block) : Prop where
  status : c.status =
    if .ending ∈ os then
      { b.status with
        busy := false
        done := decide (Config.drawFault e = .noFault)
        err := decide (Config.drawFault e ≠ .noFault)
        fault := Config.drawFault e }
    else if .faultCode ∈ os ∧ b.status.err = true then
      { b.status with fault := if Config.drawFault e = .noFault then .illegalCmd else Config.drawFault e }
    else b.status
  faultInfo : c.faultInfo = if .faultInfo ∈ os then Config.drawWord e 0 else b.faultInfo
  bwOpen : c.bwOpen = if .bwOpen ∈ os then (Config.drawWord e 6).getLsbD 0 else b.bwOpen
  bwCnt : c.bwCnt =
    if .writer ∈ os then if c.bwOpen then (Config.drawWord e 1).setWidth 3 else 0 else b.bwCnt
  bwAcc : c.bwAcc =
    if .writer ∈ os then (Config.drawWord e 2).setWidth 8 &&& BitVec.ofNat 8 (2 ^ c.bwCnt.toNat - 1) else b.bwAcc
  dstLen : c.dstLen = if .dstLen ∈ os then Config.drawWord e 3 else b.dstLen
  brByte : c.brByte = if .brByte ∈ os then Config.drawWord e 4 else b.brByte
  brBit : c.brBit = if .brBit ∈ os then (Config.drawWord e 5).setWidth 3 else b.brBit
  brData : c.brData = if .brData ∈ os then Config.drawWord e 7 else b.brData
  symOut : c.symOut = if .symOut ∈ os then (Config.drawWord e 8).setWidth 8 else b.symOut
  treeValid : c.treeValid = if .treeValid ∈ os then (Config.drawWord e 9).getLsbD 0 else b.treeValid
  freq : ∀ sym : Byte, c.freq.count sym =
    if .freq sym ∈ os then (Config.drawWord e (256 + sym.toNat)).setWidth 32 else b.freq.count sym
  origSize : c.origSize = if .origSize ∈ os then Config.drawWord e 10 else b.origSize
  codeCount : c.codeCount = if .codeCount ∈ os then Config.drawWord e 11 else b.codeCount
  dictSize : c.dictSize = if .dictSize ∈ os then (Config.drawWord e 12).setWidth 16 else b.dictSize
  /-- Nothing else is drawn. -/
  rest : c =
    { b with
      status := c.status, faultInfo := c.faultInfo, bwOpen := c.bwOpen, bwCnt := c.bwCnt, bwAcc := c.bwAcc
      dstLen := c.dstLen, brByte := c.brByte, brBit := c.brBit, brData := c.brData, symOut := c.symOut
      treeValid := c.treeValid, freq := c.freq, origSize := c.origSize, codeCount := c.codeCount, dictSize := c.dictSize
      pending := c.pending, track := c.track }

/-- Two instances have the same output. -/
def Output.Same (b c : Block) : Output → Prop
  | .ending => b.status.done = c.status.done ∧ b.status.err = c.status.err
  | .faultCode => b.status.fault = c.status.fault
  | .faultInfo => b.faultInfo = c.faultInfo
  | .bwOpen => b.bwOpen = c.bwOpen
  | .writer => b.bwAcc = c.bwAcc ∧ b.bwCnt = c.bwCnt
  | .dstLen => b.dstLen = c.dstLen
  | .brByte => b.brByte = c.brByte
  | .brBit => b.brBit = c.brBit
  | .brData => b.brData = c.brData
  | .symOut => b.symOut = c.symOut
  | .freq sym => b.freq.count sym = c.freq.count sym
  | .treeValid => b.treeValid = c.treeValid
  | .origSize => b.origSize = c.origSize
  | .codeCount => b.codeCount = c.codeCount
  | .dictSize => b.dictSize = c.dictSize

/-- `m` is the memory of `s` with any values of the shared bytes that command `i` reads. -/
abbrev State.Variant (s : State) (i : Instr) (m : Memory) : Prop :=
  m.wf = true ∧ ∀ a, a ∉ s.sharedInputs i → m.read a = s.mem.read a

/-- The instance a move names; the host's accesses to memory name none. -/
def instanceOf : Turn → Option Nat
  | .engine k => some k
  | .host (.wr k _ _ _) => some k
  | .host (.rd k _ _) => some k
  | .host (.wait k) => some k
  | .host (.memWr _ _) => none
  | .host (.memRd _) => none
  | .reset k _ => some k

end Sys2Proof.Machine
end

