-- ==== Sys2Proof/Certificates/Slice0/Obligations.lean ====
section
/-! DEFINITION. The statements for the provers. -/

open Sys2Proof Sys2Proof.Machine

/-! ### Encoding -/

/-- 30_encoding R111 to R116: the command word of every well-formed instruction decodes to that instruction. -/
def Obligations.DecodeEncodeAgree : Prop :=
  ∀ i : Instr, i.wf = true → decode (encode i) = .ok i

/-- 30_encoding R110, R119: a legal word is the command word of the one instruction it decodes to, and that instruction is
well-formed. -/
def Obligations.LegalWordsAreEncodings : Prop :=
  ∀ (w : Word) (i : Instr), decode w = .ok i → i.wf = true ∧ encode i = w

/-- 30_encoding R117: `Decode` accepts exactly the legal words, with the operands N, SYM and STRICT of the word; the engine's
move on a pending illegal word records ILLEGAL_CMD with FAULT_INFO = w and changes nothing else, and LAST_OP stays. -/
def Obligations.IllegalWordFaults : Prop :=
  ∀ w : Word,
    (LegalWord w ↔ ∃ i, decode w = .ok i) ∧
      (∀ n, decode w = .ok (.bwPut n) ∨ decode w = .ok (.brGet n) → n = w.extractLsb' 16 7) ∧
      (∀ sym, decode w = .ok (.hufCode sym) ∨ decode w = .ok (.hufPutSym sym) → sym = w.extractLsb' 16 8) ∧
      (∀ strict, decode w = .ok (.lzwDecode strict) → strict = w.getLsbD 8) ∧
      ∀ s : State, s.turns = [] → s.cur.pending = some w → ¬LegalWord w →
        step s = .next
          { s with
            cur :=
              { s.cur with
                status := { s.cur.status with err := true, fault := .illegalCmd, busy := false }
                faultInfo := w
                pending := none } }

/-- 30_encoding R116, R120: a few words written out from the formats decode to the commands they stand for. -/
def Obligations.SpecWordsDecode : Prop :=
  decode 0x0000000000000000 = .ok .nop ∧ decode 0x0000000000000016 = .ok .hufEncode ∧
    decode 0x0000000000610013 = .ok (.hufCode 0x61) ∧ decode 0x0000000000000121 = .ok (.lzwDecode true) ∧
    decode 0x0000000000030031 = .ok (.bwPut 3) ∧ decode 0x0000000000400039 = .ok (.brGet 64) ∧
    decode 0x0000000000410031 = .error .countOutOfRange ∧ decode 0x0000000000000221 = .error .mustBeZero ∧
    decode 0x0000000000000002 = .error .unassignedOpcode

/-! ### Step, reset, invariant -/

/-- 10_state R53, 30_encoding R117: a step with no turn listed, where the current instance holds a pending command word, is the
move of its engine, and so is a step whose turn names that engine, once the turn is taken off; where the word decodes to `i`
and no race has been noted, that move is `exec` of `i`. 10_state R33, R34, R52: a turn of the host that writes or reads 8
aligned bytes of the register block is `hostWrite` or `hostRead`, and a write of CMD while BUSY is 0 is the acceptance of the
word. 60_exceptions R283: a step whose turn names instance `k` is the step of the same system with instance `k` the current
one, and it leaves every other instance as it is but for the marks of the bytes it shares. The list of turns is the model's
choice (entry 3), and so are the marks (entry 6). -/
def Obligations.StepRunsPendingCommand : Prop :=
  (∀ (s : State) (w : Word), s.cur.pending = some w →
    (s.turns = [] → step s = s.engineTurn) ∧ ∀ i, decode w = .ok i → s.Quiet → s.engineTurn = exec i s) ∧
  (∀ (s : State) (rest : List Turn),
    (s.turns = .engine s.before.length :: rest → step s = { s with turns := rest }.engineTurn) ∧
      ∀ off, off % 8 = 0 → off < 256 →
        (∀ v, s.turns = .host (.wr s.before.length off 8 v) :: rest →
          step s = .next ({ s with turns := rest }.hostWrite off v)) ∧
          (s.turns = .host (.rd s.before.length off 8) :: rest → step s = .next ({ s with turns := rest }.hostRead off))) ∧
  (∀ (s : State) (w : Word), s.cur.inReset = false → s.cur.status.busy = false →
    s.hostWrite 0x008 w = s.accept w ∧
      ∃ shared, (s.accept w).cur =
        { s.cur.submit w with track := { (s.cur.submit w).track with shared := shared } }) ∧
    ∀ (s : State) (turn : Turn) (rest : List Turn) (k : Nat), s.turns = turn :: rest → instanceOf turn = some k →
      (∀ (l r : List Block) (b : Block), s.blocks = l ++ b :: r → l.length = k →
          step s = step { s with before := l, cur := b, after := r }) ∧
        ∀ t, step s = .next t → t.blocks.length = s.blocks.length ∧
          ∀ j b, j ≠ k → s.blocks[j]? = some b → ∃ c, t.blocks[j]? = some c ∧
            c = { b with track := { b.track with shared := c.track.shared } }

/-- 10_state R63: what each piece of state holds after reset, whatever the parameters of the platform and the contents of
memory are. -/
def Obligations.ResetValues : Prop :=
  ∀ (p : Platform) (base : Word) (bases : List Word) (mem : Memory),
    (State.resetOn p base bases mem).mem = mem ∧
      ∀ b ∈ (State.resetOn p base bases mem).blocks,
        b.readReg .id = 0x0000000141534547 ∧ (∀ r : Reg, r ≠ .id → b.readReg r = 0) ∧
          (∀ sym : Byte, b.freq.count sym = 0) ∧ b.pending = none ∧ b.treeValid = false ∧ b.irq = false

/-- The invariant holds after reset, for every platform and every canonical memory. -/
def Obligations.ResetIsLegal : Prop :=
  ∀ (p : Platform) (base : Word) (bases : List Word) (mem : Memory), mem.wf = true → mem.inSpace = true →
    (State.resetOn p base bases mem).Inv

/-- Every step of every agent keeps the invariant: memory stays canonical and inside the 2^64 bytes, and in every instance
STATUS, FAULT_INFO, LAST_OP and the writer stay as 10_state R36, R47, R52 say. The canonical form of memory is the model's
choice (entry 2), and so is it that a drawn outcome of a race keeps the clauses on the writer and on STATUS (entry 7). -/
def Obligations.StepKeepsInvariant : Prop :=
  ∀ s t : State, s.Inv → step s = .next t → t.Inv

/-- 70_reset R310, R312: asserting the reset input of an instance puts it in its reset state and abandons its command; every
byte of the command's written regions becomes a draw, and so does every byte it shares with another instance's (20_memory
R92); no other byte changes; under reset reads return 0 and writes are ignored; releasing leaves the reset values. The draws
are free values (entry 5); that the reset state is taken when the input is asserted is the model's choice (entry 14). -/
def Obligations.HardwareReset : Prop :=
  ∀ (s : State) (rest : List Turn), s.mem.wf = true →
    (s.turns = .reset s.before.length true :: rest →
      ∃ t, step s = .next t ∧
        t.cur = { Block.reset s.cur.mmioBase with inReset := true } ∧ t.before = s.before ∧ t.after = s.after ∧
          (∀ a, (∀ r ∈ s.cur.writtenInFlight ++ s.cur.track.shared, r.has a = false) → t.mem.read a = s.mem.read a) ∧
          ∀ a, a < 2 ^ 64 → (∃ r ∈ s.cur.writtenInFlight ++ s.cur.track.shared, r.has a = true) →
            t.mem.read a = Config.drawByte s.draws a) ∧
      (s.cur.inReset = true → ∀ off v, s.hostWrite off v = s ∧ s.hostRead off = s.logged 0) ∧
      (s.turns = .reset s.before.length false :: rest →
        step s = .next { s with cur := { s.cur with inReset := false }, turns := rest })

/-! ### The life cycle of a command -/

/-- 10_state R52: a host write of any `w` to CMD of an idle instance is accepted, legal or not, in one step; an illegal `w`
then completes with fault ILLEGAL_CMD. -/
def Obligations.CmdWriteAccepted : Prop :=
  ∀ (s : State) (w : Word) (rest : List Turn),
    s.turns = .host (.wr s.before.length 0x008 8 w) :: rest → s.cur.inReset = false → s.cur.status.busy = false →
      ∃ t, step s = .next t ∧
        t.cur.status =
          { s.cur.status with
            busy := true, done := false, err := false, fault := .noFault, lastOp := w.extractLsb' 0 8 } ∧
        t.cur.faultInfo = 0 ∧ t.cur.pending = some w ∧ t.cur.status.werr = s.cur.status.werr ∧
        t.mem = s.mem ∧ t.turns = rest ∧
        t.cur =
          { s.cur with
            status := t.cur.status, faultInfo := t.cur.faultInfo, pending := t.cur.pending, track := t.cur.track } ∧
        (¬LegalWord w → ∃ u, t.engineTurn = .next u ∧ u.cur.status.err = true ∧ u.cur.status.done = false ∧
          u.cur.status.busy = false ∧ u.cur.status.fault = .illegalCmd ∧ u.cur.pending = none)

/-- 10_state R54: while BUSY is 1 a write to STATUS or IRQ_EN takes effect as usual; a write to any other offset, CMD,
read-only and reserved ones included, changes no register and sets WERR. -/
def Obligations.BusyWritesDropped : Prop :=
  ∀ (s : State) (off : Nat) (v : Word) (rest : List Turn),
    s.turns = .host (.wr s.before.length off 8 v) :: rest → off % 8 = 0 → off < 256 →
      s.cur.inReset = false → s.cur.status.busy = true →
        step s = .next
          { s with
            turns := rest
            cur :=
              if off = 0x010 then s.cur.writeStatus v
              else if off = 0x020 then { s.cur with irqEn := v.getLsbD 0 }
              else { s.cur with status := { s.cur.status with werr := true } } }

/-- 10_state R34, R36, R38 to R51: while BUSY is 0 a write to a read-only or reserved offset changes nothing, a write to a
parameter register puts the value there, a write to STATUS clears the W1C bits written 1, and IRQ_EN takes bit 0. -/
def Obligations.IdleWrites : Prop :=
  ∀ (s : State) (off : Nat) (v : Word), s.cur.inReset = false → s.cur.status.busy = false →
    (off ∉ [0x008, 0x010, 0x020, 0x028, 0x030, 0x038, 0x040, 0x050, 0x058, 0x060, 0x070] → s.hostWrite off v = s) ∧
      s.hostWrite 0x010 v =
        { s with
          cur :=
            { s.cur with
              status :=
                { s.cur.status with
                  done := s.cur.status.done && !v.getLsbD 1
                  err := s.cur.status.err && !v.getLsbD 2
                  werr := s.cur.status.werr && !v.getLsbD 3 } } } ∧
      s.hostWrite 0x020 v = { s with cur := { s.cur with irqEn := v.getLsbD 0 } } ∧
      s.hostWrite 0x028 v = { s with cur := { s.cur with srcAddr := v } } ∧
      s.hostWrite 0x030 v = { s with cur := { s.cur with srcLen := v } } ∧
      s.hostWrite 0x038 v = { s with cur := { s.cur with dstAddr := v } } ∧
      s.hostWrite 0x040 v = { s with cur := { s.cur with dstCap := v } } ∧
      s.hostWrite 0x050 v = { s with cur := { s.cur with metaAddr := v } } ∧
      s.hostWrite 0x058 v = { s with cur := { s.cur with origSize := v } } ∧
      s.hostWrite 0x060 v = { s with cur := { s.cur with codeCount := v } } ∧
      s.hostWrite 0x070 v = { s with cur := { s.cur with bwData := v } }

/-- 10_state R34, R35, R55 and 20_memory R90: a read of ID, STATUS or IRQ_EN returns the current value; any other read returns
a draw while BUSY is 1; once the host has read STATUS with BUSY = 0 it returns the register's value; while BUSY is 0 CMD and
the offsets with no register read 0 in any case. No read changes a register of the instance. The draw is a free value (entry
5), and that an offset with no register reads as one while BUSY is 1 is the model's choice (entry 21). -/
def Obligations.HostReads : Prop :=
  ∀ (s : State) (off : Nat), s.cur.inReset = false →
    (off = 0x000 ∨ off = 0x010 ∨ off = 0x020 → (s.hostRead off).log = s.cur.readAt off :: s.log) ∧
      (off ≠ 0x000 → off ≠ 0x010 → off ≠ 0x020 → s.cur.status.busy = true →
        (s.hostRead off).log = Config.drawWord s.draws 0 :: s.log) ∧
      (off ≠ 0x000 → off ≠ 0x010 → off ≠ 0x020 → s.cur.status.busy = false →
        ((s.hostRead 0x010).hostRead off).log = s.cur.readAt off :: s.cur.readAt 0x010 :: s.log) ∧
      (off = 0x008 ∨ (∀ r : Reg, regOffset r ≠ off) → s.cur.status.busy = false → s.hostRead off = { s with log := 0 :: s.log }) ∧
      ∀ r : Reg, (s.hostRead off).cur.readReg r = s.cur.readReg r

/-- 10_state R33, R34: the offset of each named register, every one 8-byte-aligned and below 256; an offset with no name
reads 0. -/
def Obligations.RegisterMapAgrees : Prop :=
  (regOffset .id = 0x000 ∧ regOffset .cmd = 0x008 ∧ regOffset .status = 0x010 ∧ regOffset .faultInfo = 0x018 ∧
      regOffset .irqEn = 0x020 ∧ regOffset .srcAddr = 0x028 ∧ regOffset .srcLen = 0x030 ∧ regOffset .dstAddr = 0x038 ∧
      regOffset .dstCap = 0x040 ∧ regOffset .dstLen = 0x048 ∧ regOffset .metaAddr = 0x050 ∧ regOffset .origSize = 0x058 ∧
      regOffset .codeCount = 0x060 ∧ regOffset .dictSize = 0x068 ∧ regOffset .bwData = 0x070 ∧ regOffset .bwState = 0x078 ∧
      regOffset .brByte = 0x080 ∧ regOffset .brBit = 0x088 ∧ regOffset .brData = 0x090 ∧ regOffset .symOut = 0x098 ∧
      regOffset .hufState = 0x0A0 ∧ regOffset .codeLen = 0x0A8 ∧ regOffset .codeW0 = 0x0B0 ∧ regOffset .codeW1 = 0x0B8 ∧
      regOffset .codeW2 = 0x0C0 ∧ regOffset .codeW3 = 0x0C8) ∧
    (∀ r : Reg, regAt (regOffset r) = some r) ∧
    (∀ (off : Nat) (r : Reg), regAt off = some r → off = regOffset r ∧ off % 8 = 0 ∧ off < 256) ∧
    ∀ (b : Block) (off : Nat), (∀ r : Reg, regOffset r ≠ off) → b.readAt off = 0

/-- 10_state R32, R35 to R51: where the fields of each register stand, every other bit reading 0; 60_exceptions R271: the
numbers of the fault codes. -/
def Obligations.RegisterFields : Prop :=
  (faultNum .noFault = 0x00 ∧ faultNum .illegalCmd = 0x01 ∧ faultNum .busError = 0x02 ∧ faultNum .addrRange = 0x03 ∧
      faultNum .regionOverlap = 0x04 ∧ faultNum .capacity = 0x05 ∧ faultNum .hufEmptyCode = 0x10 ∧
      faultNum .hufEndOfStream = 0x11 ∧ faultNum .hufNullChild = 0x12 ∧ faultNum .hufNoTree = 0x13 ∧
      faultNum .hufFreqOverflow = 0x14 ∧ faultNum .lzwInvalidCode = 0x20 ∧ faultNum .lzwShortOutput = 0x21 ∧
      faultNum .lzwLongOutput = 0x22 ∧ faultNum .bitEndOfStream = 0x30 ∧ faultNum .bitWriterClosed = 0x31) ∧
  ∀ b : Block,
    (b.readReg .id = 0x0000000141534547 ∧ b.readReg .cmd = 0 ∧ b.readReg .faultInfo = b.faultInfo ∧
        (b.readReg .irqEn).getLsbD 0 = b.irqEn ∧ (b.readReg .irqEn).extractLsb' 1 63 = 0 ∧
        b.readReg .srcAddr = b.srcAddr ∧ b.readReg .srcLen = b.srcLen ∧ b.readReg .dstAddr = b.dstAddr ∧
        b.readReg .dstCap = b.dstCap ∧ b.readReg .dstLen = b.dstLen ∧ b.readReg .metaAddr = b.metaAddr ∧
        b.readReg .origSize = b.origSize ∧ b.readReg .codeCount = b.codeCount ∧ b.readReg .bwData = b.bwData ∧
        b.readReg .brByte = b.brByte ∧ b.readReg .brData = b.brData ∧
        (b.readReg .dictSize).toNat = b.dictSize.toNat ∧ (b.readReg .brBit).toNat = b.brBit.toNat ∧
        (b.readReg .symOut).toNat = b.symOut.toNat ∧ (b.readReg .codeLen).toNat = b.codeLen.toNat) ∧
    ((b.readReg .status).getLsbD 0 = b.status.busy ∧ (b.readReg .status).getLsbD 1 = b.status.done ∧
        (b.readReg .status).getLsbD 2 = b.status.err ∧ (b.readReg .status).getLsbD 3 = b.status.werr ∧
        (b.readReg .status).extractLsb' 4 4 = 0 ∧ (b.readReg .status).extractLsb' 8 8 = faultNum b.status.fault ∧
        (b.readReg .status).extractLsb' 16 8 = b.status.lastOp ∧ (b.readReg .status).extractLsb' 24 40 = 0) ∧
      ((b.readReg .bwState).extractLsb' 0 8 = b.bwAcc ∧ (b.readReg .bwState).extractLsb' 8 3 = b.bwCnt ∧
        (b.readReg .bwState).extractLsb' 11 5 = 0 ∧ (b.readReg .bwState).getLsbD 16 = b.bwOpen ∧
        (b.readReg .bwState).extractLsb' 17 47 = 0) ∧
      (((b.readReg .hufState).extractLsb' 0 9).toNat = (if b.treeValid then nleaves b.freq else 0) ∧
        (b.readReg .hufState).extractLsb' 9 7 = 0 ∧ (b.readReg .hufState).getLsbD 16 = b.treeValid ∧
        (b.readReg .hufState).extractLsb' 17 47 = 0) ∧
      b.readReg .codeW3 ++ b.readReg .codeW2 ++ b.readReg .codeW1 ++ b.readReg .codeW0 = b.code

/-- 10_state R53, 70_reset R321: every command ends. Where none of its regions stands on memory that is not idempotent, `exec`
answers a next state; a next state has BUSY = 0, no command pending and one outcome, success or a fault; on memory that is not
idempotent the one other answer is the refusal of 20_memory R87. -/
def Obligations.EveryCommandEnds : Prop :=
  ∀ (i : Instr) (s : State),
    ((∀ r ∈ s.cur.regions i, ∀ d ∈ s.platform.devices, d.overlaps r.range = false) → ∃ t, exec i s = .next t) ∧
      (exec i s = .refused .notIdempotent ∨ ∃ t, exec i s = .next t) ∧
      ∀ t, exec i s = .next t → t.cur.status.busy = false ∧ t.cur.pending = none ∧
        ((t.cur.status.done = true ∧ t.cur.status.err = s.cur.status.err ∧ t.cur.status.fault = s.cur.status.fault ∧
            t.cur.faultInfo = s.cur.faultInfo) ∨
          (t.cur.status.err = true ∧ t.cur.status.done = s.cur.status.done ∧ t.cur.status.fault ≠ .noFault))

/-- 60_exceptions R274: what recording a fault leaves. A command that faults has ERR = 1 and its code in FAULT, BUSY = 0, DONE
and LAST_OP as they were; no mode and no mask changes; the interrupt line is up exactly when it is enabled; and the next CMD
write is accepted. -/
def Obligations.FaultRecorded : Prop :=
  ∀ (i : Instr) (s t : State), s.cur.status.err = false → exec i s = .next t → t.cur.status.err = true →
    t.cur.status.fault ∈ commandFaults i ∧ t.cur.status.busy = false ∧ t.cur.status.done = s.cur.status.done ∧
      t.cur.status.lastOp = s.cur.status.lastOp ∧ t.cur.status.werr = s.cur.status.werr ∧ t.cur.irqEn = s.cur.irqEn ∧
      t.cur.irq = t.cur.irqEn ∧ t.cur.pending = none ∧
      ∀ w, t.cur.inReset = false → (t.hostWrite 0x008 w).cur.pending = some w

/-- 60_exceptions R275: a fault that is not one of the partial faults leaves everything but STATUS and FAULT_INFO as it was:
every register, FREQ, the writer, the reader, all memory and every other instance. -/
def Obligations.PreciseFaults : Prop :=
  ∀ (i : Instr) (s t : State), s.cur.status.err = false → exec i s = .next t → t.cur.status.err = true →
    t.cur.status.fault ∉ partialFaults i →
      ∃ info, t = s.faulted t.cur.status.fault info

/-- 60_exceptions R276: after a partial fault DST_LEN is the length of what was written at the start of the destination, it is
within DST_CAP, and no other byte of memory has changed. -/
def Obligations.PartialFaults : Prop :=
  ∀ (i : Instr) (s t : State), s.cur.status.err = false → exec i s = .next t → t.cur.status.err = true →
    t.cur.status.fault ∈ partialFaults i →
      t.cur.dstLen.toNat ≤ s.cur.dstCap.toNat ∧ t.cur.bwOpen = false ∧
        SameOutside { base := s.cur.dstAddr.toNat, len := t.cur.dstLen.toNat } s.mem t.mem

/-- 10_state R31, R39, R40, R46 and 60_exceptions R283: no command writes SRC_ADDR, SRC_LEN, DST_ADDR, DST_CAP,
META_ADDR or BW_DATA, the parameter registers that only the host writes (ORIG_SIZE and CODE_COUNT, which some commands write,
are not among them: `RegisterWriters`), the interrupt enable, WERR or LAST_OP, another instance, the platform or what the host
has seen. -/
def Obligations.CommandFrame : Prop :=
  ∀ (i : Instr) (s t : State), exec i s = .next t →
    (t.before = s.before ∧ t.after = s.after ∧ t.platform = s.platform ∧ t.turns = s.turns ∧ t.log = s.log ∧
        t.draws = s.draws) ∧
      (t.cur.mmioBase = s.cur.mmioBase ∧ t.cur.inReset = s.cur.inReset ∧ t.cur.status.werr = s.cur.status.werr ∧
        t.cur.status.lastOp = s.cur.status.lastOp ∧ t.cur.irqEn = s.cur.irqEn ∧ t.cur.track = s.cur.track) ∧
      (t.cur.srcAddr = s.cur.srcAddr ∧ t.cur.srcLen = s.cur.srcLen ∧ t.cur.dstAddr = s.cur.dstAddr ∧
        t.cur.dstCap = s.cur.dstCap ∧ t.cur.metaAddr = s.cur.metaAddr ∧ t.cur.bwData = s.cur.bwData)

/-- 10_state R41 to R51: which of the registers that commands write each command leaves alone: ORIG_SIZE, CODE_COUNT,
DICT_SIZE, BR_DATA, SYM_OUT, the codeword registers, FREQ with TREE_VALID, the reader position, and the writer with DST_LEN. -/
def Obligations.RegisterWriters : Prop :=
  ∀ (i : Instr) (s t : State), exec i s = .next t →
    (i ∉ [.hufCount, .hufEncode, .lzwEncode] → t.cur.origSize = s.cur.origSize) ∧
      (i ≠ .lzwEncode → t.cur.codeCount = s.cur.codeCount) ∧
      (i ∉ [.lzwEncode, .softReset] → t.cur.dictSize = s.cur.dictSize) ∧
      (i ≠ .softReset → (∀ n, i ≠ .brGet n) → t.cur.brData = s.cur.brData) ∧
      (i ∉ [.hufGetSym, .softReset] → t.cur.symOut = s.cur.symOut) ∧
      (i ≠ .softReset → (∀ sym, i ≠ .hufCode sym) → t.cur.codeLen = s.cur.codeLen ∧ t.cur.code = s.cur.code) ∧
      (i ∉ [.hufCount, .hufLoadFreq, .hufEncode, .hufDecode, .softReset] → t.cur.freq = s.cur.freq) ∧
      (i ∉ [.hufCount, .hufLoadFreq, .hufBuild, .hufEncode, .hufDecode, .softReset] →
        t.cur.treeValid = s.cur.treeValid) ∧
      (i ∉ [.brInit, .hufGetSym, .hufDecode, .softReset] → (∀ n, i ≠ .brGet n) →
        t.cur.brByte = s.cur.brByte ∧ t.cur.brBit = s.cur.brBit) ∧
      (i ∉ [.bwInit, .bwFinish, .hufEncode, .hufDecode, .lzwEncode, .softReset] → (∀ b, i ≠ .lzwDecode b) →
        t.cur.bwOpen = s.cur.bwOpen ∧
          ((∀ n, i ≠ .bwPut n) → (∀ sym, i ≠ .hufPutSym sym) →
            t.cur.bwAcc = s.cur.bwAcc ∧ t.cur.bwCnt = s.cur.bwCnt ∧ t.cur.dstLen = s.cur.dstLen))

/-- 20_memory R84, R86: a command changes no byte outside its written regions; one that writes no region changes no byte at
all. What it does depends on no byte outside its read regions: memories that read alike there give the same instance, and a
byte that is alike in them before the command is alike after it. -/
def Obligations.CommandMemoryFrame : Prop :=
  ∀ (i : Instr) (s t : State), exec i s = .next t →
    (∀ a, (∀ r ∈ s.cur.regions i, r.write = true → r.range.has a = false) → t.mem.read a = s.mem.read a) ∧
      ∀ m : Memory, s.mem.wf = true → m.wf = true →
        (∀ r ∈ s.cur.regions i, r.write = false → ∀ a, r.range.has a = true → m.read a = s.mem.read a) →
          ∃ t', exec i { s with mem := m } = .next t' ∧ t' = { t with mem := t'.mem } ∧
            ∀ a, m.read a = s.mem.read a → t'.mem.read a = t.mem.read a

/-- 20_memory R84: the regions of each command, and the numbers of their ids. R85: past its state checks a command runs the
region checks before anything else. The first region past 2^64 faults ADDR_RANGE with its id; else the first pair that
overlaps, one of the two written, faults REGION_OVERLAP with both ids; else the lowest address of the first region with one
that ADMIT denies faults BUS_ERROR; these faults are precise. Empty regions pass, and so do two read regions that overlap. -/
def Obligations.RegionChecks : Prop :=
  (regionNum .src = 0 ∧ regionNum .metaTable = 1 ∧ regionNum .dst = 2) ∧
  (pairs [] = [] ∧ (∀ p, pairs [p] = []) ∧ (∀ p q, pairs [p, q] = [(p, q)]) ∧
    ∀ p q r, pairs [p, q, r] = [(p, q), (p, r), (q, r)]) ∧
  (∀ (b : Block) (src codes tableIn tableOut dst : Region),
    src = { id := .src, base := b.srcAddr.toNat, len := b.srcLen.toNat, write := false } →
    codes = { id := .src, base := b.srcAddr.toNat, len := 2 * b.codeCount.toNat, write := false } →
    tableIn = { id := .metaTable, base := b.metaAddr.toNat, len := 1024, write := false } →
    tableOut = { id := .metaTable, base := b.metaAddr.toNat, len := 1024, write := true } →
    dst = { id := .dst, base := b.dstAddr.toNat, len := b.dstCap.toNat, write := true } →
      (b.regions .nop = [] ∧ b.regions .softReset = [] ∧ b.regions .bwInit = [] ∧ b.regions .brInit = [] ∧
          b.regions .hufBuild = [] ∧ ∀ sym, b.regions (.hufCode sym) = []) ∧
        ((∀ n, b.regions (.bwPut n) = [dst]) ∧ b.regions .bwFinish = [dst] ∧ ∀ sym, b.regions (.hufPutSym sym) = [dst]) ∧
        ((∀ n, b.regions (.brGet n) = [src]) ∧ b.regions .hufGetSym = [src]) ∧
        (b.regions .hufCount = [src, tableOut] ∧ b.regions .hufLoadFreq = [tableIn] ∧
          b.regions .hufEncode = [src, tableOut, dst] ∧ b.regions .hufDecode = [src, tableIn, dst] ∧
          b.regions .lzwEncode = [src, dst] ∧ ∀ strict, b.regions (.lzwDecode strict) = [codes, dst])) ∧
  (∀ (i : Instr) (s : State) (code : FaultCode) (info : Nat), s.cur.prereqFault i = none →
      checkRegions s.denied s.platform.devices (s.cur.regions i) = .fault code info →
        exec i s = .next (s.faulted code info)) ∧
    ∀ (s : State) (rs : List Region),
      (∀ l r l', rs = l ++ r :: l' → (∀ x ∈ l, ¬x.PastEnd) → r.PastEnd →
          checkRegions s.denied s.platform.devices rs = .fault .addrRange (regionNum r.id)) ∧
        ((∀ r ∈ rs, ¬r.PastEnd) →
          (∀ l p q l', pairs rs = l ++ (p, q) :: l' → (∀ x ∈ l, ¬RegionsClash x.1 x.2) → RegionsClash p q →
              checkRegions s.denied s.platform.devices rs =
                .fault .regionOverlap (regionNum p.id * 256 + regionNum q.id)) ∧
            ((∀ x ∈ pairs rs, ¬RegionsClash x.1 x.2) →
              (∀ l r l' a, rs = l ++ r :: l' → (∀ x ∈ l, s.RegionAdmitted x) → r.base ≤ a → a < r.base + r.len →
                  s.admitted a = false → (∀ y, r.base ≤ y → y < a → s.admitted y = true) →
                    checkRegions s.denied s.platform.devices rs = .fault .busError a) ∧
                ((∀ r ∈ rs, s.RegionAdmitted r) → (∀ r ∈ rs, ∀ d ∈ s.platform.devices, d.overlaps r.range = false) →
                  checkRegions s.denied s.platform.devices rs = .pass)))

/-- 20_memory R87: ADMIT is false at every address of every register block, and a command past its checks with a region on
memory that is not idempotent is refused; where such memory is, the platform says (entry 10). -/
def Obligations.BlocksAndDevices : Prop :=
  (∀ (s : State) (b : Block) (a : Nat), b ∈ s.blocks → b.window.has a = true → s.admitted a = false) ∧
    ∀ (i : Instr) (s : State), s.cur.prereqFault i = none →
      (∀ code info, checkRegions s.denied s.platform.devices (s.cur.regions i) ≠ .fault code info) →
      (∃ r ∈ s.cur.regions i, ∃ d ∈ s.platform.devices, d.overlaps r.range = true) →
        exec i s = .refused .notIdempotent

/-- 60_exceptions R277: a command that needs a tree faults HUF_NO_TREE without one, before anything else; one that needs an
open writer then faults BIT_WRITER_CLOSED. Both are precise. -/
def Obligations.StatePrerequisites : Prop :=
  ∀ (i : Instr) (s : State) (code : FaultCode), s.cur.prereqFault i = some code →
    exec i s = .next (s.faulted code 0)

/-- 60_exceptions R271, R277: the capacity checks made from the registers alone. A put or a flush that would push past
DST_CAP, and a decode whose ORIG_SIZE is above DST_CAP, fault CAPACITY with the bytes needed (saturated, entry 15) and
change nothing else. -/
def Obligations.CapacityChecks : Prop :=
  ∀ s : State,
    (∀ n : BitVec 7, s.cur.bwOpen = true → s.ChecksPass (.bwPut n) → 0 < (s.cur.bwCnt.toNat + n.toNat) / 8 →
        s.cur.dstCap.toNat < s.cur.dstLen.toNat + (s.cur.bwCnt.toNat + n.toNat) / 8 →
        exec (.bwPut n) s =
          .next (s.faulted .capacity (s.cur.dstLen.toNat + (s.cur.bwCnt.toNat + n.toNat) / 8))) ∧
      (s.cur.bwOpen = true → s.ChecksPass .bwFinish → s.cur.bwCnt ≠ 0 → s.cur.dstCap.toNat < s.cur.dstLen.toNat + 1 →
        exec .bwFinish s = .next (s.faulted .capacity (s.cur.dstLen.toNat + 1))) ∧
      (s.ChecksPass .hufDecode → s.cur.dstCap.toNat < s.cur.origSize.toNat →
        exec .hufDecode s = .next (s.faulted .capacity s.cur.origSize.toNat)) ∧
      ∀ strict, s.ChecksPass (.lzwDecode strict) → s.cur.dstCap.toNat < s.cur.origSize.toNat →
        exec (.lzwDecode strict) s = .next (s.faulted .capacity s.cur.origSize.toNat)

/-! ### Control -/

/-- 43_control R260: NOP completes and changes nothing but STATUS. -/
def Obligations.NopCompletes : Prop :=
  encode .nop = 0 ∧
    ∀ s : State, exec .nop s =
      .next { s with cur := { s.cur with status := { s.cur.status with done := true, busy := false }, pending := none } }

/-- 43_control R261: SOFT_RESET puts the command-written state back to its reset values, keeps everything else, and a second
one changes only STATUS. -/
def Obligations.SoftResetClears : Prop :=
  (∀ s : State, exec .softReset s =
      .next (s.completed
        { s.cur with
          freq := FreqTable.zero, treeValid := false
          bwAcc := 0, bwCnt := 0, bwOpen := false, dstLen := 0
          brByte := 0, brBit := 0, brData := 0
          symOut := 0, codeLen := 0, code := 0, dictSize := 0 } s.mem)) ∧
    ∀ s t u : State, exec .softReset s = .next t → exec .softReset t = .next u → u = t

/-- 43_control R262: when the registers SOFT_RESET keeps hold their reset values and WERR is 0, then from the acceptance of
the next command on the instance is as a freshly reset one, but for what the host has yet to acquire. -/
def Obligations.SoftResetLikeReset : Prop :=
  ∀ (s t : State) (w : Word), exec .softReset s = .next t →
    s.cur.inReset = false → s.cur.status.werr = false → s.cur.irqEn = false → s.cur.srcAddr = 0 → s.cur.srcLen = 0 →
    s.cur.dstAddr = 0 → s.cur.dstCap = 0 → s.cur.metaAddr = 0 → s.cur.origSize = 0 → s.cur.codeCount = 0 →
    s.cur.bwData = 0 →
      t.cur.submit w = { (Block.reset s.cur.mmioBase).submit w with track := (t.cur.submit w).track }

/-! ### Bit I/O -/

/-- 40_bitio R143, R146: BW_INIT, word 0x30, opens an empty writer, discarding a partial byte; BR_INIT, word 0x38, rewinds
the reader and leaves BR_DATA. Neither touches memory. -/
def Obligations.BitUnitsOpen : Prop :=
  encode .bwInit = 0x30 ∧ encode .brInit = 0x38 ∧ ∀ s : State,
    exec .bwInit s =
        .next (s.completed { s.cur with bwAcc := 0, bwCnt := 0, bwOpen := true, dstLen := 0 } s.mem) ∧
      exec .brInit s = .next (s.completed { s.cur with brByte := 0, brBit := 0 } s.mem)

/-- 40_bitio R144 and 10_state R46, R47: BW_PUT N appends the N low bits of BW_DATA, most significant first, to the bits of
the partial byte; each eight bits go to the next byte of the destination, the first bit in bit 7; the rest is the new partial
byte. Nothing else changes. The premise on ACC is 10_state R47's (the invariant of StepKeepsInvariant). -/
def Obligations.BwPutAppends : Prop :=
  ∀ (n : BitVec 7) (s : State), s.cur.bwOpen = true → s.ChecksPass (.bwPut n) →
    s.cur.bwAcc.toNat < 2 ^ s.cur.bwCnt.toNat →
    ((s.cur.bwCnt.toNat + n.toNat) / 8 = 0 ∨
      s.cur.dstLen.toNat + (s.cur.bwCnt.toNat + n.toNat) / 8 ≤ s.cur.dstCap.toNat) →
      ∃ bits p, bits = s.cur.partialBits ++ lowBits n.toNat s.cur.bwData ∧ p = (s.cur.bwCnt.toNat + n.toNat) / 8 ∧
        exec (.bwPut n) s =
          .next (s.completed
            { s.cur with
              dstLen := BitVec.ofNat 64 (s.cur.dstLen.toNat + p)
              bwCnt := BitVec.ofNat 3 (bits.length % 8)
              bwAcc := BitVec.ofNat 8 (bitsValue (bits.drop (8 * p))) }
            (s.mem.writeBytes (s.cur.dstAddr.toNat + s.cur.dstLen.toNat) (packWhole p bits)))

/-- 40_bitio R145: BW_FINISH writes the partial byte, its bits in the high positions and 0 below them, and closes the writer;
with no partial byte it writes nothing. -/
def Obligations.BwFinishFlushes : Prop :=
  ∀ s : State, s.cur.bwOpen = true → s.ChecksPass .bwFinish → s.cur.bwAcc.toNat < 2 ^ s.cur.bwCnt.toNat →
    (s.cur.bwCnt = 0 →
        exec .bwFinish s = .next (s.completed { s.cur with bwAcc := 0, bwCnt := 0, bwOpen := false } s.mem)) ∧
      (s.cur.bwCnt ≠ 0 → s.cur.dstLen.toNat + 1 ≤ s.cur.dstCap.toNat →
        exec .bwFinish s =
          .next (s.completed
            { s.cur with
              dstLen := BitVec.ofNat 64 (s.cur.dstLen.toNat + 1), bwAcc := 0, bwCnt := 0, bwOpen := false }
            (s.mem.write (s.cur.dstAddr.toNat + s.cur.dstLen.toNat) (packByte s.cur.partialBits))))

/-- 40_bitio R147, 10_state R48, R49: with N bits left BR_GET N puts them in BR_DATA, the first at bit N−1, and moves the
position past them. With fewer left it faults BIT_END_OF_STREAM with the number of bits left, and no bit is consumed. -/
def Obligations.BrGetReads : Prop :=
  ∀ (n : BitVec 7) (s : State), 1 ≤ n.toNat → n.toNat ≤ 64 → s.ChecksPass (.brGet n) →
    (n.toNat ≤ s.unread.length →
        exec (.brGet n) s =
          .next (s.completed
            { s.cur with
              brData := BitVec.ofNat 64 (bitsValue (s.unread.take n.toNat))
              brByte := BitVec.ofNat 64 ((s.cur.streamPos + n.toNat) / 8)
              brBit := BitVec.ofNat 3 ((s.cur.streamPos + n.toNat) % 8) } s.mem)) ∧
      (s.unread.length < n.toNat → exec (.brGet n) s = .next (s.faulted .bitEndOfStream s.unread.length))

/-- 40_bitio R148, R149: after BW_INIT, any BW_PUTs and HUF_PUT_SYMs and BW_FINISH, none faulting, that write L bits in all,
DST_LEN is ceil(L/8), and the bit stream of those destination bytes is the bits written, in order, then zeros. With SRC_ADDR
and SRC_LEN set to DST_ADDR and DST_LEN, BR_INIT and then BR_GETs of any sizes that sum to L complete and read those bits, in
order. -/
def Obligations.WriterStreamRoundTrip : Prop :=
  ∀ (cmds : List (Instr × Word)) (sizes : List (BitVec 7)) (s s₁ s₂ s₃ u u₁ : State) (bits : Bits),
    s.mem.wf = true → s.cur.status.err = false → (∀ c ∈ cmds, (∃ n, c.1 = .bwPut n) ∨ ∃ sym, c.1 = .hufPutSym sym) →
    exec .bwInit s = .next s₁ → runAll cmds s₁ = some s₂ → exec .bwFinish s₂ = .next s₃ → s₃.cur.status.err = false →
    bits = appendedStream s.cur.codeTable cmds →
      (s₃.cur.dstLen.toNat = (bits.length + 7) / 8 ∧
        streamBits (s₃.mem.readBytes s.cur.dstAddr.toNat s₃.cur.dstLen.toNat) =
          bits ++ List.replicate (8 * s₃.cur.dstLen.toNat - bits.length) false) ∧
        (u.mem = s₃.mem → u.cur.srcAddr = s₃.cur.dstAddr → u.cur.srcLen = s₃.cur.dstLen → u.cur.status.err = false →
          (∀ n, u.ChecksPass (.brGet n)) → exec .brInit u = .next u₁ →
          (∀ n ∈ sizes, 1 ≤ n.toNat ∧ n.toNat ≤ 64) → (sizes.map BitVec.toNat).sum = bits.length →
            readAll sizes u₁ = some bits)

/-! ### Huffman -/

/-- 41_huffman R172: PopMin takes one node out of a queue that is not empty, and no other node of it has a lesser key: first
the frequency, then the symbol, an internal node standing below every symbol, then, of two internal nodes, the creation
number. -/
def Obligations.PopMinTakesLeast : Prop :=
  ∀ q : List HufTree, q ≠ [] →
    ∃ m rest, popMin q = some (m, rest) ∧ (m :: rest).Perm q ∧
      ∀ x ∈ rest,
        match m, x with
        | .leaf s f, .leaf s' f' => f < f' ∨ f = f' ∧ s.toNat ≤ s'.toNat
        | .leaf _ f, .node f' _ _ _ => f < f'
        | .node f _ _ _, .leaf _ f' => f ≤ f'
        | .node f k _ _, .node f' k' _ _ => f < f' ∨ f = f' ∧ k ≤ k'

/-- 41_huffman R171: BuildTree starts with one leaf for each symbol that occurs, with its count; each turn of its loop joins the
two nodes PopMin takes, the first popped on the left, in a node with the sum of their frequencies and the next creation
number, 0 at the start; the root is the last node in the queue. The tree is absent exactly when every count is 0; its leaves
are the symbols that occur, once each, and its frequency is the sum of the counts. -/
def Obligations.TreeHasEachSymbolOnce : Prop :=
  ∀ f : FreqTable,
    (buildTree f = none ↔ ∀ sym : Byte, f.count sym = 0) ∧
      ∀ root,
        (buildTree f = some root ↔
          TreeLoop 0 ((allSymbols.filter fun sym => f.count sym ≠ 0).map fun sym => .leaf sym (f.count sym).toNat) root) ∧
        (buildTree f = some root →
          root.syms.Perm (allSymbols.filter fun sym => f.count sym ≠ 0) ∧
            root.freq = (allSymbols.map fun sym => (f.count sym).toNat).sum)

/-- 41_huffman R173, R174: a symbol has an empty slot exactly when its count is 0; with two leaves or more the codeword of one
that occurs is the path from the root to its leaf, 0 for a left edge and 1 for a right one, and has 1 to NLEAVES − 1 bits;
with one leaf it is the bit 0; so it fits CODE_LEN; no codeword is a beginning of another symbol's. -/
def Obligations.CodewordsFormPrefixCode : Prop :=
  ∀ (f : FreqTable) (x : Byte),
    (codeOf (codeTable (buildTree f)) x = [] ↔ f.count x = 0) ∧
      (f.count x ≠ 0 → nleaves f = 1 → codeOf (codeTable (buildTree f)) x = [false]) ∧
      (f.count x ≠ 0 → 2 ≤ nleaves f → ∃ root, buildTree f = some root ∧
        ∀ p, root.Path x p ↔ p = codeOf (codeTable (buildTree f)) x) ∧
      (2 ≤ nleaves f → (codeOf (codeTable (buildTree f)) x).length ≤ nleaves f - 1) ∧
      (codeOf (codeTable (buildTree f)) x).length ≤ 255 ∧
      ∀ y : Byte, f.count x ≠ 0 → f.count y ≠ 0 →
        codeOf (codeTable (buildTree f)) x <+: codeOf (codeTable (buildTree f)) y → x = y

/-- 41_huffman R176, 20_memory R95: where no symbol occurs more than 2^32 − 1 times HUF_COUNT counts each symbol of the
source in FREQ, sets ORIG_SIZE, clears TREE_VALID and writes the table to META, each count little-endian at its own place;
otherwise it faults HUF_FREQ_OVERFLOW, with a symbol that occurs too often, and changes nothing else. -/
def Obligations.HufCountTable : Prop :=
  ∀ s : State, s.ChecksPass .hufCount →
    ((∀ sym : Byte, s.srcBytes.count sym < 2 ^ 32) →
        ∃ f : FreqTable, (∀ sym : Byte, (f.count sym).toNat = s.srcBytes.count sym) ∧
          exec .hufCount s =
            .next (s.completed { s.cur with freq := f, treeValid := false, origSize := s.cur.srcLen }
              (s.mem.writeBytes s.cur.metaAddr.toNat f.bytes)) ∧
          f.bytes.length = 1024 ∧
          (s.mem.wf = true → ∀ sym : Byte,
            (s.mem.writeBytes s.cur.metaAddr.toNat f.bytes).readLE (s.cur.metaAddr.toNat + 4 * sym.toNat) 4 =
              (f.count sym).toNat)) ∧
      ((∃ sym : Byte, 2 ^ 32 ≤ s.srcBytes.count sym) →
        ∃ sym : Byte, 2 ^ 32 ≤ s.srcBytes.count sym ∧ exec .hufCount s = .next (s.faulted .hufFreqOverflow sym.toNat))

/-- 41_huffman R177, 20_memory R95: HUF_LOAD_FREQ reads each count from META, little-endian, and clears TREE_VALID; it
touches nothing else, ORIG_SIZE included. -/
def Obligations.HufLoadFreqReads : Prop :=
  ∀ s : State, s.ChecksPass .hufLoadFreq →
    ∃ f : FreqTable,
      (∀ sym : Byte, (f.count sym).toNat = s.mem.readLE (s.cur.metaAddr.toNat + 4 * sym.toNat) 4) ∧
        exec .hufLoadFreq s = .next (s.completed { s.cur with freq := f, treeValid := false } s.mem)

/-- 41_huffman R178: HUF_BUILD makes the tree of the current FREQ valid; HUF_STATE then reads TREE_VALID = 1 and the number
of symbols that occur. -/
def Obligations.HufBuildValid : Prop :=
  ∀ s : State,
    exec .hufBuild s = .next (s.completed { s.cur with treeValid := true } s.mem) ∧
      ∀ t, exec .hufBuild s = .next t → t.cur.nleaves.toNat = nleaves s.cur.freq

/-- 41_huffman R179: HUF_CODE puts the codeword of a symbol that has one in the codeword registers, its length in CODE_LEN
and its bits, first bit the most significant, in CODE_W0 to CODE_W3; for a symbol with an empty slot it faults
HUF_EMPTY_CODE. Nothing else changes. -/
def Obligations.HufCodeLooksUp : Prop :=
  ∀ (sym : Byte) (s : State), s.cur.treeValid = true →
    (s.cur.freq.count sym ≠ 0 →
        ∃ (len : Byte) (v : BitVec 256),
          len.toNat = (codeOf s.cur.codeTable sym).length ∧ v.toNat = bitsValue (codeOf s.cur.codeTable sym) ∧
            exec (.hufCode sym) s = .next (s.completed { s.cur with codeLen := len, code := v } s.mem)) ∧
      (s.cur.freq.count sym = 0 → exec (.hufCode sym) s = .next (s.faulted .hufEmptyCode sym.toNat))

/-- 41_huffman R180: HUF_PUT_SYM appends the codeword of a symbol that occurs to the bits of the partial byte, as BW_PUT does
with its bits; for a symbol with an empty slot it faults HUF_EMPTY_CODE, and past DST_CAP it faults CAPACITY. Nothing else
changes. The premise on ACC is 10_state R47's (the invariant of StepKeepsInvariant). -/
def Obligations.HufPutSymAppends : Prop :=
  ∀ (sym : Byte) (s : State), s.cur.treeValid = true → s.cur.bwOpen = true → s.ChecksPass (.hufPutSym sym) →
    s.cur.bwAcc.toNat < 2 ^ s.cur.bwCnt.toNat →
    ∃ bits p, bits = s.cur.partialBits ++ codeOf s.cur.codeTable sym ∧ p = bits.length / 8 ∧
      (s.cur.freq.count sym ≠ 0 → (p = 0 ∨ s.cur.dstLen.toNat + p ≤ s.cur.dstCap.toNat) →
          exec (.hufPutSym sym) s =
            .next (s.completed
              { s.cur with
                dstLen := BitVec.ofNat 64 (s.cur.dstLen.toNat + p)
                bwCnt := BitVec.ofNat 3 (bits.length % 8)
                bwAcc := BitVec.ofNat 8 (bitsValue (bits.drop (8 * p))) }
              (s.mem.writeBytes (s.cur.dstAddr.toNat + s.cur.dstLen.toNat) (packWhole p bits)))) ∧
        (s.cur.freq.count sym ≠ 0 → 0 < p → s.cur.dstCap.toNat < s.cur.dstLen.toNat + p →
          exec (.hufPutSym sym) s = .next (s.faulted .capacity (s.cur.dstLen.toNat + p))) ∧
        (s.cur.freq.count sym = 0 → exec (.hufPutSym sym) s = .next (s.faulted .hufEmptyCode sym.toNat))

/-- 41_huffman R174, R175, R181: HUF_GET_SYM with a single-leaf tree gives its symbol and consumes no bit; with more leaves,
where the unread stream begins with the codeword of a symbol, it gives that symbol and moves past the codeword. -/
def Obligations.HufGetSymDecodes : Prop :=
  ∀ (sym : Byte) (s : State), s.cur.treeValid = true → s.ChecksPass .hufGetSym → s.cur.freq.count sym ≠ 0 →
    (nleaves s.cur.freq = 1 → exec .hufGetSym s = .next (s.completed { s.cur with symOut := sym } s.mem)) ∧
      (2 ≤ nleaves s.cur.freq → codeOf s.cur.codeTable sym <+: s.unread →
        ∃ pos, pos = s.cur.streamPos + (codeOf s.cur.codeTable sym).length ∧
          exec .hufGetSym s =
            .next (s.completed
              { s.cur with symOut := sym, brByte := BitVec.ofNat 64 (pos / 8), brBit := BitVec.ofNat 3 (pos % 8) }
              s.mem))

/-- 41_huffman R181, 60_exceptions R275: HUF_GET_SYM faults HUF_NULL_CHILD on the null tree, and HUF_END_OF_STREAM where the
unread stream begins with no codeword of a tree of two leaves or more; both leave the reader position and SYM_OUT. -/
def Obligations.HufGetSymFaults : Prop :=
  ∀ s : State, s.cur.treeValid = true → s.ChecksPass .hufGetSym →
    ((∀ sym : Byte, s.cur.freq.count sym = 0) → exec .hufGetSym s = .next (s.faulted .hufNullChild 0)) ∧
      (2 ≤ nleaves s.cur.freq →
        (∀ sym : Byte, s.cur.freq.count sym ≠ 0 → ¬codeOf s.cur.codeTable sym <+: s.unread) →
          exec .hufGetSym s = .next (s.faulted .hufEndOfStream 0))

/-- 41_huffman R182, 20_memory R97: where the counts fit and the payload fits DST_CAP, HUF_ENCODE commits the table of the
source to FREQ and to META, sets TREE_VALID, ORIG_SIZE and DST_LEN, closes the writer, and writes the concatenated codewords,
the last byte zero-padded, to DST; where the payload does not fit it faults CAPACITY with the bytes needed, and where a
count does not fit it faults HUF_FREQ_OVERFLOW with a symbol that occurs too often; both change nothing else. -/
def Obligations.HufEncodeWritesPayload : Prop :=
  ∀ s : State, s.ChecksPass .hufEncode →
    ((∀ sym : Byte, s.srcBytes.count sym < 2 ^ 32) →
      ∃ (f : FreqTable) (bits : Bits), (∀ sym : Byte, (f.count sym).toNat = s.srcBytes.count sym) ∧
        bits = payload (codeTable (buildTree f)) s.srcBytes ∧
        ((bits.length + 7) / 8 ≤ s.cur.dstCap.toNat →
          exec .hufEncode s =
            .next (s.completed
              { s.cur with
                freq := f, treeValid := true, origSize := s.cur.srcLen
                dstLen := BitVec.ofNat 64 ((bits.length + 7) / 8), bwAcc := 0, bwCnt := 0, bwOpen := false }
              ((s.mem.writeBytes s.cur.metaAddr.toNat f.bytes).writeBytes s.cur.dstAddr.toNat (packAll bits)))) ∧
        (s.cur.dstCap.toNat < (bits.length + 7) / 8 →
          exec .hufEncode s = .next (s.faulted .capacity ((bits.length + 7) / 8)))) ∧
      ((∃ sym : Byte, 2 ^ 32 ≤ s.srcBytes.count sym) →
        ∃ sym : Byte, 2 ^ 32 ≤ s.srcBytes.count sym ∧ exec .hufEncode s = .next (s.faulted .hufFreqOverflow sym.toNat))

/-- 41_huffman R174, R175, R183: HUF_DECODE commits the table of META to FREQ, sets TREE_VALID and closes the writer. Where
the payload begins with the codewords of ORIG_SIZE symbols that occur in a tree of two leaves or more, it writes those
symbols and leaves the reader just past the last codeword; with a single leaf it writes ORIG_SIZE copies of its symbol and
reads no bit; with ORIG_SIZE = 0 it writes nothing. -/
def Obligations.HufDecodeWritesSymbols : Prop :=
  ∀ (s : State) (f : FreqTable) (syms : List Byte), s.ChecksPass .hufDecode →
    (∀ sym : Byte, (f.count sym).toNat = s.mem.readLE (s.cur.metaAddr.toNat + 4 * sym.toNat) 4) →
    s.cur.origSize.toNat ≤ s.cur.dstCap.toNat → syms.length = s.cur.origSize.toNat →
    (∀ sym ∈ syms, f.count sym ≠ 0) →
    ∃ pos : Nat,
      (nleaves f = 1 ∨ syms = [] → pos = 0) ∧
        (2 ≤ nleaves f → pos = (payload (codeTable (buildTree f)) syms).length) ∧
        (nleaves f = 1 ∨ payload (codeTable (buildTree f)) syms <+: streamBits s.srcBytes →
          exec .hufDecode s =
            .next (s.completed
              { s.cur with
                freq := f, treeValid := true, bwAcc := 0, bwCnt := 0, bwOpen := false, dstLen := s.cur.origSize
                brByte := BitVec.ofNat 64 (pos / 8), brBit := BitVec.ofNat 3 (pos % 8) }
              (s.mem.writeBytes s.cur.dstAddr.toNat syms)))

/-- 41_huffman R183, 60_exceptions R276: HUF_DECODE of an all-zero table with ORIG_SIZE > 0 faults HUF_NULL_CHILD and changes
nothing else. Where the payload, in a tree of two leaves or more, is the codewords of fewer symbols than ORIG_SIZE and then
begins no further codeword, it faults HUF_END_OF_STREAM with the number of symbols written: those are in DST, FREQ and the
tree are committed, and the reader stands at 8·SRC_LEN. -/
def Obligations.HufDecodeFaults : Prop :=
  ∀ (s : State) (f : FreqTable) (syms : List Byte) (rest : Bits), s.ChecksPass .hufDecode →
    (∀ sym : Byte, (f.count sym).toNat = s.mem.readLE (s.cur.metaAddr.toNat + 4 * sym.toNat) 4) →
    s.cur.origSize.toNat ≤ s.cur.dstCap.toNat → syms.length < s.cur.origSize.toNat →
    ((∀ sym : Byte, f.count sym = 0) → exec .hufDecode s = .next (s.faulted .hufNullChild 0)) ∧
      (2 ≤ nleaves f → (∀ sym ∈ syms, f.count sym ≠ 0) →
        streamBits s.srcBytes = payload (codeTable (buildTree f)) syms ++ rest →
        (∀ sym : Byte, f.count sym ≠ 0 → ¬codeOf (codeTable (buildTree f)) sym <+: rest) →
          exec .hufDecode s =
            .next
              { s with
                cur :=
                  Block.raise
                    { s.cur with
                      freq := f, treeValid := true, bwAcc := 0, bwCnt := 0, bwOpen := false
                      dstLen := BitVec.ofNat 64 syms.length, brByte := s.cur.srcLen, brBit := 0 }
                    .hufEndOfStream syms.length
                mem := s.mem.writeBytes s.cur.dstAddr.toNat syms })

/-- 41_huffman R184: HUF_DECODE of what HUF_ENCODE wrote, with META, ORIG_SIZE and the payload as its inputs, writes the
encoder's source. -/
def Obligations.HuffmanRoundTrip : Prop :=
  ∀ s t u : State, s.mem.wf = true → s.cur.status.err = false → exec .hufEncode s = .next t → t.cur.status.err = false →
    u.mem = t.mem → u.cur.metaAddr = t.cur.metaAddr → u.cur.origSize = t.cur.origSize →
    u.cur.srcAddr = t.cur.dstAddr → u.cur.srcLen = t.cur.dstLen →
    u.ChecksPass .hufDecode → u.cur.origSize.toNat ≤ u.cur.dstCap.toNat →
      ∃ v, exec .hufDecode u = .next v ∧ v.cur.status.done = true ∧ v.cur.status.err = u.cur.status.err ∧
        v.cur.dstLen = s.cur.srcLen ∧ v.mem = u.mem.writeBytes u.cur.dstAddr.toNat s.srcBytes

/-! ### LZW -/

/-- 42_lzw R223, 20_memory R96: where the codes fit DST_CAP, LZW_ENCODE writes them little-endian to DST, sets DST_LEN,
CODE_COUNT, DICT_SIZE and ORIG_SIZE and closes the writer. Where they do not, it faults CAPACITY with the bytes the first
code that does not fit needs; the codes before it are written, DST_LEN is their length, and CODE_COUNT, DICT_SIZE and
ORIG_SIZE are unchanged. -/
def Obligations.LzwEncodeWritesCodes : Prop :=
  ∀ (s : State) (codes : List Nat) (ds : Nat), s.ChecksPass .lzwEncode → lzwEncode s.srcBytes = (codes, ds) →
    (2 * codes.length ≤ s.cur.dstCap.toNat →
        exec .lzwEncode s =
          .next (s.completed
            { s.cur with
              bwAcc := 0, bwCnt := 0, bwOpen := false
              dstLen := BitVec.ofNat 64 (2 * codes.length)
              codeCount := BitVec.ofNat 64 codes.length
              dictSize := BitVec.ofNat 16 ds
              origSize := s.cur.srcLen }
            (s.mem.writeBytes s.cur.dstAddr.toNat (codeBytes codes)))) ∧
      ∀ k, k < codes.length → 2 * k ≤ s.cur.dstCap.toNat → s.cur.dstCap.toNat < 2 * (k + 1) →
        exec .lzwEncode s =
          .next
            { s with
              cur :=
                Block.raise
                  { s.cur with
                    bwAcc := 0, bwCnt := 0, bwOpen := false, dstLen := BitVec.ofNat 64 (2 * k) }
                  .capacity (2 * (k + 1))
              mem := s.mem.writeBytes s.cur.dstAddr.toNat (codeBytes (codes.take k)) }

/-- 42_lzw R221: the empty input has no codes and counter 0. A non-empty one is cut into strings, one for each code, each code
being that of its string in the dictionary as it stands when the code is emitted: the single bytes and, with the codes from
256 up to 4095 in order, each string before it with the first byte of the next one added. No string could have been one byte
longer: with the byte after it, it is not in that dictionary. So there is at least one code and at most one per byte, every
code is below 4096, and the counter ends at min(4096, 255 + the number of codes). -/
def Obligations.LzwCodesBounded : Prop :=
  lzwEncode [] = ([], 0) ∧
    ∀ bytes : List Byte, bytes ≠ [] →
      (∃ phrases : List (List Byte), phrases.length = (lzwEncode bytes).1.length ∧ phrases.flatten = bytes ∧
        (∀ p ∈ phrases, p ≠ []) ∧
        (∀ j c p, (lzwEncode bytes).1[j]? = some c → phrases[j]? = some p →
          c < min 4096 (256 + j) ∧ phraseEntry phrases c = p) ∧
        ∀ j p q, phrases[j]? = some p → phrases[j + 1]? = some q →
          ∀ c, c < min 4096 (256 + j) → phraseEntry phrases c ≠ p ++ q.take 1) ∧
        1 ≤ (lzwEncode bytes).1.length ∧ (lzwEncode bytes).1.length ≤ bytes.length ∧
        (∀ c ∈ (lzwEncode bytes).1, c < 4096) ∧
        (lzwEncode bytes).2 = min 4096 (255 + (lzwEncode bytes).1.length)

/-- 42_lzw R224: where the codes decode to at least ORIG_SIZE bytes, exactly so many if STRICT, and ORIG_SIZE is at most
DST_CAP, LZW_DECODE writes the first ORIG_SIZE bytes, sets DST_LEN and closes the writer; it writes no other register. -/
def Obligations.LzwDecodeWritesBytes : Prop :=
  ∀ (strict : Bool) (s : State) (out : List Byte), s.ChecksPass (.lzwDecode strict) →
    lzwDecode (s.mem.readCodes s.cur.srcAddr.toNat s.cur.codeCount.toNat) = (out, none) →
    s.cur.origSize.toNat ≤ s.cur.dstCap.toNat → s.cur.origSize.toNat ≤ out.length →
    (strict = true → out.length = s.cur.origSize.toNat) →
      exec (.lzwDecode strict) s =
        .next (s.completed { s.cur with bwAcc := 0, bwCnt := 0, bwOpen := false, dstLen := s.cur.origSize }
          (s.mem.writeBytes s.cur.dstAddr.toNat (out.take s.cur.origSize.toNat)))

/-- 42_lzw R222: what LzwDecode makes of any codes, string by string. The first code is invalid at index 0 unless it is below
256. A later code below the counter, min(4096, 255 + its index), gives the dictionary's string: a single byte, or an earlier
string with the first byte of the next one added; a code equal to the counter, also where that is 4096, gives the string
before it with its own first byte added; a code above it is invalid at its index, and nothing after it counts. 42_lzw R224,
60_exceptions R276: LZW_DECODE's data faults, in their order: an invalid code at index i with value c faults LZW_INVALID_CODE;
else fewer bytes than ORIG_SIZE fault LZW_SHORT_OUTPUT; else more, if STRICT, fault LZW_LONG_OUTPUT. The bytes produced before,
at most ORIG_SIZE of them, are in DST and DST_LEN is their number. -/
def Obligations.LzwDecodeFaults : Prop :=
  (∀ codes : List Nat, ∃ phrases : List (List Byte), (lzwDecode codes).1 = phrases.flatten ∧
    ((lzwDecode codes).2 = none → phrases.length = codes.length) ∧
    (∀ i c, (lzwDecode codes).2 = some (i, c) → phrases.length = i ∧ codes[i]? = some c) ∧
    ∀ j c, codes[j]? = some c → j ≤ phrases.length →
      (c < 256 ∨ c < min 4096 (255 + j) → phrases[j]? = some (phraseEntry phrases c)) ∧
        (0 < j → c = min 4096 (255 + j) →
          phrases[j]? = some (phrases.getD (j - 1) [] ++ (phrases.getD (j - 1) []).take 1)) ∧
        (256 ≤ c → j = 0 ∨ min 4096 (255 + j) < c → (lzwDecode codes).2 = some (j, c))) ∧
  ∀ (strict : Bool) (s : State) (out : List Byte) (bad : Option (Nat × Nat)) (code : FaultCode) (info : Nat),
    s.ChecksPass (.lzwDecode strict) →
    lzwDecode (s.mem.readCodes s.cur.srcAddr.toNat s.cur.codeCount.toNat) = (out, bad) →
    s.cur.origSize.toNat ≤ s.cur.dstCap.toNat →
    ((∃ i c, bad = some (i, c) ∧ code = .lzwInvalidCode ∧ info = min i (2 ^ 48 - 1) * 2 ^ 16 + c) ∨
      (bad = none ∧ out.length < s.cur.origSize.toNat ∧ code = .lzwShortOutput ∧ info = out.length) ∨
      (bad = none ∧ s.cur.origSize.toNat < out.length ∧ strict = true ∧ code = .lzwLongOutput ∧ info = out.length)) →
      exec (.lzwDecode strict) s =
        .next
          { s with
            cur :=
              Block.raise
                { s.cur with
                  bwAcc := 0, bwCnt := 0, bwOpen := false
                  dstLen := BitVec.ofNat 64 (min out.length s.cur.origSize.toNat) }
                code info
            mem := s.mem.writeBytes s.cur.dstAddr.toNat (out.take s.cur.origSize.toNat) }

/-- 42_lzw R225: the decoder function gives back exactly the bytes the encoder function coded, and LZW_DECODE, STRICT or
not, of what LZW_ENCODE wrote, with CODE_COUNT and ORIG_SIZE from the encode, writes the encoder's source. -/
def Obligations.LzwRoundTrip : Prop :=
  (∀ bytes : List Byte, lzwDecode (lzwEncode bytes).1 = (bytes, none)) ∧
  ∀ (s t u : State) (strict : Bool), s.mem.wf = true → s.cur.status.err = false → exec .lzwEncode s = .next t →
    t.cur.status.err = false → u.mem = t.mem → u.cur.srcAddr = t.cur.dstAddr → u.cur.codeCount = t.cur.codeCount →
    u.cur.origSize = t.cur.origSize → u.ChecksPass (.lzwDecode strict) → u.cur.origSize.toNat ≤ u.cur.dstCap.toNat →
      ∃ v, exec (.lzwDecode strict) u = .next v ∧ v.cur.status.done = true ∧ v.cur.status.err = u.cur.status.err ∧
        v.cur.dstLen = s.cur.srcLen ∧ v.mem = u.mem.writeBytes u.cur.dstAddr.toNat s.srcBytes

/-! ### The host's side -/

/-- 60_exceptions R278: the interrupt line is EN and (DONE or ERR). It rises at the completion of a command when EN = 1, and
when the host sets EN while DONE or ERR is 1; it falls when the host clears DONE and ERR, when it clears EN, at the
acceptance of the next command, and at reset. -/
def Obligations.InterruptLine : Prop :=
  ∀ b : Block,
    b.irq = (b.irqEn && (b.status.done || b.status.err)) ∧
      (b.irqEn = true → b.complete.irq = true ∧ ∀ code info, (b.raise code info).irq = true) ∧
      (b.status.done = true ∨ b.status.err = true → ∀ v : Word, v.getLsbD 0 = true → (b.writeReg v .irqEn).irq = true) ∧
      (∀ v : Word, v.getLsbD 1 = true → v.getLsbD 2 = true → (b.writeReg v .status).irq = false) ∧
      (∀ v : Word, v.getLsbD 0 = false → (b.writeReg v .irqEn).irq = false) ∧
      (∀ w, (b.submit w).irq = false) ∧ (Block.reset b.mmioBase).irq = false

/-- 20_memory R91: a host write of a byte of memory marks the pending command of every instance that has a region there, and no
other command, the current instance's and any other's alike. The engine's move on a marked command makes its outcome a draw:
the fault code, FAULT_INFO, every byte of its written regions and every register it writes (the table of `outputs`), and by
R92 every byte it shares with another instance's; the command still ends, with BUSY = 0, and it changes no other byte and no
other register. The draws are free values (entry 5);
that the drawn writer keeps 10_state R47, and that the fault code is one of 60_exceptions R271's, is the model's choice (entry
7), and so is it that a write after the command's completion is no race (entry 22). -/
def Obligations.HostRaceIsDraw : Prop :=
  (∀ (s : State) (a : Nat) (v : Byte) (rest : List Turn), s.turns = .host (.memWr a v) :: rest → a < 2 ^ 64 →
    (∀ b ∈ s.blocks, b.window.has a = false) → (∀ d ∈ s.platform.devices, d.has a = false) →
      ∃ t, step s = .next t ∧
        t = { s with before := t.before, cur := t.cur, after := t.after, mem := s.mem.write a v, turns := rest } ∧
        t.before.length = s.before.length ∧ t.after.length = s.after.length ∧
        ∀ (k : Nat) (b : Block), s.blocks[k]? = some b →
          ((∃ w i r, b.pending = some w ∧ decode w = .ok i ∧ r ∈ b.regions i ∧ r.range.has a = true) →
              t.blocks[k]? = some { b with track := { b.track with raced := true } }) ∧
            ((∀ w i r, b.pending = some w → decode w = .ok i → r ∈ b.regions i → r.range.has a = false) →
              t.blocks[k]? = some b)) ∧
  (∀ (s : State) (w : Word) (i : Instr), s.mem.wf = true → s.cur.pending = some w → decode w = .ok i →
    s.cur.track.raced = true → checkRegions s.denied s.platform.devices (s.cur.regions i) ≠ .refuse →
      ∃ u, s.engineTurn = .next u ∧ u = { s with cur := u.cur, mem := u.mem, draws := s.draws + 1 } ∧
        (∀ x, x < 2 ^ 64 →
          ((∃ r ∈ s.cur.regions i, r.write = true ∧ r.range.has x = true) ∨ ∃ q ∈ s.cur.track.shared, q.has x = true) →
            u.mem.read x = Config.drawByte s.draws x) ∧
        (∀ x, (∀ r ∈ s.cur.regions i, r.write = true → r.range.has x = false) →
          (∀ q ∈ s.cur.track.shared, q.has x = false) → u.mem.read x = s.mem.read x) ∧
        u.cur.pending = none ∧ u.cur.track = { s.cur.track with raced := false, shared := [] } ∧
        Drawn s.draws (.ending :: .faultInfo :: outputs i) s.cur u.cur) ∧
    (outputs .nop = [] ∧ outputs .softReset = [] ∧ outputs .bwInit = [] ∧ outputs .brInit = [] ∧ outputs .hufBuild = [] ∧
        ∀ sym, outputs (.hufCode sym) = []) ∧
      (∀ n, outputs (.bwPut n) = [.writer, .dstLen]) ∧ (∀ sym, outputs (.hufPutSym sym) = [.writer, .dstLen]) ∧
      outputs .bwFinish = [.bwOpen, .writer, .dstLen] ∧ (∀ n, outputs (.brGet n) = [.brByte, .brBit, .brData]) ∧
      outputs .hufGetSym = [.brByte, .brBit, .symOut] ∧
      (∀ o, o ∈ outputs .hufCount ↔ o = .treeValid ∨ o = .origSize ∨ ∃ sym, o = .freq sym) ∧
      (∀ o, o ∈ outputs .hufLoadFreq ↔ o = .treeValid ∨ ∃ sym, o = .freq sym) ∧
      (∀ o, o ∈ outputs .hufEncode ↔
        o = .bwOpen ∨ o = .writer ∨ o = .dstLen ∨ o = .treeValid ∨ o = .origSize ∨ ∃ sym, o = .freq sym) ∧
      (∀ o, o ∈ outputs .hufDecode ↔
        o = .bwOpen ∨ o = .writer ∨ o = .dstLen ∨ o = .brByte ∨ o = .brBit ∨ o = .treeValid ∨ ∃ sym, o = .freq sym) ∧
      outputs .lzwEncode = [.bwOpen, .writer, .dstLen, .codeCount, .dictSize, .origSize] ∧
      ∀ strict, outputs (.lzwDecode strict) = [.bwOpen, .writer, .dstLen]

/-- 20_memory R90, R91: a host read of a byte of a written region that the host has not acquired returns a draw of a byte; a
read of any other byte returns the byte. The written regions of a command are not acquired from its acceptance on, and the
host's read of STATUS with BUSY = 0 acquires those of that instance. The draw is a free value (entry 5); that the draws go on
between the command's completion and that read is the model's choice (entry 9). -/
def Obligations.HostMemoryReads : Prop :=
  (∀ (s : State) (a : Nat) (rest : List Turn), s.turns = .host (.memRd a) :: rest → a < 2 ^ 64 →
    (∀ b ∈ s.blocks, b.window.has a = false) → (∀ d ∈ s.platform.devices, d.has a = false) →
      ((∃ b ∈ s.blocks, ∃ r ∈ b.track.unseen, r.has a = true) →
          step s = .next
            { s with turns := rest, log := (Config.drawByte s.draws a).setWidth 64 :: s.log, draws := s.draws + 1 }) ∧
        ((∀ b ∈ s.blocks, ∀ r ∈ b.track.unseen, r.has a = false) →
          step s = .next { s with turns := rest, log := (s.mem.read a).setWidth 64 :: s.log })) ∧
    (∀ (b : Block) (w : Word) (i : Instr), decode w = .ok i →
      ∀ r ∈ b.regions i, r.write = true → r.range ∈ (b.submit w).track.unseen) ∧
    ∀ s : State, s.cur.inReset = false → s.cur.status.busy = false →
      (s.hostRead 0x010).cur.track.unseen = [] ∧ (s.hostRead 0x010).before = s.before ∧ (s.hostRead 0x010).after = s.after

/-- 10_state R34: "A model refuses any other access": a register access that is not 8 bytes wide or not 8-byte aligned is
refused, and so, by the model's reading (entry 11), is a one-byte access to any address of a register block. -/
def Obligations.BadAccessRefused : Prop :=
  ∀ (s : State) (rest : List Turn),
    (∀ (k off size : Nat) (v : Word), size ≠ 8 ∨ off % 8 ≠ 0 →
        (s.turns = .host (.wr k off size v) :: rest ∨ s.turns = .host (.rd k off size) :: rest) →
          step s = .refused .badAccess) ∧
      ∀ (a : Nat) (x : Byte), a < 2 ^ 64 → (∃ b ∈ s.blocks, b.window.has a = true) →
        (s.turns = .host (.memRd a) :: rest ∨ s.turns = .host (.memWr a x) :: rest) → step s = .refused .badAccess

/-- 20_memory R92: where the current instance accepts a command with a region that overlaps a region of another instance's
pending command, one of the two written, every byte of the overlap is marked as shared in both; a command no region of which
clashes with another instance's is marked with none. The marks are the model's choice (entry 6), and so is how long another
instance's written regions stay at stake (entry 8). -/
def Obligations.InstanceRaces : Prop :=
  ∀ (s : State) (w : Word) (i : Instr), decode w = .ok i →
    (∀ (w' : Word) (i' : Instr) (o : Block) (p q : Region), decode w' = .ok i' → (o ∈ s.before ∨ o ∈ s.after) →
      o.pending = some w' → p ∈ s.cur.regions i → q ∈ o.regions i' → RegionsClash p q →
        ∃ o' ∈ (s.accept w).before ++ (s.accept w).after, o' = { o with track := o'.track } ∧
          ∀ a, p.range.has a = true → q.range.has a = true →
            (∃ r ∈ (s.accept w).cur.track.shared, r.has a = true) ∧ ∃ r ∈ o'.track.shared, r.has a = true) ∧
      ((∀ o, o ∈ s.before ∨ o ∈ s.after → ∀ q ∈ o.atStake, ∀ p ∈ s.cur.regions i, ¬RegionsClash p q) →
        (s.accept w).cur.track.shared = [])

/-- 20_memory R92: where a command's regions share bytes with another instance's, those bytes, and the outputs and bytes that
`computedFromShared` names, are draws when it ends. Everything else is as `exec` leaves it, whatever the shared bytes hold.
What is named is exactly what the values of the shared bytes that the command reads can change: an output that two runs of
`exec` on memories differing in those bytes alone leave different, and a write that they leave different. So nothing is named
where a state prerequisite or a check faults the command before it reads (60_exceptions R277), nor where no byte it reads is
shared. One shared source byte makes every count HUF_COUNT commits a draw, in FREQ and in META, and HUF_ENCODE's where the
payload must fit; where DST_CAP is too small for any payload, at most the FAULT_INFO of HUF_ENCODE's fault is one. The draws
are free values (entry 5); that a drawn writer keeps 10_state R47 and a drawn fault code is one of 60_exceptions R271's is the
model's choice (entry 7), and so is which outputs count as computed from a shared byte (entry 6). -/
def Obligations.SharedBytesDrawn : Prop :=
  (∀ (s : State) (w : Word) (i : Instr), s.mem.wf = true → s.cur.pending = some w → decode w = .ok i →
    s.cur.track.raced = false → s.cur.track.shared ≠ [] →
    (∀ r ∈ s.cur.regions i, ∀ d ∈ s.platform.devices, d.overlaps r.range = false) →
      ∃ u c, s.engineTurn = .next u ∧ c = s.computedFromShared i ∧
        u = { s with cur := u.cur, mem := u.mem, draws := s.draws + 1 } ∧
        u.cur.status.busy = false ∧ u.cur.pending = none ∧ u.cur.track = { s.cur.track with shared := [] } ∧
        (∀ a, a < 2 ^ 64 → (∃ r ∈ c.bytes ++ s.cur.track.shared, r.has a = true) →
          u.mem.read a = Config.drawByte s.draws a) ∧
        ∀ (m : Memory) (t : State), m.wf = true →
          (∀ a, (∀ r ∈ s.cur.track.shared, r.has a = false) → m.read a = s.mem.read a) →
          exec i { s with mem := m } = .next t →
            Drawn s.draws c.outs t.cur u.cur ∧
              ∀ a, (∀ r ∈ c.bytes ++ s.cur.track.shared, r.has a = false) → u.mem.read a = t.mem.read a) ∧
    ∀ (s : State) (i : Instr) (c : Computed), s.mem.wf = true → c = s.computedFromShared i →
      (∀ o, o ∈ c.outs ↔ o ∈ .ending :: .faultCode :: .faultInfo :: outputs i ∧ ∃ m m' t t', s.Variant i m ∧ s.Variant i m' ∧
        exec i { s with mem := m } = .next t ∧ exec i { s with mem := m' } = .next t' ∧ ¬o.Same t.cur t'.cur) ∧
      (∀ q, q ∈ c.bytes ↔ q ∈ s.cur.places i ∧ ∃ m m' t t' a, s.Variant i m ∧ s.Variant i m' ∧
        exec i { s with mem := m } = .next t ∧ exec i { s with mem := m' } = .next t' ∧ q.has a = true ∧
          t.mem.read a ≠ t'.mem.read a) ∧
      (∀ a, a ∈ s.sharedInputs i ↔ (∃ q ∈ s.cur.track.shared, q.has a = true) ∧
        (∃ r ∈ s.cur.regions i, r.write = false ∧ r.range.has a = true) ∧
          ∀ r ∈ s.cur.regions i, r.write = true → r.range.has a = false) ∧
      (∀ a, (∃ q ∈ s.cur.places i, q.has a = true) ↔ ∃ r ∈ s.cur.regions i, r.write = true ∧ r.range.has a = true) ∧
      ((∃ code, s.cur.prereqFault i = some code) ∨ ¬s.ChecksPass i → c = { outs := [], bytes := [] }) ∧
      ((∀ r ∈ s.cur.regions i, r.write = false → ∀ q ∈ s.cur.track.shared, q.overlaps r.range = false) →
        c = { outs := [], bytes := [] }) ∧
      (∀ n, i = .brGet n → n.toNat ≤ 64 → s.ChecksPass i → ∀ o, o ∈ c.outs ↔ o = .brData ∧ n.toNat ≤ s.cur.avail ∧
        ∃ j < n.toNat, ∃ q ∈ s.cur.track.shared, q.has (s.cur.srcAddr.toNat + (s.cur.streamPos + j) / 8) = true) ∧
      (i = .hufGetSym → s.cur.faultInfo = 0 → .faultInfo ∉ c.outs) ∧
      (i = .hufLoadFreq → s.ChecksPass i → ∀ o, o ∈ c.outs ↔ ∃ sym : Byte, o = .freq sym ∧
        ∃ q ∈ s.cur.track.shared, ∃ k < 4, q.has (s.cur.metaAddr.toNat + 4 * sym.toNat + k) = true) ∧
      (i = .hufDecode → (∀ q ∈ s.cur.track.shared, q.overlaps (s.cur.metaRegion false).range = false) →
        ∀ o ∈ c.outs, o ∈ [.ending, .faultCode, .faultInfo, .dstLen, .brByte, .brBit]) ∧
      ((∃ strict, i = .lzwDecode strict) → ∀ o ∈ c.outs, o ∈ [.ending, .faultCode, .faultInfo, .dstLen]) ∧
      (i = .lzwEncode →
        (2 * s.cur.srcLen.toNat ≤ s.cur.dstCap.toNat → ∀ o ∈ c.outs, o ∈ [.dstLen, .codeCount, .dictSize]) ∧
          (s.cur.dstCap.toNat < 2 → c = { outs := [], bytes := [] })) ∧
      (s.ChecksPass i → (∃ q ∈ s.cur.track.shared, q.overlaps s.cur.srcRegion.range = true) →
        s.cur.srcLen.toNat < 2 ^ 32 →
          (i = .hufCount → (∀ o, o ∈ c.outs ↔ ∃ sym, o = .freq sym) ∧
            ∀ q, q ∈ c.bytes ↔ ∃ sym : Byte, q = { base := s.cur.metaAddr.toNat + 4 * sym.toNat, len := 4 }) ∧
          (i = .hufEncode → 255 * s.cur.srcLen.toNat ≤ 8 * s.cur.dstCap.toNat →
            ∀ sym : Byte, .freq sym ∈ c.outs ∧ { base := s.cur.metaAddr.toNat + 4 * sym.toNat, len := 4 } ∈ c.bytes) ∧
          (i = .hufEncode → 8 * s.cur.dstCap.toNat < s.cur.srcLen.toNat → (∀ o ∈ c.outs, o = .faultInfo) ∧ c.bytes = []))

/-- 30_encoding R121, 70_reset R321: while BUSY is 1 a WAIT lets the engine of its instance move and stays; with BUSY = 0 it
reads STATUS, which makes the command's results visible (20_memory R90), and is over. That the engine moves between two polls
is the model's choice (entry 20). -/
def Obligations.WaitRunsEngine : Prop :=
  ∀ (s : State) (rest : List Turn), s.turns = .host (.wait s.before.length) :: rest →
    (s.cur.status.busy = true → step s = s.engineTurn) ∧
      (s.cur.status.busy = false → s.cur.inReset = false →
        step s = .next { s with turns := rest, log := s.cur.status.word :: s.log, cur := s.cur.acquire })
end

