-- ==== Sys2Proof/Laws/Memory.lean ====
section
/-! SUPPORT. What memory operations do: reads after writes, the canonical form, the address bound. -/

namespace Sys2Proof.Machine

/-- A read of the byte just written gives it. -/
@[simp] theorem Memory.read_write_same (m : Memory) (a : Nat) (v : Byte) (h : m.wf = true) :
    (m.write a v).read a = v := by
  suffices ∀ lo, Memory.wfFrom lo m = true → (m.write a v).read a = v from this 0 h
  clear h
  induction m with
  | nil => intro lo _; simp only [Memory.write]; split <;> simp_all [Memory.read]
  | cons c m ih =>
    obtain ⟨k, w⟩ := c
    intro lo hm
    simp only [Memory.wfFrom, Bool.and_eq_true, decide_eq_true_eq] at hm
    have absent : ∀ (l : Memory) lo, Memory.wfFrom lo l = true → a < lo → l.read a = unlistedByte := by
      intro l
      induction l with
      | nil => intros; rfl
      | cons c l ihl =>
        obtain ⟨k', w'⟩ := c
        intro lo hl hlt
        simp only [Memory.wfFrom, Bool.and_eq_true, decide_eq_true_eq] at hl
        rw [Memory.read, if_neg (by omega)]
        exact ihl (k' + 1) hl.2 (by omega)
    simp only [Memory.write]
    split
    · rename_i hlt
      split
      · rename_i hv
        rw [Memory.read, if_neg (by omega), absent m (k + 1) hm.2 (by omega), hv]
      · simp [Memory.read]
    · split
      · rename_i hak
        split
        · rename_i hv
          rw [absent m (k + 1) hm.2 (by omega), hv]
        · simp [Memory.read]
      · rw [Memory.read, if_neg (by omega)]
        exact ih (k + 1) hm.2

/-- A write leaves every other byte. -/
@[simp] theorem Memory.read_write_other (m : Memory) {a x : Nat} (v : Byte) (h : x ≠ a) :
    (m.write a v).read x = m.read x := by
  induction m with
  | nil =>
    simp only [Memory.write]
    split
    · rfl
    · simp [Memory.read, Ne.symm h]
  | cons c m ih =>
    obtain ⟨k, w⟩ := c
    simp only [Memory.write]
    split
    · split
      · rfl
      · simp [Memory.read, Ne.symm h]
    · split
      · rename_i hak
        subst hak
        split <;> simp [Memory.read, Ne.symm h]
      · simp only [Memory.read]
        rw [ih]

/-- Canonical memories that read alike are equal. -/
theorem Memory.ext_of_read {m m' : Memory} (hm : m.wf = true) (hm' : m'.wf = true) (h : ∀ a, m.read a = m'.read a) :
    m = m' := by
  have low : ∀ (l : Memory) {lo a : Nat}, Memory.wfFrom lo l = true → a < lo → l.read a = unlistedByte := by
    intro l
    induction l with
    | nil => intros; rfl
    | cons c l ih =>
      intro lo a hl hlt
      simp only [Memory.wfFrom, Bool.and_eq_true, decide_eq_true_eq] at hl
      rw [Memory.read, if_neg (by omega)]
      exact ih hl.2 (by omega)
  suffices ∀ lo, Memory.wfFrom lo m = true → Memory.wfFrom lo m' = true → m = m' from this 0 hm hm'
  clear hm hm'
  induction m generalizing m' with
  | nil =>
    intro lo _ hm'
    cases m' with
    | nil => rfl
    | cons d m' =>
      simp only [Memory.wfFrom, Bool.and_eq_true, decide_eq_true_eq] at hm'
      have := h d.1
      rw [Memory.read, Memory.read, if_pos rfl] at this
      exact absurd this.symm hm'.1.2
  | cons c m ih =>
    intro lo hm hm'
    simp only [Memory.wfFrom, Bool.and_eq_true, decide_eq_true_eq] at hm
    cases m' with
    | nil =>
      have := h c.1
      rw [Memory.read, Memory.read, if_pos rfl] at this
      exact absurd this hm.1.2
    | cons d m' =>
      simp only [Memory.wfFrom, Bool.and_eq_true, decide_eq_true_eq] at hm'
      have hk : c.1 = d.1 := by
        rcases Nat.lt_trichotomy c.1 d.1 with hlt | heq | hlt
        · have := h c.1
          rw [Memory.read, Memory.read, if_pos rfl, if_neg (by omega), low m' hm'.2 (by omega)] at this
          exact absurd this hm.1.2
        · exact heq
        · have := h d.1
          rw [Memory.read, Memory.read, if_pos rfl, if_neg (by omega), low m hm.2 (by omega)] at this
          exact absurd this.symm hm'.1.2
      have hv : c.2 = d.2 := by
        have := h c.1
        rwa [Memory.read, Memory.read, if_pos rfl, if_pos hk.symm] at this
      rw [Prod.ext hk hv, ih (fun a => ?_) (d.1 + 1) (hk ▸ hm.2) hm'.2]
      have ha := h a
      rw [Memory.read, Memory.read] at ha
      by_cases hd : d.1 = a
      · rw [low m hm.2 (by omega), low m' hm'.2 (by omega)]
      · rwa [if_neg (hk ▸ hd), if_neg hd] at ha

/-- A write keeps the canonical form from `lo` up. -/
theorem Memory.wfFrom_write (m : Memory) (a : Nat) (v : Byte) (lo : Nat) (hlo : lo ≤ a)
    (h : Memory.wfFrom lo m = true) : Memory.wfFrom lo (m.write a v) = true := by
  induction m generalizing lo with
  | nil => simp only [Memory.write]; split <;> simp_all [Memory.wfFrom]
  | cons c m ih =>
    obtain ⟨k, w⟩ := c
    simp only [Memory.wfFrom, Bool.and_eq_true, decide_eq_true_eq] at h
    simp only [Memory.write]
    split
    · split
      · simp [Memory.wfFrom, h]
      · rename_i hlt hv
        simp only [Memory.wfFrom, Bool.and_eq_true, decide_eq_true_eq]
        exact ⟨⟨hlo, hv⟩, ⟨by omega, h.1.2⟩, h.2⟩
    · split
      · rename_i hak
        have weaken : ∀ (l : Memory) {p q : Nat}, q ≤ p → Memory.wfFrom p l = true → Memory.wfFrom q l = true := by
          intro l p q hpq hl
          cases l with
          | nil => rfl
          | cons d l =>
            simp only [Memory.wfFrom, Bool.and_eq_true, decide_eq_true_eq] at hl ⊢
            exact ⟨⟨by omega, hl.1.2⟩, hl.2⟩
        split
        · exact weaken m (by omega) h.2
        · rename_i hv
          simp only [Memory.wfFrom, Bool.and_eq_true, decide_eq_true_eq]
          exact ⟨⟨hlo, hv⟩, hak ▸ h.2⟩
      · simp only [Memory.wfFrom, Bool.and_eq_true, decide_eq_true_eq]
        exact ⟨h.1, ih (k + 1) (by omega) h.2⟩

/-- A write keeps the canonical form. -/
theorem Memory.wf_write (m : Memory) (a : Nat) (v : Byte) (h : m.wf = true) : (m.write a v).wf = true :=
  Memory.wfFrom_write m a v 0 (Nat.zero_le a) h

/-- A write inside the DMA space keeps every listed address inside it. -/
theorem Memory.inSpace_write (m : Memory) (a : Nat) (v : Byte) (ha : a < Config.addressSpace) (h : m.inSpace = true) :
    (m.write a v).inSpace = true := by
  induction m with
  | nil => simp only [Memory.write]; split <;> simp [Memory.inSpace, ha]
  | cons c m ih =>
    obtain ⟨k, w⟩ := c
    simp only [Memory.inSpace, List.all_cons, Bool.and_eq_true, decide_eq_true_eq] at h ih ⊢
    simp only [Memory.write]
    split
    · split
      · simpa using h
      · simpa [ha] using h
    · split
      · split
        · simpa using h.2
        · simpa [ha] using h.2
      · simpa [h.1] using ih h.2

/-- Storing bytes keeps the canonical form. -/
theorem Memory.wf_writeBytes (bs : List Byte) (m : Memory) (a : Nat) (h : m.wf = true) :
    (m.writeBytes a bs).wf = true := by
  induction bs generalizing m a with
  | nil => exact h
  | cons b bs ih => exact ih _ _ (Memory.wf_write m a b h)

/-- Storing bytes inside the DMA space keeps every listed address inside it. -/
theorem Memory.inSpace_writeBytes (bs : List Byte) (m : Memory) (a : Nat) (ha : a + bs.length ≤ Config.addressSpace)
    (h : m.inSpace = true) : (m.writeBytes a bs).inSpace = true := by
  induction bs generalizing m a with
  | nil => exact h
  | cons b bs ih =>
    simp only [List.length_cons] at ha
    exact ih _ _ (by omega) (Memory.inSpace_write m a b (by omega) h)

/-- Storing bytes leaves every byte outside them. -/
theorem Memory.read_writeBytes_outside (bs : List Byte) (m : Memory) (a x : Nat) (h : x < a ∨ a + bs.length ≤ x) :
    (m.writeBytes a bs).read x = m.read x := by
  induction bs generalizing m a with
  | nil => rfl
  | cons b bs ih =>
    simp only [List.length_cons] at h
    rw [Memory.writeBytes, ih _ _ (by omega), Memory.read_write_other m b (by omega)]

/-- A read of a byte just stored gives it. -/
theorem Memory.read_writeBytes_inside (bs : List Byte) (m : Memory) (a j : Nat) (hm : m.wf = true) (h : j < bs.length) :
    (m.writeBytes a bs).read (a + j) = bs[j] := by
  induction bs generalizing m a j with
  | nil => simp at h
  | cons b bs ih =>
    cases j with
    | zero =>
      rw [Memory.writeBytes, Memory.read_writeBytes_outside _ _ _ _ (by omega)]
      simp [hm]
    | succ j =>
      simp only [List.length_cons] at h
      have := ih (m.write a b) (a + 1) j (Memory.wf_write m a b hm) (by omega)
      rw [Memory.writeBytes, show a + (j + 1) = a + 1 + j by omega, this]
      rfl

/-- How many bytes are read. -/
@[simp] theorem Memory.length_readBytes (m : Memory) (a n : Nat) : (m.readBytes a n).length = n := by
  induction n generalizing a with
  | zero => rfl
  | succ n ih => simp [Memory.readBytes, ih]

/-- Byte `j` of those read. -/
theorem Memory.getElem_readBytes (m : Memory) (a n j : Nat) (h : j < (m.readBytes a n).length) :
    (m.readBytes a n)[j] = m.read (a + j) := by
  induction n generalizing a j with
  | zero => simp at h
  | succ n ih =>
    cases j with
    | zero => rfl
    | succ j =>
      simp only [Memory.readBytes, List.getElem_cons_succ]
      rw [ih]
      congr 1
      omega

/-- Reading as many bytes as were stored, where they were stored, gives them back. -/
theorem Memory.readBytes_writeBytes (bs : List Byte) (m : Memory) (a : Nat) (hm : m.wf = true) :
    (m.writeBytes a bs).readBytes a bs.length = bs := by
  refine List.ext_getElem (by simp) fun j h₁ h₂ => ?_
  rw [Memory.getElem_readBytes, Memory.read_writeBytes_inside bs m a j hm h₂]

/-- Memories that read alike on a range give the same bytes there. -/
theorem Memory.readBytes_congr {m m' : Memory} {a n : Nat} (h : ∀ x, a ≤ x → x < a + n → m.read x = m'.read x) :
    m.readBytes a n = m'.readBytes a n := by
  refine List.ext_getElem (by simp) fun j h₁ h₂ => ?_
  simp only [Memory.length_readBytes] at h₁
  rw [Memory.getElem_readBytes, Memory.getElem_readBytes, h (a + j) (by omega) (by omega)]

/-- How many little-endian bytes there are. -/
@[simp] theorem length_leBytes (n v : Nat) : (leBytes n v).length = n := by
  induction n generalizing v with
  | zero => rfl
  | succ n ih => simp [leBytes, ih]

/-- The little-endian bytes of a value that fits have that value (20_memory R82). -/
theorem leValue_leBytes (n v : Nat) (h : v < 256 ^ n) : leValue (leBytes n v) = v := by
  induction n generalizing v with
  | zero => simp at h; simp [leBytes, leValue, h]
  | succ n ih =>
    have hq : v / 256 < 256 ^ n := by
      rw [Nat.div_lt_iff_lt_mul (by norm_num)]
      simpa [pow_succ] using h
    simp only [leBytes, leValue, BitVec.toNat_ofNat, ih _ hq]
    norm_num
    omega

/-- A stored little-endian value that fits is read back (00_scope R17). -/
theorem Memory.readLE_writeLE (m : Memory) (a n v : Nat) (hm : m.wf = true) (h : v < 256 ^ n) :
    (m.writeLE a n v).readLE a n = v := by
  have := Memory.readBytes_writeBytes (leBytes n v) m a hm
  rw [length_leBytes] at this
  rw [Memory.readLE, Memory.writeLE, this, leValue_leBytes n v h]

/-- Drawing a range keeps the canonical form. -/
theorem wf_drawRange (e : Nat) (m : Memory) (base n : Nat) (h : m.wf = true) : (drawRange e m base n).wf = true := by
  induction n with
  | zero => exact h
  | succ n ih =>
    simp only [drawRange]
    split
    · exact Memory.wf_write _ _ _ ih
    · exact ih

/-- Drawing a range keeps every listed address inside the DMA space. -/
theorem inSpace_drawRange (e : Nat) (m : Memory) (base n : Nat) (h : m.inSpace = true) :
    (drawRange e m base n).inSpace = true := by
  induction n with
  | zero => exact h
  | succ n ih =>
    simp only [drawRange]
    split
    · rename_i hn
      exact Memory.inSpace_write _ _ _ hn ih
    · exact ih

/-- Drawing a range leaves every byte outside it. -/
theorem read_drawRange_outside (e : Nat) (m : Memory) (base n x : Nat) (h : x < base ∨ base + n ≤ x) :
    (drawRange e m base n).read x = m.read x := by
  induction n with
  | zero => rfl
  | succ n ih =>
    simp only [drawRange]
    split
    · rw [Memory.read_write_other _ _ (by omega), ih (by omega)]
    · exact ih (by omega)

/-- A byte of a drawn range is a draw (00_scope R22). -/
theorem read_drawRange_inside (e : Nat) (m : Memory) (base n x : Nat) (hm : m.wf = true) (h₁ : base ≤ x)
    (h₂ : x < base + n) (hx : x < Config.addressSpace) : (drawRange e m base n).read x = Config.drawByte e x := by
  induction n with
  | zero => omega
  | succ n ih =>
    simp only [drawRange]
    by_cases hl : x = base + n
    · subst hl
      rw [if_pos hx, Memory.read_write_same _ _ _ (wf_drawRange _ _ _ _ hm)]
    · split
      · rw [Memory.read_write_other _ _ hl, ih (by omega)]
      · exact ih (by omega)

/-- Drawing ranges keeps the canonical form. -/
theorem wf_drawAll (e : Nat) (m : Memory) (rs : List Range) (h : m.wf = true) : (drawAll e m rs).wf = true := by
  induction rs generalizing m with
  | nil => exact h
  | cons r rs ih => exact ih _ (wf_drawRange e m r.base r.len h)

/-- Drawing ranges keeps every listed address inside the DMA space. -/
theorem inSpace_drawAll (e : Nat) (m : Memory) (rs : List Range) (h : m.inSpace = true) :
    (drawAll e m rs).inSpace = true := by
  induction rs generalizing m with
  | nil => exact h
  | cons r rs ih => exact ih _ (inSpace_drawRange e m r.base r.len h)

/-- Drawing ranges leaves every byte outside all of them. -/
theorem read_drawAll_outside (e : Nat) (rs : List Range) (m : Memory) (x : Nat) (h : ∀ r ∈ rs, r.has x = false) :
    (drawAll e m rs).read x = m.read x := by
  induction rs generalizing m with
  | nil => rfl
  | cons r rs ih =>
    have hr := h r (by simp)
    simp only [Range.has, Bool.and_eq_false_iff, decide_eq_false_iff_not] at hr
    rw [drawAll, ih _ fun q hq => h q (by simp [hq]), read_drawRange_outside _ _ _ _ _ (by omega)]

/-- A byte of some drawn ranges is a draw (00_scope R22). -/
theorem read_drawAll_inside (e : Nat) (rs : List Range) (m : Memory) (x : Nat) (hm : m.wf = true)
    (h : ∃ r ∈ rs, r.has x = true) (hx : x < Config.addressSpace) : (drawAll e m rs).read x = Config.drawByte e x := by
  induction rs generalizing m with
  | nil => simp at h
  | cons r rs ih =>
    rw [drawAll]
    by_cases hrs : ∃ q ∈ rs, q.has x = true
    · exact ih _ (wf_drawRange _ _ _ _ hm) hrs
    · have hr : r.has x = true := by
        obtain ⟨q, hq, hqx⟩ := h
        rcases List.mem_cons.1 hq with rfl | hq
        · exact hqx
        · exact absurd ⟨q, hq, hqx⟩ hrs
      simp only [Range.has, Bool.and_eq_true, decide_eq_true_eq] at hr
      rw [read_drawAll_outside _ _ _ _ fun q hq => by
        by_contra hc
        exact hrs ⟨q, hq, by simpa using hc⟩]
      exact read_drawRange_inside e m r.base r.len x hm hr.1 hr.2 hx

end Sys2Proof.Machine
end

