-- ==== Sys2Proof/Laws/Bits.lean ====
section
/-! SUPPORT. Bits, the numbers they stand for, and the bytes they pack into (00_scope R15). -/

namespace Sys2Proof.Machine

@[simp] theorem bitsValue_nil : bitsValue [] = 0 := rfl

theorem foldl_bits (bits : Bits) (v : Nat) :
    bits.foldl (fun v bit => 2 * v + bit.toNat) v = v * 2 ^ bits.length + bitsValue bits := by
  induction bits generalizing v with
  | nil => simp
  | cons b bits ih =>
    rw [bitsValue, List.foldl_cons, List.foldl_cons, ih, ih (2 * 0 + b.toNat)]
    simp only [List.length_cons, pow_succ]
    ring

/-- The number of a concatenation. -/
theorem bitsValue_append (p q : Bits) : bitsValue (p ++ q) = bitsValue p * 2 ^ q.length + bitsValue q := by
  rw [bitsValue, List.foldl_append, foldl_bits]
  rfl

theorem bitsValue_cons (b : Bool) (q : Bits) : bitsValue (b :: q) = b.toNat * 2 ^ q.length + bitsValue q := by
  have := bitsValue_append [b] q
  simpa [bitsValue] using this

/-- `k` bits stand for a number below 2^k. -/
theorem bitsValue_lt (bits : Bits) : bitsValue bits < 2 ^ bits.length := by
  induction bits with
  | nil => simp
  | cons b bits ih =>
    rw [bitsValue_cons, List.length_cons, pow_succ]
    cases b <;> simp <;> omega

/-- Bit `j` of the number, counting from the last bit. -/
theorem testBit_bitsValue (bits : Bits) (j : Nat) (h : j < bits.length) :
    (bitsValue bits).testBit j = bits[bits.length - 1 - j] := by
  induction bits generalizing j with
  | nil => simp at h
  | cons b bits ih =>
    have hlt := bitsValue_lt bits
    rw [bitsValue_cons, Nat.mul_comm]
    simp only [List.length_cons] at h ⊢
    by_cases hj : j = bits.length
    · subst hj
      rw [Nat.testBit_two_pow_mul_add _ hlt]
      simp
      cases b <;> simp
    · rw [Nat.testBit_two_pow_mul_add _ hlt, if_pos (by omega), ih j (by omega)]
      simp only [show bits.length + 1 - 1 - j = (bits.length - 1 - j) + 1 by omega, List.getElem_cons_succ]

@[simp] theorem length_byteBits (v : Byte) : (byteBits v).length = 8 := by simp [byteBits]

/-- Stream bit `j` of a byte. -/
@[simp] theorem getElem_byteBits (v : Byte) (j : Nat) (h : j < (byteBits v).length) :
    (byteBits v)[j] = v.getLsbD (7 - j) := by
  simp [byteBits]

@[simp] theorem length_streamBits (bytes : List Byte) : (streamBits bytes).length = 8 * bytes.length := by
  induction bytes with
  | nil => rfl
  | cons b bytes ih =>
    simp only [streamBits, List.flatMap_cons, List.length_append, length_byteBits, List.length_cons] at ih ⊢
    omega

@[simp] theorem streamBits_nil : streamBits [] = [] := rfl

@[simp] theorem streamBits_cons (b : Byte) (bytes : List Byte) : streamBits (b :: bytes) = byteBits b ++ streamBits bytes :=
  rfl

@[simp] theorem streamBits_append (p q : List Byte) : streamBits (p ++ q) = streamBits p ++ streamBits q := by
  simp [streamBits]

/-- Stream bit `k` of some bytes (00_scope R15). -/
theorem getElem_streamBits (bytes : List Byte) (k : Nat) (h : k < (streamBits bytes).length) :
    (streamBits bytes)[k] = (bytes[k / 8]'(by simp at h; omega)).getLsbD (7 - k % 8) := by
  induction bytes generalizing k with
  | nil => simp at h
  | cons b bytes ih =>
    by_cases hk : k < 8
    · simp only [streamBits_cons]
      rw [List.getElem_append_left (by simpa using hk)]
      simp [show k / 8 = 0 by omega, show k % 8 = k by omega]
    · simp only [streamBits_cons]
      rw [List.getElem_append_right (by simp; omega), ih]
      simp only [length_byteBits, show (k - 8) % 8 = k % 8 by omega, show k / 8 = (k - 8) / 8 + 1 by omega,
        List.getElem_cons_succ]

/-- Packing at most eight bits into a byte and reading it gives the bits, then zeros. -/
theorem byteBits_packByte (bits : Bits) (h : bits.length ≤ 8) :
    byteBits (packByte bits) = bits ++ List.replicate (8 - bits.length) false := by
  refine List.ext_getElem (by simp; omega) fun j h₁ h₂ => ?_
  simp only [length_byteBits] at h₁
  rw [getElem_byteBits, packByte, BitVec.getLsbD_ofNat]
  by_cases hj : j < bits.length
  · rw [List.getElem_append_left hj, Nat.mul_comm, Nat.testBit_two_pow_mul,
      decide_eq_true (show 8 - bits.length ≤ 7 - j by omega), testBit_bitsValue _ _ (by omega)]
    simp only [Bool.true_and, show bits.length - 1 - (7 - j - (8 - bits.length)) = j by omega]
    simp; omega
  · rw [List.getElem_append_right (by omega), Nat.mul_comm, Nat.testBit_two_pow_mul,
      decide_eq_false (show ¬8 - bits.length ≤ 7 - j by omega)]
    simp

@[simp] theorem length_packWhole (n : Nat) (bits : Bits) : (packWhole n bits).length = n := by
  induction n generalizing bits with
  | zero => rfl
  | succ n ih => simp [packWhole, ih]

/-- One more whole byte. -/
theorem packWhole_succ (n : Nat) (bits : Bits) :
    packWhole (n + 1) bits = packWhole n bits ++ [packByte ((bits.drop (8 * n)).take 8)] := by
  induction n generalizing bits with
  | zero => simp [packWhole]
  | succ n ih =>
    rw [packWhole, ih, packWhole, List.drop_drop, List.cons_append, show 8 + 8 * n = 8 * (n + 1) by ring]

/-- Bits past the whole bytes do not matter. -/
theorem packWhole_append (n : Nat) (p q : Bits) (h : 8 * n ≤ p.length) : packWhole n (p ++ q) = packWhole n p := by
  induction n generalizing p with
  | zero => rfl
  | succ n ih =>
    rw [packWhole, packWhole, List.take_append_of_le_length (by omega), List.drop_append_of_le_length (by omega),
      ih _ (by simp; omega)]

/-- So many whole bytes, then so many more. -/
theorem packWhole_add (k n : Nat) (bits : Bits) :
    packWhole (k + n) bits = packWhole k bits ++ packWhole n (bits.drop (8 * k)) := by
  induction k generalizing bits with
  | zero => simp [packWhole]
  | succ k ih =>
    rw [show k + 1 + n = (k + n) + 1 by omega, packWhole, ih, packWhole, List.drop_drop, List.cons_append,
      show 8 + 8 * k = 8 * (k + 1) by ring]

/-- Whole bytes read back as the bits they were packed from. -/
theorem streamBits_packWhole (n : Nat) (bits : Bits) (h : 8 * n ≤ bits.length) :
    streamBits (packWhole n bits) = bits.take (8 * n) := by
  induction n generalizing bits with
  | zero => simp [packWhole]
  | succ n ih =>
    rw [packWhole, streamBits_cons, byteBits_packByte _ (by simp), ih _ (by simp; omega)]
    simp only [List.length_take, show min 8 bits.length = 8 by omega, Nat.sub_self, List.replicate_zero,
      List.append_nil]
    rw [show 8 * (n + 1) = 8 + 8 * n by ring, List.take_add]

/-- The bytes of a bit sequence read back as its bits, then zeros (20_memory R97). -/
theorem streamBits_packAll (bits : Bits) :
    streamBits (packAll bits) = bits ++ List.replicate (8 * ((bits.length + 7) / 8) - bits.length) false := by
  rw [packAll]
  rcases Nat.eq_zero_or_pos (bits.length % 8) with h | h
  · rw [streamBits_packWhole _ _ (by omega), List.take_of_length_le (by omega),
      show 8 * ((bits.length + 7) / 8) - bits.length = 0 by omega]
    simp
  · have hd : (bits.drop (8 * (bits.length / 8))).length ≤ 8 := by simp; omega
    rw [show (bits.length + 7) / 8 = bits.length / 8 + 1 by omega, packWhole_succ, streamBits_append,
      streamBits_packWhole _ _ (by omega), List.take_of_length_le hd, streamBits_cons, byteBits_packByte _ hd]
    simp only [List.length_drop, streamBits_nil, List.append_nil]
    rw [← List.append_assoc, List.take_append_drop]
    congr 2
    omega

/-- Storing two runs of bytes one after the other. -/
theorem Memory.writeBytes_append (m : Memory) (a : Nat) (p q : List Byte) :
    m.writeBytes a (p ++ q) = (m.writeBytes a p).writeBytes (a + p.length) q := by
  induction p generalizing m a with
  | nil => rfl
  | cons b p ih =>
    rw [List.cons_append, Memory.writeBytes, ih, Memory.writeBytes, List.length_cons]
    congr 1
    omega

@[simp] theorem length_lowBits (n : Nat) (v : Word) : (lowBits n v).length = n := by simp [lowBits]

end Sys2Proof.Machine
end

