-- ==== Sys2Proof/Laws/BitIO.lean ====
section
/-! SUPPORT. What the bit writer and the bit reader do, in closed form (40_bitio R141, R142, R145). -/

namespace Sys2Proof.Machine

@[simp] theorem Block.length_partialBits (b : Block) : b.partialBits.length = b.bwCnt.toNat := by
  simp [Block.partialBits]

/-- The partial byte holds the number of its bits. -/
theorem Block.bitsValue_partialBits (b : Block) (h : b.bwAcc.toNat < 2 ^ b.bwCnt.toNat) :
    bitsValue b.partialBits = b.bwAcc.toNat := by
  refine Nat.eq_of_testBit_eq fun j => ?_
  by_cases hj : j < b.bwCnt.toNat
  · rw [testBit_bitsValue _ _ (by simpa using hj)]
    simp only [Block.partialBits, List.getElem_map, List.getElem_range, List.length_map, List.length_range]
    rw [show b.bwCnt.toNat - 1 - (b.bwCnt.toNat - 1 - j) = j by omega]
    rfl
  · rw [Nat.testBit_lt_two_pow, Nat.testBit_lt_two_pow]
    · exact lt_of_lt_of_le h (Nat.pow_le_pow_right (by norm_num) (by omega))
    · have := bitsValue_lt b.partialBits
      rw [Block.length_partialBits] at this
      exact lt_of_lt_of_le this (Nat.pow_le_pow_right (by norm_num) (by omega))

/-- The writer after `p` whole bytes of the bits `all` have been pushed and the rest stands in the partial byte. -/
def Block.holding (b : Block) (p : Nat) (all : Bits) : Block :=
  { b with
    dstLen := BitVec.ofNat 64 (b.dstLen.toNat + p)
    bwCnt := BitVec.ofNat 3 (all.length % 8)
    bwAcc := BitVec.ofNat 8 (bitsValue (all.drop (8 * p))) }

theorem putBit_holding (b : Block) (m : Memory) (all : Bits) (bit : Bool)
    (hb : b.dstLen.toNat + (all.length + 1) / 8 < 2 ^ 64) :
    putBit (b.holding (all.length / 8) all, m.writeBytes (b.dstAddr.toNat + b.dstLen.toNat) (packWhole (all.length / 8) all)) bit =
      (b.holding ((all.length + 1) / 8) (all ++ [bit]),
        m.writeBytes (b.dstAddr.toNat + b.dstLen.toNat) (packWhole ((all.length + 1) / 8) (all ++ [bit]))) := by
  have hlt := bitsValue_lt (all.drop (8 * (all.length / 8)))
  have hlen : (all.drop (8 * (all.length / 8))).length = all.length % 8 := by simp; omega
  rw [hlen] at hlt
  have h7 : 2 ^ (all.length % 8) ≤ 2 ^ 7 := Nat.pow_le_pow_right (by norm_num) (by omega)
  have hacc : (BitVec.ofNat 8 (bitsValue (all.drop (8 * (all.length / 8)))) <<< 1) ||| (BitVec.ofBool bit).setWidth 8 =
      BitVec.ofNat 8 (bitsValue ((all ++ [bit]).drop (8 * (all.length / 8)))) := by
    rw [List.drop_append_of_le_length (by omega), bitsValue_append]
    generalize bitsValue (all.drop (8 * (all.length / 8))) = v at hlt
    apply BitVec.eq_of_toNat_eq
    cases bit
    · simp [bitsValue, Nat.shiftLeft_eq]
    · have := BitVec.add_eq_or_of_and_eq_zero (BitVec.ofNat 8 v <<< 1) 1#8 (by
        ext i; simp; omega)
      simp [← this, bitsValue, Nat.shiftLeft_eq]
  by_cases hc : all.length % 8 = 7
  · have hdiv : (all.length + 1) / 8 = all.length / 8 + 1 := by omega
    have hd : (b.holding (all.length / 8) all).dstLen.toNat = b.dstLen.toNat + all.length / 8 := by
      simp only [Block.holding, BitVec.toNat_ofNat]; omega
    simp only [putBit]
    rw [if_pos (by simp [Block.holding, hc]), hd]
    refine Prod.ext ?_ ?_
    · simp only [Block.holding, Block.mk.injEq, true_and, and_true]
      refine ⟨?_, ?_, ?_⟩
      · rw [hdiv]
        apply BitVec.eq_of_toNat_eq
        simp [Nat.add_assoc]
      · rw [hdiv, List.drop_of_length_le (by simp; omega)]; rfl
      · simp only [List.length_append, List.length_singleton]
        rw [show (all.length + 1) % 8 = 0 by omega]; rfl
    · simp only [Block.holding]
      rw [hacc, hdiv, packWhole_succ, packWhole_append _ _ _ (by omega), Memory.writeBytes_append, length_packWhole,
        List.take_of_length_le (by simp; omega), Nat.add_assoc]
      simp only [Memory.writeBytes, packByte]
      congr 2
      simp only [List.length_drop, List.length_append, List.length_singleton]
      rw [show 8 - (all.length + 1 - 8 * (all.length / 8)) = 0 by omega]
      simp
  · have hdiv : (all.length + 1) / 8 = all.length / 8 := by omega
    simp only [putBit]
    rw [if_neg (by simp only [Block.holding]; intro h; have := congrArg BitVec.toNat h; simp at this; omega)]
    refine Prod.ext ?_ ?_
    · simp only [Block.holding, Block.mk.injEq, true_and, and_true]
      refine ⟨?_, ?_, ?_⟩
      · rw [hdiv]
      · rw [hacc, hdiv]
      · simp only [List.length_append, List.length_singleton]
        apply BitVec.eq_of_toNat_eq
        simp only [BitVec.toNat_add, BitVec.toNat_ofNat]
        simp
    · simp only
      rw [hdiv, packWhole_append _ _ _ (by omega)]

/-- What putting bits does: whole bytes go to the destination, the rest is the partial byte (40_bitio R141). -/
theorem putBits_eq (b : Block) (m : Memory) (bits : Bits) (hacc : b.bwAcc.toNat < 2 ^ b.bwCnt.toNat)
    (hb : b.dstLen.toNat + (b.bwCnt.toNat + bits.length) / 8 < 2 ^ 64) :
    putBits (b, m) bits =
      (b.holding ((b.bwCnt.toNat + bits.length) / 8) (b.partialBits ++ bits),
        m.writeBytes (b.dstAddr.toNat + b.dstLen.toNat)
          (packWhole ((b.bwCnt.toNat + bits.length) / 8) (b.partialBits ++ bits))) := by
  induction bits using List.reverseRecOn with
  | nil =>
    have : b.bwCnt.toNat / 8 = 0 := by have := b.bwCnt.isLt; omega
    simp only [putBits, List.foldl_nil, List.length_nil, Nat.add_zero, this, List.append_nil, packWhole,
      Memory.writeBytes, Prod.mk.injEq, and_true]
    have hc : b.bwCnt.toNat % 8 = b.bwCnt.toNat := by have := b.bwCnt.isLt; omega
    simp [Block.holding, Block.bitsValue_partialBits b hacc, hc]
  | append_singleton bits bit ih =>
    simp only [List.length_append, List.length_singleton] at hb
    rw [putBits, List.foldl_append]
    change [bit].foldl putBit (putBits (b, m) bits) = _
    rw [ih (by omega)]
    have := putBit_holding b m (b.partialBits ++ bits) bit (by simp; omega)
    simp only [List.length_append, Block.length_partialBits] at this
    simp only [List.foldl_cons, List.foldl_nil, this, List.length_append, List.length_singleton, List.append_assoc,
      Nat.add_assoc]

/-- How many bits of the source are left (40_bitio R142). -/
theorem State.length_unread (s : State) : s.unread.length = s.cur.avail := by
  simp [State.unread, State.srcBytes, Block.avail, Block.streamPos]

/-- The reader standing at stream bit `pos`. -/
def Block.readerAt (b : Block) (pos : Nat) : Block :=
  { b with brByte := BitVec.ofNat 64 (pos / 8), brBit := BitVec.ofNat 3 (pos % 8) }

/-- A reader stands where its position says. -/
theorem Block.readerAt_streamPos (b : Block) : b.readerAt b.streamPos = b := by
  have := b.brBit.isLt
  simp only [Block.readerAt, Block.streamPos]
  rw [show (8 * b.brByte.toNat + b.brBit.toNat) / 8 = b.brByte.toNat by omega,
    show (8 * b.brByte.toNat + b.brBit.toNat) % 8 = b.brBit.toNat by omega]
  simp

theorem Block.streamPos_readerAt (b : Block) (pos : Nat) (h : pos ≤ 8 * b.srcLen.toNat) : (b.readerAt pos).streamPos = pos := by
  have := b.srcLen.isLt
  simp only [Block.streamPos, Block.readerAt, BitVec.toNat_ofNat]
  omega

@[simp] theorem Block.readerAt_readerAt (b : Block) (p q : Nat) : (b.readerAt p).readerAt q = b.readerAt q := rfl

/-- What one bit read gives (40_bitio R142). -/
theorem getBit_eq (m : Memory) (b : Block) (h : b.streamPos < 8 * b.srcLen.toNat) :
    getBit m b =
      ((streamBits (m.readBytes b.srcAddr.toNat b.srcLen.toNat))[b.streamPos]'(by simpa using h),
        b.readerAt (b.streamPos + 1)) := by
  have hbit := b.brBit.isLt
  have hq : b.streamPos / 8 = b.brByte.toNat := by simp only [Block.streamPos]; omega
  have hr : b.streamPos % 8 = b.brBit.toNat := by simp only [Block.streamPos]; omega
  refine Prod.ext ?_ ?_
  · simp only [getBit, getElem_streamBits, Memory.getElem_readBytes, hq, hr]
  · simp only [getBit]
    split
    · rename_i h7
      have h7' : b.brBit.toNat = 7 := by rw [h7]; rfl
      simp only [Block.readerAt, Block.mk.injEq, true_and, and_true]
      rw [show (b.streamPos + 1) / 8 = b.brByte.toNat + 1 by omega, show (b.streamPos + 1) % 8 = 0 by omega]
      exact ⟨BitVec.eq_of_toNat_eq (by simp), rfl⟩
    · rename_i h7
      have h7' : b.brBit.toNat ≠ 7 := fun hc => h7 (BitVec.eq_of_toNat_eq (by simpa using hc))
      simp only [Block.readerAt, Block.mk.injEq, true_and, and_true]
      rw [show (b.streamPos + 1) / 8 = b.brByte.toNat by omega,
        show (b.streamPos + 1) % 8 = b.brBit.toNat + 1 by omega]
      exact ⟨by simp, BitVec.eq_of_toNat_eq (by simp)⟩

/-- What `n` bits read give, where they are there (40_bitio R142). -/
theorem getBits_eq (m : Memory) (b : Block) (n : Nat) (h : b.streamPos + n ≤ 8 * b.srcLen.toNat) :
    getBits m b n =
      (((streamBits (m.readBytes b.srcAddr.toNat b.srcLen.toNat)).drop b.streamPos).take n, b.readerAt (b.streamPos + n)) := by
  induction n generalizing b with
  | zero => simp [getBits, Block.readerAt_streamPos]
  | succ n ih =>
    have hp : ((b.readerAt (b.streamPos + 1))).streamPos = b.streamPos + 1 := Block.streamPos_readerAt _ _ (by omega)
    rw [getBits, getBit_eq m b (by omega), ih _ (by rw [hp]; simp only [Block.readerAt]; omega), hp]
    simp only [Block.readerAt_readerAt]
    rw [show b.streamPos + 1 + n = b.streamPos + (n + 1) by omega]
    congr 1
    rw [List.drop_eq_getElem_cons (i := b.streamPos) (by simp; omega), List.take_succ_cons]
    rfl

/-- The flush of a partial byte that is not empty (40_bitio R145). -/
theorem Block.flushByte_eq (b : Block) (h : b.bwAcc.toNat < 2 ^ b.bwCnt.toNat) :
    b.flushByte = packByte b.partialBits := by
  simp only [Block.flushByte, packByte, Block.bitsValue_partialBits b h, Block.length_partialBits]
  apply BitVec.eq_of_toNat_eq
  simp [Nat.shiftLeft_eq]

/-- One bit put is either the eighth of a byte, which is pushed, or joins the partial byte (40_bitio R141). -/
theorem putBit_cases (x : Block × Memory) (bit : Bool) :
    (x.1.bwCnt.toNat = 7 ∧ ∃ v,
      putBit x bit =
        ({ x.1 with dstLen := x.1.dstLen + 1, bwAcc := 0, bwCnt := 0 },
          x.2.write (x.1.dstAddr.toNat + x.1.dstLen.toNat) v)) ∨
      (x.1.bwCnt.toNat < 7 ∧ (x.1.bwCnt + 1).toNat = x.1.bwCnt.toNat + 1 ∧ ∃ v : Byte,
        (x.1.bwAcc.toNat < 2 ^ x.1.bwCnt.toNat → v.toNat < 2 ^ (x.1.bwCnt.toNat + 1)) ∧
          putBit x bit = ({ x.1 with bwAcc := v, bwCnt := x.1.bwCnt + 1 }, x.2)) := by
  have hc := x.1.bwCnt.isLt
  by_cases h : x.1.bwCnt = 7
  · exact .inl ⟨by rw [h]; rfl, _, by unfold putBit; simp only; rw [if_pos h]⟩
  · have h7 : x.1.bwCnt.toNat ≠ 7 := fun hn => h (BitVec.eq_of_toNat_eq (by rw [hn]; rfl))
    refine .inr ⟨by omega, by rw [BitVec.toNat_add]; simp; omega, _, fun ha => ?_,
      by unfold putBit; simp only; rw [if_neg h]⟩
    rw [BitVec.toNat_or]
    refine Nat.or_lt_two_pow ?_ ?_
    · rw [BitVec.toNat_shiftLeft, Nat.shiftLeft_eq]
      exact lt_of_le_of_lt (Nat.mod_le _ _) (by rw [pow_succ]; omega)
    · have h1 : ((BitVec.ofBool bit).setWidth 8 : Byte).toNat < 2 := by cases bit <;> decide
      have h2 := Nat.one_le_two_pow (n := x.1.bwCnt.toNat)
      rw [pow_succ]
      omega

/-- Putting bits changes the writer only (40_bitio R141). -/
theorem putBits_block (x : Block × Memory) (bits : Bits) :
    ∃ acc cnt len, (putBits x bits).1 = { x.1 with bwAcc := acc, bwCnt := cnt, dstLen := len } := by
  induction bits generalizing x with
  | nil => exact ⟨_, _, _, rfl⟩
  | cons b bits ih =>
    obtain ⟨acc, cnt, len, h⟩ := ih (putBit x b)
    refine ⟨acc, cnt, len, h.trans ?_⟩
    rcases putBit_cases x b with ⟨-, v, hv⟩ | ⟨-, -, v, -, hv⟩ <;> rw [hv]

/-- Putting bits keeps ACC below 2^CNT (10_state R47). -/
theorem putBits_acc (x : Block × Memory) (bits : Bits) (h : x.1.bwAcc.toNat < 2 ^ x.1.bwCnt.toNat) :
    (putBits x bits).1.bwAcc.toNat < 2 ^ (putBits x bits).1.bwCnt.toNat := by
  induction bits generalizing x with
  | nil => exact h
  | cons b bits ih =>
    refine ih (putBit x b) ?_
    rcases putBit_cases x b with ⟨-, v, hv⟩ | ⟨-, hl, v, ha, hv⟩
    · rw [hv]; simp
    · rw [hv]; simp only [hl]; exact ha h

/-- Putting bits writes no byte but those it pushes, whatever the partial byte holds; memory keeps its form (40_bitio
R141). -/
theorem putBits_mem (x : Block × Memory) (bits : Bits) (hi : Nat)
    (hhi : 0 < (x.1.bwCnt.toNat + bits.length) / 8 →
      x.1.dstAddr.toNat + x.1.dstLen.toNat + (x.1.bwCnt.toNat + bits.length) / 8 ≤ hi ∧
        x.1.dstLen.toNat + (x.1.bwCnt.toNat + bits.length) / 8 < 2 ^ 64) :
    (∀ a, a < x.1.dstAddr.toNat + x.1.dstLen.toNat ∨ hi ≤ a → (putBits x bits).2.read a = x.2.read a) ∧
      (x.2.wf = true → (putBits x bits).2.wf = true) ∧
      (hi ≤ Config.addressSpace → x.2.inSpace = true → (putBits x bits).2.inSpace = true) := by
  induction bits generalizing x with
  | nil => exact ⟨fun _ _ => rfl, id, fun _ => id⟩
  | cons b bits ih =>
    simp only [List.length_cons] at hhi
    have hp : putBits x (b :: bits) = putBits (putBit x b) bits := rfl
    rcases putBit_cases x b with ⟨h7, v, hv⟩ | ⟨h7, hl, v, -, hv⟩
    · have hfit := hhi (by omega)
      have hl : (x.1.dstLen + 1).toNat = x.1.dstLen.toNat + 1 := by rw [BitVec.toNat_add]; simp; omega
      have h0 : (0 : BitVec 3).toNat = 0 := rfl
      have := ih (putBit x b) (by rw [hv]; simp only [hl, h0]; omega)
      rw [hp]
      rw [hv] at this ⊢
      simp only [hl] at this
      refine ⟨fun a ha => ?_, fun hw => this.2.1 (Memory.wf_write _ _ _ hw), fun h64 hs =>
        this.2.2 h64 (Memory.inSpace_write _ _ _ (by omega) hs)⟩
      rw [this.1 a (by omega)]
      exact Memory.read_write_other _ _ (by omega)
    · have := ih (putBit x b) (by
        rw [hv]; simp only [hl]
        rw [show x.1.bwCnt.toNat + 1 + bits.length = x.1.bwCnt.toNat + (bits.length + 1) by omega]; exact hhi)
      rw [hp]
      rw [hv] at this ⊢
      exact this

/-- Reading a bit moves the reader's position only (40_bitio R142). -/
theorem getBit_block (m : Memory) (b : Block) : ∃ p q, (getBit m b).2 = { b with brByte := p, brBit := q } := by
  simp only [getBit]
  split <;> exact ⟨_, _, rfl⟩

/-- Reading bits moves the reader's position only (40_bitio R142). -/
theorem getBits_block (m : Memory) (b : Block) (n : Nat) :
    ∃ p q, (getBits m b n).2 = { b with brByte := p, brBit := q } := by
  induction n generalizing b with
  | zero => exact ⟨_, _, rfl⟩
  | succ n ih =>
    obtain ⟨p, q, h⟩ := ih (getBit m b).2
    obtain ⟨p', q', h'⟩ := getBit_block m b
    exact ⟨p, q, by simp only [getBits, h]; rw [h']⟩

end Sys2Proof.Machine
end

