-- ==== Sys2Proof/Laws/State.lean ====
section
/-! SUPPORT. One lemma per field for each update of an instance or of the system. -/

namespace Sys2Proof.Machine

/-! ### `Block.raise` -/

@[simp] theorem Block.raise_mmioBase (b : Block) (code : FaultCode) (info : Nat) :
    (b.raise code info).mmioBase =
      b.mmioBase := rfl
@[simp] theorem Block.raise_inReset (b : Block) (code : FaultCode) (info : Nat) :
    (b.raise code info).inReset =
      b.inReset := rfl
@[simp] theorem Block.raise_status (b : Block) (code : FaultCode) (info : Nat) :
    (b.raise code info).status =
      { b.status with err := true, fault := code, busy := false } := rfl
@[simp] theorem Block.raise_faultInfo (b : Block) (code : FaultCode) (info : Nat) :
    (b.raise code info).faultInfo =
      sat64 info := rfl
@[simp] theorem Block.raise_irqEn (b : Block) (code : FaultCode) (info : Nat) :
    (b.raise code info).irqEn =
      b.irqEn := rfl
@[simp] theorem Block.raise_srcAddr (b : Block) (code : FaultCode) (info : Nat) :
    (b.raise code info).srcAddr =
      b.srcAddr := rfl
@[simp] theorem Block.raise_srcLen (b : Block) (code : FaultCode) (info : Nat) :
    (b.raise code info).srcLen =
      b.srcLen := rfl
@[simp] theorem Block.raise_dstAddr (b : Block) (code : FaultCode) (info : Nat) :
    (b.raise code info).dstAddr =
      b.dstAddr := rfl
@[simp] theorem Block.raise_dstCap (b : Block) (code : FaultCode) (info : Nat) :
    (b.raise code info).dstCap =
      b.dstCap := rfl
@[simp] theorem Block.raise_dstLen (b : Block) (code : FaultCode) (info : Nat) :
    (b.raise code info).dstLen =
      b.dstLen := rfl
@[simp] theorem Block.raise_metaAddr (b : Block) (code : FaultCode) (info : Nat) :
    (b.raise code info).metaAddr =
      b.metaAddr := rfl
@[simp] theorem Block.raise_origSize (b : Block) (code : FaultCode) (info : Nat) :
    (b.raise code info).origSize =
      b.origSize := rfl
@[simp] theorem Block.raise_codeCount (b : Block) (code : FaultCode) (info : Nat) :
    (b.raise code info).codeCount =
      b.codeCount := rfl
@[simp] theorem Block.raise_dictSize (b : Block) (code : FaultCode) (info : Nat) :
    (b.raise code info).dictSize =
      b.dictSize := rfl
@[simp] theorem Block.raise_bwData (b : Block) (code : FaultCode) (info : Nat) :
    (b.raise code info).bwData =
      b.bwData := rfl
@[simp] theorem Block.raise_bwAcc (b : Block) (code : FaultCode) (info : Nat) :
    (b.raise code info).bwAcc =
      b.bwAcc := rfl
@[simp] theorem Block.raise_bwCnt (b : Block) (code : FaultCode) (info : Nat) :
    (b.raise code info).bwCnt =
      b.bwCnt := rfl
@[simp] theorem Block.raise_bwOpen (b : Block) (code : FaultCode) (info : Nat) :
    (b.raise code info).bwOpen =
      b.bwOpen := rfl
@[simp] theorem Block.raise_brByte (b : Block) (code : FaultCode) (info : Nat) :
    (b.raise code info).brByte =
      b.brByte := rfl
@[simp] theorem Block.raise_brBit (b : Block) (code : FaultCode) (info : Nat) :
    (b.raise code info).brBit =
      b.brBit := rfl
@[simp] theorem Block.raise_brData (b : Block) (code : FaultCode) (info : Nat) :
    (b.raise code info).brData =
      b.brData := rfl
@[simp] theorem Block.raise_symOut (b : Block) (code : FaultCode) (info : Nat) :
    (b.raise code info).symOut =
      b.symOut := rfl
@[simp] theorem Block.raise_codeLen (b : Block) (code : FaultCode) (info : Nat) :
    (b.raise code info).codeLen =
      b.codeLen := rfl
@[simp] theorem Block.raise_code (b : Block) (code : FaultCode) (info : Nat) :
    (b.raise code info).code =
      b.code := rfl
@[simp] theorem Block.raise_treeValid (b : Block) (code : FaultCode) (info : Nat) :
    (b.raise code info).treeValid =
      b.treeValid := rfl
@[simp] theorem Block.raise_freq (b : Block) (code : FaultCode) (info : Nat) :
    (b.raise code info).freq =
      b.freq := rfl
@[simp] theorem Block.raise_pending (b : Block) (code : FaultCode) (info : Nat) :
    (b.raise code info).pending =
      none := rfl
@[simp] theorem Block.raise_track (b : Block) (code : FaultCode) (info : Nat) :
    (b.raise code info).track =
      b.track := rfl

/-! ### `Block.complete` -/

@[simp] theorem Block.complete_mmioBase (b : Block) : b.complete.mmioBase = b.mmioBase := rfl
@[simp] theorem Block.complete_inReset (b : Block) : b.complete.inReset = b.inReset := rfl
@[simp] theorem Block.complete_status (b : Block) :
    b.complete.status =
      { b.status with done := true, busy := false } := rfl
@[simp] theorem Block.complete_faultInfo (b : Block) : b.complete.faultInfo = b.faultInfo := rfl
@[simp] theorem Block.complete_irqEn (b : Block) : b.complete.irqEn = b.irqEn := rfl
@[simp] theorem Block.complete_srcAddr (b : Block) : b.complete.srcAddr = b.srcAddr := rfl
@[simp] theorem Block.complete_srcLen (b : Block) : b.complete.srcLen = b.srcLen := rfl
@[simp] theorem Block.complete_dstAddr (b : Block) : b.complete.dstAddr = b.dstAddr := rfl
@[simp] theorem Block.complete_dstCap (b : Block) : b.complete.dstCap = b.dstCap := rfl
@[simp] theorem Block.complete_dstLen (b : Block) : b.complete.dstLen = b.dstLen := rfl
@[simp] theorem Block.complete_metaAddr (b : Block) : b.complete.metaAddr = b.metaAddr := rfl
@[simp] theorem Block.complete_origSize (b : Block) : b.complete.origSize = b.origSize := rfl
@[simp] theorem Block.complete_codeCount (b : Block) : b.complete.codeCount = b.codeCount := rfl
@[simp] theorem Block.complete_dictSize (b : Block) : b.complete.dictSize = b.dictSize := rfl
@[simp] theorem Block.complete_bwData (b : Block) : b.complete.bwData = b.bwData := rfl
@[simp] theorem Block.complete_bwAcc (b : Block) : b.complete.bwAcc = b.bwAcc := rfl
@[simp] theorem Block.complete_bwCnt (b : Block) : b.complete.bwCnt = b.bwCnt := rfl
@[simp] theorem Block.complete_bwOpen (b : Block) : b.complete.bwOpen = b.bwOpen := rfl
@[simp] theorem Block.complete_brByte (b : Block) : b.complete.brByte = b.brByte := rfl
@[simp] theorem Block.complete_brBit (b : Block) : b.complete.brBit = b.brBit := rfl
@[simp] theorem Block.complete_brData (b : Block) : b.complete.brData = b.brData := rfl
@[simp] theorem Block.complete_symOut (b : Block) : b.complete.symOut = b.symOut := rfl
@[simp] theorem Block.complete_codeLen (b : Block) : b.complete.codeLen = b.codeLen := rfl
@[simp] theorem Block.complete_code (b : Block) : b.complete.code = b.code := rfl
@[simp] theorem Block.complete_treeValid (b : Block) : b.complete.treeValid = b.treeValid := rfl
@[simp] theorem Block.complete_freq (b : Block) : b.complete.freq = b.freq := rfl
@[simp] theorem Block.complete_pending (b : Block) : b.complete.pending = none := rfl
@[simp] theorem Block.complete_track (b : Block) : b.complete.track = b.track := rfl

/-! ### `Block.writeStatus` -/

@[simp] theorem Block.writeStatus_mmioBase (b : Block) (v : Word) : (b.writeStatus v).mmioBase = b.mmioBase := rfl
@[simp] theorem Block.writeStatus_inReset (b : Block) (v : Word) : (b.writeStatus v).inReset = b.inReset := rfl
@[simp] theorem Block.writeStatus_status (b : Block) (v : Word) :
    (b.writeStatus v).status =
      { b.status with done := b.status.done && !v.getLsbD 1, err := b.status.err && !v.getLsbD 2, werr := b.status.werr && !v.getLsbD 3 } := rfl
@[simp] theorem Block.writeStatus_faultInfo (b : Block) (v : Word) : (b.writeStatus v).faultInfo = b.faultInfo := rfl
@[simp] theorem Block.writeStatus_irqEn (b : Block) (v : Word) : (b.writeStatus v).irqEn = b.irqEn := rfl
@[simp] theorem Block.writeStatus_srcAddr (b : Block) (v : Word) : (b.writeStatus v).srcAddr = b.srcAddr := rfl
@[simp] theorem Block.writeStatus_srcLen (b : Block) (v : Word) : (b.writeStatus v).srcLen = b.srcLen := rfl
@[simp] theorem Block.writeStatus_dstAddr (b : Block) (v : Word) : (b.writeStatus v).dstAddr = b.dstAddr := rfl
@[simp] theorem Block.writeStatus_dstCap (b : Block) (v : Word) : (b.writeStatus v).dstCap = b.dstCap := rfl
@[simp] theorem Block.writeStatus_dstLen (b : Block) (v : Word) : (b.writeStatus v).dstLen = b.dstLen := rfl
@[simp] theorem Block.writeStatus_metaAddr (b : Block) (v : Word) : (b.writeStatus v).metaAddr = b.metaAddr := rfl
@[simp] theorem Block.writeStatus_origSize (b : Block) (v : Word) : (b.writeStatus v).origSize = b.origSize := rfl
@[simp] theorem Block.writeStatus_codeCount (b : Block) (v : Word) : (b.writeStatus v).codeCount = b.codeCount := rfl
@[simp] theorem Block.writeStatus_dictSize (b : Block) (v : Word) : (b.writeStatus v).dictSize = b.dictSize := rfl
@[simp] theorem Block.writeStatus_bwData (b : Block) (v : Word) : (b.writeStatus v).bwData = b.bwData := rfl
@[simp] theorem Block.writeStatus_bwAcc (b : Block) (v : Word) : (b.writeStatus v).bwAcc = b.bwAcc := rfl
@[simp] theorem Block.writeStatus_bwCnt (b : Block) (v : Word) : (b.writeStatus v).bwCnt = b.bwCnt := rfl
@[simp] theorem Block.writeStatus_bwOpen (b : Block) (v : Word) : (b.writeStatus v).bwOpen = b.bwOpen := rfl
@[simp] theorem Block.writeStatus_brByte (b : Block) (v : Word) : (b.writeStatus v).brByte = b.brByte := rfl
@[simp] theorem Block.writeStatus_brBit (b : Block) (v : Word) : (b.writeStatus v).brBit = b.brBit := rfl
@[simp] theorem Block.writeStatus_brData (b : Block) (v : Word) : (b.writeStatus v).brData = b.brData := rfl
@[simp] theorem Block.writeStatus_symOut (b : Block) (v : Word) : (b.writeStatus v).symOut = b.symOut := rfl
@[simp] theorem Block.writeStatus_codeLen (b : Block) (v : Word) : (b.writeStatus v).codeLen = b.codeLen := rfl
@[simp] theorem Block.writeStatus_code (b : Block) (v : Word) : (b.writeStatus v).code = b.code := rfl
@[simp] theorem Block.writeStatus_treeValid (b : Block) (v : Word) : (b.writeStatus v).treeValid = b.treeValid := rfl
@[simp] theorem Block.writeStatus_freq (b : Block) (v : Word) : (b.writeStatus v).freq = b.freq := rfl
@[simp] theorem Block.writeStatus_pending (b : Block) (v : Word) : (b.writeStatus v).pending = b.pending := rfl
@[simp] theorem Block.writeStatus_track (b : Block) (v : Word) : (b.writeStatus v).track = b.track := rfl

/-! ### `Block.accept` -/

@[simp] theorem Block.accept_mmioBase (b : Block) (w : Word) : (b.accept w).mmioBase = b.mmioBase := rfl
@[simp] theorem Block.accept_inReset (b : Block) (w : Word) : (b.accept w).inReset = b.inReset := rfl
@[simp] theorem Block.accept_status (b : Block) (w : Word) :
    (b.accept w).status =
      { b.status with busy := true, done := false, err := false, fault := .noFault, lastOp := w.setWidth 8 } := rfl
@[simp] theorem Block.accept_faultInfo (b : Block) (w : Word) : (b.accept w).faultInfo = 0 := rfl
@[simp] theorem Block.accept_irqEn (b : Block) (w : Word) : (b.accept w).irqEn = b.irqEn := rfl
@[simp] theorem Block.accept_srcAddr (b : Block) (w : Word) : (b.accept w).srcAddr = b.srcAddr := rfl
@[simp] theorem Block.accept_srcLen (b : Block) (w : Word) : (b.accept w).srcLen = b.srcLen := rfl
@[simp] theorem Block.accept_dstAddr (b : Block) (w : Word) : (b.accept w).dstAddr = b.dstAddr := rfl
@[simp] theorem Block.accept_dstCap (b : Block) (w : Word) : (b.accept w).dstCap = b.dstCap := rfl
@[simp] theorem Block.accept_dstLen (b : Block) (w : Word) : (b.accept w).dstLen = b.dstLen := rfl
@[simp] theorem Block.accept_metaAddr (b : Block) (w : Word) : (b.accept w).metaAddr = b.metaAddr := rfl
@[simp] theorem Block.accept_origSize (b : Block) (w : Word) : (b.accept w).origSize = b.origSize := rfl
@[simp] theorem Block.accept_codeCount (b : Block) (w : Word) : (b.accept w).codeCount = b.codeCount := rfl
@[simp] theorem Block.accept_dictSize (b : Block) (w : Word) : (b.accept w).dictSize = b.dictSize := rfl
@[simp] theorem Block.accept_bwData (b : Block) (w : Word) : (b.accept w).bwData = b.bwData := rfl
@[simp] theorem Block.accept_bwAcc (b : Block) (w : Word) : (b.accept w).bwAcc = b.bwAcc := rfl
@[simp] theorem Block.accept_bwCnt (b : Block) (w : Word) : (b.accept w).bwCnt = b.bwCnt := rfl
@[simp] theorem Block.accept_bwOpen (b : Block) (w : Word) : (b.accept w).bwOpen = b.bwOpen := rfl
@[simp] theorem Block.accept_brByte (b : Block) (w : Word) : (b.accept w).brByte = b.brByte := rfl
@[simp] theorem Block.accept_brBit (b : Block) (w : Word) : (b.accept w).brBit = b.brBit := rfl
@[simp] theorem Block.accept_brData (b : Block) (w : Word) : (b.accept w).brData = b.brData := rfl
@[simp] theorem Block.accept_symOut (b : Block) (w : Word) : (b.accept w).symOut = b.symOut := rfl
@[simp] theorem Block.accept_codeLen (b : Block) (w : Word) : (b.accept w).codeLen = b.codeLen := rfl
@[simp] theorem Block.accept_code (b : Block) (w : Word) : (b.accept w).code = b.code := rfl
@[simp] theorem Block.accept_treeValid (b : Block) (w : Word) : (b.accept w).treeValid = b.treeValid := rfl
@[simp] theorem Block.accept_freq (b : Block) (w : Word) : (b.accept w).freq = b.freq := rfl
@[simp] theorem Block.accept_pending (b : Block) (w : Word) : (b.accept w).pending = some w := rfl
@[simp] theorem Block.accept_track (b : Block) (w : Word) :
    (b.accept w).track =
      { b.track with seen := false, raced := false, shared := [] } := rfl

/-! ### `Block.closeWriter` -/

@[simp] theorem Block.closeWriter_mmioBase (b : Block) : b.closeWriter.mmioBase = b.mmioBase := rfl
@[simp] theorem Block.closeWriter_inReset (b : Block) : b.closeWriter.inReset = b.inReset := rfl
@[simp] theorem Block.closeWriter_status (b : Block) : b.closeWriter.status = b.status := rfl
@[simp] theorem Block.closeWriter_faultInfo (b : Block) : b.closeWriter.faultInfo = b.faultInfo := rfl
@[simp] theorem Block.closeWriter_irqEn (b : Block) : b.closeWriter.irqEn = b.irqEn := rfl
@[simp] theorem Block.closeWriter_srcAddr (b : Block) : b.closeWriter.srcAddr = b.srcAddr := rfl
@[simp] theorem Block.closeWriter_srcLen (b : Block) : b.closeWriter.srcLen = b.srcLen := rfl
@[simp] theorem Block.closeWriter_dstAddr (b : Block) : b.closeWriter.dstAddr = b.dstAddr := rfl
@[simp] theorem Block.closeWriter_dstCap (b : Block) : b.closeWriter.dstCap = b.dstCap := rfl
@[simp] theorem Block.closeWriter_dstLen (b : Block) : b.closeWriter.dstLen = b.dstLen := rfl
@[simp] theorem Block.closeWriter_metaAddr (b : Block) : b.closeWriter.metaAddr = b.metaAddr := rfl
@[simp] theorem Block.closeWriter_origSize (b : Block) : b.closeWriter.origSize = b.origSize := rfl
@[simp] theorem Block.closeWriter_codeCount (b : Block) : b.closeWriter.codeCount = b.codeCount := rfl
@[simp] theorem Block.closeWriter_dictSize (b : Block) : b.closeWriter.dictSize = b.dictSize := rfl
@[simp] theorem Block.closeWriter_bwData (b : Block) : b.closeWriter.bwData = b.bwData := rfl
@[simp] theorem Block.closeWriter_bwAcc (b : Block) : b.closeWriter.bwAcc = 0 := rfl
@[simp] theorem Block.closeWriter_bwCnt (b : Block) : b.closeWriter.bwCnt = 0 := rfl
@[simp] theorem Block.closeWriter_bwOpen (b : Block) : b.closeWriter.bwOpen = false := rfl
@[simp] theorem Block.closeWriter_brByte (b : Block) : b.closeWriter.brByte = b.brByte := rfl
@[simp] theorem Block.closeWriter_brBit (b : Block) : b.closeWriter.brBit = b.brBit := rfl
@[simp] theorem Block.closeWriter_brData (b : Block) : b.closeWriter.brData = b.brData := rfl
@[simp] theorem Block.closeWriter_symOut (b : Block) : b.closeWriter.symOut = b.symOut := rfl
@[simp] theorem Block.closeWriter_codeLen (b : Block) : b.closeWriter.codeLen = b.codeLen := rfl
@[simp] theorem Block.closeWriter_code (b : Block) : b.closeWriter.code = b.code := rfl
@[simp] theorem Block.closeWriter_treeValid (b : Block) : b.closeWriter.treeValid = b.treeValid := rfl
@[simp] theorem Block.closeWriter_freq (b : Block) : b.closeWriter.freq = b.freq := rfl
@[simp] theorem Block.closeWriter_pending (b : Block) : b.closeWriter.pending = b.pending := rfl
@[simp] theorem Block.closeWriter_track (b : Block) : b.closeWriter.track = b.track := rfl

/-! ### `Block.openWriter` -/

@[simp] theorem Block.openWriter_mmioBase (b : Block) : b.openWriter.mmioBase = b.mmioBase := rfl
@[simp] theorem Block.openWriter_inReset (b : Block) : b.openWriter.inReset = b.inReset := rfl
@[simp] theorem Block.openWriter_status (b : Block) : b.openWriter.status = b.status := rfl
@[simp] theorem Block.openWriter_faultInfo (b : Block) : b.openWriter.faultInfo = b.faultInfo := rfl
@[simp] theorem Block.openWriter_irqEn (b : Block) : b.openWriter.irqEn = b.irqEn := rfl
@[simp] theorem Block.openWriter_srcAddr (b : Block) : b.openWriter.srcAddr = b.srcAddr := rfl
@[simp] theorem Block.openWriter_srcLen (b : Block) : b.openWriter.srcLen = b.srcLen := rfl
@[simp] theorem Block.openWriter_dstAddr (b : Block) : b.openWriter.dstAddr = b.dstAddr := rfl
@[simp] theorem Block.openWriter_dstCap (b : Block) : b.openWriter.dstCap = b.dstCap := rfl
@[simp] theorem Block.openWriter_dstLen (b : Block) : b.openWriter.dstLen = 0 := rfl
@[simp] theorem Block.openWriter_metaAddr (b : Block) : b.openWriter.metaAddr = b.metaAddr := rfl
@[simp] theorem Block.openWriter_origSize (b : Block) : b.openWriter.origSize = b.origSize := rfl
@[simp] theorem Block.openWriter_codeCount (b : Block) : b.openWriter.codeCount = b.codeCount := rfl
@[simp] theorem Block.openWriter_dictSize (b : Block) : b.openWriter.dictSize = b.dictSize := rfl
@[simp] theorem Block.openWriter_bwData (b : Block) : b.openWriter.bwData = b.bwData := rfl
@[simp] theorem Block.openWriter_bwAcc (b : Block) : b.openWriter.bwAcc = 0 := rfl
@[simp] theorem Block.openWriter_bwCnt (b : Block) : b.openWriter.bwCnt = 0 := rfl
@[simp] theorem Block.openWriter_bwOpen (b : Block) : b.openWriter.bwOpen = true := rfl
@[simp] theorem Block.openWriter_brByte (b : Block) : b.openWriter.brByte = b.brByte := rfl
@[simp] theorem Block.openWriter_brBit (b : Block) : b.openWriter.brBit = b.brBit := rfl
@[simp] theorem Block.openWriter_brData (b : Block) : b.openWriter.brData = b.brData := rfl
@[simp] theorem Block.openWriter_symOut (b : Block) : b.openWriter.symOut = b.symOut := rfl
@[simp] theorem Block.openWriter_codeLen (b : Block) : b.openWriter.codeLen = b.codeLen := rfl
@[simp] theorem Block.openWriter_code (b : Block) : b.openWriter.code = b.code := rfl
@[simp] theorem Block.openWriter_treeValid (b : Block) : b.openWriter.treeValid = b.treeValid := rfl
@[simp] theorem Block.openWriter_freq (b : Block) : b.openWriter.freq = b.freq := rfl
@[simp] theorem Block.openWriter_pending (b : Block) : b.openWriter.pending = b.pending := rfl
@[simp] theorem Block.openWriter_track (b : Block) : b.openWriter.track = b.track := rfl

/-! ### `Block.softReset` -/

@[simp] theorem Block.softReset_mmioBase (b : Block) : b.softReset.mmioBase = b.mmioBase := rfl
@[simp] theorem Block.softReset_inReset (b : Block) : b.softReset.inReset = b.inReset := rfl
@[simp] theorem Block.softReset_status (b : Block) : b.softReset.status = b.status := rfl
@[simp] theorem Block.softReset_faultInfo (b : Block) : b.softReset.faultInfo = b.faultInfo := rfl
@[simp] theorem Block.softReset_irqEn (b : Block) : b.softReset.irqEn = b.irqEn := rfl
@[simp] theorem Block.softReset_srcAddr (b : Block) : b.softReset.srcAddr = b.srcAddr := rfl
@[simp] theorem Block.softReset_srcLen (b : Block) : b.softReset.srcLen = b.srcLen := rfl
@[simp] theorem Block.softReset_dstAddr (b : Block) : b.softReset.dstAddr = b.dstAddr := rfl
@[simp] theorem Block.softReset_dstCap (b : Block) : b.softReset.dstCap = b.dstCap := rfl
@[simp] theorem Block.softReset_dstLen (b : Block) : b.softReset.dstLen = 0 := rfl
@[simp] theorem Block.softReset_metaAddr (b : Block) : b.softReset.metaAddr = b.metaAddr := rfl
@[simp] theorem Block.softReset_origSize (b : Block) : b.softReset.origSize = b.origSize := rfl
@[simp] theorem Block.softReset_codeCount (b : Block) : b.softReset.codeCount = b.codeCount := rfl
@[simp] theorem Block.softReset_dictSize (b : Block) : b.softReset.dictSize = 0 := rfl
@[simp] theorem Block.softReset_bwData (b : Block) : b.softReset.bwData = b.bwData := rfl
@[simp] theorem Block.softReset_bwAcc (b : Block) : b.softReset.bwAcc = 0 := rfl
@[simp] theorem Block.softReset_bwCnt (b : Block) : b.softReset.bwCnt = 0 := rfl
@[simp] theorem Block.softReset_bwOpen (b : Block) : b.softReset.bwOpen = false := rfl
@[simp] theorem Block.softReset_brByte (b : Block) : b.softReset.brByte = 0 := rfl
@[simp] theorem Block.softReset_brBit (b : Block) : b.softReset.brBit = 0 := rfl
@[simp] theorem Block.softReset_brData (b : Block) : b.softReset.brData = 0 := rfl
@[simp] theorem Block.softReset_symOut (b : Block) : b.softReset.symOut = 0 := rfl
@[simp] theorem Block.softReset_codeLen (b : Block) : b.softReset.codeLen = 0 := rfl
@[simp] theorem Block.softReset_code (b : Block) : b.softReset.code = 0 := rfl
@[simp] theorem Block.softReset_treeValid (b : Block) : b.softReset.treeValid = false := rfl
@[simp] theorem Block.softReset_freq (b : Block) : b.softReset.freq = Vector.replicate 256 0 := rfl
@[simp] theorem Block.softReset_pending (b : Block) : b.softReset.pending = b.pending := rfl
@[simp] theorem Block.softReset_track (b : Block) : b.softReset.track = b.track := rfl

/-! ### `Block.acquire` -/

@[simp] theorem Block.acquire_mmioBase (b : Block) : b.acquire.mmioBase = b.mmioBase := rfl
@[simp] theorem Block.acquire_inReset (b : Block) : b.acquire.inReset = b.inReset := rfl
@[simp] theorem Block.acquire_status (b : Block) : b.acquire.status = b.status := rfl
@[simp] theorem Block.acquire_faultInfo (b : Block) : b.acquire.faultInfo = b.faultInfo := rfl
@[simp] theorem Block.acquire_irqEn (b : Block) : b.acquire.irqEn = b.irqEn := rfl
@[simp] theorem Block.acquire_srcAddr (b : Block) : b.acquire.srcAddr = b.srcAddr := rfl
@[simp] theorem Block.acquire_srcLen (b : Block) : b.acquire.srcLen = b.srcLen := rfl
@[simp] theorem Block.acquire_dstAddr (b : Block) : b.acquire.dstAddr = b.dstAddr := rfl
@[simp] theorem Block.acquire_dstCap (b : Block) : b.acquire.dstCap = b.dstCap := rfl
@[simp] theorem Block.acquire_dstLen (b : Block) : b.acquire.dstLen = b.dstLen := rfl
@[simp] theorem Block.acquire_metaAddr (b : Block) : b.acquire.metaAddr = b.metaAddr := rfl
@[simp] theorem Block.acquire_origSize (b : Block) : b.acquire.origSize = b.origSize := rfl
@[simp] theorem Block.acquire_codeCount (b : Block) : b.acquire.codeCount = b.codeCount := rfl
@[simp] theorem Block.acquire_dictSize (b : Block) : b.acquire.dictSize = b.dictSize := rfl
@[simp] theorem Block.acquire_bwData (b : Block) : b.acquire.bwData = b.bwData := rfl
@[simp] theorem Block.acquire_bwAcc (b : Block) : b.acquire.bwAcc = b.bwAcc := rfl
@[simp] theorem Block.acquire_bwCnt (b : Block) : b.acquire.bwCnt = b.bwCnt := rfl
@[simp] theorem Block.acquire_bwOpen (b : Block) : b.acquire.bwOpen = b.bwOpen := rfl
@[simp] theorem Block.acquire_brByte (b : Block) : b.acquire.brByte = b.brByte := rfl
@[simp] theorem Block.acquire_brBit (b : Block) : b.acquire.brBit = b.brBit := rfl
@[simp] theorem Block.acquire_brData (b : Block) : b.acquire.brData = b.brData := rfl
@[simp] theorem Block.acquire_symOut (b : Block) : b.acquire.symOut = b.symOut := rfl
@[simp] theorem Block.acquire_codeLen (b : Block) : b.acquire.codeLen = b.codeLen := rfl
@[simp] theorem Block.acquire_code (b : Block) : b.acquire.code = b.code := rfl
@[simp] theorem Block.acquire_treeValid (b : Block) : b.acquire.treeValid = b.treeValid := rfl
@[simp] theorem Block.acquire_freq (b : Block) : b.acquire.freq = b.freq := rfl
@[simp] theorem Block.acquire_pending (b : Block) : b.acquire.pending = b.pending := rfl
@[simp] theorem Block.acquire_track (b : Block) : b.acquire.track = { b.track with seen := true, unseen := [] } := rfl

/-! ### `State.logged` -/

@[simp] theorem State.logged_before (s : State) (v : Word) : (s.logged v).before = s.before := rfl
@[simp] theorem State.logged_cur (s : State) (v : Word) : (s.logged v).cur = s.cur := rfl
@[simp] theorem State.logged_after (s : State) (v : Word) : (s.logged v).after = s.after := rfl
@[simp] theorem State.logged_mem (s : State) (v : Word) : (s.logged v).mem = s.mem := rfl
@[simp] theorem State.logged_platform (s : State) (v : Word) : (s.logged v).platform = s.platform := rfl
@[simp] theorem State.logged_turns (s : State) (v : Word) : (s.logged v).turns = s.turns := rfl
@[simp] theorem State.logged_log (s : State) (v : Word) : (s.logged v).log = v :: s.log := rfl
@[simp] theorem State.logged_draws (s : State) (v : Word) : (s.logged v).draws = s.draws := rfl

/-! ### `Block.unmark` -/

@[simp] theorem Block.unmark_mmioBase (b : Block) : b.unmark.mmioBase = b.mmioBase := rfl
@[simp] theorem Block.unmark_inReset (b : Block) : b.unmark.inReset = b.inReset := rfl
@[simp] theorem Block.unmark_status (b : Block) : b.unmark.status = b.status := rfl
@[simp] theorem Block.unmark_faultInfo (b : Block) : b.unmark.faultInfo = b.faultInfo := rfl
@[simp] theorem Block.unmark_irqEn (b : Block) : b.unmark.irqEn = b.irqEn := rfl
@[simp] theorem Block.unmark_srcAddr (b : Block) : b.unmark.srcAddr = b.srcAddr := rfl
@[simp] theorem Block.unmark_srcLen (b : Block) : b.unmark.srcLen = b.srcLen := rfl
@[simp] theorem Block.unmark_dstAddr (b : Block) : b.unmark.dstAddr = b.dstAddr := rfl
@[simp] theorem Block.unmark_dstCap (b : Block) : b.unmark.dstCap = b.dstCap := rfl
@[simp] theorem Block.unmark_dstLen (b : Block) : b.unmark.dstLen = b.dstLen := rfl
@[simp] theorem Block.unmark_metaAddr (b : Block) : b.unmark.metaAddr = b.metaAddr := rfl
@[simp] theorem Block.unmark_origSize (b : Block) : b.unmark.origSize = b.origSize := rfl
@[simp] theorem Block.unmark_codeCount (b : Block) : b.unmark.codeCount = b.codeCount := rfl
@[simp] theorem Block.unmark_dictSize (b : Block) : b.unmark.dictSize = b.dictSize := rfl
@[simp] theorem Block.unmark_bwData (b : Block) : b.unmark.bwData = b.bwData := rfl
@[simp] theorem Block.unmark_bwAcc (b : Block) : b.unmark.bwAcc = b.bwAcc := rfl
@[simp] theorem Block.unmark_bwCnt (b : Block) : b.unmark.bwCnt = b.bwCnt := rfl
@[simp] theorem Block.unmark_bwOpen (b : Block) : b.unmark.bwOpen = b.bwOpen := rfl
@[simp] theorem Block.unmark_brByte (b : Block) : b.unmark.brByte = b.brByte := rfl
@[simp] theorem Block.unmark_brBit (b : Block) : b.unmark.brBit = b.brBit := rfl
@[simp] theorem Block.unmark_brData (b : Block) : b.unmark.brData = b.brData := rfl
@[simp] theorem Block.unmark_symOut (b : Block) : b.unmark.symOut = b.symOut := rfl
@[simp] theorem Block.unmark_codeLen (b : Block) : b.unmark.codeLen = b.codeLen := rfl
@[simp] theorem Block.unmark_code (b : Block) : b.unmark.code = b.code := rfl
@[simp] theorem Block.unmark_treeValid (b : Block) : b.unmark.treeValid = b.treeValid := rfl
@[simp] theorem Block.unmark_freq (b : Block) : b.unmark.freq = b.freq := rfl
@[simp] theorem Block.unmark_pending (b : Block) : b.unmark.pending = b.pending := rfl
@[simp] theorem Block.unmark_track (b : Block) : b.unmark.track = { b.track with raced := false, shared := [] } := rfl

/-! ### `Block.drawOutputs`, the fields it never draws -/

@[simp] theorem Block.drawOutputs_mmioBase (b : Block) (e : Nat) (os : List Output) :
    (b.drawOutputs e os).mmioBase = b.mmioBase := rfl
@[simp] theorem Block.drawOutputs_inReset (b : Block) (e : Nat) (os : List Output) :
    (b.drawOutputs e os).inReset = b.inReset := rfl
@[simp] theorem Block.drawOutputs_irqEn (b : Block) (e : Nat) (os : List Output) :
    (b.drawOutputs e os).irqEn = b.irqEn := rfl
@[simp] theorem Block.drawOutputs_srcAddr (b : Block) (e : Nat) (os : List Output) :
    (b.drawOutputs e os).srcAddr = b.srcAddr := rfl
@[simp] theorem Block.drawOutputs_srcLen (b : Block) (e : Nat) (os : List Output) :
    (b.drawOutputs e os).srcLen = b.srcLen := rfl
@[simp] theorem Block.drawOutputs_dstAddr (b : Block) (e : Nat) (os : List Output) :
    (b.drawOutputs e os).dstAddr = b.dstAddr := rfl
@[simp] theorem Block.drawOutputs_dstCap (b : Block) (e : Nat) (os : List Output) :
    (b.drawOutputs e os).dstCap = b.dstCap := rfl
@[simp] theorem Block.drawOutputs_metaAddr (b : Block) (e : Nat) (os : List Output) :
    (b.drawOutputs e os).metaAddr = b.metaAddr := rfl
@[simp] theorem Block.drawOutputs_bwData (b : Block) (e : Nat) (os : List Output) :
    (b.drawOutputs e os).bwData = b.bwData := rfl
@[simp] theorem Block.drawOutputs_codeLen (b : Block) (e : Nat) (os : List Output) :
    (b.drawOutputs e os).codeLen = b.codeLen := rfl
@[simp] theorem Block.drawOutputs_code (b : Block) (e : Nat) (os : List Output) :
    (b.drawOutputs e os).code = b.code := rfl
@[simp] theorem Block.drawOutputs_pending (b : Block) (e : Nat) (os : List Output) :
    (b.drawOutputs e os).pending = b.pending := rfl
@[simp] theorem Block.drawOutputs_track (b : Block) (e : Nat) (os : List Output) :
    (b.drawOutputs e os).track = b.track := rfl

/-! ### `State.raceOutcome` -/

@[simp] theorem State.raceOutcome_before (s : State) (i : Instr) : (s.raceOutcome i).before = s.before := rfl
@[simp] theorem State.raceOutcome_after (s : State) (i : Instr) : (s.raceOutcome i).after = s.after := rfl
@[simp] theorem State.raceOutcome_platform (s : State) (i : Instr) : (s.raceOutcome i).platform = s.platform := rfl
@[simp] theorem State.raceOutcome_turns (s : State) (i : Instr) : (s.raceOutcome i).turns = s.turns := rfl
@[simp] theorem State.raceOutcome_log (s : State) (i : Instr) : (s.raceOutcome i).log = s.log := rfl
@[simp] theorem State.raceOutcome_draws (s : State) (i : Instr) : (s.raceOutcome i).draws = s.draws + 1 := rfl
@[simp] theorem State.raceOutcome_mem (s : State) (i : Instr) :
    (s.raceOutcome i).mem = drawAll s.draws s.mem (s.cur.written i ++ s.cur.track.shared) := rfl

/-! ### `State.sharedOutcome` -/

@[simp] theorem State.sharedOutcome_before (s : State) (i : Instr) (t : State) : (s.sharedOutcome i t).before = t.before := rfl
@[simp] theorem State.sharedOutcome_after (s : State) (i : Instr) (t : State) : (s.sharedOutcome i t).after = t.after := rfl
@[simp] theorem State.sharedOutcome_platform (s : State) (i : Instr) (t : State) : (s.sharedOutcome i t).platform = t.platform := rfl
@[simp] theorem State.sharedOutcome_turns (s : State) (i : Instr) (t : State) : (s.sharedOutcome i t).turns = t.turns := rfl
@[simp] theorem State.sharedOutcome_log (s : State) (i : Instr) (t : State) : (s.sharedOutcome i t).log = t.log := rfl
@[simp] theorem State.sharedOutcome_draws (s : State) (i : Instr) (t : State) : (s.sharedOutcome i t).draws = s.draws + 1 := rfl
@[simp] theorem State.sharedOutcome_mem (s : State) (i : Instr) (t : State) :
    (s.sharedOutcome i t).mem =
      drawAll s.draws t.mem ((s.computedFromShared i).bytes ++ s.cur.track.shared) := rfl

end Sys2Proof.Machine
end

