-- ==== Sys2Proof/Laws/Regions.lean ====
section
/-! SUPPORT. What the region checks can say, and what a command that runs them can do (20_memory R85, R87). -/

namespace Sys2Proof.Machine

/-- An address lies in a range. -/
@[simp] theorem Range.has_iff (r : Range) (a : Nat) : r.has a = true ↔ r.base ≤ a ∧ a < r.base + r.len := by
  simp [Range.has]

/-- An address lies outside a range. -/
theorem Range.has_eq_false (r : Range) (a : Nat) : r.has a = false ↔ a < r.base ∨ r.base + r.len ≤ a := by
  rw [← Bool.not_eq_true, Range.has_iff]; omega

/-- Two ranges overlap exactly when some byte lies in both. -/
theorem Range.overlaps_iff (p q : Range) : p.overlaps q = true ↔ ∃ a, p.has a = true ∧ q.has a = true := by
  simp only [Range.overlaps, Bool.and_eq_true, decide_eq_true_eq, Range.has_iff]
  constructor
  · intro h; exact ⟨max p.base q.base, by omega⟩
  · rintro ⟨a, h⟩; omega

/-- The shared bytes of two overlapping ranges. -/
theorem Range.has_inter (p q : Range) (a : Nat) :
    (p.inter q).has a = true ↔ p.has a = true ∧ q.has a = true := by
  simp only [Range.inter, Range.has_iff]; omega

/-- Where ADMIT is false. -/
theorem State.admitted_eq_false (s : State) (a : Nat) : s.admitted a = false ↔ ∃ h ∈ s.denied, h.has a = true := by
  simp [State.admitted]

/-- Where ADMIT is true. -/
theorem State.admitted_eq_true (s : State) (a : Nat) : s.admitted a = true ↔ ∀ h ∈ s.denied, h.has a = false := by
  simp only [State.admitted, Bool.not_eq_true', List.any_eq_false, Bool.not_eq_true]

/-- Check 1 finds nothing exactly when no region passes 2^64. -/
theorem rangeFault_eq_none (rs : List Region) : rangeFault rs = none ↔ ∀ r ∈ rs, ¬r.PastEnd := by
  simp only [rangeFault, List.find?_eq_none, Bool.and_eq_true, decide_eq_true_eq]
  rfl

/-- Check 1 finds the first region that passes 2^64. -/
theorem rangeFault_of_first (l l' : List Region) (r : Region) (hl : ∀ x ∈ l, ¬x.PastEnd) (hr : r.PastEnd) :
    rangeFault (l ++ r :: l') = some r := by
  have hp : (decide (0 < r.len) && decide (Config.addressSpace < r.base + r.len)) = true := by
    simp only [Bool.and_eq_true, decide_eq_true_eq]
    exact hr
  have hn := (rangeFault_eq_none l).2 hl
  simp only [rangeFault] at hn ⊢
  rw [List.find?_append, hn, Option.none_or, List.find?_cons_of_pos (a := r) (l := l') hp]

/-- The overlap test of 20_memory R85 on one pair. -/
theorem clash_iff (p q : Region) :
    ((p.write || q.write) && p.range.overlaps q.range) = true ↔ RegionsClash p q := by
  simp only [Range.overlaps, Bool.and_eq_true, Bool.or_eq_true, decide_eq_true_eq, RegionsClash]
  simp only [Region.range]
  tauto

/-- Check 2 finds nothing exactly when no pair clashes. -/
theorem overlapFault_eq_none (rs : List Region) :
    overlapFault rs = none ↔ ∀ x ∈ pairs rs, ¬RegionsClash x.1 x.2 := by
  simp only [overlapFault, List.find?_eq_none, clash_iff]

/-- Check 2 finds the first pair that clashes. -/
theorem overlapFault_of_first (rs : List Region) (l l' : List (Region × Region)) (p q : Region)
    (h : pairs rs = l ++ (p, q) :: l') (hl : ∀ x ∈ l, ¬RegionsClash x.1 x.2) (hc : RegionsClash p q) :
    overlapFault rs = some (p, q) := by
  have hp := (clash_iff p q).2 hc
  simp only [overlapFault, h, List.find?_append]
  rw [List.find?_eq_none.2 fun x hx => by rw [clash_iff]; exact hl x hx, Option.none_or,
    List.find?_cons_of_pos (a := (p, q)) (l := l') hp]

/-- What check 3 finds in one region: the lowest address of it that is denied. -/
theorem firstIn_eq_some (denied : List Range) (r : Region) (a : Nat) :
    firstIn denied r = some a ↔
      r.range.has a = true ∧ (∃ h ∈ denied, h.has a = true) ∧
        ∀ y, r.base ≤ y → y < a → ∀ h ∈ denied, h.has y = false := by
  have hbase : r.range.base = r.base := rfl
  have hlen : r.range.len = r.len := rfl
  simp only [firstIn, List.min?_eq_some_iff, List.mem_map, List.mem_filter, Range.overlaps, Bool.and_eq_true,
    decide_eq_true_eq, Range.has_iff, Range.has_eq_false]
  rw [hbase, hlen]
  constructor
  · rintro ⟨⟨h, ⟨hd, ho⟩, rfl⟩, hmin⟩
    refine ⟨by omega, ⟨h, hd, by omega⟩, fun y hy hya g hg => ?_⟩
    by_contra hgy
    have := hmin _ ⟨g, ⟨hg, by omega⟩, rfl⟩
    omega
  · rintro ⟨hr, ⟨h, hd, hh⟩, hmin⟩
    have hle : max h.base r.base = a := by
      by_contra hne
      have := hmin (max h.base r.base) (by omega) (by omega) h hd
      omega
    refine ⟨⟨h, ⟨hd, by omega⟩, hle⟩, ?_⟩
    rintro b ⟨g, ⟨hg, ho⟩, rfl⟩
    by_contra hlt
    have := hmin (max g.base r.base) (by omega) (by omega) g hg
    omega

/-- Check 3 finds nothing in a region exactly when none of its bytes is denied. -/
theorem firstIn_eq_none (denied : List Range) (r : Region) :
    firstIn denied r = none ↔ ∀ a, r.range.has a = true → ∀ h ∈ denied, h.has a = false := by
  simp only [firstIn, List.min?_eq_none_iff, List.map_eq_nil_iff, List.filter_eq_nil_iff]
  constructor
  · intro h a ha g hg
    by_contra hga
    exact h g hg ((Range.overlaps_iff _ _).2 ⟨a, by simpa using hga, ha⟩)
  · intro h g hg ho
    obtain ⟨a, hga, ha⟩ := (Range.overlaps_iff _ _).1 ho
    rw [h a ha g hg] at hga
    cases hga

/-- A region whose bytes are all admitted passes check 3. -/
theorem State.firstIn_eq_none_iff (s : State) (r : Region) :
    firstIn s.denied r = none ↔ s.RegionAdmitted r := by
  rw [firstIn_eq_none]
  simp only [State.RegionAdmitted, State.admitted_eq_true, Range.has_iff, Region.range]
  constructor
  · intro h a h₁ h₂; exact h a ⟨h₁, h₂⟩
  · intro h a ha; exact h a ha.1 ha.2

/-- What it takes for the checks to pass. -/
theorem State.checkRegions_pass_iff (s : State) (rs : List Region) :
    checkRegions s.denied s.platform.devices rs = .pass ↔
      (∀ r ∈ rs, ¬r.PastEnd) ∧ (∀ x ∈ pairs rs, ¬RegionsClash x.1 x.2) ∧ (∀ r ∈ rs, s.RegionAdmitted r) ∧
        ∀ r ∈ rs, ∀ d ∈ s.platform.devices, d.overlaps r.range = false := by
  simp only [checkRegions]
  rw [← rangeFault_eq_none, ← overlapFault_eq_none]
  have hb : (∀ r ∈ rs, s.RegionAdmitted r) ↔ busFault s.denied rs = none := by
    simp [busFault, List.findSome?_eq_none_iff, State.firstIn_eq_none_iff]
  rw [hb]
  cases rangeFault rs <;> simp
  cases overlapFault rs <;> simp
  cases busFault s.denied rs <;> simp

/-- The faults the checks can name. -/
theorem checkRegions_fault_mem {denied devices : List Range} {rs : List Region} {code : FaultCode} {info : Nat}
    (h : checkRegions denied devices rs = .fault code info) :
    code = .addrRange ∨ code = .regionOverlap ∧ 2 ≤ rs.length ∨ code = .busError := by
  simp only [checkRegions] at h
  split at h
  · simp_all
  · split at h
    · rename_i p q ho
      simp only [Verdict.fault.injEq] at h
      have := List.mem_of_find?_eq_some ho
      match rs, this with
      | [_], hm => simp [pairs] at hm
      | _ :: _ :: _, _ => simp [h.1.symm]
    · split at h
      · simp_all
      · split at h <;> cases h

/-- With its checks passed, a command does what comes after them. -/
theorem State.guard_of_pass {s : State} {rs : List Region} (k : Result)
    (h : checkRegions s.denied s.platform.devices rs = .pass) : s.guard rs k = k := by
  simp [State.guard, h]

/-- A failed check ends a command in a precise fault. -/
theorem State.guard_of_fault {s : State} {rs : List Region} {code : FaultCode} {info : Nat} (k : Result)
    (h : checkRegions s.denied s.platform.devices rs = .fault code info) :
    s.guard rs k = .next (s.faulted code info) := by
  simp [State.guard, h, State.fail, State.faulted]

/-- Memory that is not idempotent makes a command refused. -/
theorem State.guard_of_refuse {s : State} {rs : List Region} (k : Result)
    (h : checkRegions s.denied s.platform.devices rs = .refuse) : s.guard rs k = .refused .notIdempotent := by
  simp [State.guard, h]

/-- Everything a command that runs region checks can do. -/
theorem State.guard_cases (s : State) (rs : List Region) (k : Result) :
    checkRegions s.denied s.platform.devices rs = .pass ∧ s.guard rs k = k ∨
      (∃ code info, checkRegions s.denied s.platform.devices rs = .fault code info ∧
        s.guard rs k = .next (s.faulted code info)) ∨
      checkRegions s.denied s.platform.devices rs = .refuse ∧ s.guard rs k = .refused .notIdempotent := by
  cases h : checkRegions s.denied s.platform.devices rs with
  | pass => exact .inl ⟨rfl, guard_of_pass k h⟩
  | fault code info => exact .inr (.inl ⟨code, info, rfl, guard_of_fault k h⟩)
  | refuse => exact .inr (.inr ⟨rfl, guard_of_refuse k h⟩)

/-- A command without regions has nothing to check. -/
@[simp] theorem State.guard_nil (s : State) (k : Result) : s.guard [] k = k := rfl

/-- What a command that runs region checks did, where it answers a next state. -/
theorem State.guard_next {s t : State} {rs : List Region} {k : Result} (h : s.guard rs k = .next t) :
    (checkRegions s.denied s.platform.devices rs = .pass ∧ k = .next t) ∨
      ∃ code info, checkRegions s.denied s.platform.devices rs = .fault code info ∧ t = s.faulted code info := by
  rcases s.guard_cases rs k with ⟨hp, hk⟩ | ⟨code, info, hf, hk⟩ | ⟨_, hk⟩
  · exact .inl ⟨hp, hk ▸ h⟩
  · rw [hk] at h; exact .inr ⟨code, info, hf, (by injection h with h; exact h.symm)⟩
  · rw [hk] at h; cases h

/-- Regions that pass the range check fit in the DMA space. -/
theorem State.region_fits {s : State} {rs : List Region}
    (h : checkRegions s.denied s.platform.devices rs = .pass) {r : Region} (hr : r ∈ rs) (hl : 0 < r.len) :
    r.base + r.len ≤ Config.addressSpace := by
  have := (s.checkRegions_pass_iff rs).1 h |>.1 r hr
  simp only [Region.PastEnd, not_and, not_lt] at this
  exact this hl

/-- Two regions of a list stand in it in one order or the other. -/
theorem mem_pairs {rs : List Region} {p q : Region} (hp : p ∈ rs) (hq : q ∈ rs) (hne : p ≠ q) :
    (p, q) ∈ pairs rs ∨ (q, p) ∈ pairs rs := by
  induction rs with
  | nil => simp at hp
  | cons r rs ih =>
    simp only [pairs, List.mem_append, List.mem_map, Prod.mk.injEq]
    rcases List.mem_cons.1 hp with rfl | hp' <;> rcases List.mem_cons.1 hq with rfl | hq'
    · exact absurd rfl hne
    · exact .inl (.inl ⟨q, hq', rfl, rfl⟩)
    · exact .inr (.inl ⟨p, hp', rfl, rfl⟩)
    · exact (ih hp' hq').imp .inr .inr

/-- Where the checks pass, a written region has no byte of another region (20_memory R85). -/
theorem State.disjoint_of_pass {s : State} {rs : List Region} (h : checkRegions s.denied s.platform.devices rs = .pass)
    {p q : Region} (hp : p ∈ rs) (hq : q ∈ rs) (hne : p ≠ q) (hw : p.write = true) {a : Nat} (ha : q.range.has a = true) :
    p.range.has a = false := by
  by_contra hc
  rw [Bool.not_eq_false] at hc
  obtain ⟨h₁, h₂⟩ := (Range.has_iff _ _).1 ha
  obtain ⟨h₃, h₄⟩ := (Range.has_iff _ _).1 hc
  simp only [Region.range] at h₁ h₂ h₃ h₄
  have hn := ((s.checkRegions_pass_iff rs).1 h).2.1
  rcases mem_pairs hp hq hne with hx | hx
  · exact hn _ hx ⟨by simp only; omega, by simp only; omega, .inl hw, by simp only; omega, by simp only; omega⟩
  · exact hn _ hx ⟨by simp only; omega, by simp only; omega, .inr hw, by simp only; omega, by simp only; omega⟩

/-- Bytes stored from the start of a written region that passed the checks: no other region's byte changes, and memory
keeps its form and its bound (20_memory R84, R85). -/
theorem State.writeBytes_region {s : State} {rs : List Region}
    (h : checkRegions s.denied s.platform.devices rs = .pass) {r : Region} (hr : r ∈ rs) (hw : r.write = true)
    (bytes : List Byte) (hl : bytes.length ≤ r.len) (m : Memory) :
    (∀ a, (∀ q ∈ rs, q.write = true → q.range.has a = false) → (m.writeBytes r.base bytes).read a = m.read a) ∧
      (m.wf = true → (m.writeBytes r.base bytes).wf = true) ∧
      (m.inSpace = true → (m.writeBytes r.base bytes).inSpace = true) := by
  refine ⟨fun a ha => ?_, Memory.wf_writeBytes _ _ _, fun hs => ?_⟩
  · have := (Range.has_eq_false _ _).1 (ha r hr hw)
    simp only [Region.range] at this
    exact Memory.read_writeBytes_outside _ _ _ _ (by omega)
  · by_cases h0 : bytes = []
    · subst h0; exact hs
    · have hpos := List.length_pos_iff.2 h0
      exact Memory.inSpace_writeBytes _ _ _ (by have := State.region_fits h hr (by omega); omega) hs

end Sys2Proof.Machine
end

