-- ==== Sys2Proof/Laws/Engine.lean ====
section
/-! SUPPORT. Whose move it is: the current instance in focus, the engine's turn, the turns of a list. -/

namespace Sys2Proof.Machine

/-- The position of the current instance gives it back. -/
@[simp] theorem State.focus_self (s : State) : s.focus s.before.length = some s := by
  simp [State.focus, State.blocks]

/-- A move that names the current instance is made on the state as it is. -/
@[simp] theorem State.on_self (s : State) (f : State → Result) : s.on s.before.length f = f s := by
  simp [State.on]

/-- Focusing keeps the instances, in their order, and everything else. -/
theorem State.focus_some {s t : State} {k : Nat} (h : s.focus k = some t) :
    t.blocks = s.blocks ∧ t.cur ∈ s.blocks ∧ t.mem = s.mem ∧ t.platform = s.platform ∧ t.turns = s.turns ∧ t.log = s.log ∧
      t.draws = s.draws := by
  simp only [State.focus] at h
  split at h
  · cases h
  · rename_i b bs hb
    cases h
    refine ⟨?_, ?_, rfl, rfl, rfl, rfl, rfl⟩
    · change s.blocks.take k ++ b :: bs = s.blocks
      rw [← hb, List.take_append_drop]
    · exact List.mem_of_mem_drop (hb ▸ List.mem_cons_self)

/-- The engine with nothing pending does nothing. -/
theorem State.engineTurn_idle (s : State) (h : s.cur.pending = none) : s.engineTurn = .next s := by
  simp [State.engineTurn, h]

/-- The engine with a legal word pending and no race noted executes it. -/
theorem State.engineTurn_exec {s : State} {w : Word} {i : Instr} (hw : s.cur.pending = some w) (hi : decode w = .ok i)
    (hq : s.Quiet) : s.engineTurn = exec i s := by
  simp [State.engineTurn, hw, hi, hq.1, hq.2]

/-- The engine with an illegal word pending records ILLEGAL_CMD (30_encoding R117). -/
theorem State.engineTurn_illegal {s : State} {w : Word} {e : Illegal} (hw : s.cur.pending = some w)
    (he : decode w = .error e) : s.engineTurn = .next (s.faulted .illegalCmd w.toNat) := by
  simp [State.engineTurn, hw, he, State.fail, State.faulted]

/-- With no turn listed and a command pending at the current instance, its engine moves. -/
theorem State.takeTurn_nil {s : State} {w : Word} (ht : s.turns = []) (hw : s.cur.pending = some w) :
    s.takeTurn = s.engineTurn := by
  simp [State.takeTurn, ht, State.idleTurn, hw]

/-- A value of 64 bits is recorded as it is. -/
@[simp] theorem sat64_toNat (w : Word) : sat64 w.toNat = w := by
  have := w.isLt
  rw [sat64, Nat.min_eq_left (by omega)]
  simp

/-- A byte that a command shares with another instance's makes the engine draw what the command computes from it. -/
theorem State.engineTurn_shared {s : State} {w : Word} {i : Instr} (hw : s.cur.pending = some w) (hi : decode w = .ok i)
    (hr : s.cur.track.raced = false) (hs : s.cur.track.shared ≠ []) : s.engineTurn = s.sharedTurn i := by
  simp only [State.engineTurn, hw, hi, hr]
  cases h : s.cur.track.shared with
  | nil => exact absurd h hs
  | cons _ _ => rfl

/-- Everything a command over shared bytes can do: it leaves the outcome of its own meaning with some of it drawn, or stops as
its meaning does. -/
theorem State.sharedTurn_next {s v : State} {i : Instr} (h : s.sharedTurn i = .next v) :
    ∃ t, exec i s = .next t ∧ v = s.sharedOutcome i t := by
  simp only [State.sharedTurn] at h
  split at h
  · rename_i t ht
    cases h
    exact ⟨t, ht, rfl⟩
  · cases h
  · cases h

end Sys2Proof.Machine
end

