-- ==== Sys2Proof/Laws/Tables.lean ====
section
/-! SUPPORT. The frequency table: its entries, counting, and its bytes in memory; the LZW code buffer (20_memory R95, R96). -/

namespace Sys2Proof.Machine

@[simp] theorem length_allSymbols : allSymbols.length = 256 := by simp [allSymbols]

/-- Symbol number `s` is `s`. -/
@[simp] theorem getElem_allSymbols (s : Byte) (h : s.toNat < allSymbols.length) : allSymbols[s.toNat] = s := by
  simp [allSymbols]

/-- Every byte is a symbol. -/
@[simp] theorem mem_allSymbols (s : Byte) : s ∈ allSymbols := by
  have h : s.toNat < allSymbols.length := by simpa using s.isLt
  exact getElem_allSymbols s h ▸ List.getElem_mem h

/-- No symbol is listed twice. -/
theorem nodup_allSymbols : allSymbols.Nodup := by
  refine List.Nodup.map_on (fun x hx y hy h => ?_) List.nodup_range
  have := congrArg BitVec.toNat h
  simp only [List.mem_range] at hx hy
  simp only [BitVec.toNat_ofNat] at this
  omega

/-- Tables with the same counts are the same. -/
theorem FreqTable.ext_count {f g : FreqTable} (h : ∀ s : Byte, f.count s = g.count s) : f = g := by
  refine Vector.ext fun i hi => ?_
  have := h (BitVec.ofNat 8 i)
  simpa [FreqTable.count, Nat.mod_eq_of_lt hi] using this

/-- The entries of a table are its counts. -/
theorem FreqTable.entries_eq (f : FreqTable) : f.entries = allSymbols.map fun s => (s, f.count s) := by
  refine List.ext_getElem (by simp [FreqTable.entries]) fun i h₁ h₂ => ?_
  simp only [List.length_map, length_allSymbols] at h₂
  simp [FreqTable.entries, FreqTable.count, allSymbols, Nat.mod_eq_of_lt h₂]

/-- How many symbols occur. -/
theorem nleaves_eq (f : FreqTable) : nleaves f = (allSymbols.filter fun s => f.count s ≠ 0).length := by
  rw [nleaves, FreqTable.entries_eq, List.filter_map, List.length_map]
  rfl

theorem nleaves_le (f : FreqTable) : nleaves f ≤ 256 := by
  rw [nleaves_eq]
  exact (List.length_filter_le _ _).trans (by simp)

/-- The leaves of a table, symbol by symbol. -/
theorem leaves_eq (f : FreqTable) :
    leaves f = (allSymbols.filter fun s => f.count s ≠ 0).map fun s => .leaf s (f.count s).toNat := by
  rw [leaves, FreqTable.entries_eq, List.filter_map, List.map_map]
  rfl

@[simp] theorem FreqTable.count_zero (s : Byte) : FreqTable.zero.count s = 0 := by
  simp [FreqTable.zero, FreqTable.count]

/-- A count just set. -/
theorem FreqTable.count_set (f : FreqTable) (b s : Byte) (v : BitVec 32) :
    FreqTable.count (f.set b.toNat v b.isLt) s = if s = b then v else f.count s := by
  simp only [FreqTable.count, Vector.getElem_set, BitVec.toNat_inj, eq_comm (a := b)]

/-- What counting some bytes does where every count fits (41_huffman R176). -/
theorem countBytes_ok (bs : List Byte) (f : FreqTable) (h : ∀ s : Byte, (f.count s).toNat + bs.count s < 2 ^ 32) :
    ∃ g, countBytes bs f = .ok g ∧ ∀ s : Byte, (g.count s).toNat = (f.count s).toNat + bs.count s := by
  induction bs generalizing f with
  | nil => exact ⟨f, rfl, by simp⟩
  | cons b bs ih =>
    have hb := h b
    simp only [List.count_cons_self] at hb
    have hstep : ∀ s : Byte, (FreqTable.count (f.set b.toNat (f.count b + 1) b.isLt) s).toNat + bs.count s =
        (f.count s).toNat + (b :: bs).count s := by
      intro s
      rw [FreqTable.count_set]
      split
      · rename_i hs
        subst hs
        simp only [List.count_cons_self, BitVec.toNat_add, show (1 : BitVec 32).toNat = 1 from rfl]
        omega
      · rename_i hs
        rw [List.count_cons_of_ne (Ne.symm hs)]
    rw [countBytes, if_neg (fun hc => by rw [hc] at hb; simp at hb; omega)]
    obtain ⟨g, hg, hc⟩ := ih _ fun s => by rw [hstep]; exact h s
    exact ⟨g, hg, fun s => by rw [hc, hstep]⟩

/-- What counting some bytes does where some count does not fit (41_huffman R176). -/
theorem countBytes_error (bs : List Byte) (f : FreqTable)
    (h : ∃ s : Byte, 2 ^ 32 ≤ (f.count s).toNat + bs.count s) :
    ∃ s, countBytes bs f = .error s ∧ 2 ^ 32 ≤ (f.count s).toNat + bs.count s := by
  induction bs generalizing f with
  | nil =>
    obtain ⟨s, hs⟩ := h
    have := (f.count s).isLt
    simp at hs
    omega
  | cons b bs ih =>
    rw [countBytes]
    split
    · rename_i hb
      exact ⟨b, rfl, by rw [hb]; simp; omega⟩
    · rename_i hb
      have hb' : (f.count b).toNat + 1 < 2 ^ 32 := by
        have := (f.count b).isLt
        by_contra hc
        exact hb (BitVec.eq_of_toNat_eq (by simp; omega))
      have hstep : ∀ s : Byte, (FreqTable.count (f.set b.toNat (f.count b + 1) b.isLt) s).toNat + bs.count s =
          (f.count s).toNat + (b :: bs).count s := by
        intro s
        rw [FreqTable.count_set]
        split
        · rename_i hs
          subst hs
          simp only [List.count_cons_self, BitVec.toNat_add, show (1 : BitVec 32).toNat = 1 from rfl]
          omega
        · rename_i hs
          rw [List.count_cons_of_ne (Ne.symm hs)]
      obtain ⟨s, hs⟩ := h
      obtain ⟨x, hx, hc⟩ := ih _ ⟨s, by rw [hstep]; exact hs⟩
      exact ⟨x, hx, by rw [← hstep]; exact hc⟩

/-- A little-endian value of `n` bytes. -/
theorem Memory.readLE_lt (m : Memory) (a n : Nat) : m.readLE a n < 256 ^ n := by
  have : ∀ l : List Byte, leValue l < 256 ^ l.length := by
    intro l
    induction l with
    | nil => simp [leValue]
    | cons b l ih =>
      have := b.isLt
      simp only [leValue, List.length_cons, pow_succ]
      omega
  simpa [Memory.readLE] using this (m.readBytes a n)

/-- A count read from META (20_memory R95). -/
theorem FreqTable.count_readFreq (m : Memory) (a : Nat) (s : Byte) :
    ((m.readFreq a).count s).toNat = m.readLE (a + 4 * s.toNat) 4 := by
  have := m.readLE_lt (a + 4 * s.toNat) 4
  simp only [FreqTable.count, Memory.readFreq, Vector.getElem_mk, List.getElem_toArray, List.getElem_map,
    getElem_allSymbols, BitVec.toNat_ofNat]
  omega

/-- The bytes stored by runs of one length, run `j` read back. -/
theorem Memory.readBytes_flatMap {α : Type} (k : Nat) (g : α → List Byte) (hg : ∀ x, (g x).length = k) (l : List α)
    (m : Memory) (a j : Nat) (hm : m.wf = true) (hj : j < l.length) :
    (m.writeBytes a (l.flatMap g)).readBytes (a + k * j) k = g l[j] := by
  induction l generalizing m a j with
  | nil => simp at hj
  | cons x l ih =>
    rw [List.flatMap_cons, Memory.writeBytes_append, hg]
    cases j with
    | zero =>
      rw [Nat.mul_zero, Nat.add_zero, List.getElem_cons_zero,
        Memory.readBytes_congr (m' := m.writeBytes a (g x)) fun y hy hy' =>
          Memory.read_writeBytes_outside _ _ _ _ (.inl hy')]
      have := Memory.readBytes_writeBytes (g x) m a hm
      rwa [hg] at this
    | succ j =>
      simp only [List.length_cons] at hj
      rw [show a + k * (j + 1) = a + k + k * j by ring, ih _ _ _ (Memory.wf_writeBytes _ _ _ hm) (by omega),
        List.getElem_cons_succ]

/-- How many bytes there are in all. -/
theorem length_flatMap_const {α : Type} (k : Nat) (g : α → List Byte) (hg : ∀ x, (g x).length = k) (l : List α) :
    (l.flatMap g).length = k * l.length := by
  induction l with
  | nil => simp
  | cons x l ih => rw [List.flatMap_cons, List.length_append, ih, hg, List.length_cons]; ring

/-- The META bytes of a table (20_memory R95). -/
theorem FreqTable.bytes_eq (f : FreqTable) : f.bytes = allSymbols.flatMap fun s => leBytes 4 (f.count s).toNat := by
  rw [FreqTable.bytes, FreqTable.entries_eq, List.flatMap_map]

@[simp] theorem FreqTable.length_bytes (f : FreqTable) : f.bytes.length = 1024 := by
  rw [FreqTable.bytes_eq, length_flatMap_const 4 _ fun _ => by simp, length_allSymbols]

/-- A count written to META reads back (20_memory R95). -/
theorem FreqTable.readLE_bytes (f : FreqTable) (m : Memory) (a : Nat) (hm : m.wf = true) (s : Byte) :
    (m.writeBytes a f.bytes).readLE (a + 4 * s.toNat) 4 = (f.count s).toNat := by
  have hs : s.toNat < allSymbols.length := by simpa using s.isLt
  rw [FreqTable.bytes_eq, Memory.readLE,
    Memory.readBytes_flatMap 4 (fun s : Byte => leBytes 4 (f.count s).toNat) (fun _ => by simp) allSymbols m a _ hm hs,
    getElem_allSymbols]
  exact leValue_leBytes 4 _ (by simpa using (f.count s).isLt)

/-- A table written to META reads back. -/
theorem FreqTable.readFreq_bytes (f : FreqTable) (m : Memory) (a : Nat) (hm : m.wf = true) :
    (m.writeBytes a f.bytes).readFreq a = f :=
  FreqTable.ext_count fun s => BitVec.eq_of_toNat_eq (by
    rw [FreqTable.count_readFreq, FreqTable.readLE_bytes f m a hm s])

/-- Codes written to the code buffer read back (20_memory R96). -/
theorem Memory.readCodes_codeBytes (codes : List Nat) (m : Memory) (a : Nat) (hm : m.wf = true)
    (h : ∀ c ∈ codes, c < 65536) : (m.writeBytes a (codeBytes codes)).readCodes a codes.length = codes := by
  induction codes generalizing m a with
  | nil => rfl
  | cons c codes ih =>
    have hcs : codeBytes (c :: codes) = leBytes 2 c ++ codeBytes codes := rfl
    rw [hcs, Memory.writeBytes_append, length_leBytes, List.length_cons, Memory.readCodes,
      ih _ _ (Memory.wf_writeBytes _ _ _ hm) fun x hx => h x (by simp [hx])]
    congr 1
    rw [Memory.readLE, Memory.readBytes_congr (m' := m.writeBytes a (leBytes 2 c)) fun y _ hy' =>
      Memory.read_writeBytes_outside _ _ _ _ (.inl hy')]
    have := Memory.readBytes_writeBytes (leBytes 2 c) m a hm
    rw [length_leBytes] at this
    rw [this, leValue_leBytes 2 c (by simpa using h c (by simp))]

@[simp] theorem length_codeBytes (codes : List Nat) : (codeBytes codes).length = 2 * codes.length :=
  length_flatMap_const 2 _ (fun _ => by simp) codes

end Sys2Proof.Machine
end

