-- ==== Sys2Proof/Laws/Huffman.lean ====
section
/-! SUPPORT. What building the tree, walking it, encoding and decoding do (41_huffman R171 to R175, R182, R183). -/

namespace Sys2Proof.Machine

/-- The queue is empty exactly when nothing can be popped. -/
theorem popMin_eq_none (q : List HufTree) : popMin q = none ↔ q = [] := by
  cases q with
  | nil => simp [popMin]
  | cons t q => simp only [popMin]; split <;> simp; split <;> simp

/-- Popping takes one node out of the queue. -/
theorem popMin_perm {q : List HufTree} {m : HufTree} {rest : List HufTree} (h : popMin q = some (m, rest)) :
    (m :: rest).Perm q := by
  induction q generalizing m rest with
  | nil => simp [popMin] at h
  | cons t q ih =>
    simp only [popMin] at h
    split at h
    · rename_i hn
      cases h
      rw [(popMin_eq_none q).1 hn]
    · rename_i x r hx
      have hp := ih hx
      split at h
      · cases h
        exact (List.Perm.swap t m r).trans (hp.cons t)
      · cases h
        rfl

/-- What the loop of `BuildTree` makes of a queue that is not empty: one tree with all its leaves and all its frequency. -/
theorem mergeTrees_eq (fuel k : Nat) (q : List HufTree) (hq : q ≠ []) (hf : q.length ≤ fuel) :
    ∃ root, mergeTrees fuel k q = some root ∧ root.syms.Perm (q.flatMap HufTree.syms) ∧
      root.freq = (q.map HufTree.freq).sum := by
  induction fuel generalizing k q with
  | zero => exact absurd (List.length_eq_zero_iff.1 (by omega)) hq
  | succ fuel ih =>
    rw [mergeTrees]
    split
    · rename_i h
      exact absurd ((popMin_eq_none q).1 h) hq
    · rename_i l q₁ h₁
      have p₁ := popMin_perm h₁
      split
      · rename_i h₂
        rw [(popMin_eq_none q₁).1 h₂] at p₁
        refine ⟨l, rfl, ?_, ?_⟩
        · simpa using p₁.flatMap_right HufTree.syms
        · simpa using (p₁.map HufTree.freq).sum_eq
      · rename_i r q₂ h₂
        have p₂ := popMin_perm h₂
        have p : (l :: r :: q₂).Perm q := (p₂.cons l).trans p₁
        obtain ⟨root, hr, hs, hsum⟩ := ih (k + 1) (.node (l.freq + r.freq) k l r :: q₂) (by simp) (by
          have := p.length_eq
          simp only [List.length_cons] at this ⊢
          omega)
        refine ⟨root, hr, hs.trans ?_, ?_⟩
        · have := p.flatMap_right HufTree.syms
          simpa [HufTree.syms] using this
        · have := (p.map HufTree.freq).sum_eq
          rw [hsum, ← this]
          simp [HufTree.freq, Nat.add_assoc]

/-- What `BuildTree` makes of a table: nothing, or one tree with a leaf for each symbol that occurs. -/
theorem buildTree_eq (f : FreqTable) :
    (nleaves f = 0 ∧ buildTree f = none) ∨
      ∃ root, buildTree f = some root ∧ root.syms.Perm (allSymbols.filter fun s => f.count s ≠ 0) ∧
        root.freq = ((allSymbols.filter fun s => f.count s ≠ 0).map fun s => (f.count s).toNat).sum := by
  have hl : (leaves f).length = nleaves f := by rw [leaves_eq, nleaves_eq, List.length_map]
  rcases Nat.eq_zero_or_pos (nleaves f) with h | h
  · refine .inl ⟨h, ?_⟩
    rw [buildTree, hl, h, mergeTrees]
  · obtain ⟨root, hr, hs, hsum⟩ := mergeTrees_eq (leaves f).length 0 (leaves f) (by
      intro hc; rw [hc] at hl; simp at hl; omega) le_rfl
    refine .inr ⟨root, hr, ?_, ?_⟩
    · refine hs.trans (List.Perm.of_eq ?_)
      rw [leaves_eq, List.flatMap_map]
      simp [HufTree.syms]
    · rw [hsum, leaves_eq, List.map_map]
      rfl

/-- The codewords of a node's symbols continue the path to the node. -/
theorem HufTree.assign_eq (t : HufTree) (p : Bits) : t.assign p = (t.assign []).map fun e => (e.1, p ++ e.2) := by
  induction t generalizing p with
  | leaf s f => simp [HufTree.assign]
  | node f k l r ihl ihr =>
    simp only [HufTree.assign, List.nil_append, List.map_append]
    rw [ihl (p ++ [false]), ihr (p ++ [true]), ihl [false], ihr [true]]
    simp [Function.comp_def]

/-- The codewords of an internal node: 0 before those of its left child, 1 before those of its right child. -/
theorem HufTree.assign_node (f k : Nat) (l r : HufTree) :
    (HufTree.node f k l r).assign [] =
      (l.assign []).map (fun e => (e.1, false :: e.2)) ++ (r.assign []).map fun e => (e.1, true :: e.2) := by
  simp only [HufTree.assign, List.nil_append]
  rw [HufTree.assign_eq l [false], HufTree.assign_eq r [true]]
  simp

/-- Each leaf gets a codeword, left to right. -/
theorem HufTree.assign_syms (t : HufTree) (p : Bits) : (t.assign p).map Prod.fst = t.syms := by
  induction t generalizing p with
  | leaf s f => rfl
  | node f k l r ihl ihr => simp [HufTree.assign, HufTree.syms, ihl, ihr]

/-- A tree has a leaf. -/
theorem HufTree.syms_length_pos (t : HufTree) : 0 < t.syms.length := by
  induction t with
  | leaf s f => simp [HufTree.syms]
  | node f k l r ihl ihr => simp [HufTree.syms]; omega

/-- A codeword is shorter than the number of leaves. -/
theorem HufTree.assign_length (t : HufTree) (e : Byte × Bits) (h : e ∈ t.assign []) : e.2.length < t.syms.length := by
  induction t generalizing e with
  | leaf s f => simp_all [HufTree.assign, HufTree.syms]
  | node f k l r ihl ihr =>
    have hl := l.syms_length_pos
    have hr := r.syms_length_pos
    rw [HufTree.assign_node, List.mem_append, List.mem_map, List.mem_map] at h
    simp only [HufTree.syms, List.length_append]
    rcases h with ⟨x, hx, rfl⟩ | ⟨x, hx, rfl⟩
    · have := ihl x hx
      simp only [List.length_cons]
      omega
    · have := ihr x hx
      simp only [List.length_cons]
      omega

/-- Of two codewords, one of which begins the other, both are of one leaf. -/
theorem HufTree.assign_prefix_free (t : HufTree) (a b : Byte × Bits) (ha : a ∈ t.assign []) (hb : b ∈ t.assign [])
    (h : a.2 <+: b.2) : a = b := by
  induction t generalizing a b with
  | leaf s f => simp_all [HufTree.assign]
  | node f k l r ihl ihr =>
    rw [HufTree.assign_node, List.mem_append, List.mem_map, List.mem_map] at ha hb
    rcases ha with ⟨x, hx, rfl⟩ | ⟨x, hx, rfl⟩ <;> rcases hb with ⟨y, hy, rfl⟩ | ⟨y, hy, rfl⟩
    · rw [ihl x y hx hy (by simpa using h)]
    · simp at h
    · simp at h
    · rw [ihr x y hx hy (by simpa using h)]

/-- In a list of pairs with no first component twice, a lookup finds each pair. -/
theorem lookup_of_mem {l : List (Byte × Bits)} (hn : (l.map Prod.fst).Nodup) {e : Byte × Bits} (he : e ∈ l) :
    l.lookup e.1 = some e.2 := by
  induction l with
  | nil => simp at he
  | cons x l ih =>
    simp only [List.map_cons, List.nodup_cons] at hn
    rcases List.mem_cons.1 he with rfl | he
    · simp [List.lookup]
    · have hne : e.1 ≠ x.1 := fun hc => hn.1 (hc ▸ List.mem_map_of_mem he)
      rw [List.lookup_cons, beq_false_of_ne hne]
      exact ih hn.2 he

theorem lookup_eq_none {l : List (Byte × Bits)} {s : Byte} (h : s ∉ l.map Prod.fst) : l.lookup s = none := by
  induction l with
  | nil => rfl
  | cons x l ih =>
    simp only [List.map_cons, List.mem_cons, not_or] at h
    rw [List.lookup_cons, beq_false_of_ne h.1]
    exact ih h.2

/-- The symbols that occur in a table. -/
theorem mem_occurring (f : FreqTable) (s : Byte) : (s ∈ allSymbols.filter fun s => f.count s ≠ 0) ↔ f.count s ≠ 0 := by
  simp

/-- What the code table of a table of counts is, by the number of leaves. -/
theorem codeTable_cases (f : FreqTable) :
    (nleaves f = 0 ∧ buildTree f = none ∧ ∀ s : Byte, f.count s = 0) ∨
      (∃ s n, nleaves f = 1 ∧ buildTree f = some (.leaf s n) ∧ f.count s ≠ 0 ∧ ∀ x : Byte, f.count x ≠ 0 → x = s) ∨
      ∃ n k l r, 2 ≤ nleaves f ∧ buildTree f = some (.node n k l r) ∧
        (HufTree.node n k l r).syms.Perm (allSymbols.filter fun s => f.count s ≠ 0) ∧
        (HufTree.node n k l r).syms.length = nleaves f ∧ (HufTree.node n k l r).syms.Nodup := by
  rcases buildTree_eq f with ⟨h0, hb⟩ | ⟨root, hb, hp, -⟩
  · refine .inl ⟨h0, hb, fun s => ?_⟩
    by_contra hs
    rw [nleaves_eq, List.length_eq_zero_iff] at h0
    have := (mem_occurring f s).2 hs
    rw [h0] at this
    simp at this
  · have hlen := hp.length_eq
    rw [← nleaves_eq] at hlen
    cases root with
    | leaf s n =>
      simp only [HufTree.syms] at hp hlen
      have h1 : nleaves f = 1 := by simpa using hlen.symm
      refine .inr (.inl ⟨s, n, h1, hb, (mem_occurring f s).1 (hp.subset (by simp)), fun x hx => ?_⟩)
      have := hp.symm.subset ((mem_occurring f x).2 hx)
      simpa using this
    | node n k l r =>
      refine .inr (.inr ⟨n, k, l, r, ?_, hb, hp, hlen, hp.symm.nodup (nodup_allSymbols.filter _)⟩)
      have h1 := l.syms_length_pos
      have h2 := r.syms_length_pos
      simp only [HufTree.syms, List.length_append] at hlen
      omega

/-- The codeword of a symbol that occurs, in a tree of two leaves or more, stands in the tree. -/
theorem codeOf_mem {f : FreqTable} {n k : Nat} {l r : HufTree} (hb : buildTree f = some (.node n k l r))
    (hp : (HufTree.node n k l r).syms.Perm (allSymbols.filter fun s => f.count s ≠ 0))
    (hn : (HufTree.node n k l r).syms.Nodup) {s : Byte} (hs : f.count s ≠ 0) :
    (s, codeOf (codeTable (buildTree f)) s) ∈ (HufTree.node n k l r).assign [] := by
  have hmem : s ∈ ((HufTree.node n k l r).assign []).map Prod.fst := by
    rw [HufTree.assign_syms]
    exact hp.symm.subset ((mem_occurring f s).2 hs)
  obtain ⟨e, he, rfl⟩ := List.mem_map.1 hmem
  have := lookup_of_mem (by rw [HufTree.assign_syms]; exact hn) he
  rw [hb, codeTable, codeOf, this]
  exact he

/-- A symbol that does not occur has an empty slot. -/
theorem codeOf_of_count_zero (f : FreqTable) (s : Byte) (hs : f.count s = 0) : codeOf (codeTable (buildTree f)) s = [] := by
  rcases codeTable_cases f with ⟨-, hb, -⟩ | ⟨x, n, -, hb, hx, -⟩ | ⟨n, k, l, r, -, hb, hp, -, -⟩
  · rw [hb]; rfl
  · rw [hb]
    have : s ≠ x := fun hc => hx (hc ▸ hs)
    simp [codeTable, codeOf, List.lookup, beq_false_of_ne this]
  · rw [hb, codeTable, codeOf, lookup_eq_none]
    · rfl
    · rw [HufTree.assign_syms]
      intro hm
      exact (mem_occurring f s).1 (hp.subset hm) hs

/-- A symbol that occurs has a codeword. -/
theorem codeOf_ne_nil (f : FreqTable) (s : Byte) (hs : f.count s ≠ 0) : codeOf (codeTable (buildTree f)) s ≠ [] := by
  rcases codeTable_cases f with ⟨-, -, h0⟩ | ⟨x, n, -, hb, -, hx⟩ | ⟨n, k, l, r, -, hb, hp, -, hn⟩
  · exact absurd (h0 s) hs
  · rw [hb, hx s hs]
    simp [codeTable, codeOf]
  · intro hc
    have := codeOf_mem hb hp hn hs
    rw [hc, HufTree.assign_node] at this
    simp at this

/-- The walk down a tree where the unread bits begin with one of its codewords (41_huffman R175). -/
theorem decodeSymbol_of_prefix (m : Memory) (t : HufTree) (b : Block) (e : Byte × Bits) (he : e ∈ t.assign [])
    (hpos : b.streamPos ≤ 8 * b.srcLen.toNat)
    (h : e.2 <+: (streamBits (m.readBytes b.srcAddr.toNat b.srcLen.toNat)).drop b.streamPos) :
    decodeSymbol m t b = (some e.1, b.readerAt (b.streamPos + e.2.length)) := by
  induction t generalizing b e with
  | leaf s f =>
    simp only [HufTree.assign, List.mem_singleton] at he
    subst he
    simp [decodeSymbol, Block.readerAt_streamPos]
  | node f k l r ihl ihr =>
    have step : ∀ (bit : Bool) (x : Byte × Bits),
        (bit :: x.2) <+: (streamBits (m.readBytes b.srcAddr.toNat b.srcLen.toNat)).drop b.streamPos →
        b.streamPos < 8 * b.srcLen.toNat ∧ getBit m b = (bit, b.readerAt (b.streamPos + 1)) ∧
          x.2 <+: (streamBits (m.readBytes b.srcAddr.toNat b.srcLen.toNat)).drop (b.streamPos + 1) := by
      intro bit x hx
      have hlt : b.streamPos < 8 * b.srcLen.toNat := by
        have := hx.length_le
        simp only [List.length_cons, List.length_drop, length_streamBits, Memory.length_readBytes] at this
        omega
      rw [List.drop_eq_getElem_cons (by simpa using hlt), List.cons_prefix_cons] at hx
      exact ⟨hlt, by rw [getBit_eq m b hlt, hx.1], hx.2⟩
    rw [HufTree.assign_node, List.mem_append, List.mem_map, List.mem_map] at he
    rcases he with ⟨x, hx, rfl⟩ | ⟨x, hx, rfl⟩ <;>
    · obtain ⟨hlt, hg, hrest⟩ := step _ _ h
      have hp : (b.readerAt (b.streamPos + 1)).streamPos = b.streamPos + 1 := Block.streamPos_readerAt _ _ (by omega)
      have hav : b.avail ≠ 0 := by
        have : b.avail = 8 * b.srcLen.toNat - b.streamPos := rfl
        omega
      simp only [decodeSymbol, if_neg hav, hg, Bool.false_eq_true, if_false, if_true]
      first
      | rw [ihl (b.readerAt (b.streamPos + 1)) x hx (by rw [hp]; simp only [Block.readerAt]; omega)
          (by rw [hp]; exact hrest), hp]
        rw [Block.readerAt_readerAt, List.length_cons, Nat.add_assoc, Nat.add_comm 1]
      | rw [ihr (b.readerAt (b.streamPos + 1)) x hx (by rw [hp]; simp only [Block.readerAt]; omega)
          (by rw [hp]; exact hrest), hp]
        rw [Block.readerAt_readerAt, List.length_cons, Nat.add_assoc, Nat.add_comm 1]

/-- The walk down a tree where the unread bits begin with none of its codewords: it reads them all (41_huffman R175). -/
theorem decodeSymbol_of_no_prefix (m : Memory) (t : HufTree) (b : Block) (hpos : b.streamPos ≤ 8 * b.srcLen.toNat)
    (h : ∀ e ∈ t.assign [],
      ¬e.2 <+: (streamBits (m.readBytes b.srcAddr.toNat b.srcLen.toNat)).drop b.streamPos) :
    decodeSymbol m t b = (none, b.readerAt (8 * b.srcLen.toNat)) := by
  induction t generalizing b with
  | leaf s f => exact absurd (List.nil_prefix) (h (s, []) (by simp [HufTree.assign]))
  | node f k l r ihl ihr =>
    have hav : b.avail = 8 * b.srcLen.toNat - b.streamPos := rfl
    simp only [decodeSymbol]
    by_cases hz : b.avail = 0
    · rw [if_pos hz, ← show b.streamPos = 8 * b.srcLen.toNat by omega, Block.readerAt_streamPos]
    · have hlt : b.streamPos < 8 * b.srcLen.toNat := by omega
      have hp : (b.readerAt (b.streamPos + 1)).streamPos = b.streamPos + 1 := Block.streamPos_readerAt _ _ (by omega)
      rw [if_neg hz, getBit_eq m b hlt]
      rw [List.drop_eq_getElem_cons (by simpa using hlt)] at h
      split
      · rename_i hbit
        rw [ihr _ (by rw [hp]; simp only [Block.readerAt]; omega) fun e he hc => h (e.1, true :: e.2) (by
          rw [HufTree.assign_node]
          exact List.mem_append_right _ (List.mem_map_of_mem he)) (by
            rw [hp] at hc
            exact List.cons_prefix_cons.2 ⟨hbit.symm, hc⟩)]
        rfl
      · rename_i hbit
        rw [ihl _ (by rw [hp]; simp only [Block.readerAt]; omega) fun e he hc => h (e.1, false :: e.2) (by
          rw [HufTree.assign_node]
          exact List.mem_append_left _ (List.mem_map_of_mem he)) (by
            rw [hp] at hc
            exact List.cons_prefix_cons.2 ⟨by simpa using Eq.symm (by simpa using hbit), hc⟩)]
        rfl

/-- What encoding some bytes that all have codewords does: it puts their codewords, one after another (41_huffman R182). -/
theorem encodeBytes_eq (ct : List (Byte × Bits)) (bytes : List Byte) (x : Block × Memory)
    (h : ∀ b ∈ bytes, codeOf ct b ≠ []) : encodeBytes ct bytes x = (none, putBits x (payload ct bytes)) := by
  induction bytes generalizing x with
  | nil => rfl
  | cons b bytes ih =>
    rw [encodeBytes]
    split
    · rename_i hc
      exact absurd hc (h b (by simp))
    · rename_i bit bits hc
      rw [ih _ fun c hcm => h c (by simp [hcm])]
      simp only [payload, List.flatMap_cons, hc, putBits, List.foldl_append]

/-- The payload length is the sum of the codeword lengths (41_huffman R182). -/
theorem payloadBits_eq (f : FreqTable) (ct : List (Byte × Bits)) (bytes : List Byte)
    (h : ∀ s : Byte, (f.count s).toNat = bytes.count s) : payloadBits f ct = (payload ct bytes).length := by
  rw [payloadBits, FreqTable.entries_eq, List.map_map]
  have hsum : ∀ l : List Byte, (allSymbols.map fun s => l.count s * (codeOf ct s).length).sum = (payload ct l).length := by
    intro l
    induction l with
    | nil => simp only [List.count_nil, Nat.zero_mul, List.map_const', List.sum_replicate, smul_zero]; rfl
    | cons b l ih =>
      rw [payload, List.flatMap_cons, List.length_append, ← payload, ← ih]
      have : ∀ ss : List Byte, (ss.map fun s => (b :: l).count s * (codeOf ct s).length).sum =
          ss.count b * (codeOf ct b).length + (ss.map fun s => l.count s * (codeOf ct s).length).sum := by
        intro ss
        induction ss with
        | nil => simp
        | cons s ss ihs =>
          rw [List.map_cons, List.sum_cons, ihs, List.map_cons, List.sum_cons]
          by_cases hs : s = b
          · subst hs
            rw [List.count_cons_self, List.count_cons_self]
            ring
          · rw [List.count_cons_of_ne (Ne.symm hs), List.count_cons_of_ne hs]
            ring
      rw [this, List.count_eq_one_of_mem nodup_allSymbols (mem_allSymbols b), Nat.one_mul]
  rw [← hsum]
  congr 1
  refine List.map_congr_left fun s _ => ?_
  simp [h]

/-- The decoder's loop over the codewords of some symbols: it gives those symbols (41_huffman R183). -/
theorem decodeSymbols_of_prefix (m : Memory) (t : HufTree) (code : Byte → Bits) (syms : List Byte) (n : Nat) (b : Block)
    (hmem : ∀ s ∈ syms, (s, code s) ∈ t.assign []) (hpos : b.streamPos ≤ 8 * b.srcLen.toNat)
    (h : syms.flatMap code <+: (streamBits (m.readBytes b.srcAddr.toNat b.srcLen.toNat)).drop b.streamPos) :
    decodeSymbols m t (syms.length + n) b =
      (syms ++ (decodeSymbols m t n (b.readerAt (b.streamPos + (syms.flatMap code).length))).1,
        (decodeSymbols m t n (b.readerAt (b.streamPos + (syms.flatMap code).length))).2) := by
  induction syms generalizing b with
  | nil => simp [Block.readerAt_streamPos]
  | cons s syms ih =>
    rw [List.flatMap_cons] at h
    have hle := h.length_le
    simp only [List.length_append, List.length_drop, length_streamBits, Memory.length_readBytes] at hle
    have hp : (b.readerAt (b.streamPos + (code s).length)).streamPos = b.streamPos + (code s).length :=
      Block.streamPos_readerAt _ _ (by omega)
    have hd := decodeSymbol_of_prefix m t b (s, code s) (hmem s (by simp)) hpos ((List.prefix_append _ _).trans h)
    have hrest : syms.flatMap code <+:
        (streamBits (m.readBytes b.srcAddr.toNat b.srcLen.toNat)).drop (b.streamPos + (code s).length) := by
      obtain ⟨tl, htl⟩ := h
      refine ⟨tl, ?_⟩
      rw [← List.drop_drop, ← htl, List.append_assoc, List.drop_left]
    rw [List.length_cons, show syms.length + 1 + n = (syms.length + n) + 1 by omega, decodeSymbols, hd]
    simp only
    rw [ih (b.readerAt (b.streamPos + (code s).length)) (fun x hx => hmem x (by simp [hx]))
      (by rw [hp]; simp only [Block.readerAt]; omega) (by rw [hp]; exact hrest), hp]
    simp [List.flatMap_cons, Nat.add_assoc]

/-- Decoding a symbol moves the reader's position only (41_huffman R175). -/
theorem decodeSymbol_block (m : Memory) (t : HufTree) (b : Block) :
    ∃ p q, (decodeSymbol m t b).2 = { b with brByte := p, brBit := q } := by
  induction t generalizing b with
  | leaf s f => exact ⟨_, _, rfl⟩
  | node f k l r ihl ihr =>
    obtain ⟨p, q, h⟩ := getBit_block m b
    unfold decodeSymbol
    split
    · exact ⟨_, _, rfl⟩
    · split
      · obtain ⟨p', q', h'⟩ := ihr (getBit m b).2
        exact ⟨p', q', by rw [h', h]⟩
      · obtain ⟨p', q', h'⟩ := ihl (getBit m b).2
        exact ⟨p', q', by rw [h', h]⟩

/-- Decoding `n` symbols gives at most `n` and moves the reader's position only (41_huffman R183). -/
theorem decodeSymbols_block (m : Memory) (t : HufTree) (n : Nat) (b : Block) :
    (decodeSymbols m t n b).1.length ≤ n ∧ ∃ p q, (decodeSymbols m t n b).2.1 = { b with brByte := p, brBit := q } := by
  induction n generalizing b with
  | zero => exact ⟨Nat.le_refl _, _, _, rfl⟩
  | succ n ih =>
    obtain ⟨p, q, h⟩ := decodeSymbol_block m t b
    unfold decodeSymbols
    split
    · rename_i b' heq
      rw [heq] at h
      exact ⟨by simp, p, q, h⟩
    · rename_i sym b' heq
      rw [heq] at h
      simp only at h
      obtain ⟨hlen, p', q', h'⟩ := ih b'
      exact ⟨by simpa using hlen, p', q', by simp only [h']; rw [h]⟩

end Sys2Proof.Machine
end

