-- ==== Sys2Proof/Laws/Lzw.lean ====
section
/-! SUPPORT. What the LZW dictionary, the encoder and the decoder do (42_lzw R220 to R222). -/

namespace Sys2Proof.Machine

/-- Every single byte has its code (42_lzw R220). -/
@[simp] theorem Dict.code_singleton (d : Dict) (v : Byte) : d.code [v] = some v.toNat := rfl

/-- What growing does to the dictionary: nothing, or one entry more at the next code. -/
theorem Dict.grow_cases (d : Dict) (str : List Byte) :
    (d.next < 4096 ∧ d.grow str = d ++ [str]) ∨ (4096 ≤ d.next ∧ d.grow str = d) := by
  rw [Dict.grow, Config.lzwMax]
  by_cases h : d.next < 4096
  · exact .inl ⟨h, if_pos h⟩
  · exact .inr ⟨by omega, if_neg h⟩

/-- The codes of a dictionary stay below its size (42_lzw R221). -/
theorem Dict.code_lt {d : Dict} {str : List Byte} {c : Nat} (h : d.code str = some c) : c < d.next := by
  match str, h with
  | [v], h =>
    have := v.isLt
    simp only [Dict.code_singleton, Option.some.injEq] at h
    simp only [Dict.next, Config.lzwInit]
    omega
  | v :: w :: str, h =>
    simp only [Dict.code, Option.map_eq_some_iff] at h
    obtain ⟨j, hj, rfl⟩ := h
    have := (List.idxOf?_eq_some_iff.1 hj).1
    simp only [Dict.next]
    omega

/-- The decoder, one entry behind, reads the code of a string the encoder's dictionary has as that string (42_lzw R222): the
entry, or the cScSc case. -/
theorem Dict.entry_of_code {d : Dict} {prev cur : List Byte} {c : Nat} (hprev : prev ≠ [])
    (h : (d.grow (prev ++ cur.take 1)).code cur = some c) :
    ((d.entry c).orElse fun _ => if c = d.next then some (prev ++ prev.take 1) else none) = some cur := by
  match cur, h with
  | [v], h =>
    have := v.isLt
    simp only [Dict.code_singleton, Option.some.injEq] at h
    subst h
    rw [Dict.entry, if_pos (by simp only [Config.lzwInit]; omega)]
    simp
  | v :: w :: str, h =>
    simp only [Dict.code, Option.map_eq_some_iff] at h
    obtain ⟨j, hj, rfl⟩ := h
    obtain ⟨hlt, heq, -⟩ := List.idxOf?_eq_some_iff.1 hj
    have hget : (d.grow (prev ++ (v :: w :: str).take 1))[j]? = some (v :: w :: str) := by
      rw [List.getElem?_eq_getElem hlt, heq]
    have hentry : d.entry (Config.lzwInit + j) = d[j]? := by
      rw [Dict.entry, if_neg (by omega), Nat.add_sub_cancel_left]
    rw [hentry]
    by_cases hd : j < d.length
    · have : d[j]? = some (v :: w :: str) := by
        rcases d.grow_cases (prev ++ (v :: w :: str).take 1) with ⟨-, hg⟩ | ⟨-, hg⟩
        · rwa [hg, List.getElem?_append_left hd] at hget
        · rwa [hg] at hget
      rw [this]
      rfl
    · rw [List.getElem?_eq_none (by omega)]
      rcases d.grow_cases (prev ++ (v :: w :: str).take 1) with ⟨-, hg⟩ | ⟨-, hg⟩
      · have hlt' := hlt
        rw [hg, List.length_append, List.length_singleton] at hlt'
        obtain rfl : j = d.length := by omega
        have : prev ++ [v] = v :: w :: str := by
          rw [hg, List.getElem?_append_right le_rfl] at hget
          simpa using hget
        obtain ⟨x, xs, rfl⟩ := List.exists_cons_of_ne_nil hprev
        rw [List.cons_append, List.cons.injEq] at this
        simp [Dict.next, this.1, this.2]
      · rw [hg] at hlt
        exact absurd hlt hd

/-- The decoder's loop over what the encoder's loop emits, one dictionary entry behind it: it gives back the encoder's
string (42_lzw R221, R222). -/
theorem lzwDecodeFrom_encodeFrom (bs : List Byte) (d : Dict) (prev cur : List Byte) (i : Nat) (hprev : prev ≠ [])
    (hcur : cur ≠ []) (hcode : ((d.grow (prev ++ cur.take 1)).code cur).isSome) :
    lzwDecodeFrom d prev i (lzwEncodeFrom (d.grow (prev ++ cur.take 1)) cur bs).1 = (cur ++ bs, none) := by
  induction bs generalizing d prev cur i with
  | nil =>
    obtain ⟨c, hc⟩ := Option.isSome_iff_exists.1 hcode
    rw [lzwEncodeFrom, hc, Option.toList_some, lzwDecodeFrom, Dict.entry_of_code hprev hc]
    rfl
  | cons b bs ih =>
    obtain ⟨c, hc⟩ := Option.isSome_iff_exists.1 hcode
    rw [lzwEncodeFrom]
    split
    · rename_i x hx
      have ht : (cur ++ [b]).take 1 = cur.take 1 := by
        obtain ⟨y, ys, rfl⟩ := List.exists_cons_of_ne_nil hcur
        rfl
      have := ih d prev (cur ++ [b]) i hprev (by simp) (by rw [ht, hx]; rfl)
      rw [ht] at this
      rw [this, List.append_assoc]
      rfl
    · simp only [hc, Option.toList_some, List.cons_append, List.nil_append]
      rw [lzwDecodeFrom, Dict.entry_of_code hprev hc]
      have := ih (d.grow (prev ++ cur.take 1)) cur [b] (i + 1) hcur (by simp) (by simp)
      simp only [List.take_succ_cons, List.take_zero] at this
      simp only [this]
      rfl

/-- How many codes the encoder's loop emits, how large they are, and where the counter ends (42_lzw R221). -/
theorem lzwEncodeFrom_bounds (bs : List Byte) (d : Dict) (cur : List Byte) (hd : d.next ≤ 4096)
    (hcode : (d.code cur).isSome) :
    1 ≤ (lzwEncodeFrom d cur bs).1.length ∧ (lzwEncodeFrom d cur bs).1.length ≤ bs.length + 1 ∧
      (∀ c ∈ (lzwEncodeFrom d cur bs).1, c < 4096) ∧
      (lzwEncodeFrom d cur bs).2 + 1 = min 4097 (d.next + (lzwEncodeFrom d cur bs).1.length) := by
  obtain ⟨c, hc⟩ := Option.isSome_iff_exists.1 hcode
  have hlt := Dict.code_lt hc
  induction bs generalizing d cur c with
  | nil =>
    simp only [lzwEncodeFrom, hc, Option.toList_some, List.length_singleton, List.length_nil, List.mem_singleton,
      forall_eq]
    omega
  | cons b bs ih =>
    rw [lzwEncodeFrom]
    split
    · rename_i x hx
      have := ih d (cur ++ [b]) hd (by rw [hx]; rfl) x hx (Dict.code_lt hx)
      refine ⟨this.1, ?_, this.2.2⟩
      have := this.2.1
      simp only [List.length_cons]
      omega
    · have hn : (d.grow (cur ++ [b])).next ≤ 4096 ∧
          min 4097 ((d.grow (cur ++ [b])).next + (lzwEncodeFrom (d.grow (cur ++ [b])) [b] bs).1.length) =
            min 4097 (d.next + (lzwEncodeFrom (d.grow (cur ++ [b])) [b] bs).1.length + 1) ∨ False := by
        left
        rcases d.grow_cases (cur ++ [b]) with ⟨h, hg⟩ | ⟨h, hg⟩
        · have hnx : (d.grow (cur ++ [b])).next = d.next + 1 := by rw [hg]; simp [Dict.next, Nat.add_assoc]
          rw [hnx]
          omega
        · have hpos : 1 ≤ (lzwEncodeFrom (d.grow (cur ++ [b])) [b] bs).1.length := by
            rw [hg]
            exact (ih d [b] hd rfl b.toNat rfl (Dict.code_lt (d.code_singleton b))).1
          have hnx : (d.grow (cur ++ [b])).next = d.next := by rw [hg]
          rw [hnx]
          omega
      obtain ⟨hn1, hn2⟩ := hn.resolve_right id
      have := ih (d.grow (cur ++ [b])) [b] hn1 rfl b.toNat rfl (Dict.code_lt (Dict.code_singleton _ b))
      simp only [hc, Option.toList_some, List.cons_append, List.nil_append, List.length_cons, List.mem_cons]
      refine ⟨by omega, by omega, ?_, by omega⟩
      rintro x (rfl | hx)
      · omega
      · exact this.2.2.1 x hx

end Sys2Proof.Machine
end

