-- ==== Sys2Proof/Laws/PerInstr.lean ====
section
/-! SUPPORT. What holds of each instruction as syntax, one lemma per constructor. -/

namespace Sys2Proof.Laws.LegalEncoding

open Sys2Proof Sys2Proof.Machine

/-- The command word of a well-formed instruction is legal (30_encoding R117). -/
def Statement (i : Instr) : Prop := i.wf = true → LegalWord (encode i)

theorem nop : Statement .nop := by intro _; decide
theorem softReset : Statement .softReset := by intro _; decide
theorem hufCount : Statement .hufCount := by intro _; decide
theorem hufLoadFreq : Statement .hufLoadFreq := by intro _; decide
theorem hufBuild : Statement .hufBuild := by intro _; decide
theorem hufCode (sym : Byte) : Statement (.hufCode sym) := by revert sym; unfold Statement; decide +kernel
theorem hufPutSym (sym : Byte) : Statement (.hufPutSym sym) := by revert sym; unfold Statement; decide +kernel
theorem hufGetSym : Statement .hufGetSym := by intro _; decide
theorem hufEncode : Statement .hufEncode := by intro _; decide
theorem hufDecode : Statement .hufDecode := by intro _; decide
theorem lzwEncode : Statement .lzwEncode := by intro _; decide
theorem lzwDecode (strict : Bool) : Statement (.lzwDecode strict) := by revert strict; unfold Statement; decide +kernel
theorem bwInit : Statement .bwInit := by intro _; decide
theorem bwPut (n : BitVec 7) : Statement (.bwPut n) := by revert n; unfold Statement; decide +kernel
theorem bwFinish : Statement .bwFinish := by intro _; decide
theorem brInit : Statement .brInit := by intro _; decide
theorem brGet (n : BitVec 7) : Statement (.brGet n) := by revert n; unfold Statement; decide +kernel

end Sys2Proof.Laws.LegalEncoding
end

