-- ==== Sys2Proof/Laws/Shared.lean ====
section
/-! SUPPORT. What drawing outputs does, which runs decide what is computed from shared bytes, and that reading memory depends on
the bytes read alone (20_memory R84, R91, R92). -/

namespace Sys2Proof.Machine

/-- Drawing outputs makes those outputs draws of the event and changes nothing else. -/
theorem Block.drawOutputs_drawn (b : Block) (e : Nat) (os : List Output) : Drawn e os b (b.drawOutputs e os) := by
  constructor
  case status =>
    simp only [Block.drawOutputs, Status.drawCode, drawError]
    split
    · rfl
    · by_cases h : Output.faultCode ∈ os
      · simp only [h, true_and, if_true]
      · simp only [h, false_and, if_false]
  case freq => intro sym; simp [Block.drawOutputs, FreqTable.count]
  case rest => rfl
  all_goals rfl

/-- Every count is an output of a command that writes FREQ. -/
@[simp] theorem mem_freqOutputs (sym : Byte) : Output.freq sym ∈ freqOutputs := by simp [freqOutputs]

/-- Instances with the same value of an output have the same output. -/
theorem Output.value_eq_iff (o : Output) (b c : Block) : o.value b = o.value c ↔ o.Same b c := by
  cases o <;> simp only [Output.value, Output.Same, BitVec.toNat_inj]
  case ending => cases b.status.done <;> cases b.status.err <;> cases c.status.done <;> cases c.status.err <;> decide
  case faultCode => cases b.status.fault <;> cases c.status.fault <;> decide
  case bwOpen => cases b.bwOpen <;> cases c.bwOpen <;> decide
  case treeValid => cases b.treeValid <;> cases c.treeValid <;> decide
  case writer =>
    have := b.bwAcc.isLt
    have := c.bwAcc.isLt
    rw [← BitVec.toNat_inj, ← BitVec.toNat_inj]
    omega

/-! ### The runs over every value of the shared bytes -/

/-- The fillings of canonical memory are the canonical memories that read as it does at every other address. -/
theorem Memory.mem_fillings {m m' : Memory} (hm : m.wf = true) (addrs : List Nat) :
    m' ∈ m.fillings addrs ↔ m'.wf = true ∧ ∀ a, a ∉ addrs → m'.read a = m.read a := by
  induction addrs generalizing m' with
  | nil =>
    simp only [Memory.fillings, List.mem_singleton, List.not_mem_nil, not_false_eq_true, true_implies]
    exact ⟨by rintro rfl; exact ⟨hm, fun _ => rfl⟩, fun h => Memory.ext_of_read h.1 hm h.2⟩
  | cons a addrs ih =>
    simp only [Memory.fillings, List.mem_flatMap, List.mem_map, List.mem_range, ih, List.mem_cons, not_or, and_imp]
    constructor
    · rintro ⟨m₁, ⟨h₁, h₂⟩, v, -, rfl⟩
      exact ⟨Memory.wf_write _ _ _ h₁, fun x hx hxs => by rw [Memory.read_write_other _ _ hx, h₂ x hxs]⟩
    · rintro ⟨h₁, h₂⟩
      refine ⟨m'.write a (m.read a), ⟨Memory.wf_write _ _ _ h₁, fun x hx => ?_⟩, (m'.read a).toNat, (m'.read a).isLt, ?_⟩
      · by_cases hxa : x = a
        · rw [hxa, Memory.read_write_same _ _ _ h₁]
        · rw [Memory.read_write_other _ _ hxa, h₂ x hxa hx]
      · have hw := Memory.wf_write m' a (m.read a) h₁
        refine Memory.ext_of_read (Memory.wf_write _ _ _ hw) h₁ fun x => ?_
        by_cases hxa : x = a
        · rw [hxa, Memory.read_write_same _ _ _ hw, BitVec.ofNat_toNat, BitVec.setWidth_eq]
        · rw [Memory.read_write_other _ _ hxa, Memory.read_write_other _ _ hxa]

/-- The runs of a command are those of `exec` on memory with any values of the shared bytes it reads. -/
theorem State.mem_sharedRuns {s : State} (hm : s.mem.wf = true) (i : Instr) (t : State) :
    t ∈ s.sharedRuns i ↔ ∃ m, s.Variant i m ∧ exec i { s with mem := m } = .next t := by
  simp only [State.sharedRuns, List.mem_filterMap, Memory.mem_fillings hm]
  refine exists_congr fun m => and_congr_right fun _ => ?_
  split <;> simp_all

/-- Something varies over some runs where two of them differ in it. -/
theorem varies_iff {α : Type} [DecidableEq α] (f : State → α) (runs : List State) :
    varies f runs = true ↔ ∃ t ∈ runs, ∃ u ∈ runs, f t ≠ f u := by
  cases runs with
  | nil => simp [varies]
  | cons x ts =>
    simp only [varies, List.any_eq_true, decide_eq_true_eq]
    constructor
    · rintro ⟨u, hu, h⟩
      exact ⟨u, by simp [hu], x, by simp, h⟩
    · rintro ⟨t, ht, u, hu, h⟩
      by_contra hc
      push Not at hc
      have all : ∀ y ∈ x :: ts, f y = f x := by
        intro y hy
        rcases List.mem_cons.1 hy with rfl | hy
        · rfl
        · exact hc y hy
      exact h ((all t ht).trans (all u hu).symm)

/-- Bytes read alike are alike one by one. -/
theorem Memory.readBytes_eq_iff (m m' : Memory) (a n : Nat) :
    m.readBytes a n = m'.readBytes a n ↔ ∀ x, a ≤ x → x < a + n → m.read x = m'.read x := by
  induction n generalizing a with
  | zero =>
    simp only [Memory.readBytes, true_iff]
    omega
  | succ n ih =>
    rw [Memory.readBytes, Memory.readBytes, List.cons.injEq, ih]
    constructor
    · rintro ⟨h₁, h₂⟩ x hx hlt
      rcases Nat.eq_or_lt_of_le hx with rfl | hx
      · exact h₁
      · exact h₂ x hx (by omega)
    · exact fun h => ⟨h a le_rfl (by omega), fun x hx hlt => h x (by omega) (by omega)⟩

/-- The places of the writes to a region make it up. -/
theorem Region.has_places (r : Region) (w a : Nat) (hw : 0 < w) :
    (∃ q ∈ r.places w, q.has a = true) ↔ r.range.has a = true := by
  rw [show r.range.has a = true ↔ r.base ≤ a ∧ a < r.base + r.len from Range.has_iff _ _]
  simp only [Region.places, List.mem_map, List.mem_range, Range.has_iff]
  constructor
  · rintro ⟨q, ⟨k, hk, rfl⟩, h₁, h₂⟩
    have := Nat.min_le_right w (r.len - w * k)
    simp only at h₁ h₂
    exact ⟨by omega, by omega⟩
  · rintro ⟨h₁, h₂⟩
    have hd := Nat.div_add_mod (a - r.base) w
    have hlt := Nat.mod_lt (a - r.base) hw
    have hk : (a - r.base) / w < (r.len + w - 1) / w := by
      rw [Nat.lt_iff_add_one_le, Nat.le_div_iff_mul_le hw, Nat.add_one_mul, Nat.mul_comm]
      omega
    have := Nat.le_min.2 ⟨Nat.succ_le_of_lt hlt, show (a - r.base) % w + 1 ≤ r.len - w * ((a - r.base) / w) by omega⟩
    exact ⟨_, ⟨_, hk, rfl⟩, by simp only; omega, by simp only; omega⟩

/-! ### Memory that agrees in part -/

/-- Memories that read alike where `P` holds still do after bytes are stored that are alike where `P` holds. -/
theorem Memory.read_writeBytes_congr {P : Nat → Prop} {m m' : Memory} (hm : m.wf = true) (hm' : m'.wf = true)
    (h : ∀ x, P x → m.read x = m'.read x) (a : Nat) (bs bs' : List Byte) (hb : ∀ j, P (a + j) → bs[j]? = bs'[j]?) (x : Nat)
    (hx : P x) : (m.writeBytes a bs).read x = (m'.writeBytes a bs').read x := by
  by_cases hlt : x < a
  · rw [read_writeBytes_outside _ _ _ _ (.inl hlt), read_writeBytes_outside _ _ _ _ (.inl hlt), h x hx]
  · obtain ⟨j, rfl⟩ : ∃ j, x = a + j := ⟨x - a, by omega⟩
    have hj := hb j hx
    by_cases hl : j < bs.length
    · rw [List.getElem?_eq_getElem hl] at hj
      obtain ⟨hl', hj⟩ := List.getElem?_eq_some_iff.1 hj.symm
      rw [read_writeBytes_inside _ _ _ _ hm hl, read_writeBytes_inside _ _ _ _ hm' hl', hj]
    · rw [List.getElem?_eq_none (by omega)] at hj
      have hl' := List.getElem?_eq_none_iff.1 hj.symm
      rw [read_writeBytes_outside _ _ _ _ (by omega), read_writeBytes_outside _ _ _ _ (by omega), h _ hx]

/-- Memories that read alike on a code buffer give the same codes. -/
theorem Memory.readCodes_congr {m m' : Memory} {a n : Nat} (h : ∀ x, a ≤ x → x < a + 2 * n → m.read x = m'.read x) :
    m.readCodes a n = m'.readCodes a n := by
  induction n generalizing a with
  | zero => rfl
  | succ n ih =>
    rw [Memory.readCodes, Memory.readCodes, ih fun x h₁ h₂ => h x (by omega) (by omega), Memory.readLE, Memory.readLE,
      Memory.readBytes_congr fun x h₁ h₂ => h x h₁ (by omega)]

/-- Writing the same bits to memories that agree in part leaves the same writer and memories that agree in that part. -/
theorem putBits_congr {P : Nat → Prop} (b : Block) {m m' : Memory} (hm : m.wf = true) (hm' : m'.wf = true)
    (h : ∀ x, P x → m.read x = m'.read x) (bits : Bits) :
    (putBits (b, m) bits).1 = (putBits (b, m') bits).1 ∧ (putBits (b, m) bits).2.wf = true ∧ (putBits (b, m') bits).2.wf = true ∧
      ∀ x, P x → (putBits (b, m) bits).2.read x = (putBits (b, m') bits).2.read x := by
  induction bits generalizing b m m' with
  | nil => exact ⟨rfl, hm, hm', h⟩
  | cons bit bits ih =>
    simp only [putBits, List.foldl_cons, putBit]
    split
    · exact ih _ (Memory.wf_write _ _ _ hm) (Memory.wf_write _ _ _ hm')
        (Memory.read_writeBytes_congr hm hm' h _ [_] [_] fun _ _ => rfl)
    · exact ih _ hm hm' h

/-- Flushing the writer over memories that agree in part. -/
theorem flush_congr {P : Nat → Prop} (b : Block) {m m' : Memory} (hm : m.wf = true) (hm' : m'.wf = true)
    (h : ∀ x, P x → m.read x = m'.read x) :
    (flush (b, m)).1 = (flush (b, m')).1 ∧ ∀ x, P x → (flush (b, m)).2.read x = (flush (b, m')).2.read x := by
  simp only [flush]
  split
  · exact ⟨rfl, h⟩
  · exact ⟨rfl, Memory.read_writeBytes_congr hm hm' h _ [_] [_] fun _ _ => rfl⟩

/-- The second pass of 41_huffman R182 over memories that agree in part. -/
theorem encodeBytes_congr {P : Nat → Prop} (ct : List (Byte × Bits)) (bytes : List Byte) (b : Block) {m m' : Memory}
    (hm : m.wf = true) (hm' : m'.wf = true) (h : ∀ x, P x → m.read x = m'.read x) :
    (encodeBytes ct bytes (b, m)).1 = (encodeBytes ct bytes (b, m')).1 ∧
      (encodeBytes ct bytes (b, m)).2.1 = (encodeBytes ct bytes (b, m')).2.1 ∧
        (encodeBytes ct bytes (b, m)).2.2.wf = true ∧ (encodeBytes ct bytes (b, m')).2.2.wf = true ∧
          ∀ x, P x → (encodeBytes ct bytes (b, m)).2.2.read x = (encodeBytes ct bytes (b, m')).2.2.read x := by
  induction bytes generalizing b m m' with
  | nil => exact ⟨rfl, rfl, hm, hm', h⟩
  | cons v bytes ih =>
    simp only [encodeBytes]
    split
    · exact ⟨rfl, rfl, hm, hm', h⟩
    · rename_i bit bits _
      obtain ⟨h₁, h₂, h₃, h₄⟩ := putBits_congr b hm hm' h (bit :: bits)
      have := ih (putBits (b, m) (bit :: bits)).1 h₂ h₃ h₄
      rwa [show ((putBits (b, m) (bit :: bits)).1, (putBits (b, m') (bit :: bits)).2) = putBits (b, m') (bit :: bits) by
        rw [h₁]] at this

/-- Memories that read alike on a META region give the same table. -/
theorem Memory.readFreq_congr {m m' : Memory} {a : Nat} (h : ∀ x, a ≤ x → x < a + 1024 → m.read x = m'.read x) :
    m.readFreq a = m'.readFreq a :=
  FreqTable.ext_count fun sym => by
    have := sym.isLt
    rw [← BitVec.toNat_inj, FreqTable.count_readFreq, FreqTable.count_readFreq, Memory.readLE, Memory.readLE,
      Memory.readBytes_congr fun x h₁ h₂ => h x (by omega) (by omega)]

/-- A bit is read only where the reader stands before the end of the source. -/
theorem Block.brByte_lt_of_avail {b : Block} (h : b.avail ≠ 0) : b.brByte.toNat < b.srcLen.toNat := by
  simp only [Block.avail] at h
  omega

/-- Reading a bit before the end of the source leaves the source and moves one bit forward. -/
theorem getBit_forward (m : Memory) (b : Block) (h : b.brByte.toNat < b.srcLen.toNat) :
    (getBit m b).2.srcAddr = b.srcAddr ∧ (getBit m b).2.srcLen = b.srcLen ∧
      b.brByte.toNat ≤ (getBit m b).2.brByte.toNat ∧ (getBit m b).2.streamPos = b.streamPos + 1 := by
  have := b.srcLen.isLt
  have := b.brBit.isLt
  simp only [getBit, Block.streamPos]
  split
  · rename_i h7
    have : b.brBit.toNat = 7 := by rw [h7]; rfl
    refine ⟨rfl, rfl, ?_, ?_⟩ <;> simp [BitVec.toNat_add] <;> omega
  · rename_i h7
    have : b.brBit.toNat ≠ 7 := fun h => h7 (BitVec.eq_of_toNat_eq (by rw [h]; rfl))
    refine ⟨rfl, rfl, le_rfl, ?_⟩
    simp [BitVec.toNat_add]
    omega

/-- Memories that read alike in the source from the reader on give the same bits. -/
theorem getBits_congr {m m' : Memory} (b : Block) (n : Nat) (hn : n ≤ b.avail)
    (h : ∀ x, b.brByte.toNat ≤ x → x < b.srcLen.toNat → m.read (b.srcAddr.toNat + x) = m'.read (b.srcAddr.toNat + x)) :
    getBits m b n = getBits m' b n := by
  induction n generalizing b with
  | zero => rfl
  | succ n ih =>
    have hb := Block.brByte_lt_of_avail (b := b) (by omega)
    have hg : getBit m b = getBit m' b := by simp only [getBit, h _ le_rfl hb]
    obtain ⟨h₁, h₂, h₃, h₄⟩ := getBit_forward m' b hb
    rw [getBits, getBits, hg, ih _ (by simp only [Block.avail, Block.streamPos] at hn h₄ ⊢; rw [h₂]; omega) fun x hx hxl => ?_]
    rw [h₁]
    exact h x (h₃.trans hx) (h₂ ▸ hxl)

/-- The walk leaves the source and moves forward (41_huffman R175). -/
theorem decodeSymbol_forward (m : Memory) (t : HufTree) (b : Block) :
    (decodeSymbol m t b).2.srcAddr = b.srcAddr ∧ (decodeSymbol m t b).2.srcLen = b.srcLen ∧
      b.brByte.toNat ≤ (decodeSymbol m t b).2.brByte.toNat := by
  induction t generalizing b with
  | leaf s f => exact ⟨rfl, rfl, le_rfl⟩
  | node f k l r ihl ihr =>
    rw [decodeSymbol]
    split
    · exact ⟨rfl, rfl, le_rfl⟩
    · rename_i ha
      obtain ⟨h₁, h₂, h₃, -⟩ := getBit_forward m b (Block.brByte_lt_of_avail ha)
      rw [← h₁, ← h₂]
      split
      · exact ⟨(ihr _).1, (ihr _).2.1, h₃.trans (ihr _).2.2⟩
      · exact ⟨(ihl _).1, (ihl _).2.1, h₃.trans (ihl _).2.2⟩

/-- Memories that read alike in the source from the reader on give the same walk (41_huffman R175). -/
theorem decodeSymbol_congr {m m' : Memory} (t : HufTree) (b : Block)
    (h : ∀ x, b.brByte.toNat ≤ x → x < b.srcLen.toNat → m.read (b.srcAddr.toNat + x) = m'.read (b.srcAddr.toNat + x)) :
    decodeSymbol m t b = decodeSymbol m' t b := by
  induction t generalizing b with
  | leaf s f => rfl
  | node f k l r ihl ihr =>
    rw [decodeSymbol, decodeSymbol]
    by_cases ha : b.avail = 0
    · rw [if_pos ha, if_pos ha]
    · have hb := Block.brByte_lt_of_avail ha
      have hg : getBit m b = getBit m' b := by simp only [getBit, h _ le_rfl hb]
      obtain ⟨h₁, h₂, h₃, -⟩ := getBit_forward m' b hb
      have h' : ∀ x, (getBit m' b).2.brByte.toNat ≤ x → x < (getBit m' b).2.srcLen.toNat →
          m.read ((getBit m' b).2.srcAddr.toNat + x) = m'.read ((getBit m' b).2.srcAddr.toNat + x) := fun x hx hxl => by
        rw [h₁]
        exact h x (h₃.trans hx) (h₂ ▸ hxl)
      rw [if_neg ha, if_neg ha, hg, ihl _ h', ihr _ h']

/-- Memories that read alike in the source from the reader on give the same symbols (41_huffman R183). -/
theorem decodeSymbols_congr {m m' : Memory} (t : HufTree) (n : Nat) (b : Block)
    (h : ∀ x, b.brByte.toNat ≤ x → x < b.srcLen.toNat → m.read (b.srcAddr.toNat + x) = m'.read (b.srcAddr.toNat + x)) :
    decodeSymbols m t n b = decodeSymbols m' t n b := by
  induction n generalizing b with
  | zero => rfl
  | succ n ih =>
    obtain ⟨h₁, h₂, h₃⟩ := decodeSymbol_forward m' t b
    rw [decodeSymbols, decodeSymbols, decodeSymbol_congr t b h]
    split
    · rfl
    · rename_i s b' hd
      rw [hd] at h₁ h₂ h₃
      rw [ih b' fun x hx hxl => by rw [h₁]; exact h x (h₃.trans hx) (h₂ ▸ hxl)]

end Sys2Proof.Machine
end

