-- ==== Sys2Proof/Tests/Slice0.lean ====
section
/-! SUPPORT. Tests: ill-formed instructions, decoding, one step per instruction, and a witness for every statement that has
hypotheses. Expected results are those of 95_test_vectors or of the examples in the rules. -/

set_option Elab.async false

namespace Sys2Proof.Tests

open Sys2Proof Sys2Proof.Machine

/-! ### Helpers -/

/-- The result is a next state with the property. -/
def holdsNext (r : Result) (p : State → Bool) : Bool :=
  match r with
  | .next t => p t
  | .fault _ => false
  | .refused _ => false

/-- The reset state with instance 0 changed and some bytes in memory. -/
def onReset (m : Memory) (f : Block → Block) : State := { State.reset with cur := f State.reset.cur, mem := m }

/-- Memory with some bytes at an address. -/
def place (a : Nat) (bytes : List Byte) : Memory := Memory.writeBytes [] a bytes

theorem holdsNext_iff (r : Result) (p : State → Bool) : holdsNext r p = true ↔ ∃ t, r = .next t ∧ p t = true := by
  cases r <;> simp [holdsNext]

/-- "abracadabra". -/
def abracadabra : List Byte := [0x61, 0x62, 0x72, 0x61, 0x63, 0x61, 0x64, 0x61, 0x62, 0x72, 0x61]

/-- The counts of "abracadabra" (41_huffman R176). -/
def abraFreq : FreqTable :=
  ((((FreqTable.zero.set 0x61 5).set 0x62 2).set 0x63 1).set 0x64 1).set 0x72 2

/-- The bytes of META that are not 0 for "abracadabra" at META_ADDR = 0x2000 (95_test_vectors L2.4). -/
def abraMeta : Memory := [(0x2184, 5), (0x2188, 2), (0x218C, 1), (0x2190, 1), (0x21C8, 2)]

/-- "abracadabra" at 0x1000, META at 0x2000, DST of 16 bytes at 0x3000. -/
def abraSource : State :=
  onReset (place 0x1000 abracadabra) fun b =>
    { b with srcAddr := 0x1000, srcLen := 11, metaAddr := 0x2000, dstAddr := 0x3000, dstCap := 16 }

/-- The tree of "abracadabra" built, its payload `79 8D 78` as source at 0x1000, a writer open on 16 bytes at 0x3000. -/
def abraTree : State :=
  onReset (place 0x1000 [0x79, 0x8D, 0x78]) fun b =>
    { b with
      freq := abraFreq, treeValid := true, srcAddr := 0x1000, srcLen := 3, dstAddr := 0x3000, dstCap := 16, bwOpen := true }

/-- HUF_DECODE of "abracadabra": payload at 0x1000, table at 0x2000, 11 bytes of destination at 0x3000. -/
def abraDecode : State :=
  onReset ((place 0x1000 [0x79, 0x8D, 0x78]) ++ abraMeta) fun b =>
    { b with srcAddr := 0x1000, srcLen := 3, metaAddr := 0x2000, dstAddr := 0x3000, dstCap := 11, origSize := 11 }

/-- An open writer on 16 bytes at 0x1000, three bits 101 in its partial byte. -/
def writer101 : State :=
  onReset [] fun b => { b with dstAddr := 0x1000, dstCap := 16, bwOpen := true, bwAcc := 5, bwCnt := 3, bwData := 0x1F }

/-- A reader of the one byte 0xA0 at 0x2000. -/
def readerA0 : State := onReset [(0x2000, 0xA0)] fun b => { b with srcAddr := 0x2000, srcLen := 1 }

/-- "aaaa" at 0x1000, 8 bytes of destination at 0x2000. -/
def lzwSource : State :=
  onReset (place 0x1000 [0x61, 0x61, 0x61, 0x61]) fun b =>
    { b with srcAddr := 0x1000, srcLen := 4, dstAddr := 0x2000, dstCap := 8 }

/-- The codes 97, 256, 97 at 0x1000, 4 bytes wanted, 8 bytes of destination at 0x2000. -/
def lzwCodes : State :=
  onReset (place 0x1000 [0x61, 0, 0, 1, 0x61, 0]) fun b =>
    { b with srcAddr := 0x1000, codeCount := 3, origSize := 4, dstAddr := 0x2000, dstCap := 8 }

/-- Two instances, the second one running HUF_LOAD_FREQ from META at 0. -/
def twoBlocks : State :=
  { State.reset with after := [(Block.reset 0xFFFF000000000100).submit 0x11] }

/-- The state with word `w` pending and some bytes marked as shared with another instance. -/
def sharing (s : State) (w : Word) (rs : List Range) : State :=
  { s.withPending w with
    cur := { (s.withPending w).cur with track := { (s.withPending w).cur.track with shared := rs } } }

/-! ### Well-formedness -/

/-- 30_encoding R113: "N = 0 and N from 65 to 127 are illegal." -/
theorem test_wf_refuses :
    (Instr.bwPut 0).wf = false ∧ (Instr.bwPut 65).wf = false ∧ (Instr.bwPut 127).wf = false ∧
      (Instr.brGet 0).wf = false ∧ (Instr.brGet 65).wf = false ∧ (Instr.brGet 127).wf = false := by decide

/-- 30_encoding R113: N is "legal from 1 to 64". -/
theorem test_wf_accepts :
    (Instr.bwPut 1).wf = true ∧ (Instr.bwPut 64).wf = true ∧ (Instr.brGet 1).wf = true ∧ (Instr.brGet 64).wf = true := by
  decide

/-! ### Decoding: words from 30_encoding R116, R120 and 95_test_vectors L2.1 -/

theorem test_decode_nop : decode 0x0 = .ok .nop := by decide
theorem test_decode_softReset : decode 0x1 = .ok .softReset := by decide
theorem test_decode_hufCount : decode 0x10 = .ok .hufCount := by decide
theorem test_decode_hufLoadFreq : decode 0x11 = .ok .hufLoadFreq := by decide
theorem test_decode_hufBuild : decode 0x12 = .ok .hufBuild := by decide
theorem test_decode_hufCode : decode 0x0000000000630013 = .ok (.hufCode 0x63) := by decide
theorem test_decode_hufPutSym : decode 0x0000000000FF0014 = .ok (.hufPutSym 0xFF) := by decide
theorem test_decode_hufGetSym : decode 0x15 = .ok .hufGetSym := by decide
theorem test_decode_hufEncode : decode 0x16 = .ok .hufEncode := by decide
theorem test_decode_hufDecode : decode 0x17 = .ok .hufDecode := by decide
theorem test_decode_lzwEncode : decode 0x20 = .ok .lzwEncode := by decide
theorem test_decode_lzwDecode : decode 0x21 = .ok (.lzwDecode false) := by decide
theorem test_decode_lzwDecodeStrict : decode 0x121 = .ok (.lzwDecode true) := by decide
theorem test_decode_bwInit : decode 0x30 = .ok .bwInit := by decide
theorem test_decode_bwPut : decode 0x00000000000C0031 = .ok (.bwPut 12) := by decide
theorem test_decode_bwFinish : decode 0x32 = .ok .bwFinish := by decide
theorem test_decode_brInit : decode 0x38 = .ok .brInit := by decide
theorem test_decode_brGet : decode 0x0000000000400039 = .ok (.brGet 64) := by decide

/-- 95_test_vectors L2.1: each of these words is illegal. -/
theorem test_decode_illegal :
    ∀ w ∈ ([0x100, 0x4000000000000000, 0x2, 0xFF, 0x31, 0x410031, 0x7F0039, 0x131, 0x1000000000031, 0x221, 0x1000013] :
      List Word), ∃ e, decode w = .error e := by
  intro w hw
  fin_cases hw <;> exact ⟨_, rfl⟩

theorem test_encode_words :
    encode (.bwPut 3) = 0x30031 ∧ encode (.hufCode 0x61) = 0x610013 ∧ encode (.lzwDecode true) = 0x121 := by decide

/-- The table's word of BW_PUT, its operand bits 3. -/
theorem test_decodeTableWord : decodeTableWord 64 0x30031 = some (.bwPut 3) := by decide

/-! ### One step per instruction -/

/-- 43_control R260: STATUS = 0x0000_0002. -/
theorem test_nop :
    holdsNext (step (State.reset.withFetchWord 64 0x0)) (fun t => t.cur.readReg .status = 0x2) = true := by decide +kernel

/-- 43_control R260: STATUS = 0x0000_0104 and FAULT_INFO = 0x100. -/
theorem test_illegal :
    holdsNext (step (State.reset.withFetchWord 64 0x100))
      (fun t => t.cur.readReg .status = 0x104 && t.cur.faultInfo = 0x100) = true := by decide +kernel

/-- 43_control R261: HUF_STATE = 0, BW_STATE = 0, DST_LEN = 0, ORIG_SIZE kept. -/
theorem test_softReset :
    holdsNext (step ({ writer101 with
        cur := { writer101.cur with treeValid := true, dstLen := 2, origSize := 11 } }.withFetchWord 64 0x1))
      (fun t => t.cur.readReg .status = 0x10002 && t.cur.readReg .bwState = 0 && t.cur.dstLen = 0 &&
        t.cur.origSize = 11 && !t.cur.treeValid) = true := by decide +kernel

/-- 41_huffman R176: FREQ['a'] = 5, ORIG_SIZE = 11, META offset 0x184 holds 05 00. -/
theorem test_hufCount :
    holdsNext (exec .hufCount abraSource)
      (fun t => t.cur.freq.count 0x61 = 5 && t.cur.freq.count 0x72 = 2 && t.cur.origSize = 11 &&
        t.mem.read 0x2184 = 5 && t.mem.read 0x2185 = 0) = true := by decide +kernel

/-- 41_huffman R177: the table of R176 is loaded, TREE_VALID = 0. -/
theorem test_hufLoadFreq :
    holdsNext (exec .hufLoadFreq abraDecode)
      (fun t => t.cur.freq.count 0x61 = 5 && t.cur.freq.count 0x63 = 1 && !t.cur.treeValid) = true := by decide +kernel

/-- 41_huffman R178: HUF_STATE = 0x1_0005. -/
theorem test_hufBuild :
    holdsNext (exec .hufBuild (onReset [] fun b => { b with freq := abraFreq }))
      (fun t => t.cur.readReg .hufState = 0x10005) = true := by decide +kernel

/-- 41_huffman R179: 'c' gives CODE_LEN = 4, CODE_W0 = 0xC. -/
theorem test_hufCode :
    holdsNext (exec (.hufCode 0x63) abraTree)
      (fun t => t.cur.codeLen = 4 && t.cur.readReg .codeW0 = 0xC && t.cur.readReg .codeW1 = 0) = true := by decide +kernel

/-- 95_test_vectors L2.5: 'z' faults HUF_EMPTY_CODE with FAULT_INFO 0x7A. -/
theorem test_hufCode_empty :
    holdsNext (exec (.hufCode 0x7A) abraTree)
      (fun t => t.cur.readReg .status = 0x1004 && t.cur.faultInfo = 0x7A) = true := by decide +kernel

/-- 95_test_vectors L2.5, program P3: after the bits 1010, 'c' = 1100 pushes AC. -/
theorem test_hufPutSym :
    holdsNext (exec (.hufPutSym 0x63) { abraTree with cur := { abraTree.cur with bwAcc := 0xA, bwCnt := 4 } })
      (fun t => t.mem.read 0x3000 = 0xAC && t.cur.dstLen = 1 && t.cur.readReg .bwState = 0x10000) = true := by
  decide +kernel

/-- 41_huffman R181: the second HUF_GET_SYM gives 'b' with BR_BIT = 4. -/
theorem test_hufGetSym :
    holdsNext (exec .hufGetSym { abraTree with cur := { abraTree.cur with brBit := 1 } })
      (fun t => t.cur.symOut = 0x62 && t.cur.brByte = 0 && t.cur.brBit = 4) = true := by decide +kernel

/-- 95_test_vectors L2.5: with SRC_LEN 1 the fifth HUF_GET_SYM faults and BR_BIT stays 7. -/
theorem test_hufGetSym_end :
    holdsNext (exec .hufGetSym { abraTree with cur := { abraTree.cur with srcLen := 1, brBit := 7 } })
      (fun t => t.cur.readReg .status = 0x1104 && t.cur.brByte = 0 && t.cur.brBit = 7) = true := by decide +kernel

/-- 95_test_vectors L2.6: DST `79 8D 78`, DST_LEN 3, HUF_STATE 0x0001_0005. -/
theorem test_hufEncode :
    holdsNext (exec .hufEncode abraSource)
      (fun t => t.mem.readBytes 0x3000 4 = [0x79, 0x8D, 0x78, 0] && t.cur.dstLen = 3 &&
        t.cur.readReg .hufState = 0x10005 && t.cur.status.done) = true := by decide +kernel

/-- 95_test_vectors L2.6: DST "abracadabra", BR_BYTE 2, BR_BIT 7. -/
theorem test_hufDecode :
    holdsNext (exec .hufDecode abraDecode)
      (fun t => t.mem.readBytes 0x3000 11 = abracadabra && t.cur.dstLen = 11 && t.cur.brByte = 2 && t.cur.brBit = 7) =
      true := by decide +kernel

/-- 95_test_vectors L2.6: with SRC_LEN 2, HUF_END_OF_STREAM with FAULT_INFO 7, BR_BYTE 2, BR_BIT 0. -/
theorem test_hufDecode_end :
    holdsNext (exec .hufDecode { abraDecode with cur := { abraDecode.cur with srcLen := 2 } })
      (fun t => t.cur.readReg .status = 0x1104 && t.cur.faultInfo = 7 && t.cur.dstLen = 7 && t.cur.brByte = 2 &&
        t.cur.brBit = 0 && t.mem.readBytes 0x3000 8 = [0x61, 0x62, 0x72, 0x61, 0x63, 0x61, 0x64, 0]) = true := by
  decide +kernel

/-- 42_lzw R223: codes 97, 256, 97; CODE_COUNT 3, DICT_SIZE 258, DST_LEN 6. -/
theorem test_lzwEncode :
    holdsNext (exec .lzwEncode lzwSource)
      (fun t => t.mem.readBytes 0x2000 6 = [0x61, 0, 0, 1, 0x61, 0] && t.cur.codeCount = 3 && t.cur.dictSize = 258 &&
        t.cur.dstLen = 6 && t.cur.origSize = 4) = true := by decide +kernel

/-- 95_test_vectors L2.7: DST_CAP 3 faults CAPACITY with FAULT_INFO 4, one code written. -/
theorem test_lzwEncode_capacity :
    holdsNext (exec .lzwEncode { lzwSource with cur := { lzwSource.cur with dstCap := 3 } })
      (fun t => t.cur.readReg .status = 0x504 && t.cur.faultInfo = 4 && t.cur.dstLen = 2 && t.cur.codeCount = 0 &&
        t.mem.readBytes 0x2000 3 = [0x61, 0, 0]) = true := by decide +kernel

/-- 42_lzw R224: DST = "aaaa"; with ORIG_SIZE = 3 "aaa" and no fault. -/
theorem test_lzwDecode :
    holdsNext (exec (.lzwDecode false) { lzwCodes with cur := { lzwCodes.cur with origSize := 3 } })
      (fun t => t.mem.readBytes 0x2000 4 = [0x61, 0x61, 0x61, 0] && t.cur.dstLen = 3 && t.cur.status.done) = true := by
  decide +kernel

/-- 42_lzw R224: with ORIG_SIZE = 3, LZW_DECODE.STRICT faults LZW_LONG_OUTPUT with FAULT_INFO = 4. -/
theorem test_lzwDecode_strict :
    holdsNext (exec (.lzwDecode true) { lzwCodes with cur := { lzwCodes.cur with origSize := 3 } })
      (fun t => t.cur.readReg .status = 0x2204 && t.cur.faultInfo = 4 && t.cur.dstLen = 3) = true := by decide +kernel

/-- 40_bitio R143: from BW_STATE = 0x1_0305 and DST_LEN = 7, BW_STATE = 0x1_0000 and DST_LEN = 0. -/
theorem test_bwInit :
    holdsNext (exec .bwInit { writer101 with cur := { writer101.cur with dstLen := 7 } })
      (fun t => t.cur.readReg .bwState = 0x10000 && t.cur.dstLen = 0) = true := by decide +kernel

/-- 40_bitio R144: 101 then 11111 push 0xBF. -/
theorem test_bwPut :
    holdsNext (exec (.bwPut 5) writer101)
      (fun t => t.mem.read 0x1000 = 0xBF && t.cur.dstLen = 1 && t.cur.readReg .bwState = 0x10000) = true := by
  decide +kernel

/-- 95_test_vectors L2.2: BW_PUT 64 of 0x0123456789ABCDEF. -/
theorem test_bwPut_64 :
    holdsNext (exec (.bwPut 64) { writer101 with
        cur := { writer101.cur with bwAcc := 0, bwCnt := 0, bwData := 0x0123456789ABCDEF } })
      (fun t => t.mem.readBytes 0x1000 8 = [0x01, 0x23, 0x45, 0x67, 0x89, 0xAB, 0xCD, 0xEF] && t.cur.dstLen = 8) =
      true := by decide +kernel

/-- 40_bitio R145: 101 is flushed as 0xA0. -/
theorem test_bwFinish :
    holdsNext (exec .bwFinish writer101)
      (fun t => t.mem.read 0x1000 = 0xA0 && t.cur.dstLen = 1 && t.cur.readReg .bwState = 0) = true := by decide +kernel

/-- 40_bitio R146: BR_BYTE = 3, BR_BIT = 5 become 0. -/
theorem test_brInit :
    holdsNext (exec .brInit { readerA0 with cur := { readerA0.cur with brByte := 3, brBit := 5, brData := 9 } })
      (fun t => t.cur.brByte = 0 && t.cur.brBit = 0 && t.cur.brData = 9) = true := by decide +kernel

/-- 40_bitio R147: BR_GET 3 of 0xA0 gives 5 at BR_BIT = 3. -/
theorem test_brGet :
    holdsNext (exec (.brGet 3) readerA0)
      (fun t => t.cur.brData = 5 && t.cur.brByte = 0 && t.cur.brBit = 3) = true := by decide +kernel

/-- 40_bitio R147: past the last bit, BIT_END_OF_STREAM with FAULT_INFO = 0. -/
theorem test_brGet_end :
    holdsNext (exec (.brGet 1) { readerA0 with cur := { readerA0.cur with brByte := 1 } })
      (fun t => t.cur.readReg .status = 0x3004 && t.cur.faultInfo = 0 && t.cur.brByte = 1) = true := by decide +kernel

/-! ### Witnesses: states and operands that meet the hypotheses of each statement -/

theorem witness_DecodeEncodeAgree : (Instr.bwPut 1).wf = true ∧ (Instr.brGet 64).wf = true := by decide

theorem witness_LegalWordsAreEncodings :
    decode 0x10031 = .ok (.bwPut 1) ∧ decode 0x400039 = .ok (.brGet 64) := by decide

/-- A pending illegal word: N = 65. -/
theorem witness_IllegalWordFaults :
    (decode 0x10031 = .ok (.bwPut 1) ∨ decode 0x10031 = .ok (.brGet 1)) ∧
      (decode 0x130013 = .ok (.hufCode 0x13) ∨ decode 0x130013 = .ok (.hufPutSym 0x13)) ∧
      decode 0x121 = .ok (.lzwDecode true) ∧
      (State.reset.withPending 0x410031).turns = [] ∧
      (State.reset.withPending 0x410031).cur.pending = some 0x410031 ∧ ¬LegalWord 0x410031 := by decide

/-- A pending HUF_ENCODE of the current instance; a write and a read of the last offset; a turn of the engine of the other of
two instances. -/
theorem witness_StepRunsPendingCommand :
    ((State.reset.withPending 0x16).cur.pending = some 0x16 ∧ decode 0x16 = .ok .hufEncode ∧
      (State.reset.withPending 0x16).Quiet ∧ (State.reset.withPending 0x16).turns = [] ∧
      { State.reset.withPending 0x16 with turns := [Turn.engine 0] }.turns =
        .engine (State.reset.withPending 0x16).before.length :: []) ∧
      ({ State.reset with turns := [Turn.host (.wr 0 0xF8 8 1)] }.turns =
          .host (.wr State.reset.before.length 0xF8 8 1) :: [] ∧
        { State.reset with turns := [Turn.host (.rd 0 0xF8 8)] }.turns =
          .host (.rd State.reset.before.length 0xF8 8) :: [] ∧ 0xF8 % 8 = 0 ∧ 0xF8 < 256 ∧
        State.reset.cur.inReset = false ∧ State.reset.cur.status.busy = false) ∧
      (let s := { twoBlocks with turns := [Turn.engine 1] };
        s.turns = .engine 1 :: [] ∧ instanceOf (.engine 1) = some 1 ∧
          s.blocks = [s.cur] ++ (Block.reset 0xFFFF000000000100).submit 0x11 :: [] ∧ [s.cur].length = 1 ∧
          holdsNext (step s) (fun t => t.cur.status.done) = true ∧ 0 ≠ 1 ∧ s.blocks[0]? = some s.cur) := by
  decide +kernel

theorem witness_ResetIsLegal :
    Memory.wf [(0, 1), (0xFFFFFFFFFFFFFFFF, 0xFF)] = true ∧
      Memory.inSpace [(0, 1), (0xFFFFFFFFFFFFFFFF, 0xFF)] = true := by decide

/-- A state with a command pending is legal and steps. -/
theorem witness_StepKeepsInvariant :
    (State.reset.withPending 0x30).Inv ∧ ∃ t, step (State.reset.withPending 0x30) = .next t := by
  refine ⟨⟨rfl, rfl, fun b hb => ?_⟩, ⟨_, rfl⟩⟩
  simp only [State.withPending, State.blocks, State.reset, State.resetOn, List.map_nil, List.nil_append,
    List.mem_singleton] at hb
  subst hb
  exact ⟨by decide, by decide, by decide, by decide, by rintro w ⟨⟩; decide, by decide, by decide, by decide, by decide,
    by decide⟩

/-- A HUF_COUNT, its META at 0x2000 and one byte of it denied, its first source byte shared, is abandoned; an instance under
reset; the release. -/
theorem witness_HardwareReset :
    (let s :=
        { sharing abraSource 0x10 [{ base := 0x1000, len := 1 }] with
          turns := [Turn.reset 0 true], platform := { holes := [{ base := 0x23FF, len := 1 }], devices := [] } };
      let drawn := s.cur.writtenInFlight ++ s.cur.track.shared;
      s.mem.wf = true ∧ s.turns = .reset s.before.length true :: [] ∧ s.admitted 0x23FF = false ∧
        (∀ a ∈ [0xFFF, 0x1001, 0x2400], ∀ r ∈ drawn, r.has a = false) ∧
        ∀ a ∈ [0x1000, 0x2000, 0x23FF], ∃ r ∈ drawn, r.has a = true) ∧
      (onReset [] fun b => { b with inReset := true }).cur.inReset = true ∧
      { State.reset with turns := [Turn.reset 0 false] }.turns = .reset State.reset.before.length false :: [] := by
  decide +kernel

theorem witness_CmdWriteAccepted :
    { State.reset with turns := [Turn.host (.wr 0 0x008 8 0x41)] }.turns =
        .host (.wr State.reset.before.length 0x008 8 0x41) :: [] ∧
      State.reset.cur.inReset = false ∧ State.reset.cur.status.busy = false ∧ ¬LegalWord 0x41 := by decide +kernel

/-- Writes to CMD, STATUS, IRQ_EN and the last reserved offset while a command is pending. -/
theorem witness_BusyWritesDropped :
    ∀ off ∈ [0x008, 0x010, 0x020, 0x0F8],
      { State.reset.withPending 0 with turns := [Turn.host (.wr 0 off 8 0xF)] }.turns =
          .host (.wr (State.reset.withPending 0).before.length off 8 0xF) :: [] ∧
        off % 8 = 0 ∧ off < 256 ∧ (State.reset.withPending 0).cur.inReset = false ∧
        (State.reset.withPending 0).cur.status.busy = true := by decide +kernel

theorem witness_IdleWrites :
    State.reset.cur.inReset = false ∧ State.reset.cur.status.busy = false ∧
      ∀ off ∈ [0x000, 0x018, 0x048, 0x068, 0x0C8, 0x0D0, 0x0F8],
        off ∉ [0x008, 0x010, 0x020, 0x028, 0x030, 0x038, 0x040, 0x050, 0x058, 0x060, 0x070] := by decide +kernel

/-- A busy and an idle instance; the offsets 0x000, 0x010 and 0x020 fall under the first clause, CMD and the first and the last
reserved offset under the others. -/
theorem witness_HostReads :
    (State.reset.withPending 0).cur.inReset = false ∧ (State.reset.withPending 0).cur.status.busy = true ∧
      State.reset.cur.inReset = false ∧ State.reset.cur.status.busy = false ∧
      ∀ off ∈ [0x0D0, 0x0F8], ∀ r : Reg, regOffset r ≠ off := by
  refine ⟨rfl, rfl, rfl, rfl, ?_⟩
  intro off h r
  fin_cases h <;> cases r <;> decide

/-- 10_state R34, R35: while BUSY = 0 CMD and a reserved offset read 0, a result the host has not acquired is a draw. -/
theorem test_hostRead_reserved :
    let s := onReset [] fun b => { b with dstLen := 7, track := { b.track with seen := false } };
    (s.hostRead 0x008).log = [0] ∧ (s.hostRead 0x0D0).log = [0] ∧ (s.hostRead 0x048).draws = 1 := by
  refine ⟨rfl, rfl, rfl⟩

/-- A command on idempotent memory; one with a region beside a device. -/
theorem witness_EveryCommandEnds :
    (∃ t, exec .hufCount abraSource = .next t) ∧
      (let s := { abraSource with platform := { holes := [], devices := [{ base := 0x2400, len := 1 }] } };
        ∀ r ∈ s.cur.regions .hufCount, ∀ d ∈ s.platform.devices, d.overlaps r.range = false) := by
  refine ⟨?_, by decide +kernel⟩
  obtain ⟨t, ht, -⟩ := (holdsNext_iff (exec .hufCount abraSource) fun _ => true).1 (by decide +kernel)
  exact ⟨t, ht⟩

theorem witness_RegisterMapAgrees :
    regAt 0x000 = some .id ∧ regAt 0x0C8 = some .codeW3 ∧ ∀ off ∈ [0x0D0, 0x0F8, 0x004], ∀ r : Reg, regOffset r ≠ off := by
  refine ⟨rfl, rfl, ?_⟩
  intro off h r
  fin_cases h <;> cases r <;> decide

/-- BW_FINISH after reset faults BIT_WRITER_CLOSED. -/
theorem witness_FaultRecorded :
    State.reset.cur.status.err = false ∧
      ∃ t, exec .bwFinish State.reset = .next t ∧ (t.cur.status.err && !t.cur.inReset) = true :=
  ⟨rfl, (holdsNext_iff _ _).1 (by decide +kernel)⟩

theorem witness_PreciseFaults :
    State.reset.cur.status.err = false ∧
      ∃ t, exec .bwFinish State.reset = .next t ∧
        (t.cur.status.err && decide (t.cur.status.fault ∉ partialFaults .bwFinish)) = true :=
  ⟨rfl, (holdsNext_iff _ _).1 (by decide +kernel)⟩

/-- LZW_ENCODE with DST_CAP 3, and LZW_DECODE.STRICT with ORIG_SIZE 3. -/
theorem witness_PartialFaults :
    (∃ t, exec .lzwEncode { lzwSource with cur := { lzwSource.cur with dstCap := 3 } } = .next t ∧
        (t.cur.status.err && decide (t.cur.status.fault ∈ partialFaults .lzwEncode)) = true) ∧
      ∃ t, exec (.lzwDecode true) { lzwCodes with cur := { lzwCodes.cur with origSize := 3 } } = .next t ∧
        (t.cur.status.err && decide (t.cur.status.fault ∈ partialFaults (.lzwDecode true))) = true :=
  ⟨(holdsNext_iff _ _).1 (by decide +kernel), (holdsNext_iff _ _).1 (by decide +kernel)⟩

theorem witness_CommandFrame : ∃ t, exec .nop State.reset = .next t := ⟨_, rfl⟩

/-- NOP meets the premise of every clause. -/
theorem witness_RegisterWriters :
    (∃ t, exec .nop writer101 = .next t) ∧
      Instr.nop ∉ ([.hufCount, .hufLoadFreq, .hufBuild, .hufEncode, .hufDecode, .lzwEncode, .softReset, .hufGetSym, .brInit,
        .bwInit, .bwFinish] : List Instr) ∧
      (∀ n, Instr.nop ≠ .brGet n) ∧ (∀ n, Instr.nop ≠ .bwPut n) ∧ (∀ b, Instr.nop ≠ .lzwDecode b) ∧
      (∀ sym, Instr.nop ≠ .hufCode sym) ∧ ∀ sym, Instr.nop ≠ .hufPutSym sym :=
  ⟨⟨_, rfl⟩, by decide, by simp, by simp, by simp, by simp, by simp⟩

/-- The bytes beside the destination of 16 bytes at 0x1000. -/
theorem witness_CommandMemoryFrame :
    ((∃ t, exec .bwFinish writer101 = .next t ∧ t.cur.status.done = true) ∧
        ∀ a ∈ [0xFFF, 0x1010], ∀ r ∈ writer101.cur.regions .bwFinish, r.write = true → r.range.has a = false) ∧
      (∃ t, exec (.brGet 3) readerA0 = .next t ∧ t.cur.status.done = true) ∧ readerA0.mem.wf = true ∧
      (readerA0.mem.write 0x2001 1).wf = true ∧
      ∀ r ∈ readerA0.cur.regions (.brGet 3), r.write = false → ∀ a, r.range.has a = true →
        (readerA0.mem.write 0x2001 1).read a = readerA0.mem.read a := by
  refine ⟨⟨(holdsNext_iff _ _).1 (by decide +kernel), by decide⟩, (holdsNext_iff _ _).1 (by decide +kernel), by decide,
    by decide, fun r hr _ a ha => Memory.read_write_other _ _ ?_⟩
  rw [Block.regions, List.mem_singleton] at hr
  rintro rfl
  rw [hr] at ha
  exact absurd ha (by decide)

/-- A destination that passes 2^64 by one byte; regions that end at 2^64; two that share one byte; a region whose last byte is
the first of the register block; regions that pass. -/
theorem witness_RegionChecks :
    (let s := { writer101 with cur := { writer101.cur with dstAddr := 0xFFFFFFFFFFFFFFF8, dstCap := 9 } };
      s.cur.prereqFault (.bwPut 1) = none ∧
        checkRegions s.denied s.platform.devices (s.cur.regions (.bwPut 1)) = .fault .addrRange 2) ∧
      (let p : Region := { id := .src, base := 0xFFFFFFFFFFFFFFFF, len := 1, write := false };
        let q : Region := { id := .dst, base := 0xFFFFFFFFFFFFFFFF, len := 2, write := true };
        (∀ x ∈ [p], ¬x.PastEnd) ∧ q.PastEnd ∧ [p, q] = [p] ++ q :: []) ∧
      (let p : Region := { id := .src, base := 0x1000, len := 11, write := false };
        let q : Region := { id := .dst, base := 0x100A, len := 4, write := true };
        (∀ r ∈ [p, q], ¬r.PastEnd) ∧ pairs [p, q] = [] ++ (p, q) :: [] ∧ RegionsClash p q) ∧
      (let r : Region := { id := .src, base := 0xFFFEFFFFFFFFFFFF, len := 2, write := false };
        (∀ x ∈ [r], ¬x.PastEnd) ∧ (∀ x ∈ pairs [r], ¬RegionsClash x.1 x.2) ∧ r.base ≤ 0xFFFF000000000000 ∧
          0xFFFF000000000000 < r.base + r.len ∧ State.reset.admitted 0xFFFF000000000000 = false ∧
          ∀ y, r.base ≤ y → y < 0xFFFF000000000000 → State.reset.admitted y = true) ∧
      (let r : Region := { id := .src, base := 0xFFFEFFFFFFFFFFFF, len := 1, write := false };
        (∀ x ∈ [r], State.reset.RegionAdmitted x) ∧
          ∀ x ∈ [r], ∀ d ∈ State.reset.platform.devices, d.overlaps x.range = false) := by
  refine ⟨by decide, by decide, by decide, ⟨by decide, by decide, by decide, by decide, by decide, fun y h₁ h₂ => ?_⟩, ?_, by
    decide⟩
  · obtain rfl : y = 0xFFFEFFFFFFFFFFFF := by simp only at h₁; omega
    decide
  · intro x hx
    rw [List.mem_singleton.1 hx]
    exact (State.firstIn_eq_none_iff _ _).1 (by decide)

/-- The last byte of the register block of instance 0; BR_GET from memory that is not idempotent. -/
theorem witness_BlocksAndDevices :
    State.reset.cur ∈ State.reset.blocks ∧ State.reset.cur.window.has 0xFFFF0000000000FF = true ∧
      (let s := { readerA0 with platform := { holes := [], devices := [{ base := 0x2000, len := 1 }] } };
        s.cur.prereqFault (.brGet 1) = none ∧
          checkRegions s.denied s.platform.devices (s.cur.regions (.brGet 1)) = .refuse ∧
          ∃ r ∈ s.cur.regions (.brGet 1), ∃ d ∈ s.platform.devices, d.overlaps r.range = true) :=
  ⟨by simp [State.blocks], by decide, by decide +kernel⟩

theorem witness_StatePrerequisites :
    State.reset.cur.prereqFault (.hufPutSym 0x61) = some .hufNoTree ∧
      State.reset.cur.prereqFault .bwFinish = some .bitWriterClosed := by decide

/-- A put, a flush and two decodes one byte short. -/
theorem witness_CapacityChecks :
    (let s := { writer101 with cur := { writer101.cur with dstCap := 0 } };
      s.cur.bwOpen = true ∧ s.ChecksPass (.bwPut 5) ∧ 0 < (s.cur.bwCnt.toNat + (5 : BitVec 7).toNat) / 8 ∧
        s.cur.dstCap.toNat < s.cur.dstLen.toNat + (s.cur.bwCnt.toNat + (5 : BitVec 7).toNat) / 8 ∧
        s.ChecksPass .bwFinish ∧ s.cur.bwCnt ≠ 0 ∧ s.cur.dstCap.toNat < s.cur.dstLen.toNat + 1) ∧
      (let s := { abraDecode with cur := { abraDecode.cur with dstCap := 10 } };
        s.ChecksPass .hufDecode ∧ s.cur.dstCap.toNat < s.cur.origSize.toNat) ∧
      (let s := { lzwCodes with cur := { lzwCodes.cur with dstCap := 3 } };
        s.ChecksPass (.lzwDecode false) ∧ s.cur.dstCap.toNat < s.cur.origSize.toNat) := by decide +kernel

theorem witness_SoftResetClears :
    ∃ t u, exec .softReset writer101 = .next t ∧ exec .softReset t = .next u := ⟨_, _, rfl, rfl⟩

/-- An instance whose kept registers hold their reset values, with a tree and a partial byte. -/
theorem witness_SoftResetLikeReset :
    let s := onReset [] fun b => { b with treeValid := true, bwOpen := true, bwAcc := 5, bwCnt := 3, dstLen := 2 };
    (∃ t, exec .softReset s = .next t) ∧ s.cur.inReset = false ∧ s.cur.status.werr = false ∧ s.cur.irqEn = false ∧
      s.cur.srcAddr = 0 ∧ s.cur.srcLen = 0 ∧ s.cur.dstAddr = 0 ∧ s.cur.dstCap = 0 ∧ s.cur.metaAddr = 0 ∧
      s.cur.origSize = 0 ∧ s.cur.codeCount = 0 ∧ s.cur.bwData = 0 :=
  ⟨⟨_, rfl⟩, rfl, rfl, rfl, rfl, rfl, rfl, rfl, rfl, rfl, rfl, rfl⟩

/-- A put that completes no byte, with no capacity; one of 64 bits that fills DST_CAP. -/
theorem witness_BwPutAppends :
    (let s := { writer101 with cur := { writer101.cur with dstCap := 0 } };
      s.cur.bwOpen = true ∧ s.ChecksPass (.bwPut 4) ∧ s.cur.bwAcc.toNat < 2 ^ s.cur.bwCnt.toNat ∧
        (s.cur.bwCnt.toNat + (4 : BitVec 7).toNat) / 8 = 0) ∧
      (let s := { writer101 with cur := { writer101.cur with dstCap := 8 } };
        s.cur.bwOpen = true ∧ s.ChecksPass (.bwPut 64) ∧ s.cur.bwAcc.toNat < 2 ^ s.cur.bwCnt.toNat ∧
          s.cur.dstLen.toNat + (s.cur.bwCnt.toNat + (64 : BitVec 7).toNat) / 8 ≤ s.cur.dstCap.toNat) := by decide +kernel

theorem witness_BwFinishFlushes :
    (let s := { writer101 with cur := { writer101.cur with dstCap := 1 } };
      s.cur.bwOpen = true ∧ s.ChecksPass .bwFinish ∧ s.cur.bwAcc.toNat < 2 ^ s.cur.bwCnt.toNat ∧ s.cur.bwCnt ≠ 0 ∧
        s.cur.dstLen.toNat + 1 ≤ s.cur.dstCap.toNat) ∧
      (let s := { writer101 with cur := { writer101.cur with dstCap := 0, bwAcc := 0, bwCnt := 0 } };
        s.cur.bwOpen = true ∧ s.ChecksPass .bwFinish ∧ s.cur.bwAcc.toNat < 2 ^ s.cur.bwCnt.toNat ∧ s.cur.bwCnt = 0) := by
  decide +kernel

/-- All eight bits of a one-byte source; one bit too many. -/
theorem witness_BrGetReads :
    readerA0.ChecksPass (.brGet 8) ∧ (8 : BitVec 7).toNat ≤ readerA0.unread.length ∧ readerA0.ChecksPass (.brGet 9) ∧
      readerA0.unread.length < (9 : BitVec 7).toNat := by decide +kernel

/-- The codeword of 'c', then three bits of BW_DATA, in one byte; its 7 bits read as 4 and 3. -/
theorem witness_WriterStreamRoundTrip :
    abraTree.mem.wf = true ∧ abraTree.cur.status.err = false ∧
      (∀ c ∈ [(Instr.hufPutSym 0x63, (0 : Word)), (.bwPut 3, 5)], (∃ n, c.1 = .bwPut n) ∨ ∃ sym, c.1 = .hufPutSym sym) ∧
      (∃ s₁ s₂ s₃ u₁, exec .bwInit abraTree = .next s₁ ∧
        runAll [(.hufPutSym 0x63, 0), (.bwPut 3, 5)] s₁ = some s₂ ∧ exec .bwFinish s₂ = .next s₃ ∧
        s₃.cur.status.err = false ∧
        (let u := { s₃ with cur := { s₃.cur with srcAddr := s₃.cur.dstAddr, srcLen := s₃.cur.dstLen } };
          u.cur.status.err = false ∧ exec .brInit u = .next u₁)) ∧
      (appendedStream abraTree.cur.codeTable [(.hufPutSym 0x63, 0), (.bwPut 3, 5)]).length = 7 ∧
      (([4, 3] : List (BitVec 7)).map BitVec.toNat).sum = 7 := by
  refine ⟨by decide +kernel, by decide, ?_, ⟨_, _, _, _, rfl, rfl, rfl, rfl, by decide, rfl⟩, by decide +kernel,
    by decide⟩
  intro c hc
  fin_cases hc
  · exact .inr ⟨_, rfl⟩
  · exact .inl ⟨_, rfl⟩

theorem witness_PopMinTakesLeast : [HufTree.leaf 0x61 1, HufTree.leaf 0x62 1] ≠ [] := by simp

theorem witness_TreeHasEachSymbolOnce : ∃ root, buildTree abraFreq = some root :=
  Option.isSome_iff_exists.1 (by decide +kernel)

/-- A table of one symbol and a table of two. -/
theorem witness_CodewordsFormPrefixCode :
    (let f := FreqTable.zero.set 0x5A 1000;
      FreqTable.count f 0x5A ≠ 0 ∧ nleaves f = 1) ∧
      (let f := (FreqTable.zero.set 0x61 1).set 0x62 1;
        FreqTable.count f 0x61 ≠ 0 ∧ 2 ≤ nleaves f ∧
          codeOf (codeTable (buildTree f)) 0x61 <+: codeOf (codeTable (buildTree f)) 0x61) := by
  refine ⟨by decide +kernel, by decide +kernel, by decide +kernel, List.prefix_refl _⟩

/-- 2^32 bytes of 0, the source of 95_test_vectors L2.6 that no table can count. -/
def zeros : State :=
  onReset [] fun b =>
    { b with srcAddr := 0, srcLen := 0x100000000, metaAddr := 0x200000000, dstAddr := 0x300000000, dstCap := 0x300000000 }

theorem zeros_count : 2 ^ 32 ≤ zeros.srcBytes.count 0 := by
  have h : ∀ n a, Memory.readBytes [] a n = List.replicate n 0 := by
    intro n
    induction n with
    | zero => intro a; rfl
    | succ n ih => intro a; rw [Memory.readBytes, ih, List.replicate_succ]; rfl
  have hz : zeros.srcBytes = List.replicate zeros.cur.srcLen.toNat 0 := h _ _
  rw [hz, List.count_replicate_self]
  decide

theorem abraSource_counts (sym : Byte) : abraSource.srcBytes.count sym < 2 ^ 32 :=
  lt_of_le_of_lt List.count_le_length (by rw [State.srcBytes, Memory.length_readBytes]; decide +kernel)

theorem witness_HufCountTable :
    abraSource.ChecksPass .hufCount ∧ (∀ sym : Byte, abraSource.srcBytes.count sym < 2 ^ 32) ∧
      abraSource.mem.wf = true ∧ zeros.ChecksPass .hufCount ∧ ∃ sym : Byte, 2 ^ 32 ≤ zeros.srcBytes.count sym :=
  ⟨by decide +kernel, abraSource_counts, by decide +kernel, by decide +kernel, 0, zeros_count⟩

theorem witness_HufLoadFreqReads : abraDecode.ChecksPass .hufLoadFreq := by decide +kernel

theorem witness_HufBuildValid : ∃ t, exec .hufBuild abraDecode = .next t := ⟨_, rfl⟩

theorem witness_HufCodeLooksUp :
    abraTree.cur.treeValid = true ∧ abraTree.cur.freq.count 0x63 ≠ 0 ∧ abraTree.cur.freq.count 0x7A = 0 := by
  decide +kernel

/-- 'a' completes no byte; 'c' after four bits completes one, with capacity and without; 'z' has no codeword. -/
theorem witness_HufPutSymAppends :
    (let s := { abraTree with cur := { abraTree.cur with bwAcc := 0xA, bwCnt := 4, dstCap := 1 } };
      s.cur.treeValid = true ∧ s.cur.bwOpen = true ∧ s.ChecksPass (.hufPutSym 0x63) ∧
        s.cur.bwAcc.toNat < 2 ^ s.cur.bwCnt.toNat ∧
        (s.cur.partialBits ++ codeOf s.cur.codeTable 0x61).length / 8 = 0 ∧ s.cur.freq.count 0x61 ≠ 0 ∧
        (s.cur.partialBits ++ codeOf s.cur.codeTable 0x63).length / 8 = 1 ∧ s.cur.freq.count 0x63 ≠ 0 ∧
        s.cur.dstLen.toNat + 1 ≤ s.cur.dstCap.toNat ∧ s.cur.freq.count 0x7A = 0) ∧
      (let s := { abraTree with cur := { abraTree.cur with bwAcc := 0xA, bwCnt := 4, dstCap := 0 } };
        s.cur.treeValid = true ∧ s.cur.bwOpen = true ∧ s.ChecksPass (.hufPutSym 0x63) ∧
          s.cur.bwAcc.toNat < 2 ^ s.cur.bwCnt.toNat ∧ s.cur.dstCap.toNat < s.cur.dstLen.toNat + 1) := by decide +kernel

/-- The single symbol 'Z' with no source; the payload of "abracadabra" from its first bit. -/
theorem witness_HufGetSymDecodes :
    (let s := onReset [] fun b => { b with treeValid := true, freq := FreqTable.zero.set 0x5A 1000 };
      s.cur.treeValid = true ∧ s.ChecksPass .hufGetSym ∧ s.cur.freq.count 0x5A ≠ 0 ∧ nleaves s.cur.freq = 1) ∧
      abraTree.cur.treeValid = true ∧ abraTree.ChecksPass .hufGetSym ∧ abraTree.cur.freq.count 0x61 ≠ 0 ∧
      2 ≤ nleaves abraTree.cur.freq ∧
      (codeOf abraTree.cur.codeTable 0x61).isPrefixOf abraTree.unread = true := by decide +kernel

/-- The null tree; a tree of two leaves and no source. -/
theorem witness_HufGetSymFaults :
    (let s := onReset [] fun b => { b with treeValid := true };
      s.cur.treeValid = true ∧ s.ChecksPass .hufGetSym ∧ ∀ sym : Byte, s.cur.freq.count sym = 0) ∧
      (let s := onReset [] fun b => { b with treeValid := true, freq := (FreqTable.zero.set 0x61 1).set 0x62 1 };
        s.cur.treeValid = true ∧ s.ChecksPass .hufGetSym ∧ 2 ≤ nleaves s.cur.freq ∧
          ∀ sym : Byte, s.cur.freq.count sym ≠ 0 → ¬codeOf s.cur.codeTable sym <+: s.unread) := by
  refine ⟨⟨rfl, by decide +kernel, FreqTable.count_zero⟩, rfl, by decide +kernel, by decide +kernel, fun sym hs => ?_⟩
  have hu : State.unread (onReset [] fun b =>
      { b with treeValid := true, freq := (FreqTable.zero.set 0x61 1).set 0x62 1 }) = [] := by decide +kernel
  simp only [onReset, State.reset, State.resetOn] at hs hu ⊢
  rw [hu, List.prefix_nil]
  have h₁ := FreqTable.count_set (FreqTable.zero.set 0x61 1) 0x62 sym 1
  have h₂ := FreqTable.count_set FreqTable.zero 0x61 sym 1
  have hcase : sym = 0x61 ∨ sym = 0x62 := by
    by_contra hc
    rw [not_or] at hc
    rw [if_neg hc.2] at h₁
    rw [if_neg hc.1, FreqTable.count_zero] at h₂
    exact hs (h₁.trans h₂)
  rcases hcase with rfl | rfl <;> decide +kernel

/-- The 23 bits of "abracadabra" in 3 bytes, and in 2. -/
theorem witness_HufEncodeWritesPayload :
    { abraSource with cur := { abraSource.cur with dstCap := 2 } }.ChecksPass .hufEncode ∧
      { abraSource with cur := { abraSource.cur with dstCap := 3 } }.ChecksPass .hufEncode ∧
      (∀ sym : Byte, abraSource.srcBytes.count sym < 2 ^ 32) ∧
      (payload (codeTable (buildTree abraFreq)) abraSource.srcBytes).length = 23 ∧
      zeros.ChecksPass .hufEncode ∧ ∃ sym : Byte, 2 ^ 32 ≤ zeros.srcBytes.count sym :=
  ⟨by decide +kernel, by decide +kernel, abraSource_counts, by decide +kernel, by decide +kernel, 0, zeros_count⟩

/-- "abracadabra" from its payload; one symbol from a table of one symbol; no symbol. -/
theorem witness_HufDecodeWritesSymbols :
    (let s := abraDecode;
      let f := s.mem.readFreq 0x2000;
      s.ChecksPass .hufDecode ∧ (∀ sym : Byte, (f.count sym).toNat = s.mem.readLE (s.cur.metaAddr.toNat + 4 * sym.toNat) 4) ∧
        s.cur.origSize.toNat ≤ s.cur.dstCap.toNat ∧ abracadabra.length = s.cur.origSize.toNat ∧
        (abracadabra.all fun sym => f.count sym ≠ 0) = true ∧ 2 ≤ nleaves f ∧
        (payload (codeTable (buildTree f)) abracadabra).isPrefixOf (streamBits s.srcBytes) = true) ∧
      (let s := onReset [(0x2168, 1)] fun b => { b with metaAddr := 0x2000, dstAddr := 0x3000, dstCap := 1, origSize := 1 };
        let f := s.mem.readFreq 0x2000;
        s.ChecksPass .hufDecode ∧ s.cur.origSize.toNat ≤ s.cur.dstCap.toNat ∧ [(0x5A : Byte)].length = s.cur.origSize.toNat ∧
          f.count 0x5A ≠ 0 ∧ nleaves f = 1) ∧
      (let s := { abraDecode with cur := { abraDecode.cur with origSize := 0, dstCap := 0 } };
        s.ChecksPass .hufDecode ∧ s.cur.origSize.toNat ≤ s.cur.dstCap.toNat ∧
          ([] : List Byte).length = s.cur.origSize.toNat ∧ 2 ≤ nleaves (s.mem.readFreq 0x2000) ∧
          (payload (codeTable (buildTree (s.mem.readFreq 0x2000))) []).isPrefixOf (streamBits s.srcBytes) = true) := by
  exact ⟨⟨by decide +kernel, FreqTable.count_readFreq _ _, by decide +kernel, by decide +kernel, by decide +kernel,
    by decide +kernel, by decide +kernel⟩, by decide +kernel, by decide +kernel⟩

/-- The null tree; the first eight bits of the payload of "abracadabra", which hold four codewords and one bit of the next. -/
theorem witness_HufDecodeFaults :
    (let s := onReset [] fun b => { b with metaAddr := 0x2000, dstAddr := 0x3000, dstCap := 4, origSize := 1 };
      s.ChecksPass .hufDecode ∧ s.cur.origSize.toNat ≤ s.cur.dstCap.toNat ∧ ([] : List Byte).length < s.cur.origSize.toNat ∧
        nleaves (s.mem.readFreq 0x2000) = 0) ∧
      (let s := { abraDecode with cur := { abraDecode.cur with srcLen := 1 } };
        let f := s.mem.readFreq 0x2000;
        let syms := abracadabra.take 4;
        s.ChecksPass .hufDecode ∧ s.cur.origSize.toNat ≤ s.cur.dstCap.toNat ∧ syms.length < s.cur.origSize.toNat ∧
          2 ≤ nleaves f ∧ (syms.all fun sym => f.count sym ≠ 0) = true ∧
          streamBits s.srcBytes = payload (codeTable (buildTree f)) syms ++ [true] ∧
          ∀ sym : Byte, f.count sym ≠ 0 → (codeOf (codeTable (buildTree f)) sym).isPrefixOf [true] = false) := by
  decide +kernel

/-- The state of the decoder that takes the encoder's outputs as its inputs. -/
def decodeOf (t : State) : State :=
  { t with cur := { t.cur with srcAddr := t.cur.dstAddr, srcLen := t.cur.dstLen, dstAddr := 0x4000, dstCap := 16 } }

theorem witness_HuffmanRoundTrip :
    abraSource.mem.wf = true ∧ abraSource.cur.status.err = false ∧
      ∃ t, exec .hufEncode abraSource = .next t ∧
        (!t.cur.status.err && decide ((decodeOf t).ChecksPass .hufDecode) &&
          decide ((decodeOf t).cur.origSize.toNat ≤ (decodeOf t).cur.dstCap.toNat)) = true :=
  ⟨by decide +kernel, by decide +kernel, (holdsNext_iff _ _).1 (by decide +kernel)⟩

/-- "aaaa" with room for its three codes, and for one code and a byte. -/
theorem witness_LzwEncodeWritesCodes :
    { lzwSource with cur := { lzwSource.cur with dstCap := 3 } }.ChecksPass .lzwEncode ∧
      { lzwSource with cur := { lzwSource.cur with dstCap := 6 } }.ChecksPass .lzwEncode ∧
      lzwEncode lzwSource.srcBytes = ([97, 256, 97], 258) := by decide +kernel

/-- "aaaa" has codes, and strings, that follow one another. -/
theorem witness_LzwCodesBounded :
    ([0x61, 0x61, 0x61, 0x61] : List Byte) ≠ [] ∧ (lzwEncode [0x61, 0x61, 0x61, 0x61]).1[0]? = some 97 ∧
      (lzwEncode [0x61, 0x61, 0x61, 0x61]).1[1]? = some 256 := by decide +kernel

/-- "aaaa" wanted whole, and its first three bytes. -/
theorem witness_LzwDecodeWritesBytes :
    ∀ n ∈ [3, 4],
      (let s := { lzwCodes with cur := { lzwCodes.cur with origSize := BitVec.ofNat 64 n, dstCap := 4 } };
        s.ChecksPass (.lzwDecode false) ∧ s.ChecksPass (.lzwDecode true) ∧
          lzwDecode (s.mem.readCodes s.cur.srcAddr.toNat s.cur.codeCount.toNat) = ([0x61, 0x61, 0x61, 0x61], none) ∧
          s.cur.origSize.toNat ≤ s.cur.dstCap.toNat ∧ s.cur.origSize.toNat ≤ [0x61, 0x61, 0x61, 0x61].length) := by
  decide +kernel

/-- Codes of single bytes until the dictionary is full, then its counter, 4096, are all valid. -/
theorem fullDictionary (n : Nat) (d : Dict) (cur : List Byte) (i : Nat) (h₁ : 4096 ≤ d.next + n) (h₂ : d.next ≤ 4096) :
    (lzwDecodeFrom d cur i (List.replicate n 0 ++ [4096])).2 = none := by
  induction n generalizing d cur i with
  | zero =>
    have hn : d.next = 4096 := by omega
    have he : d.entry 4096 = none := by
      rw [Dict.entry, if_neg (by decide), List.getElem?_eq_none]
      simp only [Dict.next, Config.lzwInit] at hn ⊢
      omega
    rw [List.replicate_zero, List.nil_append, lzwDecodeFrom, he, hn]
    rfl
  | succ n ih =>
    have he : d.entry 0 = some [0] := rfl
    rw [List.replicate_succ, List.cons_append, lzwDecodeFrom, he]
    refine ih _ _ _ ?_ ?_ <;> rcases d.grow_cases (cur ++ [0].take 1) with ⟨h, e⟩ | ⟨h, e⟩ <;> simp only [e] <;>
      simp only [Dict.next, List.length_append, List.length_singleton] at * <;> omega

theorem lastCode (n c : Nat) : (0 :: (List.replicate n 0 ++ [c]))[n + 1]? = some c := by
  rw [List.getElem?_cons_succ, List.getElem?_append_right (by simp), List.length_replicate, Nat.sub_self]
  rfl

theorem manyZeros (n : Nat) (h : 3840 ≤ n) : (lzwDecode (0 :: (List.replicate n 0 ++ [4096]))).2 = none := by
  have he : Dict.entry [] 0 = some [0] := rfl
  rw [lzwDecode, he]
  refine fullDictionary n [] [0] 1 ?_ (by decide)
  have : Dict.next [] = 256 := rfl
  omega

/-- A first code of 256; the code 256 after 97, which is the counter, and 257, which is above it; the code 4096 where the
dictionary is full. -/
theorem witness_LzwDecode_codes :
    [256][0]? = some 256 ∧ (lzwDecode [256]).2 = some (0, 256) ∧ [97, 256][1]? = some (min 4096 (255 + 1)) ∧
      (lzwDecode [97, 256]).2 = none ∧ [97, 257][1]? = some 257 ∧ min 4096 (255 + 1) < 257 ∧
      (lzwDecode [97, 257]).2 = some (1, 257) ∧ (0 :: (List.replicate 3840 0 ++ [4096]))[3841]? = some (min 4096 (255 + 3841)) ∧
      (lzwDecode (0 :: (List.replicate 3840 0 ++ [4096]))).2 = none := by
  exact ⟨by decide, by decide, by decide, by decide, by decide, by decide, by decide, lastCode 3840 4096,
    manyZeros 3840 (by decide)⟩

/-- The code 257 after 97 (95_test_vectors L2.8); five bytes wanted of four; three wanted of four. -/
theorem witness_LzwDecodeFaults :
    (let s := { lzwCodes with mem := place 0x1000 [0x61, 0, 1, 1], cur := { lzwCodes.cur with codeCount := 2 } };
      s.ChecksPass (.lzwDecode false) ∧ s.cur.origSize.toNat ≤ s.cur.dstCap.toNat ∧
        lzwDecode (s.mem.readCodes s.cur.srcAddr.toNat s.cur.codeCount.toNat) = ([0x61], some (1, 257))) ∧
      ∀ n ∈ [3, 5],
        (let s := { lzwCodes with cur := { lzwCodes.cur with origSize := BitVec.ofNat 64 n } };
          s.ChecksPass (.lzwDecode true) ∧ s.cur.origSize.toNat ≤ s.cur.dstCap.toNat ∧
            lzwDecode (s.mem.readCodes s.cur.srcAddr.toNat s.cur.codeCount.toNat) = ([0x61, 0x61, 0x61, 0x61], none)) := by
  decide +kernel

theorem witness_LzwRoundTrip :
    lzwSource.mem.wf = true ∧ lzwSource.cur.status.err = false ∧
      ∃ t, exec .lzwEncode lzwSource = .next t ∧
        (!t.cur.status.err && decide ((decodeOf t).ChecksPass (.lzwDecode true)) &&
          decide ((decodeOf t).cur.origSize.toNat ≤ (decodeOf t).cur.dstCap.toNat)) = true :=
  ⟨by decide +kernel, by decide +kernel, (holdsNext_iff _ _).1 (by decide +kernel)⟩

theorem witness_InterruptLine :
    (State.reset.cur.complete.status.done = true ∨ State.reset.cur.complete.status.err = true) ∧
      (1 : Word).getLsbD 0 = true ∧ (6 : Word).getLsbD 1 = true ∧ (6 : Word).getLsbD 2 = true ∧
      (2 : Word).getLsbD 0 = false ∧ (onReset [] fun b => { b with irqEn := true }).cur.irqEn = true := by decide +kernel

/-- A host write to the last byte of META of the HUF_LOAD_FREQ of the second of two instances, and to the byte after it; a
marked HUF_COUNT that shares its first source byte. -/
theorem witness_HostRaceIsDraw :
    (∀ a ∈ [0x3FF, 0x400],
      let s := { twoBlocks with turns := [Turn.host (.memWr a 0x7A)] };
      s.turns = .host (.memWr a 0x7A) :: [] ∧ a < 2 ^ 64 ∧ (∀ b ∈ s.blocks, b.window.has a = false) ∧
        (∀ d ∈ s.platform.devices, d.has a = false) ∧
        s.blocks[1]? = some ((Block.reset 0xFFFF000000000100).submit 0x11)) ∧
      (let b := (Block.reset 0xFFFF000000000100).submit 0x11;
        b.pending = some 0x11 ∧ decode 0x11 = .ok .hufLoadFreq ∧
          (∃ r ∈ b.regions .hufLoadFreq, r.range.has 0x3FF = true) ∧
          ∀ r ∈ b.regions .hufLoadFreq, r.range.has 0x400 = false) ∧
      (let t := sharing abraSource 0x10 [{ base := 0x1000, len := 1 }];
        let s := { t with cur := { t.cur with track := { t.cur.track with raced := true } } };
        s.mem.wf = true ∧ s.cur.pending = some 0x10 ∧ decode 0x10 = .ok .hufCount ∧ s.cur.track.raced = true ∧
          checkRegions s.denied s.platform.devices (s.cur.regions .hufCount) ≠ .refuse ∧
          (∃ r ∈ s.cur.regions .hufCount, r.write = true ∧ r.range.has 0x23FF = true) ∧
          (∃ q ∈ s.cur.track.shared, q.has 0x1000 = true) ∧
          (∀ a ∈ [0x1001, 0x2400], (∀ r ∈ s.cur.regions .hufCount, r.write = true → r.range.has a = false) ∧
            ∀ q ∈ s.cur.track.shared, q.has a = false) ∧
          Output.freq 0x61 ∈ outputs .hufCount ∧ Output.brByte ∉ outputs .hufCount) := by decide +kernel

/-- Host reads of the last byte of META of a pending HUF_COUNT, and of the byte after it; an idle instance. -/
theorem witness_HostMemoryReads :
    (∀ a ∈ [0x23FF, 0x2400],
      let s := { abraSource.withPending 0x10 with turns := [Turn.host (.memRd a)] };
      s.turns = .host (.memRd a) :: [] ∧ a < 2 ^ 64 ∧ (∀ b ∈ s.blocks, b.window.has a = false) ∧
        (∀ d ∈ s.platform.devices, d.has a = false) ∧
        (if a = 0x23FF then ∃ b ∈ s.blocks, ∃ r ∈ b.track.unseen, r.has a = true
          else ∀ b ∈ s.blocks, ∀ r ∈ b.track.unseen, r.has a = false)) ∧
      decode 0x10 = .ok .hufCount ∧ (∃ r ∈ abraSource.cur.regions .hufCount, r.write = true) ∧
      abraSource.cur.inReset = false ∧ abraSource.cur.status.busy = false := by decide +kernel

theorem witness_BadAccessRefused :
    (4 ≠ 8 ∨ 0x10 % 8 ≠ 0) ∧ (8 ≠ 8 ∨ 0x14 % 8 ≠ 0) ∧
      (∃ b ∈ State.reset.blocks, b.window.has 0xFFFF000000000000 = true) ∧
      ∃ b ∈ State.reset.blocks, b.window.has 0xFFFF0000000000FF = true := by decide +kernel

/-- Instance 1 reads META at 0 while instance 0 accepts HUF_COUNT, which writes META at 0, and the other way round; two
HUF_LOAD_FREQs of the same META do not clash. -/
theorem witness_InstanceRaces :
    let o := (Block.reset 0xFFFF000000000100).submit 0x11;
    o ∈ twoBlocks.after ∧ o.pending = some 0x11 ∧ decode 0x11 = .ok .hufLoadFreq ∧ decode 0x10 = .ok .hufCount ∧
      (∃ p ∈ twoBlocks.cur.regions .hufCount, ∃ q ∈ o.regions .hufLoadFreq,
        RegionsClash p q ∧ p.write = true ∧ q.write = false ∧ p.range.has 0x3FF = true ∧ q.range.has 0x3FF = true) ∧
      (∃ p ∈ twoBlocks.cur.regions .hufLoadFreq, ∃ q ∈ o.regions .hufCount,
        RegionsClash p q ∧ p.write = false ∧ q.write = true) ∧
      (∀ o ∈ twoBlocks.before ++ twoBlocks.after, ∀ q ∈ o.atStake, ∀ p ∈ twoBlocks.cur.regions .hufLoadFreq,
        ¬RegionsClash p q) :=
  ⟨by simp [twoBlocks], rfl, by decide, by decide, by decide +kernel, by decide +kernel, by decide +kernel⟩

/-- A HUF_COUNT whose first source byte is shared, its source in another memory that differs there. -/
theorem witness_SharedBytesDrawn :
    let s := sharing abraSource 0x10 [{ base := 0x1000, len := 1 }];
    s.mem.wf = true ∧ s.cur.pending = some 0x10 ∧ decode 0x10 = .ok .hufCount ∧ s.cur.track.raced = false ∧
      s.cur.track.shared ≠ [] ∧
      (∀ r ∈ s.cur.regions .hufCount, ∀ d ∈ s.platform.devices, d.overlaps r.range = false) ∧
      (∃ c ∈ s.cur.track.shared, c.has 0x1000 = true) ∧ (s.mem.write 0x1000 0x7A).wf = true ∧
      (∀ a, (∀ r ∈ s.cur.track.shared, r.has a = false) → (s.mem.write 0x1000 0x7A).read a = s.mem.read a) ∧
      (∃ t, exec .hufCount { s with mem := s.mem.write 0x1000 0x7A } = .next t) ∧ s.ChecksPass .hufCount ∧
      (∃ q ∈ s.cur.track.shared, q.overlaps s.cur.srcRegion.range = true) ∧ s.cur.srcLen.toNat < 2 ^ 32 := by
  refine ⟨by decide +kernel, rfl, by decide, rfl, by decide, by decide, by decide, by decide +kernel, fun a ha => ?_,
    ((holdsNext_iff _ fun _ => true).1 (by decide +kernel)).imp fun _ h => h.1, by decide +kernel, by decide +kernel,
    by decide +kernel⟩
  refine Memory.read_write_other _ _ fun h => ?_
  rw [h] at ha
  simpa [Range.has] using ha { base := 0x1000, len := 1 } (by simp [sharing])

/-- `abraSource` with room for `n` bytes, its first source byte shared. -/
def abraRoom (n : Nat) : State :=
  sharing { abraSource with cur := { abraSource.cur with dstCap := BitVec.ofNat 64 n } } 0x16 [{ base := 0x1000, len := 1 }]

/-- The other clauses: a HUF_GET_SYM without a tree, one with regions that pass 2^64, regions that no shared byte meets, a
BR_GET, a HUF_LOAD_FREQ with a shared byte of META, a HUF_DECODE with none, a LZW_ENCODE with room for all its codes and one
with room for none, HUF_ENCODEs with room for every payload and for none. -/
theorem witness_SharedBytesDrawn_named :
    (let s := sharing abraSource 0x10 [{ base := 0x2000, len := 1 }];
      ∀ r ∈ s.cur.regions .hufCount, r.write = false → ∀ q ∈ s.cur.track.shared, q.overlaps r.range = false) ∧
      (let s := sharing abraTree 0x90039 [{ base := 0x1001, len := 1 }];
        (9 : BitVec 7).toNat ≤ 64 ∧ s.ChecksPass (.brGet 9) ∧ (9 : BitVec 7).toNat ≤ s.cur.avail ∧ s.cur.faultInfo = 0 ∧
          ∃ q ∈ s.cur.track.shared, q.has (s.cur.srcAddr.toNat + (s.cur.streamPos + 8) / 8) = true) ∧
      (let s := sharing abraSource 0x11 [{ base := 0x23FF, len := 1 }];
        s.ChecksPass .hufLoadFreq ∧ ∃ q ∈ s.cur.track.shared, q.has (s.cur.metaAddr.toNat + 4 * 255 + 3) = true) ∧
      (let s := sharing abraDecode 0x17 [{ base := 0x1002, len := 1 }];
        ∀ q ∈ s.cur.track.shared, q.overlaps (s.cur.metaRegion false).range = false) ∧
      2 * lzwSource.cur.srcLen.toNat ≤ lzwSource.cur.dstCap.toNat ∧ (abraRoom 1).cur.dstCap.toNat < 2 ∧
      abraSource.cur.prereqFault .hufGetSym = some .hufNoTree ∧
      ¬State.ChecksPass { abraTree with cur := { abraTree.cur with srcLen := 0xFFFFFFFFFFFFFFFF } } .hufGetSym ∧
      (∀ n ∈ [351, 1], (abraRoom n).ChecksPass .hufEncode ∧ (abraRoom n).cur.srcLen.toNat < 2 ^ 32 ∧
        ∃ q ∈ (abraRoom n).cur.track.shared, q.overlaps (abraRoom n).cur.srcRegion.range = true) ∧
      255 * (abraRoom 351).cur.srcLen.toNat ≤ 8 * (abraRoom 351).cur.dstCap.toNat ∧
      8 * (abraRoom 1).cur.dstCap.toNat < (abraRoom 1).cur.srcLen.toNat := by decide +kernel

/-- What is computed from a shared byte, by hand: nothing of a BR_GET that takes no bit from it, BR_DATA of one that does; of an
LZW_DECODE of one code, its low byte shared, the byte written, and DST_LEN is 1 whatever it is. -/
theorem test_computedFromShared :
    (sharing abraTree 0x80039 [{ base := 0x1001, len := 1 }]).computedFromShared (.brGet 8) = { outs := [], bytes := [] } ∧
      (sharing abraTree 0x90039 [{ base := 0x1001, len := 1 }]).computedFromShared (.brGet 9) =
        { outs := [.brData], bytes := [] } ∧
      (sharing { lzwCodes with cur := { lzwCodes.cur with codeCount := 1, origSize := 1, dstCap := 1 } } 0x21
          [{ base := 0x1000, len := 1 }]).computedFromShared (.lzwDecode false) =
        { outs := [], bytes := [{ base := 0x2000, len := 1 }] } := by decide +kernel

/-- HUF_GET_SYM of the last bit of a shared byte, by hand: with the tree of "abracadabra" it is 'a' or the end of the stream
(41_huffman R181); with four codewords of 2 bits it is the end of the stream whatever the bit is. -/
theorem test_computedFromShared_certain :
    let four : FreqTable := (((FreqTable.zero.set 1 1).set 2 1).set 3 1).set 4 1;
    let last := fun (f : FreqTable) =>
      sharing { abraTree with cur := { abraTree.cur with freq := f, srcLen := 1, brBit := 7 } } 0x15
        [{ base := 0x1000, len := 1 }];
    (last abraFreq).computedFromShared .hufGetSym =
        { outs := [.ending, .faultCode, .brByte, .brBit, .symOut], bytes := [] } ∧
      (last four).computedFromShared .hufGetSym = { outs := [], bytes := [] } := by decide +kernel

theorem witness_WaitRunsEngine :
    { State.reset.withPending 0 with turns := [Turn.host (.wait 0)] }.turns = .host (.wait State.reset.before.length) :: [] ∧
      (State.reset.withPending 0).cur.status.busy = true ∧ State.reset.cur.status.busy = false ∧
      State.reset.cur.inReset = false := by decide +kernel

end Sys2Proof.Tests
end

section
/-! The host's write of a register while a block is idle or busy, the state after reset, and the statements O6, O10 and O11
(10_state R52, R54, R63). -/

namespace Sys2Proof.Machine

/-! ### The words the decoder accepts (30_encoding R117) -/

section DecoderFormats

variable {w : Word} {i : Instr}

/-- Format A is read without operands: the bits above the opcode are 0 (30_encoding R111). -/
theorem legalWord_of_formatA {j : Instr}
    (hop : (opcode w).toNat ∈ [0x00, 0x01, 0x10, 0x11, 0x12, 0x15, 0x16, 0x17, 0x20, 0x30, 0x32, 0x38])
    (h : formatA w j = .ok i) : LegalWord w := by
  unfold formatA at h
  split at h
  · next hzero => exact .inl ⟨by simpa [← BitVec.toNat_inj] using hop, hzero⟩
  · cases h

/-- Format L leaves bit 8 to STRICT (30_encoding R112). -/
theorem legalWord_of_formatL {mk : Bool → Instr} (hop : (opcode w).toNat = 0x21) (h : formatL w mk = .ok i) :
    LegalWord w := by
  unfold formatL at h
  split at h
  · next hzero => exact .inr (.inl ⟨BitVec.eq_of_toNat_eq hop, hzero⟩)
  · cases h

/-- Format N is the one whose operand is checked: the count is 1 to 64 (30_encoding R113). -/
theorem legalWord_of_formatN {mk : BitVec 7 → Instr} (hop : (opcode w).toNat ∈ [0x31, 0x39])
    (h : formatN w mk = .ok i) : LegalWord w := by
  unfold formatN at h
  split at h
  · next hzero =>
    split at h
    · next hcount =>
      have hrange : 1 ≤ (fieldN w).toNat ∧ (fieldN w).toNat ≤ 64 := by
        simpa only [countLegal, Bool.and_eq_true, decide_eq_true_eq] using hcount
      exact .inr (.inr (.inl ⟨by simpa [← BitVec.toNat_inj] using hop, hzero.1, hzero.2, hrange⟩))
    · cases h
  · cases h

/-- Format S carries any symbol (30_encoding R114). -/
theorem legalWord_of_formatS {mk : Byte → Instr} (hop : (opcode w).toNat ∈ [0x13, 0x14])
    (h : formatS w mk = .ok i) : LegalWord w := by
  unfold formatS at h
  split at h
  · next hzero => exact .inr (.inr (.inr ⟨by simpa [← BitVec.toNat_inj] using hop, hzero⟩))
  · cases h

/-- `Decode` accepts legal words only: each row of the opcode map reads the format its opcode has. -/
theorem legalWord_of_decode_ok (h : decode w = .ok i) : LegalWord w := by
  simp only [decode] at h
  split at h <;> rename_i hop
  case h_6 | h_7 => exact legalWord_of_formatS (by simp [hop]) h
  case h_12 => exact legalWord_of_formatL hop h
  case h_14 | h_17 => exact legalWord_of_formatN (by simp [hop]) h
  case h_18 => cases h
  all_goals exact legalWord_of_formatA (by simp [hop]) h

theorem decode_error_of_not_legalWord (h : ¬LegalWord w) : ∃ e, decode w = .error e := by
  cases hd : decode w with
  | error e => exact ⟨e, rfl⟩
  | ok i => exact absurd (legalWord_of_decode_ok hd) h

end DecoderFormats

/-! ### The turn of a host write (10_state R33, R34) -/

/-- A turn that writes 8 aligned bytes of the current block's registers is `hostWrite`. -/
theorem step_hostWrite {s : State} {off : Nat} {v : Word} {rest : List Turn}
    (hturn : s.turns = .host (.wr s.before.length off 8 v) :: rest) (halign : off % 8 = 0) (hoff : off < 256) :
    step s = .next ({ s with turns := rest }.hostWrite off v) := by
  have hok : accessOk off 8 = true := by simp [accessOk, halign, hoff, Config.mmioSize]
  simp only [step, State.takeTurn, hturn, State.hostOp, hok, if_true]
  exact State.on_self { s with turns := rest } fun t => .next (t.hostWrite off v)

/-- While BUSY is 1 a write is judged by the register it names (10_state R54). -/
theorem State.hostWrite_of_busy {s : State} (hreset : s.cur.inReset = false) (hbusy : s.cur.status.busy = true)
    (off : Nat) (v : Word) : s.hostWrite off v = { s with cur := s.cur.writeBusy v (regAt off) } := by
  simp [State.hostWrite, hreset, hbusy]

/-- While BUSY is 0 a write of CMD is an acceptance (10_state R52). -/
theorem State.hostWrite_cmd_of_idle {s : State} (hreset : s.cur.inReset = false) (hidle : s.cur.status.busy = false)
    (w : Word) : s.hostWrite 0x008 w = s.accept w := by
  simp [State.hostWrite, hreset, hidle, regAt]

/-! ### Acceptance (10_state R52) -/

@[simp] theorem State.accept_mem (s : State) (w : Word) : (s.accept w).mem = s.mem := rfl
@[simp] theorem State.accept_turns (s : State) (w : Word) : (s.accept w).turns = s.turns := rfl
@[simp] theorem State.accept_cur_faultInfo (s : State) (w : Word) : (s.accept w).cur.faultInfo = 0 := rfl
@[simp] theorem State.accept_cur_pending (s : State) (w : Word) : (s.accept w).cur.pending = some w := rfl

@[simp] theorem State.accept_cur_status (s : State) (w : Word) :
    (s.accept w).cur.status =
      { s.cur.status with
        busy := true, done := false, err := false, fault := .noFault, lastOp := w.extractLsb' 0 8 } := by
  have hop : w.setWidth 8 = w.extractLsb' 0 8 := BitVec.setWidth_eq_extractLsb' (by decide)
  rw [← hop]
  rfl

/-- Acceptance leaves every field of the block but STATUS, FAULT_INFO, the pending word and the marks. -/
theorem State.accept_cur_frame (s : State) (w : Word) :
    (s.accept w).cur =
      { s.cur with
        status := (s.accept w).cur.status, faultInfo := (s.accept w).cur.faultInfo
        pending := (s.accept w).cur.pending, track := (s.accept w).cur.track } := rfl

/-- The engine ends an accepted illegal word with ILLEGAL_CMD (30_encoding R117). -/
theorem State.engineTurn_accept_illegal (s : State) {w : Word} (h : ¬LegalWord w) :
    (s.accept w).engineTurn = .next ((s.accept w).faulted .illegalCmd w.toNat) := by
  obtain ⟨e, he⟩ := decode_error_of_not_legalWord h
  exact State.engineTurn_illegal (s.accept_cur_pending w) he

/-- A turn that writes CMD of the idle current block is an acceptance. -/
theorem step_cmdWrite_of_idle {s : State} {w : Word} {rest : List Turn}
    (hturn : s.turns = .host (.wr s.before.length 0x008 8 w) :: rest) (hreset : s.cur.inReset = false)
    (hidle : s.cur.status.busy = false) : step s = .next ({ s with turns := rest }.accept w) := by
  rw [step_hostWrite hturn (by decide) (by decide),
    State.hostWrite_cmd_of_idle (s := { s with turns := rest }) hreset hidle]

/-- Settles O10: the write is the acceptance of `w`, and the engine's turn after it faults where `w` is illegal. -/
theorem cmdWriteAccepted : Obligations.CmdWriteAccepted := by
  intro s w rest hturn hreset hidle
  refine ⟨_, step_cmdWrite_of_idle hturn hreset hidle, State.accept_cur_status _ w, State.accept_cur_faultInfo _ w,
    State.accept_cur_pending _ w, by simp, State.accept_mem _ w, State.accept_turns _ w, State.accept_cur_frame _ w,
    fun hillegal => ?_⟩
  exact ⟨_, State.engineTurn_accept_illegal _ hillegal, by simp [State.faulted]⟩

/-! ### Writes while BUSY is 1 (10_state R54) -/

/-- The register named at an offset has that offset in the register map (10_state R33). -/
theorem eq_regOffset_of_regAt {off : Nat} {r : Reg} (h : regAt off = some r) : off = regOffset r := by
  unfold regAt at h
  split at h <;> cases h <;> rfl

/-- A write to anything but STATUS and IRQ_EN is dropped, whether or not a register is named there. -/
theorem Block.writeBusy_dropped (b : Block) (v : Word) {r : Option Reg} (hstatus : r ≠ some .status)
    (hirq : r ≠ some .irqEn) : b.writeBusy v r = { b with status := { b.status with werr := true } } := by
  unfold Block.writeBusy
  split
  · exact absurd rfl hstatus
  · exact absurd rfl hirq
  · rfl

/-- What a write at an offset does while BUSY is 1. -/
theorem Block.writeBusy_regAt (b : Block) (v : Word) (off : Nat) :
    b.writeBusy v (regAt off) =
      if off = 0x010 then b.writeStatus v
      else if off = 0x020 then { b with irqEn := v.getLsbD 0 }
      else { b with status := { b.status with werr := true } } := by
  split
  · next hoff => subst hoff; rfl
  · next hstatus =>
    split
    · next hoff => subst hoff; rfl
    · next hirq => exact b.writeBusy_dropped v (mt eq_regOffset_of_regAt hstatus) (mt eq_regOffset_of_regAt hirq)

/-- Settles O11: the write is `hostWrite` of a busy block, which is `writeBusy` at the offset. -/
theorem busyWritesDropped : Obligations.BusyWritesDropped := by
  intro s off v rest hturn halign hoff hreset hbusy
  rw [step_hostWrite hturn halign hoff, State.hostWrite_of_busy (s := { s with turns := rest }) hreset hbusy,
    Block.writeBusy_regAt]

/-! ### The state after reset (10_state R63, 70_reset R311) -/

/-- Every block after reset is `Block.reset` at some address. -/
theorem eq_reset_of_mem_resetOn {p : Platform} {base : Word} {bases : List Word} {mem : Memory} {b : Block}
    (h : b ∈ (State.resetOn p base bases mem).blocks) : ∃ a, b = Block.reset a := by
  have hb : b = Block.reset base ∨ ∃ a ∈ bases, Block.reset a = b := by
    simpa [State.blocks, State.resetOn] using h
  obtain rfl | ⟨a, -, rfl⟩ := hb
  · exact ⟨base, rfl⟩
  · exact ⟨a, rfl⟩

@[simp] theorem placed_zero (k lo : Nat) : placed lo 0#k = 0#64 := by simp [placed]

@[simp] theorem flagAt_false (lo : Nat) : flagAt lo false = 0#64 := placed_zero 1 lo

/-- Only ID reads other than 0 after reset. -/
theorem Block.readReg_reset (base : Word) {r : Reg} (h : r ≠ .id) : (Block.reset base).readReg r = 0 := by
  cases r
  case id => exact absurd rfl h
  case status => simp [Block.readReg, Block.reset, Status.word, faultNum]
  case bwState => simp [Block.readReg, Block.reset, Block.bwStateWord]
  case hufState => simp [Block.readReg, Block.reset, Block.hufStateWord, Block.nleaves]
  all_goals simp [Block.readReg, Block.reset]

/-- Settles O6: every block is `Block.reset`, and so are its registers, its table and its flags. -/
theorem resetValues : Obligations.ResetValues := by
  intro p base bases mem
  refine ⟨rfl, fun b hb => ?_⟩
  obtain ⟨a, rfl⟩ := eq_reset_of_mem_resetOn hb
  exact ⟨rfl, fun _ hr => Block.readReg_reset a hr, FreqTable.count_zero, rfl, rfl, rfl⟩

end Sys2Proof.Machine
end

section
/-! The decoder accepts every legal word and reads its operands from the word, and the statement O3 (30_encoding R111 to
R117). -/

namespace Sys2Proof.Machine

/-! ### What each format accepts (30_encoding R111 to R114) -/

section FormatRules

variable {w : Word} {i : Instr}

theorem formatA_eq_ok_iff {j : Instr} : formatA w j = .ok i ↔ w.extractLsb' 8 56 = 0 ∧ j = i := by
  simp only [formatA, ite_eq_iff, Except.ok.injEq, reduceCtorEq, and_false, or_false]

theorem formatL_eq_ok_iff {mk : Bool → Instr} :
    formatL w mk = .ok i ↔ w.extractLsb' 9 55 = 0 ∧ mk (w.getLsbD 8) = i := by
  simp only [formatL, ite_eq_iff, Except.ok.injEq, reduceCtorEq, and_false, or_false]

theorem formatN_eq_ok_iff {mk : BitVec 7 → Instr} :
    formatN w mk = .ok i ↔
      (w.extractLsb' 8 8 = 0 ∧ w.extractLsb' 23 41 = 0) ∧ countLegal (fieldN w) = true ∧ mk (fieldN w) = i := by
  simp only [formatN, ite_eq_iff, Except.ok.injEq, reduceCtorEq, and_false, or_false]

theorem formatS_eq_ok_iff {mk : Byte → Instr} :
    formatS w mk = .ok i ↔ (w.extractLsb' 8 8 = 0 ∧ w.extractLsb' 24 40 = 0) ∧ mk (fieldSym w) = i := by
  simp only [formatS, ite_eq_iff, Except.ok.injEq, reduceCtorEq, and_false, or_false]

end FormatRules

/-! ### Every legal word decodes (30_encoding R117) -/

section LegalWordDecodes

variable {w : Word}

/-- The twelve opcodes of format A, the bits above them 0. -/
theorem exists_decode_of_zeroAbove8
    (hop : opcode w ∈ ([0x00, 0x01, 0x10, 0x11, 0x12, 0x15, 0x16, 0x17, 0x20, 0x30, 0x32, 0x38] : List Byte))
    (hzero : w.extractLsb' 8 56 = 0) : ∃ i, decode w = .ok i := by
  have hok (i : Instr) : formatA w i = .ok i := formatA_eq_ok_iff.2 ⟨hzero, rfl⟩
  simp only [List.mem_cons, List.not_mem_nil, or_false] at hop
  rcases hop with hop | hop | hop | hop | hop | hop | hop | hop | hop | hop | hop | hop <;> simp [decode, hop, hok]

/-- LZW_DECODE, the bits above STRICT 0. -/
theorem exists_decode_of_zeroAbove9 (hop : opcode w = 0x21) (hzero : w.extractLsb' 9 55 = 0) :
    ∃ i, decode w = .ok i :=
  ⟨.lzwDecode (w.getLsbD 8), by simpa [decode, hop] using formatL_eq_ok_iff.2 ⟨hzero, rfl⟩⟩

/-- BW_PUT and BR_GET, the bits beside the count 0 and the count in its range. -/
theorem exists_decode_of_count (hop : opcode w ∈ ([0x31, 0x39] : List Byte))
    (hzero : w.extractLsb' 8 8 = 0 ∧ w.extractLsb' 23 41 = 0) (hpos : 1 ≤ (w.extractLsb' 16 7).toNat)
    (hle : (w.extractLsb' 16 7).toNat ≤ 64) : ∃ i, decode w = .ok i := by
  have hcount : countLegal (fieldN w) = true := by
    simp only [countLegal, fieldN, hpos, hle, decide_true, Bool.and_self]
  have hok (mk : BitVec 7 → Instr) : formatN w mk = .ok (mk (fieldN w)) := formatN_eq_ok_iff.2 ⟨hzero, hcount, rfl⟩
  simp only [List.mem_cons, List.not_mem_nil, or_false] at hop
  rcases hop with hop | hop <;> simp [decode, hop, hok]

/-- HUF_CODE and HUF_PUT_SYM, the bits beside the symbol 0. -/
theorem exists_decode_of_symbol (hop : opcode w ∈ ([0x13, 0x14] : List Byte))
    (hzero : w.extractLsb' 8 8 = 0 ∧ w.extractLsb' 24 40 = 0) : ∃ i, decode w = .ok i := by
  have hok (mk : Byte → Instr) : formatS w mk = .ok (mk (fieldSym w)) := formatS_eq_ok_iff.2 ⟨hzero, rfl⟩
  simp only [List.mem_cons, List.not_mem_nil, or_false] at hop
  rcases hop with hop | hop <;> simp [decode, hop, hok]

/-- `Decode` accepts exactly the legal words. -/
theorem legalWord_iff_exists_decode : LegalWord w ↔ ∃ i, decode w = .ok i := by
  constructor
  · rintro (⟨hop, hzero⟩ | ⟨hop, hzero⟩ | ⟨hop, hlow, hhigh, hpos, hle⟩ | ⟨hop, hzero⟩)
    · exact exists_decode_of_zeroAbove8 hop hzero
    · exact exists_decode_of_zeroAbove9 hop hzero
    · exact exists_decode_of_count hop ⟨hlow, hhigh⟩ hpos hle
    · exact exists_decode_of_symbol hop hzero
  · rintro ⟨i, h⟩
    exact legalWord_of_decode_ok h

end LegalWordDecodes

/-! ### The operands of a decoded word (30_encoding R112 to R115) -/

/-- The operand of the instruction, where it has one, is the field of `w` that its format gives it. -/
def OperandFrom (w : Word) : Instr → Prop
  | .bwPut n | .brGet n => n = fieldN w
  | .hufCode sym | .hufPutSym sym => sym = fieldSym w
  | .lzwDecode strict => strict = w.getLsbD 8
  | _ => True

/-- Each row of the opcode map hands its constructor the field its format names. -/
theorem operandFrom_of_decode {w : Word} {i : Instr} (h : decode w = .ok i) : OperandFrom w i := by
  simp only [decode] at h
  split at h
  case h_6 | h_7 => obtain ⟨-, rfl⟩ := formatS_eq_ok_iff.1 h; rfl
  case h_12 => obtain ⟨-, rfl⟩ := formatL_eq_ok_iff.1 h; rfl
  case h_14 | h_17 => obtain ⟨-, -, rfl⟩ := formatN_eq_ok_iff.1 h; rfl
  case h_18 => cases h
  all_goals obtain ⟨-, rfl⟩ := formatA_eq_ok_iff.1 h; trivial

/-! ### The step on a pending illegal word (30_encoding R117) -/

/-- With no turn listed, a pending illegal word ends in ILLEGAL_CMD with the word itself recorded. -/
theorem step_of_illegal {s : State} {w : Word} (hturns : s.turns = []) (hpending : s.cur.pending = some w)
    (h : ¬LegalWord w) : step s = .next (s.faulted .illegalCmd w.toNat) := by
  obtain ⟨e, he⟩ := decode_error_of_not_legalWord h
  calc step s = s.engineTurn := State.takeTurn_nil hturns hpending
    _ = .next (s.faulted .illegalCmd w.toNat) := State.engineTurn_illegal hpending he

/-- Settles O3: the legal words are those the formats accept, the operands are read off the row of the opcode map, and the
engine records the fault of an illegal word. -/
theorem illegalWordFaults : Obligations.IllegalWordFaults := by
  intro w
  refine ⟨legalWord_iff_exists_decode, fun n h => ?_, fun sym h => ?_, fun strict h => operandFrom_of_decode h,
    fun s hturns hpending hillegal => ?_⟩
  · exact h.elim operandFrom_of_decode operandFrom_of_decode
  · exact h.elim operandFrom_of_decode operandFrom_of_decode
  · rw [step_of_illegal hturns hpending hillegal, State.faulted, Block.raise, sat64_toNat]

end Sys2Proof.Machine
end

section
/-! The commands that open the bit writer and rewind the bit reader, and the statement O30 (40_bitio R143, R146). -/

namespace Sys2Proof.Machine

/-- A command that finishes leaves the current instance's command completed (10_state R53). -/
theorem State.finish_eq_next_completed (s : State) (b : Block) (m : Memory) :
    s.finish b m = .next (s.completed b m) := rfl

/-- BW_INIT completes with an empty open writer; memory stays, so a partial byte is lost (40_bitio R143). -/
theorem exec_bwInit (s : State) : exec .bwInit s = .next (s.completed s.cur.openWriter s.mem) :=
  s.finish_eq_next_completed s.cur.openWriter s.mem

/-- BR_INIT completes with the position at the first bit; BR_DATA and memory stay (40_bitio R146). -/
theorem exec_brInit (s : State) :
    exec .brInit s = .next (s.completed { s.cur with brByte := 0, brBit := 0 } s.mem) :=
  s.finish_eq_next_completed { s.cur with brByte := 0, brBit := 0 } s.mem

/-- Settles O30: the words are rows of the opcode map, and the effects are those of the two commands. -/
theorem bitUnitsOpen : Obligations.BitUnitsOpen :=
  ⟨rfl, rfl, fun s => ⟨exec_bwInit s, exec_brInit s⟩⟩

end Sys2Proof.Machine
end

section
/-! LZW_DECODE of what LZW_ENCODE wrote, and the statement O53 (42_lzw R225). -/

namespace Sys2Proof.Machine

/-! ### The two functions (42_lzw R221, R222) -/

/-- The encoder's string after the first byte is that byte, as every single byte has its code (42_lzw R220). -/
theorem lzwEncode_cons (b : Byte) (bs : List Byte) : lzwEncode (b :: bs) = lzwEncodeFrom [] [b] bs := rfl

/-- What the decoder makes of a first code that is a single byte (42_lzw R222). -/
theorem lzwDecode_byte_cons (b : Byte) (cs : List Nat) :
    lzwDecode (b.toNat :: cs) = (b :: (lzwDecodeFrom [] [b] 1 cs).1, (lzwDecodeFrom [] [b] 1 cs).2) := by
  have hentry : Dict.entry [] b.toNat = some [b] := by
    have hlt : b.toNat < Config.lzwInit := b.isLt
    rw [Dict.entry, if_pos hlt, BitVec.ofNat_toNat, BitVec.setWidth_eq]
  rw [lzwDecode, hentry]
  rfl

/-- The decoder function gives back what the encoder function coded: past the first code, which is the first byte, it runs
one dictionary entry behind the encoder (42_lzw R225). -/
theorem lzwDecode_lzwEncode (bytes : List Byte) : lzwDecode (lzwEncode bytes).1 = (bytes, none) := by
  match bytes with
  | [] => rfl
  | [b] => exact lzwDecode_byte_cons b []
  | b :: c :: bs =>
    have hloop := lzwDecodeFrom_encodeFrom bs [] [b] [c] 1 (by simp) (by simp) rfl
    calc lzwDecode (lzwEncode (b :: c :: bs)).1
      _ = lzwDecode (b.toNat :: (lzwEncodeFrom (Dict.grow [] [b, c]) [c] bs).1) := by rw [lzwEncode_cons]; rfl
      _ = (b :: c :: bs, none) := by rw [lzwDecode_byte_cons]; exact congrArg (fun r => (b :: r.1, r.2)) hloop

/-- Every code of the encoder is below 4096 (42_lzw R221). -/
theorem lt_of_mem_lzwEncode {bytes : List Byte} {c : Nat} (hc : c ∈ (lzwEncode bytes).1) : c < 4096 := by
  cases bytes with
  | nil => cases hc
  | cons b bs =>
    obtain ⟨-, -, hlt, -⟩ := lzwEncodeFrom_bounds bs [] [b] (by decide) rfl
    rw [lzwEncode_cons] at hc
    exact hlt c hc

/-! ### The two commands (42_lzw R223, R224) -/

/-- An LZW_ENCODE that ended without a fault left all its codes at DST_ADDR, their number in CODE_COUNT and SRC_LEN in
ORIG_SIZE (42_lzw R223). -/
theorem exec_lzwEncode_of_no_err {s t : State} (h : exec .lzwEncode s = .next t) (herr : t.cur.status.err = false) :
    t.cur.dstAddr = s.cur.dstAddr ∧ t.cur.codeCount.toNat = (lzwEncode s.srcBytes).1.length ∧
      t.cur.origSize = s.cur.srcLen ∧
      t.mem = s.mem.writeBytes s.cur.dstAddr.toNat (codeBytes (lzwEncode s.srcBytes).1) := by
  rcases State.guard_next h with ⟨-, hend⟩ | ⟨code, info, -, rfl⟩
  · dsimp only at hend
    split at hend
    · cases hend
      cases herr
    · next hfit =>
      have hcap := s.cur.dstCap.isLt
      cases hend
      refine ⟨rfl, ?_, rfl, ?_⟩
      · simp only [Block.complete_codeCount, BitVec.toNat_ofNat]
        omega
      · simp only [List.take_of_length_le (Nat.le_of_not_lt hfit)]
  · cases herr

/-- Where the codes decode to exactly ORIG_SIZE bytes, and these have room, LZW_DECODE writes them all, STRICT or not
(42_lzw R224). -/
theorem exec_lzwDecode_of_length_eq {s : State} {strict : Bool} {out : List Byte} (hpass : s.ChecksPass (.lzwDecode strict))
    (hcap : s.cur.origSize.toNat ≤ s.cur.dstCap.toNat)
    (hdecode : lzwDecode (s.mem.readCodes s.cur.srcAddr.toNat s.cur.codeCount.toNat) = (out, none))
    (hlen : out.length = s.cur.origSize.toNat) :
    exec (.lzwDecode strict) s =
      .next (s.completed { s.cur.closeWriter with dstLen := s.cur.origSize }
        (s.mem.writeBytes s.cur.dstAddr.toNat out)) := by
  change execLzwDecode strict s = _
  rw [execLzwDecode, State.guard_of_pass _ hpass]
  have hroom : ¬s.cur.dstCap.toNat < s.cur.origSize.toNat := Nat.not_lt.2 hcap
  simp only [hdecode, hlen, hroom, lt_irrefl, false_and, if_false, min_self, BitVec.ofNat_toNat, BitVec.setWidth_eq,
    List.take_of_length_le hlen.le, State.finish_eq_next_completed]

/-- Settles O53: the codes LZW_ENCODE wrote read back as they were, and decode to as many bytes as the source has, which is
ORIG_SIZE. -/
theorem lzwRoundTrip : Obligations.LzwRoundTrip := by
  refine ⟨lzwDecode_lzwEncode, fun s t u strict hwf _ hencode herr hmem hsrc hcount hsize hpass hcap => ?_⟩
  obtain ⟨hdst, hcodes, hlen, hwritten⟩ := exec_lzwEncode_of_no_err hencode herr
  have hread : u.mem.readCodes u.cur.srcAddr.toNat u.cur.codeCount.toNat = (lzwEncode s.srcBytes).1 := by
    rw [hmem, hwritten, hsrc, hdst, hcount, hcodes]
    exact Memory.readCodes_codeBytes _ _ _ hwf fun c hc => (lt_of_mem_lzwEncode hc).trans (by decide)
  have horig : u.cur.origSize = s.cur.srcLen := hsize.trans hlen
  have hdecode : lzwDecode (u.mem.readCodes u.cur.srcAddr.toNat u.cur.codeCount.toNat) = (s.srcBytes, none) := by
    rw [hread, lzwDecode_lzwEncode]
  have hbytes : s.srcBytes.length = u.cur.origSize.toNat := by rw [horig]; exact Memory.length_readBytes _ _ _
  exact ⟨_, exec_lzwDecode_of_length_eq hpass hcap hdecode hbytes, rfl, rfl, horig, rfl⟩

end Sys2Proof.Machine
end

section
/-! Command words and instructions are each other's inverse: the statements O1, O2 and O4 (30_encoding R110 to R119). -/

namespace Sys2Proof.Machine

/-! ### The bits of a command word (30_encoding R111 to R115) -/

/-- The bits of a field that reads 0. -/
theorem getLsbD_of_extractLsb'_eq_zero {n : Nat} {w : BitVec n} {lo len j : Nat} (h : w.extractLsb' lo len = 0)
    (hlo : lo ≤ j) (hhi : j < lo + len) : w.getLsbD j = false := by
  have hbit := congrArg (fun v => v.getLsbD (j - lo)) h
  simpa [show j - lo < len by omega, show lo + (j - lo) = j by omega] using hbit

/-- Bit `j` of a word with an opcode and an operand at bit `lo`. -/
theorem getLsbD_encodeField {k : Nat} (op : Byte) (lo : Nat) (v : BitVec k) (j : Nat) :
    (encodeField op lo v).getLsbD j =
      (decide (j < 64) && (decide (lo ≤ j) && v.getLsbD (j - lo) || op.getLsbD j)) := by
  by_cases hj : j < 64
  · by_cases hlo : lo ≤ j
    · simp [encodeField, hj, hlo, show ¬j < lo by omega]
    · simp [encodeField, hj, hlo, show j < lo by omega]
  · simp [encodeField, hj]

/-- The opcode of a word stands below its operand. -/
theorem opcode_encodeField {k : Nat} (op : Byte) {lo : Nat} (v : BitVec k) (hlo : 8 ≤ lo) :
    opcode (encodeField op lo v) = op := by
  refine BitVec.eq_of_getLsbD_eq fun j hj => ?_
  rw [opcode, BitVec.getLsbD_extractLsb', getLsbD_encodeField, Nat.zero_add]
  simp only [hj, show j < 64 by omega, show ¬lo ≤ j by omega, decide_true, decide_false, Bool.true_and, Bool.false_and,
    Bool.false_or]

/-- The operand of a word stands where it was put. -/
theorem extractLsb'_encodeField {k : Nat} (op : Byte) {lo : Nat} (v : BitVec k) (hlo : 8 ≤ lo) (hhi : lo + k ≤ 64) :
    (encodeField op lo v).extractLsb' lo k = v := by
  refine BitVec.eq_of_getLsbD_eq fun j hj => ?_
  have hop : op.getLsbD (lo + j) = false := BitVec.getLsbD_of_ge _ _ (by omega)
  rw [BitVec.getLsbD_extractLsb', getLsbD_encodeField, hop, Nat.add_sub_cancel_left]
  simp only [hj, show lo + j < 64 by omega, Nat.le_add_right, decide_true, Bool.true_and, Bool.or_false]

/-- Every bit of a word above its opcode and beside its operand is 0. -/
theorem extractLsb'_encodeField_eq_zero {k : Nat} (op : Byte) {lo : Nat} (v : BitVec k) {p len : Nat} (hp : 8 ≤ p)
    (hside : p + len ≤ lo ∨ lo + k ≤ p) : (encodeField op lo v).extractLsb' p len = 0 := by
  refine BitVec.eq_of_getLsbD_eq fun j hj => ?_
  have hop : op.getLsbD (p + j) = false := BitVec.getLsbD_of_ge _ _ (by omega)
  have hv : (decide (lo ≤ p + j) && v.getLsbD (p + j - lo)) = false := by
    rcases hside with h | h
    · simp only [show ¬lo ≤ p + j by omega, decide_false, Bool.false_and]
    · simp only [BitVec.getLsbD_of_ge v (p + j - lo) (by omega), Bool.and_false]
  rw [BitVec.getLsbD_extractLsb', getLsbD_encodeField, hop, hv]
  simp

/-- A word whose bits beside its opcode and its operand are 0 is made of these two. -/
theorem encodeField_opcode_extractLsb' {w : Word} {lo k : Nat} (hlo : 8 ≤ lo)
    (hbelow : w.extractLsb' 8 (lo - 8) = 0) (habove : w.extractLsb' (lo + k) (64 - (lo + k)) = 0) :
    encodeField (opcode w) lo (w.extractLsb' lo k) = w := by
  refine BitVec.eq_of_getLsbD_eq fun j hj => ?_
  simp only [getLsbD_encodeField, opcode, BitVec.getLsbD_extractLsb', Nat.zero_add, hj, decide_true, Bool.true_and]
  by_cases hop : j < 8
  · simp [hop, show ¬lo ≤ j by omega]
  · by_cases hmid : j < lo
    · have hzero : w.getLsbD j = false := getLsbD_of_extractLsb'_eq_zero hbelow (by omega) (by omega)
      simp [hop, hzero, show ¬lo ≤ j by omega]
    · by_cases hfield : j < lo + k
      · simp [hop, show lo ≤ j by omega, show j - lo < k by omega, show lo + (j - lo) = j by omega]
      · have hzero : w.getLsbD j = false := getLsbD_of_extractLsb'_eq_zero habove (by omega) (by omega)
        simp [hop, hzero, show ¬j - lo < k by omega]

/-! ### Decoding what was encoded -/

/-- STRICT stands in bit 8 (30_encoding R112). -/
theorem getLsbD_encodeField_strict (op : Byte) (strict : Bool) :
    (encodeField op 8 (BitVec.ofBool strict)).getLsbD 8 = strict := by
  rw [getLsbD_encodeField, BitVec.getLsbD_of_ge op 8 (by decide)]
  cases strict <;> rfl

/-- A word of Format L decodes to what its row makes of STRICT (30_encoding R112). -/
theorem formatL_encodeField (op : Byte) (mk : Bool → Instr) (strict : Bool) :
    formatL (encodeField op 8 (BitVec.ofBool strict)) mk = .ok (mk strict) :=
  formatL_eq_ok_iff.2 ⟨extractLsb'_encodeField_eq_zero op _ (by decide) (by decide),
    congrArg mk (getLsbD_encodeField_strict op strict)⟩

/-- A word of Format N with a legal count decodes to what its row makes of the count (30_encoding R113). -/
theorem formatN_encodeField (op : Byte) (mk : BitVec 7 → Instr) {n : BitVec 7} (hn : countLegal n = true) :
    formatN (encodeField op 16 n) mk = .ok (mk n) := by
  have hfield : fieldN (encodeField op 16 n) = n := extractLsb'_encodeField op n (by decide) (by decide)
  exact formatN_eq_ok_iff.2 ⟨⟨extractLsb'_encodeField_eq_zero op n (by decide) (by decide),
    extractLsb'_encodeField_eq_zero op n (by decide) (by decide)⟩, by rwa [hfield], congrArg mk hfield⟩

/-- A word of Format S decodes to what its row makes of the symbol (30_encoding R114). -/
theorem formatS_encodeField (op : Byte) (mk : Byte → Instr) (sym : Byte) :
    formatS (encodeField op 16 sym) mk = .ok (mk sym) :=
  formatS_eq_ok_iff.2 ⟨⟨extractLsb'_encodeField_eq_zero op sym (by decide) (by decide),
    extractLsb'_encodeField_eq_zero op sym (by decide) (by decide)⟩,
    congrArg mk (extractLsb'_encodeField op sym (by decide) (by decide))⟩

section OpcodeMap

variable {w : Word}

/-! The rows of the opcode map whose commands have an operand (30_encoding R116). -/

theorem decode_of_opcode_hufCode (h : opcode w = 0x13) : decode w = formatS w .hufCode := by simp [decode, h]
theorem decode_of_opcode_hufPutSym (h : opcode w = 0x14) : decode w = formatS w .hufPutSym := by simp [decode, h]
theorem decode_of_opcode_lzwDecode (h : opcode w = 0x21) : decode w = formatL w .lzwDecode := by simp [decode, h]
theorem decode_of_opcode_bwPut (h : opcode w = 0x31) : decode w = formatN w .bwPut := by simp [decode, h]
theorem decode_of_opcode_brGet (h : opcode w = 0x39) : decode w = formatN w .brGet := by simp [decode, h]

end OpcodeMap

/-- Settles O1: a word without an operand is a row of the opcode map; the operand of another one is read where it was put. -/
theorem decodeEncodeAgree : Obligations.DecodeEncodeAgree := by
  intro i hwf
  have hop {k : Nat} (op : Byte) {lo : Nat} (v : BitVec k) (hlo : 8 ≤ lo) := opcode_encodeField op v hlo
  cases i with
  | hufCode sym => exact (decode_of_opcode_hufCode (hop _ _ (by decide))).trans (formatS_encodeField _ _ _)
  | hufPutSym sym => exact (decode_of_opcode_hufPutSym (hop _ _ (by decide))).trans (formatS_encodeField _ _ _)
  | lzwDecode strict => exact (decode_of_opcode_lzwDecode (hop _ _ (by decide))).trans (formatL_encodeField _ _ _)
  | bwPut n => exact (decode_of_opcode_bwPut (hop _ _ (by decide))).trans (formatN_encodeField _ _ hwf)
  | brGet n => exact (decode_of_opcode_brGet (hop _ _ (by decide))).trans (formatN_encodeField _ _ hwf)
  | _ => decide

/-! ### Encoding what was decoded -/

section LegalWords

variable {w : Word} {op : Byte}

/-- A word of Format A is its opcode (30_encoding R111). -/
theorem ofNat_of_formatA {n : Nat} (hop : (opcode w).toNat = n) (h : w.extractLsb' 8 56 = 0) : BitVec.ofNat 64 n = w := by
  have hw := encodeField_opcode_extractLsb' (w := w) (lo := 8) (k := 0) le_rfl (BitVec.of_length_zero) h
  rw [encodeField, BitVec.of_length_zero (x := w.extractLsb' 8 0)] at hw
  subst hop
  simpa using hw

/-- A word of Format L is its opcode and STRICT (30_encoding R112). -/
theorem encodeField_of_formatL (hop : opcode w = op) (h : w.extractLsb' 9 55 = 0) :
    encodeField op 8 (BitVec.ofBool (w.getLsbD 8)) = w := by
  have hstrict : BitVec.ofBool (w.getLsbD 8) = w.extractLsb' 8 1 :=
    BitVec.eq_of_getLsbD_eq fun j hj => by
      obtain rfl : j = 0 := by omega
      simp
  rw [hstrict, ← hop]
  exact encodeField_opcode_extractLsb' le_rfl BitVec.of_length_zero h

/-- A word of Format N is its opcode and its count (30_encoding R113). -/
theorem encodeField_of_formatN (hop : opcode w = op) (h : w.extractLsb' 8 8 = 0 ∧ w.extractLsb' 23 41 = 0) :
    encodeField op 16 (fieldN w) = w :=
  hop ▸ encodeField_opcode_extractLsb' (by decide) h.1 h.2

/-- A word of Format S is its opcode and its symbol (30_encoding R114). -/
theorem encodeField_of_formatS (hop : opcode w = op) (h : w.extractLsb' 8 8 = 0 ∧ w.extractLsb' 24 40 = 0) :
    encodeField op 16 (fieldSym w) = w :=
  hop ▸ encodeField_opcode_extractLsb' (by decide) h.1 h.2

/-- Settles O2: a legal word is the opcode of its row and the operand its format reads, every other bit being 0. -/
theorem legalWordsAreEncodings : Obligations.LegalWordsAreEncodings := by
  intro w i h
  simp only [decode] at h
  split at h <;> rename_i hop
  case h_6 | h_7 =>
    obtain ⟨hzero, rfl⟩ := formatS_eq_ok_iff.1 h
    exact ⟨rfl, encodeField_of_formatS (BitVec.eq_of_toNat_eq hop) hzero⟩
  case h_12 =>
    obtain ⟨hzero, rfl⟩ := formatL_eq_ok_iff.1 h
    exact ⟨rfl, encodeField_of_formatL (BitVec.eq_of_toNat_eq hop) hzero⟩
  case h_14 | h_17 =>
    obtain ⟨hzero, hcount, rfl⟩ := formatN_eq_ok_iff.1 h
    exact ⟨hcount, encodeField_of_formatN (BitVec.eq_of_toNat_eq hop) hzero⟩
  case h_18 => cases h
  all_goals
    obtain ⟨hzero, rfl⟩ := formatA_eq_ok_iff.1 h
    exact ⟨rfl, ofNat_of_formatA hop hzero⟩

end LegalWords

/-- Settles O4: each word is read by the row of its opcode. -/
theorem specWordsDecode : Obligations.SpecWordsDecode := by
  unfold Obligations.SpecWordsDecode
  decide

end Sys2Proof.Machine
end

section
/-! What comes before a command's own work: its state prerequisites and its region checks; the control commands; the
statements O23 to O29 (20_memory R84 to R87, 43_control, 60_exceptions R271, R277). -/

namespace Sys2Proof.Machine

/-! ### State prerequisites (60_exceptions R277) -/

/-- Settles O25: each command that needs a tree or an open writer asks for it first, the tree before the writer. -/
theorem statePrerequisites : Obligations.StatePrerequisites := by
  intro i s code h
  cases i with
  | hufCode sym | hufGetSym =>
    by_cases htree : s.cur.treeValid = true
    · simp [Block.prereqFault, htree] at h
    · obtain rfl : FaultCode.hufNoTree = code := by simpa [Block.prereqFault, htree] using h
      exact if_neg htree
  | hufPutSym sym =>
    by_cases htree : s.cur.treeValid = true
    · by_cases hopen : s.cur.bwOpen = true
      · simp [Block.prereqFault, htree, hopen] at h
      · obtain rfl : FaultCode.bitWriterClosed = code := by simpa [Block.prereqFault, htree, hopen] using h
        exact (if_pos htree).trans (if_neg hopen)
    · obtain rfl : FaultCode.hufNoTree = code := by simpa [Block.prereqFault, htree] using h
      exact if_neg htree
  | bwPut n | bwFinish =>
    by_cases hopen : s.cur.bwOpen = true
    · simp [Block.prereqFault, hopen] at h
    · obtain rfl : FaultCode.bitWriterClosed = code := by simpa [Block.prereqFault, hopen] using h
      exact if_neg hopen
  | _ => cases h

/-- The faults the state prerequisites can name. -/
theorem Block.prereqFault_mem {b : Block} {i : Instr} {code : FaultCode} (h : b.prereqFault i = some code) :
    code = .hufNoTree ∨ code = .bitWriterClosed := by
  unfold Block.prereqFault at h
  split at h <;> (repeat' split at h) <;> cases h <;> simp

section Prerequisites

variable {b : Block}

/-! Which commands have a state prerequisite, and what it takes to meet it. -/

@[simp] theorem Block.prereqFault_hufCode (sym : Byte) : b.prereqFault (.hufCode sym) = none ↔ b.treeValid = true := by
  simp [Block.prereqFault]
@[simp] theorem Block.prereqFault_hufGetSym : b.prereqFault .hufGetSym = none ↔ b.treeValid = true := by
  simp [Block.prereqFault]
@[simp] theorem Block.prereqFault_bwPut (n : BitVec 7) : b.prereqFault (.bwPut n) = none ↔ b.bwOpen = true := by
  simp [Block.prereqFault]
@[simp] theorem Block.prereqFault_bwFinish : b.prereqFault .bwFinish = none ↔ b.bwOpen = true := by
  simp [Block.prereqFault]
@[simp] theorem Block.prereqFault_hufPutSym (sym : Byte) :
    b.prereqFault (.hufPutSym sym) = none ↔ b.treeValid = true ∧ b.bwOpen = true := by
  cases htree : b.treeValid <;> simp [Block.prereqFault, htree]

end Prerequisites

/-- Past its state prerequisites every command runs its region checks before anything else (20_memory R85). -/
theorem exec_eq_guard {i : Instr} {s : State} (h : s.cur.prereqFault i = none) :
    ∃ k, exec i s = s.guard (s.cur.regions i) k := by
  cases i with
  | hufCode sym => exact ⟨_, if_pos ((Block.prereqFault_hufCode sym).1 h)⟩
  | hufGetSym => exact ⟨_, if_pos (Block.prereqFault_hufGetSym.1 h)⟩
  | bwPut n => exact ⟨_, if_pos ((Block.prereqFault_bwPut n).1 h)⟩
  | bwFinish => exact ⟨_, if_pos (Block.prereqFault_bwFinish.1 h)⟩
  | hufPutSym sym =>
    obtain ⟨htree, hopen⟩ := (Block.prereqFault_hufPutSym sym).1 h
    exact ⟨_, (if_pos htree).trans (if_pos hopen)⟩
  | nop | softReset | hufBuild | bwInit | brInit => exact ⟨_, (s.guard_nil _).symm⟩
  | hufCount | hufLoadFreq | hufEncode | hufDecode | lzwEncode | lzwDecode strict | brGet n =>
    unfold exec
    exact ⟨_, rfl⟩

/-! ### Region checks (20_memory R85) -/

/-- A failed check ends any command in a precise fault. -/
theorem exec_of_checkFault {i : Instr} {s : State} {code : FaultCode} {info : Nat} (hpre : s.cur.prereqFault i = none)
    (hcheck : checkRegions s.denied s.platform.devices (s.cur.regions i) = .fault code info) :
    exec i s = .next (s.faulted code info) := by
  obtain ⟨k, hk⟩ := exec_eq_guard hpre
  rw [hk, State.guard_of_fault k hcheck]

/-- Memory that is not idempotent makes any command refused. -/
theorem exec_of_refuse {i : Instr} {s : State} (hpre : s.cur.prereqFault i = none)
    (hcheck : checkRegions s.denied s.platform.devices (s.cur.regions i) = .refuse) :
    exec i s = .refused .notIdempotent := by
  obtain ⟨k, hk⟩ := exec_eq_guard hpre
  rw [hk, State.guard_of_refuse k hcheck]

section Checks

variable {denied devices : List Range} {rs : List Region}

/-- Check 1 comes first. -/
theorem checkRegions_of_rangeFault {r : Region} (h : rangeFault rs = some r) :
    checkRegions denied devices rs = .fault .addrRange (regionNum r.id) := by
  simp only [checkRegions, h]

/-- Check 2 comes after check 1. -/
theorem checkRegions_of_overlapFault {p q : Region} (hrange : rangeFault rs = none) (h : overlapFault rs = some (p, q)) :
    checkRegions denied devices rs = .fault .regionOverlap (regionNum p.id * 256 + regionNum q.id) := by
  simp only [checkRegions, hrange, h]

/-- Check 3 comes after check 2. -/
theorem checkRegions_of_busFault {a : Nat} (hrange : rangeFault rs = none) (hoverlap : overlapFault rs = none)
    (h : busFault denied rs = some a) : checkRegions denied devices rs = .fault .busError a := by
  simp only [checkRegions, hrange, hoverlap, h]

/-- Check 3 finds the lowest denied address of the first region that has one. -/
theorem busFault_of_first {l l' : List Region} {r : Region} {a : Nat} (hl : ∀ x ∈ l, firstIn denied x = none)
    (hr : firstIn denied r = some a) : busFault denied (l ++ r :: l') = some a := by
  rw [busFault, List.findSome?_append, List.findSome?_eq_none_iff.2 hl, Option.none_or, List.findSome?_cons, hr]

end Checks

/-- The lowest denied address of a region. -/
theorem State.firstIn_eq_some_of_lowest {s : State} {r : Region} {a : Nat} (hlo : r.base ≤ a) (hhi : a < r.base + r.len)
    (hdenied : s.admitted a = false) (hlow : ∀ y, r.base ≤ y → y < a → s.admitted y = true) :
    firstIn s.denied r = some a :=
  (firstIn_eq_some s.denied r a).2 ⟨(Range.has_iff _ _).2 ⟨hlo, hhi⟩, (s.admitted_eq_false a).1 hdenied,
    fun y hy hya => (s.admitted_eq_true y).1 (hlow y hy hya)⟩

/-- Settles O23: the table of regions is the model's, and the checks find the first fault in the order of 20_memory R85. -/
theorem regionChecks : Obligations.RegionChecks := by
  refine ⟨⟨rfl, rfl, rfl⟩, ⟨rfl, fun _ => rfl, fun _ _ => rfl, fun _ _ _ => rfl⟩, ?_,
    fun i s code info hpre hcheck => exec_of_checkFault hpre hcheck, fun s rs => ⟨?_, fun hrange => ⟨?_, fun hoverlap => ⟨?_, ?_⟩⟩⟩⟩
  · rintro b _ _ _ _ _ rfl rfl rfl rfl rfl
    exact ⟨⟨rfl, rfl, rfl, rfl, rfl, fun _ => rfl⟩, ⟨fun _ => rfl, rfl, fun _ => rfl⟩, ⟨fun _ => rfl, rfl⟩,
      rfl, rfl, rfl, rfl, rfl, fun _ => rfl⟩
  · rintro l r l' rfl hl hr
    exact checkRegions_of_rangeFault (rangeFault_of_first l l' r hl hr)
  · intro l p q l' hpairs hl hclash
    exact checkRegions_of_overlapFault ((rangeFault_eq_none rs).2 hrange) (overlapFault_of_first rs l l' p q hpairs hl hclash)
  · rintro l r l' a rfl hl hlo hhi hdenied hlow
    exact checkRegions_of_busFault ((rangeFault_eq_none _).2 hrange) ((overlapFault_eq_none _).2 hoverlap)
      (busFault_of_first (fun x hx => (s.firstIn_eq_none_iff x).2 (hl x hx))
        (State.firstIn_eq_some_of_lowest hlo hhi hdenied hlow))
  · intro hadmitted hdevices
    exact (s.checkRegions_pass_iff rs).2 ⟨hrange, hoverlap, hadmitted, hdevices⟩

/-- Settles O24: a register block is one of the ranges ADMIT denies, and checks that find no fault on a device do not pass
either. -/
theorem blocksAndDevices : Obligations.BlocksAndDevices := by
  refine ⟨fun s b a hb hwindow => (s.admitted_eq_false a).2 ⟨b.window, ?_, hwindow⟩, ?_⟩
  · exact List.mem_append_right _ (List.mem_map_of_mem hb)
  · rintro i s hpre hnofault ⟨r, hr, d, hd, hoverlaps⟩
    cases hcheck : checkRegions s.denied s.platform.devices (s.cur.regions i) with
    | pass =>
      obtain ⟨-, -, -, hdevices⟩ := (s.checkRegions_pass_iff _).1 hcheck
      rw [hdevices r hr d hd] at hoverlaps
      cases hoverlaps
    | fault code info => exact absurd hcheck (hnofault code info)
    | refuse => exact exec_of_refuse hpre hcheck

/-! ### Capacity checks made from registers (60_exceptions R271, R277) -/

section Capacity

variable {s : State}

/-- BW_PUT past its checks (40_bitio R144). -/
theorem exec_bwPut_of_pass {n : BitVec 7} (hopen : s.cur.bwOpen = true) (hpass : s.ChecksPass (.bwPut n)) :
    exec (.bwPut n) s =
      if 0 < s.cur.pushes n.toNat ∧ s.cur.dstCap.toNat < s.cur.dstLen.toNat + s.cur.pushes n.toNat then
        .next (s.faulted .capacity (s.cur.dstLen.toNat + s.cur.pushes n.toNat))
      else
        .next (s.completed (putBits (s.cur, s.mem) (lowBits n.toNat s.cur.bwData)).1
          (putBits (s.cur, s.mem) (lowBits n.toNat s.cur.bwData)).2) :=
  (if_pos hopen).trans (State.guard_of_pass _ hpass)

/-- BW_FINISH past its checks (40_bitio R145). -/
theorem exec_bwFinish_of_pass (hopen : s.cur.bwOpen = true) (hpass : s.ChecksPass .bwFinish) :
    exec .bwFinish s =
      if s.cur.bwCnt ≠ 0 ∧ s.cur.dstCap.toNat < s.cur.dstLen.toNat + 1 then
        .next (s.faulted .capacity (s.cur.dstLen.toNat + 1))
      else .next (s.completed (flush (s.cur, s.mem)).1.closeWriter (flush (s.cur, s.mem)).2) :=
  (if_pos hopen).trans (State.guard_of_pass _ hpass)

/-- HUF_DECODE of more symbols than the destination holds (41_huffman R183). -/
theorem exec_hufDecode_of_capacity (hpass : s.ChecksPass .hufDecode) (hcap : s.cur.dstCap.toNat < s.cur.origSize.toNat) :
    exec .hufDecode s = .next (s.faulted .capacity s.cur.origSize.toNat) :=
  (State.guard_of_pass _ hpass).trans (if_pos hcap)

/-- LZW_DECODE of more bytes than the destination holds (42_lzw R224). -/
theorem exec_lzwDecode_of_capacity {strict : Bool} (hpass : s.ChecksPass (.lzwDecode strict))
    (hcap : s.cur.dstCap.toNat < s.cur.origSize.toNat) :
    exec (.lzwDecode strict) s = .next (s.faulted .capacity s.cur.origSize.toNat) :=
  (State.guard_of_pass _ hpass).trans (if_pos hcap)

end Capacity

/-- Settles O26: each of the four commands compares DST_CAP right after its checks. -/
theorem capacityChecks : Obligations.CapacityChecks := fun _ =>
  ⟨fun _ hopen hpass hpos hcap => (exec_bwPut_of_pass hopen hpass).trans (if_pos ⟨hpos, hcap⟩),
    fun hopen hpass hcnt hcap => (exec_bwFinish_of_pass hopen hpass).trans (if_pos ⟨hcnt, hcap⟩),
    exec_hufDecode_of_capacity, fun _ => exec_lzwDecode_of_capacity⟩

/-! ### The control commands (43_control) -/

/-- NOP completes (43_control R260). -/
theorem exec_nop (s : State) : exec .nop s = .next (s.completed s.cur s.mem) := s.finish_eq_next_completed s.cur s.mem

/-- SOFT_RESET completes with the command-written state at its reset values (43_control R261). -/
theorem exec_softReset (s : State) : exec .softReset s = .next (s.completed s.cur.softReset s.mem) :=
  s.finish_eq_next_completed s.cur.softReset s.mem

/-- Settles O27: completion writes STATUS and takes the command off, and NOP does nothing else. -/
theorem nopCompletes : Obligations.NopCompletes := ⟨rfl, exec_nop⟩

/-- Settles O28: what SOFT_RESET clears stays cleared. -/
theorem softResetClears : Obligations.SoftResetClears := by
  refine ⟨exec_softReset, fun s t u ht hu => ?_⟩
  cases ht
  cases hu
  rfl

/-- Settles O29: the registers SOFT_RESET does not clear are assumed to hold their reset values, and acceptance writes STATUS,
FAULT_INFO and the command. -/
theorem softResetLikeReset : Obligations.SoftResetLikeReset := by
  intro s t w hexec hreset hwerr hirq hsrc hsrcLen hdst hcap hmeta horig hcount hdata
  cases hexec
  simp only [Block.submit, Block.accept, Block.complete, Block.softReset, Block.reset, hreset, hwerr, hirq, hsrc, hsrcLen,
    hdst, hcap, hmeta, horig, hcount, hdata]

end Sys2Proof.Machine
end

section
/-! The register block: the register map, the fields of each register, the host's reads and writes while BUSY is 0 and the
interrupt line; the statements O12 to O15 and O54 (10_state R32 to R55, 60_exceptions R278). -/

namespace Sys2Proof.Machine

/-! ### The register map (10_state R33) -/

/-- The map finds every register at its offset. -/
@[simp] theorem regAt_regOffset (r : Reg) : regAt (regOffset r) = some r := by cases r <;> rfl

/-- An offset names a register exactly when it is that register's. -/
theorem regAt_eq_some_iff {off : Nat} {r : Reg} : regAt off = some r ↔ off = regOffset r :=
  ⟨eq_regOffset_of_regAt, by rintro rfl; exact regAt_regOffset r⟩

/-- An offset that is no register's names none. -/
theorem regAt_eq_none_iff {off : Nat} : regAt off = none ↔ ∀ r : Reg, regOffset r ≠ off := by
  simp only [Option.eq_none_iff_forall_ne_some, ne_eq, regAt_eq_some_iff]
  exact forall_congr' fun _ => not_congr eq_comm

/-- Every register is 8-byte-aligned and inside the block. -/
theorem regOffset_aligned (r : Reg) : regOffset r % 8 = 0 ∧ regOffset r < 256 := by cases r <;> decide

/-- Settles O14: the map is `regOffset`, and `regAt` is its inverse. -/
theorem registerMapAgrees : Obligations.RegisterMapAgrees := by
  refine ⟨by decide, regAt_regOffset, fun off r h => ?_, fun b off h => ?_⟩
  · obtain rfl := eq_regOffset_of_regAt h
    exact ⟨rfl, regOffset_aligned r⟩
  · rw [Block.readAt, regAt_eq_none_iff.2 h]

/-! ### The fields of the registers (10_state R35 to R51) -/

section Fields

variable {k : Nat} {lo p len : Nat}

/-- A field reads where it was placed. -/
theorem extractLsb'_placed_same (v : BitVec k) (h : lo + k ≤ 64) : (placed lo v).extractLsb' lo k = v := by
  refine BitVec.eq_of_getLsbD_eq fun j hj => ?_
  rw [BitVec.getLsbD_extractLsb', placed, BitVec.getLsbD_shiftLeft, BitVec.getLsbD_setWidth, Nat.add_sub_cancel_left]
  simp only [hj, show lo + j < 64 by omega, show ¬lo + j < lo by omega, show j < 64 by omega, decide_true, decide_false,
    Bool.not_false, Bool.true_and]

/-- A field reads 0 beside where it was placed. -/
theorem extractLsb'_placed_beside (v : BitVec k) (h : p + len ≤ lo ∨ lo + k ≤ p) :
    (placed lo v).extractLsb' p len = 0#len := by
  refine BitVec.eq_of_getLsbD_eq fun j hj => ?_
  rw [BitVec.getLsbD_extractLsb', placed, BitVec.getLsbD_shiftLeft, BitVec.getLsbD_setWidth]
  rcases h with h | h
  · simp [show p + j < lo by omega]
  · simp [BitVec.getLsbD_of_ge v (p + j - lo) (by omega)]

/-- A flag reads where it was placed. -/
theorem getLsbD_flagAt_same (f : Bool) (h : lo < 64) : (flagAt lo f).getLsbD lo = f := by
  rw [flagAt, placed, BitVec.getLsbD_shiftLeft, Nat.sub_self]
  cases f <;> simp [h]

/-- A bit beside a placed field reads 0. -/
theorem getLsbD_placed_beside (v : BitVec k) (h : p < lo ∨ lo + k ≤ p) : (placed lo v).getLsbD p = false :=
  getLsbD_of_extractLsb'_eq_zero (extractLsb'_placed_beside (len := 1) v (by omega)) le_rfl (by omega)

/-- A bit beside a flag reads 0. -/
theorem getLsbD_flagAt_beside (f : Bool) (h : p ≠ lo) : (flagAt lo f).getLsbD p = false :=
  getLsbD_placed_beside _ (by omega)

/-- A field beside a flag reads 0. -/
theorem extractLsb'_flagAt_beside (f : Bool) (h : p + len ≤ lo ∨ lo < p) : (flagAt lo f).extractLsb' p len = 0#len :=
  extractLsb'_placed_beside _ h

end Fields

/-- The value of a register of fewer than 64 bits. -/
theorem toNat_setWidth_word {k : Nat} (v : BitVec k) (h : k ≤ 64) : (v.setWidth 64).toNat = v.toNat :=
  BitVec.toNat_setWidth_of_le h

/-- HUF_STATE holds the number of leaves of a valid tree (10_state R51). -/
theorem Block.toNat_nleaves (b : Block) : b.nleaves.toNat = if b.treeValid then Machine.nleaves b.freq else 0 := by
  have hle := nleaves_le b.freq
  unfold Block.nleaves
  split
  · rw [BitVec.toNat_ofNat]
    omega
  · rfl

/-- STATUS, field by field (10_state R36). -/
theorem Status.word_fields (t : Status) :
    t.word.getLsbD 0 = t.busy ∧ t.word.getLsbD 1 = t.done ∧ t.word.getLsbD 2 = t.err ∧ t.word.getLsbD 3 = t.werr ∧
      t.word.extractLsb' 4 4 = 0 ∧ t.word.extractLsb' 8 8 = faultNum t.fault ∧ t.word.extractLsb' 16 8 = t.lastOp ∧
      t.word.extractLsb' 24 40 = 0 := by
  simp (disch := decide) only [Status.word, BitVec.getLsbD_or, BitVec.extractLsb'_or, getLsbD_flagAt_same,
    getLsbD_flagAt_beside, Bool.or_false, getLsbD_placed_beside, extractLsb'_placed_same, extractLsb'_placed_beside, extractLsb'_flagAt_beside, Bool.false_or, BitVec.or_zero, BitVec.zero_or, BitVec.ofNat_eq_ofNat, and_self]

/-- BW_STATE, field by field (10_state R47). -/
theorem Block.bwStateWord_fields (b : Block) :
    b.bwStateWord.extractLsb' 0 8 = b.bwAcc ∧ b.bwStateWord.extractLsb' 8 3 = b.bwCnt ∧
      b.bwStateWord.extractLsb' 11 5 = 0 ∧ b.bwStateWord.getLsbD 16 = b.bwOpen ∧ b.bwStateWord.extractLsb' 17 47 = 0 := by
  simp (disch := decide) only [Block.bwStateWord, BitVec.getLsbD_or, BitVec.extractLsb'_or, getLsbD_flagAt_same,
    getLsbD_placed_beside, extractLsb'_placed_same, extractLsb'_placed_beside, extractLsb'_flagAt_beside, Bool.false_or, BitVec.or_zero, BitVec.zero_or, BitVec.ofNat_eq_ofNat, and_self]

/-- HUF_STATE, field by field (10_state R51). -/
theorem Block.hufStateWord_fields (b : Block) :
    b.hufStateWord.extractLsb' 0 9 = b.nleaves ∧ b.hufStateWord.extractLsb' 9 7 = 0 ∧
      b.hufStateWord.getLsbD 16 = b.treeValid ∧ b.hufStateWord.extractLsb' 17 47 = 0 := by
  simp (disch := decide) only [Block.hufStateWord, BitVec.getLsbD_or, BitVec.extractLsb'_or, getLsbD_flagAt_same,
    getLsbD_placed_beside, extractLsb'_placed_same, extractLsb'_placed_beside, extractLsb'_flagAt_beside, Bool.false_or, BitVec.or_zero, BitVec.ofNat_eq_ofNat, and_self]

/-- The four codeword registers are the codeword, cut in four (10_state R50). -/
theorem codeWords_append (v : BitVec 256) :
    v.extractLsb' 192 64 ++ v.extractLsb' 128 64 ++ v.extractLsb' 64 64 ++ v.extractLsb' 0 64 = v := by
  have join {lo len hi len' : Nat} (h : hi = lo + len) : v.extractLsb' hi len' ++ v.extractLsb' lo len = _ :=
    BitVec.extractLsb'_append_extractLsb'_eq_extractLsb' h
  rw [join (lo := 128) (len := 64) rfl, join (lo := 64) (len := 64) rfl, join (lo := 0) (len := 64) rfl]
  exact BitVec.extractLsb'_eq_self

/-- IRQ_EN holds one bit (10_state R38). -/
theorem irqEn_fields (f : Bool) : (flagAt 0 f).getLsbD 0 = f ∧ (flagAt 0 f).extractLsb' 1 63 = 0 :=
  ⟨getLsbD_flagAt_same f (by decide), extractLsb'_placed_beside _ (by decide)⟩

/-- Settles O15: the registers of several fields are their words' fields, the others the state's. -/
theorem registerFields : Obligations.RegisterFields := by
  refine ⟨by decide, fun b => ⟨?_, b.status.word_fields, b.bwStateWord_fields, ?_, codeWords_append b.code⟩⟩
  · obtain ⟨henable, hzero⟩ := irqEn_fields b.irqEn
    exact ⟨rfl, rfl, rfl, henable, hzero, rfl, rfl, rfl, rfl, rfl, rfl, rfl, rfl, rfl, rfl, rfl,
      toNat_setWidth_word _ (by decide), toNat_setWidth_word _ (by decide), toNat_setWidth_word _ (by decide),
      toNat_setWidth_word _ (by decide)⟩
  · obtain ⟨hleaves, hmid, hvalid, hhigh⟩ := b.hufStateWord_fields
    exact ⟨(congrArg BitVec.toNat hleaves).trans b.toNat_nleaves, hmid, hvalid, hhigh⟩

/-! ### Writes while BUSY is 0 (10_state R34) -/

section IdleWrites

variable {s : State} (hreset : s.cur.inReset = false) (hidle : s.cur.status.busy = false)
include hreset hidle

/-- A write to a register other than CMD writes that register. -/
theorem State.hostWrite_of_idle {r : Reg} (hr : r ≠ .cmd) (v : Word) :
    s.hostWrite (regOffset r) v = { s with cur := s.cur.writeReg v r } := by
  cases r with
  | cmd => exact absurd rfl hr
  | _ => simp [State.hostWrite, hreset, hidle]

/-- A write to an offset with no register is ignored. -/
theorem State.hostWrite_reserved {off : Nat} (hoff : regAt off = none) (v : Word) : s.hostWrite off v = s := by
  simp [State.hostWrite, hreset, hidle, hoff]

/-- A write to a read-only or reserved offset changes nothing. -/
theorem State.hostWrite_readOnly {off : Nat}
    (hoff : off ∉ [0x008, 0x010, 0x020, 0x028, 0x030, 0x038, 0x040, 0x050, 0x058, 0x060, 0x070]) (v : Word) :
    s.hostWrite off v = s := by
  cases hr : regAt off with
  | none => exact s.hostWrite_reserved hreset hidle hr v
  | some r =>
    obtain rfl := eq_regOffset_of_regAt hr
    have hcmd : r ≠ .cmd := fun h => hoff (by rw [h]; decide)
    rw [State.hostWrite_of_idle hreset hidle hcmd]
    cases r with
    | id | faultInfo | dstLen | dictSize | bwState | brByte | brBit | brData | symOut | hufState | codeLen | codeW0 | codeW1
    | codeW2 | codeW3 => rfl
    | _ => exact absurd (by decide) hoff

end IdleWrites

/-- Settles O12: a write to a register is `writeReg` at its offset. -/
theorem idleWrites : Obligations.IdleWrites := fun s _ v hreset hidle =>
  have hwrite {r : Reg} (hr : r ≠ .cmd) := s.hostWrite_of_idle hreset hidle hr v
  ⟨fun hoff => s.hostWrite_readOnly hreset hidle hoff v, hwrite (r := .status) (by decide), hwrite (r := .irqEn) (by decide),
    hwrite (r := .srcAddr) (by decide), hwrite (r := .srcLen) (by decide), hwrite (r := .dstAddr) (by decide),
    hwrite (r := .dstCap) (by decide), hwrite (r := .metaAddr) (by decide), hwrite (r := .origSize) (by decide),
    hwrite (r := .codeCount) (by decide), hwrite (r := .bwData) (by decide)⟩

/-! ### Reads (10_state R34, R35, R55) -/

/-- Reading STATUS makes results visible and leaves every register (20_memory R90). -/
@[simp] theorem Block.readReg_acquire (b : Block) (r : Reg) : b.acquire.readReg r = b.readReg r := by cases r <;> rfl

section Reads

variable {s : State} (hreset : s.cur.inReset = false)
include hreset

/-- ID and IRQ_EN read as they are at any time. -/
theorem State.hostRead_current {r : Reg} (hr : r = .id ∨ r = .irqEn) :
    s.hostRead (regOffset r) = s.logged (s.cur.readReg r) := by
  rcases hr with rfl | rfl <;> simp [State.hostRead, hreset]

/-- STATUS reads as it is; with BUSY = 0 the read makes the command's results visible (20_memory R90). -/
theorem State.hostRead_status :
    s.hostRead 0x010 =
      if s.cur.status.busy then s.logged (s.cur.readReg .status)
      else { s.logged (s.cur.readReg .status) with cur := s.cur.acquire } := by
  have hoff : regAt 0x010 = some .status := rfl
  simp [State.hostRead, hreset, hoff]

/-- CMD and the offsets with no register read as a draw while BUSY is 1, else as 0. -/
theorem State.hostRead_cmd_or_reserved {off : Nat} (hoff : regAt off = some .cmd ∨ regAt off = none) :
    s.hostRead off = if s.cur.status.busy then s.loggedDraw else s.logged 0 := by
  rcases hoff with h | h <;> simp [State.hostRead, hreset, h, Block.readReg]

/-- Every other register reads as a draw while BUSY is 1 and until the host has read STATUS. -/
theorem State.hostRead_result {r : Reg} (hr : r ∉ [.id, .cmd, .status, .irqEn]) :
    s.hostRead (regOffset r) =
      if s.cur.status.busy || !s.cur.track.seen then s.loggedDraw else s.logged (s.cur.readReg r) := by
  cases r with
  | id | cmd | status | irqEn => exact absurd (by decide) hr
  | _ => simp [State.hostRead, hreset]

/-- While BUSY is 1 every read but those of ID, STATUS and IRQ_EN is a draw. -/
theorem State.hostRead_busy {off : Nat} (hbusy : s.cur.status.busy = true) (hid : off ≠ 0x000) (hstatus : off ≠ 0x010)
    (hirq : off ≠ 0x020) : s.hostRead off = s.loggedDraw := by
  cases hr : regAt off with
  | none => rw [State.hostRead_cmd_or_reserved hreset (.inr hr), if_pos hbusy]
  | some r =>
    obtain rfl := eq_regOffset_of_regAt hr
    by_cases hcmd : r = .cmd
    · rw [State.hostRead_cmd_or_reserved hreset (.inl (hcmd ▸ hr)), if_pos hbusy]
    · rw [State.hostRead_result hreset, hbusy]
      · rfl
      · rintro hmem
        simp only [List.mem_cons, List.not_mem_nil, or_false] at hmem
        rcases hmem with rfl | rfl | rfl | rfl <;> contradiction

/-- Once the results are visible every read but that of STATUS gives the register's value. -/
theorem State.hostRead_seen {off : Nat} (hidle : s.cur.status.busy = false) (hseen : s.cur.track.seen = true)
    (hstatus : off ≠ 0x010) : s.hostRead off = s.logged (s.cur.readAt off) := by
  cases hr : regAt off with
  | none => rw [State.hostRead_cmd_or_reserved hreset (.inr hr), hidle, Block.readAt, hr]; rfl
  | some r =>
    rw [Block.readAt, hr]
    obtain rfl := eq_regOffset_of_regAt hr
    by_cases hcur : r = .id ∨ r = .irqEn
    · exact State.hostRead_current hreset hcur
    · by_cases hcmd : r = .cmd
      · rw [State.hostRead_cmd_or_reserved hreset (.inl (hcmd ▸ hr)), hidle, hcmd]; rfl
      · rw [State.hostRead_result hreset, hidle, hseen]
        · rfl
        · rintro hmem
          simp only [List.mem_cons, List.not_mem_nil, or_false] at hmem
          rcases hmem with rfl | rfl | rfl | rfl <;> simp at hcur hcmd hstatus
          exact hstatus rfl

end Reads

/-- A read changes no more of an instance than what the host has acquired. -/
theorem State.hostRead_cur (s : State) (off : Nat) : (s.hostRead off).cur = s.cur ∨ (s.hostRead off).cur = s.cur.acquire := by
  unfold State.hostRead
  split
  · exact .inl rfl
  · split
    case h_3 =>
      by_cases hbusy : s.cur.status.busy = true <;> simp [hbusy]
    all_goals (repeat' split) <;> exact .inl rfl

/-- Settles O13: the current registers, the draws of a busy block, the values once STATUS has been read, the offsets that read
0, and what a read leaves. -/
theorem hostReads : Obligations.HostReads := by
  intro s off hreset
  refine ⟨?_, ?_, ?_, ?_, ?_⟩
  · rintro (rfl | rfl | rfl)
    · rw [show (0x000 : Nat) = regOffset .id from rfl, State.hostRead_current hreset (.inl rfl)]; rfl
    · rw [State.hostRead_status hreset]
      split <;> rfl
    · rw [show (0x020 : Nat) = regOffset .irqEn from rfl, State.hostRead_current hreset (.inr rfl)]; rfl
  · intro hid hstatus hirq hbusy
    rw [State.hostRead_busy hreset hbusy hid hstatus hirq]
    rfl
  · intro _ hstatus _ hidle
    have hread : (s.hostRead 0x010) = { s.logged (s.cur.readReg .status) with cur := s.cur.acquire } := by
      rw [State.hostRead_status hreset, hidle]; rfl
    rw [hread, State.hostRead_seen (s := { s.logged (s.cur.readReg .status) with cur := s.cur.acquire }) hreset hidle rfl hstatus]
    simp only [State.logged_log, Block.readAt, Block.readReg_acquire]
    rfl
  · intro hoff hidle
    have hreg : regAt off = some .cmd ∨ regAt off = none :=
      hoff.imp (fun h => regAt_eq_some_iff.2 h) regAt_eq_none_iff.2
    rw [State.hostRead_cmd_or_reserved hreset hreg, hidle]
    rfl
  · intro r
    rcases s.hostRead_cur off with h | h <;> simp [h]

/-! ### The interrupt line (60_exceptions R278) -/

/-- Settles O54: each event writes EN, DONE or ERR. -/
theorem interruptLine : Obligations.InterruptLine := by
  intro b
  refine ⟨rfl, fun henable => ⟨by simp [Block.irq, henable], fun code info => by simp [Block.irq, henable]⟩,
    fun houtcome v hv => ?_, fun v hdone herr => ?_, fun v hv => ?_, fun w => ?_, rfl⟩
  · rcases houtcome with h | h <;> simp [Block.irq, Block.writeReg, hv, h]
  · simp [Block.irq, Block.writeReg, hdone, herr]
  · simp only [Block.irq, Block.writeReg, hv, Bool.false_and]
  · simp [Block.irq, Block.submit]

end Sys2Proof.Machine
end

section
/-! BW_PUT, BW_FINISH and BR_GET past their checks, and the statements O31 to O33 (40_bitio R144, R145, R147). -/

namespace Sys2Proof.Machine

section BitIO

variable {s : State}

/-! ### The writer (40_bitio R141, R144, R145) -/

/-- The destination has room for the bytes that `k` more bits complete. -/
def Block.Room (b : Block) (k : Nat) : Prop := b.pushes k = 0 ∨ b.dstLen.toNat + b.pushes k ≤ b.dstCap.toNat

/-- Past the room stands the fault CAPACITY. -/
theorem Block.not_room_iff (b : Block) (k : Nat) :
    ¬b.Room k ↔ 0 < b.pushes k ∧ b.dstCap.toNat < b.dstLen.toNat + b.pushes k := by
  rw [Block.Room]
  omega

/-- Room keeps DST_LEN below 2^64. -/
theorem Block.Room.lt {b : Block} {k : Nat} (h : b.Room k) : b.dstLen.toNat + b.pushes k < 2 ^ 64 := by
  have hlen := b.dstLen.isLt
  have hcap := b.dstCap.isLt
  rw [Block.Room] at h
  omega

/-- Bits put where there is room for them (40_bitio R141). -/
theorem putBits_of_room {b : Block} {m : Memory} {bits : Bits} (hacc : b.bwAcc.toNat < 2 ^ b.bwCnt.toNat)
    (hroom : b.Room bits.length) :
    putBits (b, m) bits =
      (b.holding (b.pushes bits.length) (b.partialBits ++ bits),
        m.writeBytes (b.dstAddr.toNat + b.dstLen.toNat) (packWhole (b.pushes bits.length) (b.partialBits ++ bits))) :=
  putBits_eq b m bits hacc hroom.lt

/-- BW_PUT with room for its bits. -/
theorem exec_bwPut_of_room {n : BitVec 7} (hopen : s.cur.bwOpen = true) (hpass : s.ChecksPass (.bwPut n))
    (hroom : s.cur.Room n.toNat) :
    exec (.bwPut n) s =
      .next (s.completed (putBits (s.cur, s.mem) (lowBits n.toNat s.cur.bwData)).1
        (putBits (s.cur, s.mem) (lowBits n.toNat s.cur.bwData)).2) := by
  rw [exec_bwPut_of_pass hopen hpass, if_neg]
  exact fun h => (s.cur.not_room_iff _).2 h hroom

/-- BW_PUT without room for its bits. -/
theorem exec_bwPut_of_not_room {n : BitVec 7} (hopen : s.cur.bwOpen = true) (hpass : s.ChecksPass (.bwPut n))
    (hroom : ¬s.cur.Room n.toNat) :
    exec (.bwPut n) s = .next (s.faulted .capacity (s.cur.dstLen.toNat + s.cur.pushes n.toNat)) := by
  rw [exec_bwPut_of_pass hopen hpass, if_pos ((s.cur.not_room_iff _).1 hroom)]

/-- Settles O31: there is room, so the writer's closed form holds. -/
theorem bwPutAppends : Obligations.BwPutAppends := by
  intro n s hopen hpass hacc hroom
  refine ⟨_, _, rfl, rfl, ?_⟩
  have hroom : s.cur.Room n.toNat := hroom
  have hput := putBits_of_room (m := s.mem) (bits := lowBits n.toNat s.cur.bwData) hacc (by rwa [length_lowBits])
  rw [length_lowBits] at hput
  rw [exec_bwPut_of_room hopen hpass hroom, hput]
  rfl

/-- BW_FINISH with no partial byte. -/
theorem exec_bwFinish_of_empty (hopen : s.cur.bwOpen = true) (hpass : s.ChecksPass .bwFinish) (hcnt : s.cur.bwCnt = 0) :
    exec .bwFinish s = .next (s.completed s.cur.closeWriter s.mem) := by
  have hflush : flush (s.cur, s.mem) = (s.cur, s.mem) := if_pos hcnt
  rw [exec_bwFinish_of_pass hopen hpass, if_neg fun h => h.1 hcnt, hflush]

/-- BW_FINISH with a partial byte and room for it. -/
theorem exec_bwFinish_of_partial (hopen : s.cur.bwOpen = true) (hpass : s.ChecksPass .bwFinish) (hcnt : s.cur.bwCnt ≠ 0)
    (hcap : s.cur.dstLen.toNat + 1 ≤ s.cur.dstCap.toNat) :
    exec .bwFinish s =
      .next (s.completed { s.cur.closeWriter with dstLen := s.cur.dstLen + 1 }
        (s.mem.write (s.cur.dstAddr.toNat + s.cur.dstLen.toNat) s.cur.flushByte)) := by
  have hflush : flush (s.cur, s.mem) = ({ s.cur with dstLen := s.cur.dstLen + 1 },
      s.mem.write (s.cur.dstAddr.toNat + s.cur.dstLen.toNat) s.cur.flushByte) := if_neg hcnt
  rw [exec_bwFinish_of_pass hopen hpass, if_neg fun h => by omega, hflush]
  rfl

/-- BW_FINISH with a partial byte and no room for it. -/
theorem exec_bwFinish_of_full (hopen : s.cur.bwOpen = true) (hpass : s.ChecksPass .bwFinish) (hcnt : s.cur.bwCnt ≠ 0)
    (hcap : s.cur.dstCap.toNat < s.cur.dstLen.toNat + 1) :
    exec .bwFinish s = .next (s.faulted .capacity (s.cur.dstLen.toNat + 1)) := by
  rw [exec_bwFinish_of_pass hopen hpass, if_pos ⟨hcnt, hcap⟩]

/-- The number after a word's, as a word. -/
theorem ofNat_toNat_add_one (w : Word) : BitVec.ofNat 64 (w.toNat + 1) = w + 1 :=
  BitVec.eq_of_toNat_eq (by simp)

/-- Settles O32: the flushed byte holds the partial bits. -/
theorem bwFinishFlushes : Obligations.BwFinishFlushes := by
  intro s hopen hpass hacc
  refine ⟨exec_bwFinish_of_empty hopen hpass, fun hcnt hcap => ?_⟩
  rw [exec_bwFinish_of_partial hopen hpass hcnt hcap, s.cur.flushByte_eq hacc, ofNat_toNat_add_one]
  rfl

/-! ### The reader (40_bitio R142, R147) -/

/-- BR_GET with enough bits left. -/
theorem exec_brGet_of_avail {n : BitVec 7} (hpass : s.ChecksPass (.brGet n)) (havail : n.toNat ≤ s.cur.avail) :
    exec (.brGet n) s =
      .next (s.completed
        { (getBits s.mem s.cur n.toNat).2 with brData := BitVec.ofNat 64 (bitsValue (getBits s.mem s.cur n.toNat).1) }
        s.mem) :=
  (State.guard_of_pass _ hpass).trans (if_neg (Nat.not_lt.2 havail))

/-- BR_GET with too few bits left. -/
theorem exec_brGet_of_endOfStream {n : BitVec 7} (hpass : s.ChecksPass (.brGet n)) (havail : s.cur.avail < n.toNat) :
    exec (.brGet n) s = .next (s.faulted .bitEndOfStream s.cur.avail) :=
  (State.guard_of_pass _ hpass).trans (if_pos havail)

/-- The bits BR_GET reads, and where it leaves the reader. -/
theorem State.getBits_unread {n : Nat} (hpos : 1 ≤ n) (havail : n ≤ s.cur.avail) :
    getBits s.mem s.cur n = (s.unread.take n, s.cur.readerAt (s.cur.streamPos + n)) := by
  have hsrc : s.cur.avail = 8 * s.cur.srcLen.toNat - s.cur.streamPos := rfl
  exact getBits_eq s.mem s.cur n (by omega)

/-- Settles O33: the unread bits are as many as `avail` says. -/
theorem brGetReads : Obligations.BrGetReads := by
  intro n s hpos hle hpass
  rw [s.length_unread]
  refine ⟨fun havail => ?_, exec_brGet_of_endOfStream hpass⟩
  rw [exec_brGet_of_avail hpass havail, s.getBits_unread hpos havail]
  rfl

end BitIO

end Sys2Proof.Machine
end

section
/-! The Huffman tree and its codewords: the statements O35 to O37 (41_huffman R171 to R174). -/

namespace Sys2Proof.Machine

/-! ### The queue order (41_huffman R172) -/

/-- The queue order compares frequency, then symbol, then creation number. -/
theorem HufTree.popsBefore_iff (a b : HufTree) :
    a.popsBefore b = true ↔
      a.freq < b.freq ∨ a.freq = b.freq ∧ (a.symKey < b.symKey ∨ a.symKey = b.symKey ∧ a.seqKey < b.seqKey) := by
  simp only [HufTree.popsBefore, Bool.or_eq_true, Bool.and_eq_true, decide_eq_true_eq]

/-- A node that does not pop before another does not pop before one that pops no earlier. -/
theorem HufTree.not_popsBefore_trans {a b c : HufTree} (hab : a.popsBefore b = false) (hbc : b.popsBefore c = false) :
    a.popsBefore c = false := by
  simp only [← Bool.not_eq_true, HufTree.popsBefore_iff] at *
  omega

/-- A node that pops before another is not popped before by it. -/
theorem HufTree.popsBefore_asymm {a b : HufTree} (h : a.popsBefore b = true) : b.popsBefore a = false := by
  simp only [← Bool.not_eq_true, HufTree.popsBefore_iff] at *
  omega

/-- The node popped pops no later than any that stays. -/
theorem popMin_least {q rest : List HufTree} {m : HufTree} (h : popMin q = some (m, rest)) :
    ∀ x ∈ rest, x.popsBefore m = false := by
  induction q generalizing m rest with
  | nil => cases h
  | cons t q ih =>
    simp only [popMin] at h
    split at h
    · cases h
      simp
    · next x r hx =>
      have hleast := ih hx
      split at h
      · next hxt =>
        cases h
        rintro y (_ | ⟨_, hy⟩)
        · exact HufTree.popsBefore_asymm hxt
        · exact hleast y hy
      · next hxt =>
        cases h
        intro y hy
        have hxt : x.popsBefore t = false := by simpa using hxt
        rcases List.mem_cons.1 ((popMin_perm hx).symm.subset hy) with rfl | hyr
        · exact hxt
        · exact HufTree.not_popsBefore_trans (hleast y hyr) hxt

/-- Settles O35: what is popped is taken out of the queue and nothing that stays has a lesser key. -/
theorem popMinTakesLeast : Obligations.PopMinTakesLeast := by
  intro q hq
  obtain ⟨⟨m, rest⟩, hpop⟩ := Option.ne_none_iff_exists'.1 (mt (popMin_eq_none q).1 hq)
  refine ⟨m, rest, hpop, popMin_perm hpop, fun x hx => ?_⟩
  have hkey := popMin_least hpop x hx
  rw [← Bool.not_eq_true, HufTree.popsBefore_iff] at hkey
  cases m <;> cases x <;>
    simp only [HufTree.freq, HufTree.symKey, HufTree.seqKey, true_and, lt_irrefl, false_or] at hkey ⊢ <;> omega

/-! ### The loop of BuildTree (41_huffman R171) -/

/-- The function and the relation of the loop agree, given a turn for each node. -/
theorem mergeTrees_eq_some_iff {fuel k : Nat} {q : List HufTree} {root : HufTree} (hfuel : q.length ≤ fuel) :
    mergeTrees fuel k q = some root ↔ TreeLoop k q root := by
  induction fuel generalizing k q with
  | zero =>
    obtain rfl : q = [] := List.length_eq_zero_iff.1 (by omega)
    simp only [mergeTrees, reduceCtorEq, false_iff]
    rintro (_ | ⟨hpop, -, -⟩)
    cases hpop
  | succ fuel ih =>
    rw [mergeTrees]
    split
    · next hpop =>
      obtain rfl := (popMin_eq_none q).1 hpop
      simp only [reduceCtorEq, false_iff]
      rintro (_ | ⟨hpop', -, -⟩)
      cases hpop'
    · next l q₁ hpop =>
      have hperm := popMin_perm hpop
      split
      · next hpop₁ =>
        rw [(popMin_eq_none q₁).1 hpop₁] at hperm
        obtain rfl := List.singleton_perm.1 hperm
        constructor
        · rintro ⟨⟩
          exact .done k _
        · rintro (_ | ⟨hpop', hpop₁', -⟩)
          · rfl
          · cases hpop.symm.trans hpop'
            cases hpop₁.symm.trans hpop₁'
      · next r q₂ hpop₁ =>
        have hlen := hperm.length_eq
        have hlen₁ := (popMin_perm hpop₁).length_eq
        simp only [List.length_cons] at hlen hlen₁
        rw [ih (by simp only [List.length_cons]; omega)]
        constructor
        · exact .turn hpop hpop₁
        · rintro (_ | ⟨hpop', hpop₁', hloop⟩)
          · simp only [List.length_cons, List.length_nil] at hlen
            omega
          · cases hpop.symm.trans hpop'
            cases hpop₁.symm.trans hpop₁'
            exact hloop

/-- A symbol that does not occur adds nothing to the sum of the counts. -/
theorem sum_counts_occurring (f : FreqTable) (syms : List Byte) :
    ((syms.filter fun s => f.count s ≠ 0).map fun s => (f.count s).toNat).sum =
      (syms.map fun s => (f.count s).toNat).sum := by
  induction syms with
  | nil => rfl
  | cons s syms ih =>
    by_cases hs : f.count s = 0
    · simp_all
    · simp_all

/-- Settles O36: the fuel of `buildTree` is a turn for each leaf, and its tree is the one `buildTree_eq` describes. -/
theorem treeHasEachSymbolOnce : Obligations.TreeHasEachSymbolOnce := by
  intro f
  refine ⟨?_, fun root => ⟨?_, fun hbuild => ?_⟩⟩
  · rcases codeTable_cases f with ⟨-, hbuild, hzero⟩ | ⟨s, n, -, hbuild, hs, -⟩ | ⟨n, k, l, r, hleaves, hbuild, -⟩
    · simp [hbuild, hzero]
    · simp only [hbuild, reduceCtorEq, false_iff, not_forall]
      exact ⟨s, hs⟩
    · simp only [hbuild, reduceCtorEq, false_iff]
      intro hzero
      rw [nleaves_eq] at hleaves
      simp [hzero] at hleaves
  · rw [← leaves_eq]
    exact mergeTrees_eq_some_iff le_rfl
  · rcases buildTree_eq f with ⟨-, hnone⟩ | ⟨root', hbuild', hsyms, hfreq⟩
    · rw [hnone] at hbuild
      cases hbuild
    · obtain rfl : root' = root := Option.some.inj (hbuild'.symm.trans hbuild)
      exact ⟨hsyms, hfreq.trans (sum_counts_occurring f allSymbols)⟩

/-! ### Codewords (41_huffman R173, R174) -/

/-- A codeword is the path to its leaf. -/
theorem HufTree.mem_assign_iff_path (t : HufTree) (sym : Byte) (p : Bits) : (sym, p) ∈ t.assign [] ↔ t.Path sym p := by
  induction t generalizing p with
  | leaf s f =>
    simp only [HufTree.assign, List.mem_singleton, Prod.mk.injEq]
    constructor
    · rintro ⟨rfl, rfl⟩
      exact .leaf sym f
    · rintro ⟨⟩
      exact ⟨rfl, rfl⟩
  | node f k l r ihl ihr =>
    simp only [HufTree.assign_node, List.mem_append, List.mem_map, Prod.mk.injEq]
    constructor
    · rintro (⟨e, he, rfl, rfl⟩ | ⟨e, he, rfl, rfl⟩)
      · exact .left ((ihl e.2).1 he)
      · exact .right ((ihr e.2).1 he)
    · rintro (_ | hpath | hpath)
      · exact .inl ⟨_, (ihl _).2 hpath, rfl, rfl⟩
      · exact .inr ⟨_, (ihr _).2 hpath, rfl, rfl⟩

section TwoLeaves

variable {f : FreqTable} {n k : Nat} {l r : HufTree} (hbuild : buildTree f = some (.node n k l r))
  (hperm : (HufTree.node n k l r).syms.Perm (allSymbols.filter fun s => f.count s ≠ 0))
  (hnodup : (HufTree.node n k l r).syms.Nodup)
include hbuild hperm hnodup

/-- In a tree of two leaves or more the codewords that stand in it are those of the symbols that occur. -/
theorem mem_assign_iff_codeOf (s : Byte) (p : Bits) :
    (s, p) ∈ (HufTree.node n k l r).assign [] ↔ f.count s ≠ 0 ∧ p = codeOf (codeTable (buildTree f)) s := by
  constructor
  · intro hmem
    have hs : s ∈ (HufTree.node n k l r).syms := by
      rw [← HufTree.assign_syms _ []]
      exact List.mem_map_of_mem hmem
    have hlookup := lookup_of_mem (by rw [HufTree.assign_syms]; exact hnodup) hmem
    refine ⟨(mem_occurring f s).1 (hperm.subset hs), ?_⟩
    rw [hbuild, codeTable, codeOf, hlookup]
    rfl
  · rintro ⟨hs, rfl⟩
    exact codeOf_mem hbuild hperm hnodup hs

end TwoLeaves

/-- A symbol has an empty slot exactly when it does not occur. -/
theorem codeOf_eq_nil_iff (f : FreqTable) (s : Byte) : codeOf (codeTable (buildTree f)) s = [] ↔ f.count s = 0 :=
  ⟨fun h => by_contra fun hs => codeOf_ne_nil f s hs h, codeOf_of_count_zero f s⟩

/-- The one symbol that occurs has the codeword 0. -/
theorem codeOf_singleLeaf {f : FreqTable} {s : Byte} (hleaf : nleaves f = 1) (hs : f.count s ≠ 0) :
    codeOf (codeTable (buildTree f)) s = [false] := by
  rcases codeTable_cases f with ⟨h0, -⟩ | ⟨x, n, -, hbuild, -, hx⟩ | ⟨n, k, l, r, h2, -⟩
  · omega
  · rw [hbuild, hx s hs]
    simp [codeTable, codeOf]
  · omega

/-- With two leaves or more a codeword is shorter than their number. -/
theorem length_codeOf_le {f : FreqTable} (hleaves : 2 ≤ nleaves f) (s : Byte) :
    (codeOf (codeTable (buildTree f)) s).length ≤ nleaves f - 1 := by
  by_cases hs : f.count s = 0
  · simp [codeOf_of_count_zero f s hs]
  · rcases codeTable_cases f with ⟨h0, -⟩ | ⟨x, n, h1, -⟩ | ⟨n, k, l, r, -, hbuild, hperm, hlen, hnodup⟩
    · omega
    · omega
    · have hlt := HufTree.assign_length _ _ (codeOf_mem hbuild hperm hnodup hs)
      simp only at hlt
      omega

/-- Every codeword fits CODE_LEN. -/
theorem length_codeOf_le_255 (f : FreqTable) (s : Byte) : (codeOf (codeTable (buildTree f)) s).length ≤ 255 := by
  have hmax := nleaves_le f
  by_cases hs : f.count s = 0
  · simp [codeOf_of_count_zero f s hs]
  · rcases codeTable_cases f with ⟨-, -, hzero⟩ | ⟨x, n, hleaf, -⟩ | ⟨n, k, l, r, hleaves, -⟩
    · exact absurd (hzero s) hs
    · simp [codeOf_singleLeaf hleaf hs]
    · have hlen := length_codeOf_le hleaves s
      omega

/-- No codeword is a beginning of another symbol's. -/
theorem eq_of_codeOf_isPrefix {f : FreqTable} {x y : Byte} (hx : f.count x ≠ 0) (hy : f.count y ≠ 0)
    (h : codeOf (codeTable (buildTree f)) x <+: codeOf (codeTable (buildTree f)) y) : x = y := by
  rcases codeTable_cases f with ⟨-, -, hzero⟩ | ⟨s, n, -, -, -, hone⟩ | ⟨n, k, l, r, -, hbuild, hperm, -, hnodup⟩
  · exact absurd (hzero x) hx
  · rw [hone x hx, hone y hy]
  · exact congrArg Prod.fst (HufTree.assign_prefix_free _ _ _ (codeOf_mem hbuild hperm hnodup hx)
      (codeOf_mem hbuild hperm hnodup hy) h)

/-- Settles O37: the codewords are the paths of the tree, as long as it is deep, and none begins another. -/
theorem codewordsFormPrefixCode : Obligations.CodewordsFormPrefixCode := by
  intro f x
  refine ⟨codeOf_eq_nil_iff f x, fun hx hleaf => codeOf_singleLeaf hleaf hx, fun hx hleaves => ?_,
    fun hleaves => length_codeOf_le hleaves x, length_codeOf_le_255 f x, fun y => eq_of_codeOf_isPrefix⟩
  rcases codeTable_cases f with ⟨h0, -⟩ | ⟨s, n, h1, -⟩ | ⟨n, k, l, r, -, hbuild, hperm, -, hnodup⟩
  · omega
  · omega
  · refine ⟨_, hbuild, fun p => ?_⟩
    rw [← HufTree.mem_assign_iff_path, mem_assign_iff_codeOf hbuild hperm hnodup]
    exact and_iff_right hx

end Sys2Proof.Machine
end

section
/-! The Huffman commands past their checks, and the statements O38 to O47 (41_huffman R176 to R183). -/

namespace Sys2Proof.Machine

section Huffman

variable {s : State}

/-! ### HUF_COUNT, HUF_LOAD_FREQ and HUF_BUILD (41_huffman R176 to R178) -/

/-- Counting the source, where every count fits. -/
theorem countBytes_zero_ok {bytes : List Byte} (h : ∀ sym : Byte, bytes.count sym < 2 ^ 32) :
    ∃ f, countBytes bytes FreqTable.zero = .ok f ∧ ∀ sym : Byte, (f.count sym).toNat = bytes.count sym := by
  obtain ⟨f, hf, hcount⟩ := countBytes_ok bytes FreqTable.zero (by simpa using h)
  exact ⟨f, hf, by simpa using hcount⟩

/-- Counting the source, where a count does not fit. -/
theorem countBytes_zero_error {bytes : List Byte} (h : ∃ sym : Byte, 2 ^ 32 ≤ bytes.count sym) :
    ∃ sym, countBytes bytes FreqTable.zero = .error sym ∧ 2 ^ 32 ≤ bytes.count sym := by
  obtain ⟨sym, hsym, hcount⟩ := countBytes_error bytes FreqTable.zero (by simpa using h)
  exact ⟨sym, hsym, by simpa using hcount⟩

/-- The counts of a table that was counted from nothing. -/
theorem count_of_countBytes_zero {bytes : List Byte} {f : FreqTable} (h : countBytes bytes FreqTable.zero = .ok f)
    (sym : Byte) : (f.count sym).toNat = bytes.count sym := by
  by_cases hfit : ∀ sym : Byte, bytes.count sym < 2 ^ 32
  · obtain ⟨g, hg, hcount⟩ := countBytes_zero_ok hfit
    cases hg.symm.trans h
    exact hcount sym
  · obtain ⟨x, hx, -⟩ := countBytes_zero_error (bytes := bytes) (by simpa using hfit)
    cases hx.symm.trans h

theorem exec_hufCount_of_ok {f : FreqTable} (hpass : s.ChecksPass .hufCount)
    (h : countBytes s.srcBytes FreqTable.zero = .ok f) :
    exec .hufCount s =
      .next (s.completed { s.cur with freq := f, treeValid := false, origSize := s.cur.srcLen }
        (s.mem.writeBytes s.cur.metaAddr.toNat f.bytes)) :=
  (State.guard_of_pass _ hpass).trans (by rw [h]; rfl)

theorem exec_hufCount_of_overflow {sym : Byte} (hpass : s.ChecksPass .hufCount)
    (h : countBytes s.srcBytes FreqTable.zero = .error sym) :
    exec .hufCount s = .next (s.faulted .hufFreqOverflow sym.toNat) :=
  (State.guard_of_pass _ hpass).trans (by rw [h]; rfl)

/-- Settles O38: the counting loop fits or names a symbol, and a stored table reads back. -/
theorem hufCountTable : Obligations.HufCountTable := by
  intro s hpass
  refine ⟨fun hfit => ?_, fun hover => ?_⟩
  · obtain ⟨f, hf, hcount⟩ := countBytes_zero_ok hfit
    exact ⟨f, hcount, exec_hufCount_of_ok hpass hf, f.length_bytes, fun hwf sym => f.readLE_bytes _ _ hwf sym⟩
  · obtain ⟨sym, hsym, hcount⟩ := countBytes_zero_error hover
    exact ⟨sym, hcount, exec_hufCount_of_overflow hpass hsym⟩

theorem exec_hufLoadFreq_of_pass (hpass : s.ChecksPass .hufLoadFreq) :
    exec .hufLoadFreq s =
      .next (s.completed { s.cur with freq := s.mem.readFreq s.cur.metaAddr.toNat, treeValid := false } s.mem) := by
  unfold exec
  exact State.guard_of_pass _ hpass

/-- Settles O39: the table is the one META holds. -/
theorem hufLoadFreqReads : Obligations.HufLoadFreqReads := fun s hpass =>
  ⟨s.mem.readFreq s.cur.metaAddr.toNat, FreqTable.count_readFreq s.mem s.cur.metaAddr.toNat,
    exec_hufLoadFreq_of_pass hpass⟩

theorem exec_hufBuild (s : State) :
    exec .hufBuild s = .next (s.completed { s.cur with treeValid := true } s.mem) := rfl

/-- Settles O40: FREQ stays, and a valid tree's leaves are counted. -/
theorem hufBuildValid : Obligations.HufBuildValid := by
  refine fun s => ⟨exec_hufBuild s, fun t ht => ?_⟩
  cases ht
  exact Block.toNat_nleaves _

/-! ### HUF_CODE and HUF_PUT_SYM (41_huffman R179, R180) -/

theorem exec_hufCode_of_empty {sym : Byte} (htree : s.cur.treeValid = true) (h : codeOf s.cur.codeTable sym = []) :
    exec (.hufCode sym) s = .next (s.faulted .hufEmptyCode sym.toNat) :=
  (if_pos htree).trans (by rw [h]; rfl)

theorem exec_hufCode_of_code {sym : Byte} (htree : s.cur.treeValid = true) (h : codeOf s.cur.codeTable sym ≠ []) :
    exec (.hufCode sym) s =
      .next (s.completed
        { s.cur with
          codeLen := BitVec.ofNat 8 (codeOf s.cur.codeTable sym).length
          code := BitVec.ofNat 256 (bitsValue (codeOf s.cur.codeTable sym)) } s.mem) := by
  refine (if_pos htree).trans ?_
  obtain ⟨bit, bits, hcode⟩ := List.exists_cons_of_ne_nil h
  rw [hcode]
  rfl

/-- Settles O41: a codeword fits the codeword registers. -/
theorem hufCodeLooksUp : Obligations.HufCodeLooksUp := by
  intro sym s htree
  refine ⟨fun hsym => ⟨_, _, ?_, ?_, exec_hufCode_of_code htree (codeOf_ne_nil _ _ hsym)⟩, fun hsym => ?_⟩
  · have hlen := length_codeOf_le_255 s.cur.freq sym
    rw [BitVec.toNat_ofNat, Nat.mod_eq_of_lt]
    exact Nat.lt_succ_of_le hlen
  · have hlen := length_codeOf_le_255 s.cur.freq sym
    rw [BitVec.toNat_ofNat, Nat.mod_eq_of_lt]
    exact (bitsValue_lt _).trans_le (Nat.pow_le_pow_right (by decide) (hlen.trans (by decide)))
  · exact exec_hufCode_of_empty htree (codeOf_of_count_zero _ _ hsym)

section PutSym

variable {sym : Byte} (htree : s.cur.treeValid = true) (hopen : s.cur.bwOpen = true) (hpass : s.ChecksPass (.hufPutSym sym))
include htree hopen hpass

theorem exec_hufPutSym_of_empty (h : codeOf s.cur.codeTable sym = []) :
    exec (.hufPutSym sym) s = .next (s.faulted .hufEmptyCode sym.toNat) :=
  (if_pos htree).trans ((if_pos hopen).trans ((State.guard_of_pass _ hpass).trans (by rw [h]; rfl)))

/-- HUF_PUT_SYM of a symbol that has a codeword. -/
theorem exec_hufPutSym_of_code (h : codeOf s.cur.codeTable sym ≠ []) :
    exec (.hufPutSym sym) s =
      if 0 < s.cur.pushes (codeOf s.cur.codeTable sym).length ∧
          s.cur.dstCap.toNat < s.cur.dstLen.toNat + s.cur.pushes (codeOf s.cur.codeTable sym).length then
        .next (s.faulted .capacity (s.cur.dstLen.toNat + s.cur.pushes (codeOf s.cur.codeTable sym).length))
      else
        .next (s.completed (putBits (s.cur, s.mem) (codeOf s.cur.codeTable sym)).1
          (putBits (s.cur, s.mem) (codeOf s.cur.codeTable sym)).2) := by
  refine (if_pos htree).trans ((if_pos hopen).trans ((State.guard_of_pass _ hpass).trans ?_))
  obtain ⟨bit, bits, hcode⟩ := List.exists_cons_of_ne_nil h
  rw [hcode]
  rfl

theorem exec_hufPutSym_of_room (h : codeOf s.cur.codeTable sym ≠ [])
    (hroom : s.cur.Room (codeOf s.cur.codeTable sym).length) :
    exec (.hufPutSym sym) s =
      .next (s.completed (putBits (s.cur, s.mem) (codeOf s.cur.codeTable sym)).1
        (putBits (s.cur, s.mem) (codeOf s.cur.codeTable sym)).2) := by
  rw [exec_hufPutSym_of_code htree hopen hpass h, if_neg]
  exact fun hfull => (s.cur.not_room_iff _).2 hfull hroom

theorem exec_hufPutSym_of_not_room (h : codeOf s.cur.codeTable sym ≠ [])
    (hroom : ¬s.cur.Room (codeOf s.cur.codeTable sym).length) :
    exec (.hufPutSym sym) s =
      .next (s.faulted .capacity (s.cur.dstLen.toNat + s.cur.pushes (codeOf s.cur.codeTable sym).length)) := by
  rw [exec_hufPutSym_of_code htree hopen hpass h, if_pos ((s.cur.not_room_iff _).1 hroom)]

end PutSym

/-- Settles O42: with room the writer's closed form holds, without it CAPACITY. -/
theorem hufPutSymAppends : Obligations.HufPutSymAppends := by
  intro sym s htree hopen hpass hacc
  have hpushes : s.cur.pushes (codeOf s.cur.codeTable sym).length =
      (s.cur.partialBits ++ codeOf s.cur.codeTable sym).length / 8 := by
    rw [List.length_append, Block.length_partialBits, Block.pushes]
  refine ⟨_, _, rfl, hpushes, fun hsym hroom => ?_, fun hsym hpos hcap => ?_, fun hsym => ?_⟩
  · rw [exec_hufPutSym_of_room htree hopen hpass (codeOf_ne_nil _ _ hsym) hroom, putBits_of_room hacc hroom]
    rfl
  · exact exec_hufPutSym_of_not_room htree hopen hpass (codeOf_ne_nil _ _ hsym) ((s.cur.not_room_iff _).2 ⟨hpos, hcap⟩)
  · exact exec_hufPutSym_of_empty htree hopen hpass (codeOf_of_count_zero _ _ hsym)

/-! ### HUF_GET_SYM (41_huffman R181) -/

section GetSym

variable (htree : s.cur.treeValid = true) (hpass : s.ChecksPass .hufGetSym)
include htree hpass

theorem exec_hufGetSym_of_null (h : buildTree s.cur.freq = none) :
    exec .hufGetSym s = .next (s.faulted .hufNullChild 0) :=
  (if_pos htree).trans ((State.guard_of_pass _ hpass).trans (by rw [h]; rfl))

theorem exec_hufGetSym_of_end {root : HufTree} {b : Block} (hroot : buildTree s.cur.freq = some root)
    (h : decodeSymbol s.mem root s.cur = (none, b)) : exec .hufGetSym s = .next (s.faulted .hufEndOfStream 0) :=
  (if_pos htree).trans ((State.guard_of_pass _ hpass).trans (by simp only [hroot, h]; rfl))

theorem exec_hufGetSym_of_decoded {root : HufTree} {sym : Byte} {b : Block} (hroot : buildTree s.cur.freq = some root)
    (h : decodeSymbol s.mem root s.cur = (some sym, b)) :
    exec .hufGetSym s = .next (s.completed { b with symOut := sym } s.mem) :=
  (if_pos htree).trans ((State.guard_of_pass _ hpass).trans (by simp only [hroot, h]; rfl))

end GetSym

/-- A reader past the end of the source has no unread bits. -/
theorem State.streamPos_le_of_unread_ne_nil (h : s.unread ≠ []) : s.cur.streamPos ≤ 8 * s.cur.srcLen.toNat := by
  have hlen := List.length_pos_iff.2 h
  rw [State.length_unread] at hlen
  have havail : s.cur.avail = 8 * s.cur.srcLen.toNat - s.cur.streamPos := rfl
  omega

/-- Settles O43: one leaf is found at once, a codeword is walked down. -/
theorem hufGetSymDecodes : Obligations.HufGetSymDecodes := by
  intro sym s htree hpass hsym
  refine ⟨fun hleaf => ?_, fun hleaves hprefix => ⟨_, rfl, ?_⟩⟩
  · rcases codeTable_cases s.cur.freq with ⟨h0, -⟩ | ⟨x, n, -, hbuild, -, hx⟩ | ⟨n, k, l, r, h2, -⟩
    · omega
    · rw [hx sym hsym]
      exact exec_hufGetSym_of_decoded htree hpass hbuild rfl
    · omega
  · rcases codeTable_cases s.cur.freq with ⟨h0, -⟩ | ⟨x, n, h1, -⟩ | ⟨n, k, l, r, -, hbuild, hperm, -, hnodup⟩
    · omega
    · omega
    · have hpos := s.streamPos_le_of_unread_ne_nil (hprefix.ne_nil (codeOf_ne_nil _ _ hsym))
      exact exec_hufGetSym_of_decoded htree hpass hbuild
        (decodeSymbol_of_prefix s.mem _ s.cur _ (codeOf_mem hbuild hperm hnodup hsym) hpos hprefix)

/-- The walk from an internal node ends at once where no bit is left. -/
theorem decodeSymbol_node_of_no_bits (m : Memory) (n k : Nat) (l r : HufTree) {b : Block} (h : b.avail = 0) :
    decodeSymbol m (.node n k l r) b = (none, b) := by
  rw [decodeSymbol, if_pos h]

/-- Settles O44: without a tree there is no walk; the walk over no codeword reads to the end. -/
theorem hufGetSymFaults : Obligations.HufGetSymFaults := by
  intro s htree hpass
  refine ⟨fun hzero => ?_, fun hleaves hnone => ?_⟩
  · rcases codeTable_cases s.cur.freq with ⟨-, hbuild, -⟩ | ⟨x, n, -, -, hx, -⟩ | ⟨n, k, l, r, h2, -⟩
    · exact exec_hufGetSym_of_null htree hpass hbuild
    · exact absurd (hzero x) hx
    · rw [nleaves_eq] at h2
      simp [hzero] at h2
  · rcases codeTable_cases s.cur.freq with ⟨h0, -⟩ | ⟨x, n, h1, -⟩ | ⟨n, k, l, r, -, hbuild, hperm, -, hnodup⟩
    · omega
    · omega
    · by_cases hpos : s.cur.streamPos ≤ 8 * s.cur.srcLen.toNat
      · refine exec_hufGetSym_of_end htree hpass hbuild (decodeSymbol_of_no_prefix s.mem _ s.cur hpos ?_)
        rintro ⟨sym, p⟩ hmem
        obtain ⟨hsym, rfl⟩ := (mem_assign_iff_codeOf hbuild hperm hnodup sym p).1 hmem
        exact hnone sym hsym
      · have havail : s.cur.avail = 8 * s.cur.srcLen.toNat - s.cur.streamPos := rfl
        exact exec_hufGetSym_of_end htree hpass hbuild (decodeSymbol_node_of_no_bits _ _ _ _ _ (by omega))

/-! ### HUF_ENCODE (41_huffman R182) -/

/-- Flushing a writer that holds the bits `all` leaves them all packed, the last byte zero-padded (40_bitio R145, 20_memory
R97). -/
theorem flush_holding (b : Block) (m : Memory) (all : Bits) (hlen : b.dstLen.toNat + (all.length + 7) / 8 < 2 ^ 64) :
    (flush (b.holding (all.length / 8) all,
        m.writeBytes (b.dstAddr.toNat + b.dstLen.toNat) (packWhole (all.length / 8) all))).1.closeWriter =
        { b.closeWriter with dstLen := BitVec.ofNat 64 (b.dstLen.toNat + (all.length + 7) / 8) } ∧
      (flush (b.holding (all.length / 8) all,
        m.writeBytes (b.dstAddr.toNat + b.dstLen.toNat) (packWhole (all.length / 8) all))).2 =
        m.writeBytes (b.dstAddr.toNat + b.dstLen.toNat) (packAll all) := by
  have hcnt : (b.holding (all.length / 8) all).bwCnt.toNat = all.length % 8 := by
    rw [Block.holding, BitVec.toNat_ofNat]
    omega
  by_cases hzero : all.length % 8 = 0
  · have hc : (b.holding (all.length / 8) all).bwCnt = 0 := BitVec.eq_of_toNat_eq (by rw [hcnt, hzero]; rfl)
    have hbytes : (all.length + 7) / 8 = all.length / 8 := by omega
    simp only [flush, hc, if_true, packAll, hbytes, and_true]
    rfl
  · have hc : (b.holding (all.length / 8) all).bwCnt ≠ 0 := fun h => hzero (by rw [← hcnt, h]; rfl)
    have hbytes : (all.length + 7) / 8 = all.length / 8 + 1 := by omega
    have hrest : (all.drop (8 * (all.length / 8))).length = all.length % 8 := by rw [List.length_drop]; omega
    have hbyte : (b.holding (all.length / 8) all).flushByte = packByte ((all.drop (8 * (all.length / 8))).take 8) := by
      rw [List.take_of_length_le (by omega), packByte, hrest, Block.flushByte, hcnt]
      apply BitVec.eq_of_toNat_eq
      simp [Block.holding, Nat.shiftLeft_eq]
    have haddr : (b.holding (all.length / 8) all).dstLen.toNat = b.dstLen.toNat + all.length / 8 := by
      rw [Block.holding, BitVec.toNat_ofNat]
      omega
    have hdst : (b.holding (all.length / 8) all).dstAddr = b.dstAddr := rfl
    simp only [flush, if_neg hc, packAll, hbytes, packWhole_succ, Memory.writeBytes_append, length_packWhole, hbyte, haddr, hdst,
      Nat.add_assoc]
    refine ⟨?_, rfl⟩
    have hnext : (b.holding (all.length / 8) all).dstLen + 1 = BitVec.ofNat 64 (b.dstLen.toNat + (all.length / 8 + 1)) := by
      rw [← ofNat_toNat_add_one, haddr, Nat.add_assoc]
    rw [hnext]
    rfl

/-- Bits put into a writer just opened, then flushed (40_bitio R149). -/
theorem flush_putBits_of_fresh {b : Block} {m : Memory} {bits : Bits} (hacc : b.bwAcc = 0) (hcnt : b.bwCnt = 0)
    (hlen : b.dstLen = 0) (hfit : (bits.length + 7) / 8 < 2 ^ 64) :
    (flush (putBits (b, m) bits)).1.closeWriter =
        { b.closeWriter with dstLen := BitVec.ofNat 64 ((bits.length + 7) / 8) } ∧
      (flush (putBits (b, m) bits)).2 = m.writeBytes b.dstAddr.toNat (packAll bits) := by
  have hlen0 : b.dstLen.toNat = 0 := by rw [hlen]; rfl
  have hcnt0 : b.bwCnt.toNat = 0 := by rw [hcnt]; rfl
  have hpartial : b.partialBits = [] := List.length_eq_zero_iff.1 (by rw [Block.length_partialBits, hcnt0])
  have hput := putBits_eq b m bits (by rw [hacc, hcnt0]; decide) (by omega)
  have hflush := flush_holding b m bits (by omega)
  rw [hpartial, hcnt0, Nat.zero_add, List.nil_append] at hput
  rw [hput]
  simpa only [hlen0, Nat.zero_add, Nat.add_zero] using hflush

/-- Where the table was counted from the source, every byte of the source has a codeword. -/
theorem codeOf_ne_nil_of_mem {bytes : List Byte} {f : FreqTable} (hcount : ∀ sym : Byte, (f.count sym).toNat = bytes.count sym)
    {sym : Byte} (hsym : sym ∈ bytes) : codeOf (codeTable (buildTree f)) sym ≠ [] := by
  refine codeOf_ne_nil f sym fun hzero => ?_
  have hpos := List.count_pos_iff.2 hsym
  rw [← hcount, hzero] at hpos
  cases hpos

theorem exec_hufEncode_of_overflow {sym : Byte} (hpass : s.ChecksPass .hufEncode)
    (h : countBytes s.srcBytes FreqTable.zero = .error sym) :
    exec .hufEncode s = .next (s.faulted .hufFreqOverflow sym.toNat) :=
  (State.guard_of_pass _ hpass).trans (by rw [h]; rfl)

section Encode

variable {f : FreqTable} (hpass : s.ChecksPass .hufEncode) (hok : countBytes s.srcBytes FreqTable.zero = .ok f)
include hpass hok

/-- HUF_ENCODE whose payload does not fit. -/
theorem exec_hufEncode_of_full
    (hcap : s.cur.dstCap.toNat < ((payload (codeTable (buildTree f)) s.srcBytes).length + 7) / 8) :
    exec .hufEncode s =
      .next (s.faulted .capacity (((payload (codeTable (buildTree f)) s.srcBytes).length + 7) / 8)) := by
  rw [← payloadBits_eq f _ _ (count_of_countBytes_zero hok)] at hcap ⊢
  exact (State.guard_of_pass _ hpass).trans (by simp only [hok, if_pos hcap]; rfl)

/-- HUF_ENCODE whose payload fits. -/
theorem exec_hufEncode_of_fit
    (hcap : ((payload (codeTable (buildTree f)) s.srcBytes).length + 7) / 8 ≤ s.cur.dstCap.toNat) :
    exec .hufEncode s =
      .next (s.completed
        { s.cur with
          freq := f, treeValid := true, origSize := s.cur.srcLen
          dstLen := BitVec.ofNat 64 (((payload (codeTable (buildTree f)) s.srcBytes).length + 7) / 8)
          bwAcc := 0, bwCnt := 0, bwOpen := false }
        ((s.mem.writeBytes s.cur.metaAddr.toNat f.bytes).writeBytes s.cur.dstAddr.toNat
          (packAll (payload (codeTable (buildTree f)) s.srcBytes)))) := by
  have hcount := count_of_countBytes_zero hok
  have hbytes := encodeBytes_eq (codeTable (buildTree f)) s.srcBytes
    ({ s.cur.openWriter with freq := f, treeValid := true, origSize := s.cur.srcLen },
      s.mem.writeBytes s.cur.metaAddr.toNat f.bytes) fun sym => codeOf_ne_nil_of_mem hcount
  have hneed := payloadBits_eq f (codeTable (buildTree f)) _ hcount
  have hmax := s.cur.dstCap.isLt
  refine (State.guard_of_pass _ hpass).trans ?_
  generalize payload (codeTable (buildTree f)) s.srcBytes = bits at hcap hbytes hneed ⊢
  obtain ⟨hblock, hmem⟩ := flush_putBits_of_fresh
    (b := { s.cur.openWriter with freq := f, treeValid := true, origSize := s.cur.srcLen })
    (m := s.mem.writeBytes s.cur.metaAddr.toNat f.bytes) (bits := bits) rfl rfl rfl (by omega)
  simp only [hok, hneed, if_neg (Nat.not_lt.2 hcap), hbytes, hblock, hmem, State.finish_eq_next_completed]
  rfl

end Encode

/-- Settles O45: counting, the payload's length and the room for it decide how HUF_ENCODE ends. -/
theorem hufEncodeWritesPayload : Obligations.HufEncodeWritesPayload := by
  intro s hpass
  refine ⟨fun hfit => ?_, fun hover => ?_⟩
  · obtain ⟨f, hok, hcount⟩ := countBytes_zero_ok hfit
    exact ⟨f, _, hcount, rfl, exec_hufEncode_of_fit hpass hok, exec_hufEncode_of_full hpass hok⟩
  · obtain ⟨sym, hsym, hcount⟩ := countBytes_zero_error hover
    exact ⟨sym, hcount, exec_hufEncode_of_overflow hpass hsym⟩

/-! ### HUF_DECODE (41_huffman R183) -/

/-- Where HUF_DECODE starts with table `f`: the table committed, the writer closed, the reader rewound. -/
def Block.decodeStart (b : Block) (f : FreqTable) : Block :=
  { b.closeWriter with freq := f, treeValid := true, brByte := 0, brBit := 0, dstLen := 0 }

section Decode

variable (hpass : s.ChecksPass .hufDecode) (hcap : s.cur.origSize.toNat ≤ s.cur.dstCap.toNat)
include hpass hcap

/-- HUF_DECODE of no symbol from an all-zero table. -/
theorem exec_hufDecode_of_nothing (htree : buildTree (s.mem.readFreq s.cur.metaAddr.toNat) = none)
    (hsize : s.cur.origSize = 0) :
    exec .hufDecode s = .next (s.completed (s.cur.decodeStart (s.mem.readFreq s.cur.metaAddr.toNat)) s.mem) :=
  (State.guard_of_pass _ hpass).trans ((if_neg (Nat.not_lt.2 hcap)).trans (by simp only [htree, if_pos hsize]; rfl))

/-- HUF_DECODE of some symbol from an all-zero table. -/
theorem exec_hufDecode_of_null (htree : buildTree (s.mem.readFreq s.cur.metaAddr.toNat) = none)
    (hsize : s.cur.origSize ≠ 0) : exec .hufDecode s = .next (s.faulted .hufNullChild 0) :=
  (State.guard_of_pass _ hpass).trans ((if_neg (Nat.not_lt.2 hcap)).trans (by simp only [htree, if_neg hsize]; rfl))

section Walk

variable {root : HufTree} {out : List Byte} {b : Block}
  (htree : buildTree (s.mem.readFreq s.cur.metaAddr.toNat) = some root)
include htree

/-- HUF_DECODE that decodes all its symbols. -/
theorem exec_hufDecode_of_decoded
    (hout : decodeSymbols s.mem root s.cur.origSize.toNat (s.cur.decodeStart (s.mem.readFreq s.cur.metaAddr.toNat)) =
      (out, b, false)) :
    exec .hufDecode s =
      .next (s.completed { b with dstLen := BitVec.ofNat 64 out.length }
        (s.mem.writeBytes s.cur.dstAddr.toNat out)) := by
  refine (State.guard_of_pass _ hpass).trans ((if_neg (Nat.not_lt.2 hcap)).trans ?_)
  rw [Block.decodeStart] at hout
  simp only [htree, hout]
  rfl

/-- HUF_DECODE whose payload ends early. -/
theorem exec_hufDecode_of_end
    (hout : decodeSymbols s.mem root s.cur.origSize.toNat (s.cur.decodeStart (s.mem.readFreq s.cur.metaAddr.toNat)) =
      (out, b, true)) :
    exec .hufDecode s =
      .next
        { s with
          cur := Block.raise { b with dstLen := BitVec.ofNat 64 out.length } .hufEndOfStream out.length
          mem := s.mem.writeBytes s.cur.dstAddr.toNat out } := by
  refine (State.guard_of_pass _ hpass).trans ((if_neg (Nat.not_lt.2 hcap)).trans ?_)
  rw [Block.decodeStart] at hout
  simp only [htree, hout]
  rfl

end Walk

end Decode

/-- A leaf is found without reading: every symbol decoded is its symbol (41_huffman R174). -/
theorem decodeSymbols_leaf (m : Memory) (sym : Byte) (f n : Nat) (b : Block) :
    decodeSymbols m (.leaf sym f) n b = (List.replicate n sym, b, false) := by
  induction n with
  | zero => rfl
  | succ n ih => simp only [decodeSymbols, decodeSymbol, ih, List.replicate_succ]

/-- The table META holds is the one its counts say. -/
theorem readFreq_eq {m : Memory} {a : Nat} {f : FreqTable}
    (h : ∀ sym : Byte, (f.count sym).toNat = m.readLE (a + 4 * sym.toNat) 4) : m.readFreq a = f :=
  FreqTable.ext_count fun sym => BitVec.eq_of_toNat_eq (by rw [FreqTable.count_readFreq, h])

/-- The reader of HUF_DECODE starts at the first bit of the source. -/
theorem Block.streamPos_decodeStart (b : Block) (f : FreqTable) : (b.decodeStart f).streamPos = 0 := rfl

/-- The codewords of some symbols decode to those symbols, and the reader stops behind them (41_huffman R174). -/
theorem decodeSymbols_of_payload {m : Memory} {t : HufTree} {code : Byte → Bits} {syms : List Byte} {b : Block}
    (hmem : ∀ sym ∈ syms, (sym, code sym) ∈ t.assign []) (hpos : b.streamPos ≤ 8 * b.srcLen.toNat)
    (hprefix : syms.flatMap code <+: (streamBits (m.readBytes b.srcAddr.toNat b.srcLen.toNat)).drop b.streamPos) :
    decodeSymbols m t syms.length b = (syms, b.readerAt (b.streamPos + (syms.flatMap code).length), false) := by
  have hdec := decodeSymbols_of_prefix m t code syms 0 b hmem hpos hprefix
  simpa only [Nat.add_zero, decodeSymbols, List.append_nil] using hdec

/-- Settles O46: no leaf means no symbol, one leaf repeats its symbol, two or more are walked codeword by codeword. -/
theorem hufDecodeWritesSymbols : Obligations.HufDecodeWritesSymbols := by
  intro s f syms hpass hmeta hcap hlen hsyms
  have hread := readFreq_eq hmeta
  have hsize : BitVec.ofNat 64 syms.length = s.cur.origSize := by rw [hlen]; simp
  rcases codeTable_cases f with ⟨h0, hbuild, hzero⟩ | ⟨x, n, h1, hbuild, -, hx⟩ | ⟨n, k, l, r, h2, hbuild, hperm, -, hnodup⟩
  · obtain rfl : syms = [] := List.eq_nil_iff_forall_not_mem.2 fun x hx => hsyms x hx (hzero x)
    have horig : s.cur.origSize = 0 := hsize.symm
    refine ⟨0, fun _ => rfl, fun h => by omega, fun _ => ?_⟩
    rw [exec_hufDecode_of_nothing hpass hcap (hread ▸ hbuild) horig, hread, horig]
    rfl
  · have hall : List.replicate s.cur.origSize.toNat x = syms :=
      (List.eq_replicate_iff.2 ⟨hlen, fun y hy => hx y (hsyms y hy)⟩).symm
    refine ⟨0, fun _ => rfl, fun h => by omega, fun _ => ?_⟩
    rw [exec_hufDecode_of_decoded hpass hcap (hread ▸ hbuild) (decodeSymbols_leaf _ _ _ _ _), hall, hsize, hread]
    rfl
  · refine ⟨(payload (codeTable (buildTree f)) syms).length, ?_, fun _ => rfl, ?_⟩
    · rintro (h1 | rfl)
      · omega
      · rfl
    · rintro (h1 | hprefix)
      · omega
      · have hdec := decodeSymbols_of_payload (m := s.mem) (t := .node n k l r) (b := s.cur.decodeStart f)
          (fun sym hsym => codeOf_mem hbuild hperm hnodup (hsyms sym hsym)) (Nat.zero_le _) hprefix
        rw [hlen, ← hread] at hdec
        rw [exec_hufDecode_of_decoded hpass hcap (hread ▸ hbuild) hdec, hsize, Block.streamPos_decodeStart, Nat.zero_add, hread]
        rfl

/-- A symbol decoded where the bits left begin with no codeword ends the stream (41_huffman R183). -/
theorem decodeSymbols_of_end {m : Memory} {t : HufTree} {code : Byte → Bits} {syms : List Byte} {rest : Bits} {b : Block}
    {n : Nat} (hmem : ∀ sym ∈ syms, (sym, code sym) ∈ t.assign []) (hpos : b.streamPos ≤ 8 * b.srcLen.toNat)
    (hsplit : (streamBits (m.readBytes b.srcAddr.toNat b.srcLen.toNat)).drop b.streamPos = syms.flatMap code ++ rest)
    (hnone : ∀ e ∈ t.assign [], ¬e.2 <+: rest) (hn : syms.length < n) :
    decodeSymbols m t n b = (syms, b.readerAt (8 * b.srcLen.toNat), true) := by
  obtain ⟨k, rfl⟩ : ∃ k, n = syms.length + (k + 1) := ⟨n - syms.length - 1, by omega⟩
  have hlen := congrArg List.length hsplit
  simp only [List.length_drop, length_streamBits, Memory.length_readBytes, List.length_append] at hlen
  have hreader : (b.readerAt (b.streamPos + (syms.flatMap code).length)).streamPos =
      b.streamPos + (syms.flatMap code).length := Block.streamPos_readerAt _ _ (by omega)
  have hrest : (streamBits (m.readBytes b.srcAddr.toNat b.srcLen.toNat)).drop
      (b.streamPos + (syms.flatMap code).length) = rest := by
    rw [← List.drop_drop, hsplit, List.drop_left]
  have hend := decodeSymbol_of_no_prefix m t (b.readerAt (b.streamPos + (syms.flatMap code).length))
    (by rw [hreader]; simp only [Block.readerAt]; omega) (by rw [hreader]; exact hrest.symm ▸ hnone)
  rw [decodeSymbols_of_prefix m t code syms (k + 1) b hmem hpos ⟨rest, hsplit.symm⟩]
  simp only [decodeSymbols, hend, List.append_nil]
  rfl

/-- Settles O47: without a tree there is nothing to walk; the walk past the last whole codeword reads to the end. -/
theorem hufDecodeFaults : Obligations.HufDecodeFaults := by
  intro s f syms rest hpass hmeta hcap hlen
  have hread := readFreq_eq hmeta
  have horig : s.cur.origSize ≠ 0 := fun h => by
    rw [h] at hlen
    cases hlen
  rcases codeTable_cases f with ⟨h0, hbuild, -⟩ | ⟨x, n, h1, -, hx, -⟩ | ⟨n, k, l, r, h2, hbuild, hperm, -, hnodup⟩
  · exact ⟨fun _ => exec_hufDecode_of_null hpass hcap (hread ▸ hbuild) horig, fun h => by omega⟩
  · exact ⟨fun hzero => absurd (hzero x) hx, fun h => by omega⟩
  · refine ⟨fun hzero => ?_, fun _ hsyms hsplit hnone => ?_⟩
    · rw [nleaves_eq] at h2
      simp [hzero] at h2
    · have hnone' : ∀ e ∈ (HufTree.node n k l r).assign [], ¬e.2 <+: rest := by
        rintro ⟨sym, p⟩ hmem
        obtain ⟨hsym, rfl⟩ := (mem_assign_iff_codeOf hbuild hperm hnodup sym p).1 hmem
        exact hnone sym hsym
      have hdec := decodeSymbols_of_end (m := s.mem) (b := s.cur.decodeStart f)
        (fun sym hsym => codeOf_mem hbuild hperm hnodup (hsyms sym hsym)) (Nat.zero_le _) hsplit hnone' hlen
      have hreader : (s.cur.decodeStart f).readerAt (8 * (s.cur.decodeStart f).srcLen.toNat) =
          { s.cur.decodeStart f with brByte := s.cur.srcLen, brBit := 0 } := by
        rw [show (s.cur.decodeStart f).srcLen = s.cur.srcLen from rfl]
        simp [Block.readerAt]
      rw [hreader, ← hread] at hdec
      rw [exec_hufDecode_of_end hpass hcap (hread ▸ hbuild) hdec, hread]
      rfl

end Huffman

end Sys2Proof.Machine
end

section
/-! The LZW parse, string by string, the LZW commands past their checks, and the statements O49 to O52 (42_lzw R220 to
R224). -/

namespace Sys2Proof.Machine

/-! ### The dictionary a sequence of strings builds (42_lzw R221, R222) -/

/-- What the dictionary holds beyond the single bytes once the strings `phrases` have been coded: each of them with the first
byte of the next one, as long as there are codes. -/
def phraseDict (phrases : List (List Byte)) : Dict :=
  (List.zipWith (fun p q => p ++ q.take 1) phrases phrases.tail).take (Config.lzwMax - Config.lzwInit)

theorem length_phraseDict (phrases : List (List Byte)) : (phraseDict phrases).length = min 3840 (phrases.length - 1) := by
  simp only [phraseDict, List.length_take, List.length_zipWith, List.length_tail, Config.lzwMax, Config.lzwInit]
  omega

/-- The next-code counter after some strings, one or more. -/
theorem next_phraseDict {phrases : List (List Byte)} (h : phrases ≠ []) :
    (phraseDict phrases).next = min 4096 (255 + phrases.length) := by
  have hpos := List.length_pos_iff.2 h
  rw [Dict.next, length_phraseDict, Config.lzwInit]
  omega

/-- Entry `k` of the dictionary. -/
theorem getElem?_phraseDict (phrases : List (List Byte)) {k : Nat} (h : k < (phraseDict phrases).length) :
    (phraseDict phrases)[k]? = some (phrases.getD k [] ++ (phrases.getD (k + 1) []).take 1) := by
  rw [length_phraseDict] at h
  have hk : k < phrases.length := by omega
  have hk' : k + 1 < phrases.length := by omega
  rw [phraseDict, List.getElem?_take_of_lt (by simp only [Config.lzwMax, Config.lzwInit]; omega), List.getElem?_zipWith,
    List.getElem?_tail, List.getElem?_eq_getElem hk, List.getElem?_eq_getElem hk']
  simp [hk, hk']

/-- Neighbours of a list with one element more. -/
theorem zipWith_tail_append {α β : Type} (f : α → α → β) (pre : List α) (x y : α) :
    List.zipWith f (pre ++ [x] ++ [y]) (pre ++ [x] ++ [y]).tail =
      List.zipWith f (pre ++ [x]) (pre ++ [x]).tail ++ [f x y] := by
  induction pre with
  | nil => rfl
  | cons a pre ih => cases pre <;> simp_all

/-- A string that joins the others makes the dictionary grow by the string before it with the new one's first byte. -/
theorem phraseDict_append (pre : List (List Byte)) (cur e : List Byte) :
    phraseDict (pre ++ [cur] ++ [e]) = (phraseDict (pre ++ [cur])).grow (cur ++ e.take 1) := by
  have hlen := length_phraseDict (pre ++ [cur])
  rw [Dict.grow, Dict.next, hlen]
  simp only [phraseDict, zipWith_tail_append, List.take_append, List.length_zipWith, List.length_tail, List.length_append,
    List.length_singleton, Config.lzwMax, Config.lzwInit]
  split
  · rw [List.take_of_length_le (l := [cur ++ e.take 1]) (by simp only [List.length_singleton]; omega)]
  · rw [show 4096 - 256 - min (pre.length + 1) (pre.length + 1 - 1) = 0 by omega, List.take_zero, List.append_nil]

/-- Of the last string only the first byte matters. -/
theorem phraseDict_congr_last (pre : List (List Byte)) {p q : List Byte} (h : p.take 1 = q.take 1) :
    phraseDict (pre ++ [p]) = phraseDict (pre ++ [q]) := by
  rcases List.eq_nil_or_concat' pre with rfl | ⟨pre, cur, rfl⟩
  · rfl
  · rw [phraseDict_append, phraseDict_append, h]

/-- The dictionary's string of a code below the counter. -/
theorem entry_phraseDict {phrases : List (List Byte)} {c : Nat} (h : c < 256 ∨ c < (phraseDict phrases).next) :
    (phraseDict phrases).entry c = some (phraseEntry phrases c) := by
  rw [Dict.entry, phraseEntry, Config.lzwInit]
  split
  · rfl
  · next hc =>
    rw [Dict.next, Config.lzwInit] at h
    rw [getElem?_phraseDict phrases (by omega), show c - 256 + 1 = c - 255 by omega]

/-- The dictionary has no string of a code from the counter on. -/
theorem entry_eq_none {d : Dict} {c : Nat} (h : d.next ≤ c) : d.entry c = none := by
  rw [Dict.next, Config.lzwInit] at h
  rw [Dict.entry, Config.lzwInit, if_neg (by omega), List.getElem?_eq_none (by omega)]

/-- The string of a code depends on the strings up to the one after it only. -/
theorem phraseEntry_append (p q : List (List Byte)) {c : Nat} (h : c < 255 + p.length) :
    phraseEntry (p ++ q) c = phraseEntry p c := by
  rw [phraseEntry, phraseEntry]
  split
  · rfl
  · rw [List.getD_append _ _ _ _ (by omega), List.getD_append _ _ _ _ (by omega)]

/-! ### The encoder (42_lzw R221) -/

/-- The code of a string is a code the dictionary has for it. -/
theorem Dict.entry_of_code_eq {d : Dict} {str : List Byte} {c : Nat} (h : d.code str = some c) : d.entry c = some str := by
  match str, h with
  | [v], h =>
    cases h
    rw [Dict.entry, Config.lzwInit, if_pos v.isLt]
    simp
  | v :: w :: str, h =>
    simp only [Dict.code, Option.map_eq_some_iff] at h
    obtain ⟨j, hj, rfl⟩ := h
    obtain ⟨hlt, heq, -⟩ := List.idxOf?_eq_some_iff.1 hj
    rw [Dict.entry, if_neg (by omega), Nat.add_sub_cancel_left, List.getElem?_eq_getElem hlt, heq]

/-- A string of two bytes or more without a code is no string of the dictionary. -/
theorem Dict.entry_ne_of_code_eq_none {d : Dict} {str : List Byte} (hlen : 2 ≤ str.length) (h : d.code str = none)
    (c : Nat) : d.entry c ≠ some str := by
  match str, hlen, h with
  | v :: w :: str, _, h =>
    simp only [Dict.code, Option.map_eq_none_iff, List.idxOf?_eq_none_iff] at h
    rw [Dict.entry]
    split
    · simp
    · exact fun hentry => h (List.mem_of_getElem? hentry)

/-- The strings `ps`, coded by `codes` after the strings `pre` have been coded: each code is that of its string in the
dictionary of the moment, and no string could have been one byte longer (42_lzw R221). -/
structure GreedyParse (pre ps : List (List Byte)) (codes : List Nat) : Prop where
  length : ps.length = codes.length
  nonempty : ∀ p ∈ ps, p ≠ []
  coded : ∀ j c p, codes[j]? = some c → ps[j]? = some p →
    c < min 4096 (256 + (pre.length + j)) ∧ phraseEntry (pre ++ ps) c = p
  greedy : ∀ j p q, ps[j]? = some p → ps[j + 1]? = some q →
    ∀ c, c < min 4096 (256 + (pre.length + j)) → phraseEntry (pre ++ ps) c ≠ p ++ q.take 1

/-- A last string, which the dictionary has. -/
theorem GreedyParse.singleton {pre : List (List Byte)} {cur : List Byte} {c : Nat} (hcur : cur ≠ [])
    (hcode : (phraseDict (pre ++ [cur])).code cur = some c) : GreedyParse pre [cur] [c] := by
  have hnext := next_phraseDict (phrases := pre ++ [cur]) (by simp)
  have hlen : (pre ++ [cur]).length = pre.length + 1 := by simp
  have hlt := Dict.code_lt hcode
  refine ⟨rfl, by simpa using hcur, ?_, by simp⟩
  rintro (_ | j) c' p hc hp
  · cases hc
    cases hp
    refine ⟨by omega, ?_⟩
    exact Option.some.inj ((entry_phraseDict (.inr hlt)).symm.trans (Dict.entry_of_code_eq hcode))
  · cases hc

/-- One string more in front, which is not in the dictionary together with the byte after it. -/
theorem GreedyParse.cons {pre ps : List (List Byte)} {codes : List Nat} {cur : List Byte} {c : Nat} {b : Byte}
    (hcur : cur ≠ []) (hcode : (phraseDict (pre ++ [cur])).code cur = some c)
    (hnone : (phraseDict (pre ++ [cur])).code (cur ++ [b]) = none) (hfirst : ∀ q, ps[0]? = some q → q.take 1 = [b])
    (h : GreedyParse (pre ++ [cur]) ps codes) : GreedyParse pre (cur :: ps) (c :: codes) := by
  have hnext := next_phraseDict (phrases := pre ++ [cur]) (by simp)
  have hall : pre ++ cur :: ps = pre ++ [cur] ++ ps := by simp
  have hlen : (pre ++ [cur]).length = pre.length + 1 := by simp
  have hentry : ∀ x, x < min 4096 (256 + pre.length) →
      (phraseDict (pre ++ [cur])).entry x = some (phraseEntry (pre ++ cur :: ps) x) := by
    intro x hx
    rw [hall, phraseEntry_append _ _ (by omega)]
    exact entry_phraseDict (.inr (by omega))
  have hlt := Dict.code_lt hcode
  constructor
  · simp [h.length]
  · rintro p (_ | ⟨_, hp⟩)
    · exact hcur
    · exact h.nonempty p hp
  · rintro (_ | j) c' p hc hp
    · cases hc
      cases hp
      have hc' : c < min 4096 (256 + pre.length) := by omega
      exact ⟨by simpa using hc', Option.some.inj ((hentry c hc').symm.trans (Dict.entry_of_code_eq hcode))⟩
    · obtain ⟨hbound, heq⟩ := h.coded j c' p hc hp
      exact ⟨by omega, by rw [hall]; exact heq⟩
  · rintro (_ | j) p q hp hq x hx
    · cases hp
      rw [hfirst q hq]
      exact fun heq => Dict.entry_ne_of_code_eq_none
        (by have := List.length_pos_iff.2 hcur; simp only [List.length_append, List.length_singleton]; omega)
        hnone x ((hentry x (by simpa using hx)).trans (congrArg some heq))
    · rw [hall]
      exact h.greedy j p q hp hq x (by omega)

/-- The encoder's loop parses greedily what is left, beginning with the string it has (42_lzw R221). -/
theorem lzwEncodeFrom_greedy (bs : List Byte) (pre : List (List Byte)) (cur : List Byte) (hcur : cur ≠ [])
    (hcode : ((phraseDict (pre ++ [cur])).code cur).isSome) :
    ∃ ps, GreedyParse pre ps (lzwEncodeFrom (phraseDict (pre ++ [cur])) cur bs).1 ∧ ps.flatten = cur ++ bs ∧
      ∀ q, ps[0]? = some q → q.take 1 = cur.take 1 := by
  obtain ⟨c, hc⟩ := Option.isSome_iff_exists.1 hcode
  induction bs generalizing pre cur c with
  | nil =>
    rw [lzwEncodeFrom, hc]
    exact ⟨[cur], .singleton hcur hc, by simp, by rintro q ⟨⟩; rfl⟩
  | cons b bs ih =>
    rw [lzwEncodeFrom]
    split
    · next x hx =>
      have htake : (cur ++ [b]).take 1 = cur.take 1 := List.take_append_of_le_length (List.length_pos_iff.2 hcur)
      have hdict := phraseDict_congr_last pre htake
      obtain ⟨ps, hparse, hflat, hfirst⟩ := ih pre (cur ++ [b]) (by simp) (by rw [hdict, hx]; rfl) x (hdict ▸ hx)
      exact ⟨ps, hdict ▸ hparse, by simpa using hflat, htake ▸ hfirst⟩
    · next hnone =>
      have hgrow := phraseDict_append pre cur [b]
      obtain ⟨ps, hparse, hflat, hfirst⟩ := ih (pre ++ [cur]) [b] (by simp) rfl b.toNat rfl
      rw [hgrow] at hparse
      exact ⟨cur :: ps, by rw [hc]; exact hparse.cons hcur hc hnone hfirst, by simp [hflat], by rintro q ⟨⟩; rfl⟩

/-- Settles O50: the parse begins with the first byte, which has a code, over the dictionary of no string. -/
theorem lzwCodesBounded : Obligations.LzwCodesBounded := by
  refine ⟨rfl, fun bytes hbytes => ?_⟩
  obtain ⟨b, bs, rfl⟩ := List.exists_cons_of_ne_nil hbytes
  obtain ⟨ps, hparse, hflat, -⟩ := lzwEncodeFrom_greedy bs [] [b] (by simp) rfl
  obtain ⟨hpos, hle, hlt, hcounter⟩ := lzwEncodeFrom_bounds bs [] [b] (by decide) rfl
  have hcoded := hparse.coded
  have hgreedy := hparse.greedy
  simp only [List.length_nil, Nat.zero_add, List.nil_append] at hcoded hgreedy
  rw [lzwEncode_cons]
  refine ⟨⟨ps, hparse.length, hflat, hparse.nonempty, hcoded, hgreedy⟩, hpos, hle, hlt, ?_⟩
  have hinit : Dict.next [] = 256 := rfl
  omega

/-! ### The decoder (42_lzw R222) -/

/-- What the decoder makes of one code, `cur` being the string before it. -/
def Dict.read (d : Dict) (cur : List Byte) (c : Nat) : Option (List Byte) :=
  (d.entry c).orElse fun _ => if c = d.next then some (cur ++ cur.take 1) else none

section OneCode

variable {d : Dict} {cur : List Byte} {c : Nat}

theorem Dict.read_of_entry {e : List Byte} (h : d.entry c = some e) : d.read cur c = some e := by rw [Dict.read, h]; rfl

/-- The code at the counter stands for the string before it with its own first byte. -/
theorem Dict.read_next : d.read cur d.next = some (cur ++ cur.take 1) := by
  rw [Dict.read, entry_eq_none le_rfl, if_pos rfl]
  rfl

theorem Dict.read_of_next_lt (h : d.next < c) : d.read cur c = none := by
  rw [Dict.read, entry_eq_none h.le, if_neg h.ne']
  rfl

theorem lzwDecodeFrom_cons_of_none {i : Nat} {cs : List Nat} (h : d.read cur c = none) :
    lzwDecodeFrom d cur i (c :: cs) = ([], some (i, c)) := by
  rw [Dict.read] at h
  rw [lzwDecodeFrom, h]

theorem lzwDecodeFrom_cons_of_some {e : List Byte} {i : Nat} {cs : List Nat} (h : d.read cur c = some e) :
    lzwDecodeFrom d cur i (c :: cs) =
      (e ++ (lzwDecodeFrom (d.grow (cur ++ e.take 1)) e (i + 1) cs).1,
        (lzwDecodeFrom (d.grow (cur ++ e.take 1)) e (i + 1) cs).2) := by
  rw [Dict.read] at h
  rw [lzwDecodeFrom, h]

end OneCode

/-- The strings `ps` that the codes `codes` give after the strings `pre`, one or more, and the code `bad` at which they stop
being valid (42_lzw R222). -/
structure DecodedStrings (pre ps : List (List Byte)) (codes : List Nat) (bad : Option (Nat × Nat)) : Prop where
  whole : bad = none → ps.length = codes.length
  stopped : ∀ i c, bad = some (i, c) → pre.length + ps.length = i ∧ codes[ps.length]? = some c
  known : ∀ j c, codes[j]? = some c → j ≤ ps.length → c < 256 ∨ c < min 4096 (255 + (pre.length + j)) →
    ps[j]? = some (phraseEntry (pre ++ ps) c)
  atNext : ∀ j c, codes[j]? = some c → j ≤ ps.length → c = min 4096 (255 + (pre.length + j)) →
    ps[j]? = some ((pre ++ ps).getD (pre.length + j - 1) [] ++ ((pre ++ ps).getD (pre.length + j - 1) []).take 1)
  invalid : ∀ j c, codes[j]? = some c → j ≤ ps.length → min 4096 (255 + (pre.length + j)) < c →
    bad = some (pre.length + j, c)

section DecodedStrings

variable {pre : List (List Byte)} {cur : List Byte} {c : Nat} {cs : List Nat}

/-- No code, no string. -/
theorem DecodedStrings.nil : DecodedStrings pre [] [] none := by constructor <;> simp

/-- An invalid code ends the strings. -/
theorem DecodedStrings.stop (hpre : pre ≠ []) (h : (phraseDict pre).next < c) :
    DecodedStrings pre [] (c :: cs) (some (pre.length, c)) := by
  have hpos := List.length_pos_iff.2 hpre
  rw [next_phraseDict hpre] at h
  have hfirst {j x : Nat} (hx : (c :: cs)[j]? = some x) (hj : j ≤ ([] : List (List Byte)).length) : j = 0 ∧ c = x := by
    obtain rfl : j = 0 := Nat.le_zero.1 hj
    exact ⟨rfl, Option.some.inj hx⟩
  refine ⟨by simp, fun i x hx => by cases hx; simp, fun j x hx hj hlt => ?_, fun j x hx hj heq => ?_, fun j x hx hj _ => ?_⟩ <;>
    obtain ⟨rfl, rfl⟩ := hfirst hx hj
  · omega
  · omega
  · rfl

/-- One string more in front. -/
theorem DecodedStrings.cons {e : List Byte} {ps : List (List Byte)} {bad : Option (Nat × Nat)}
    (he : (phraseDict (pre ++ [cur])).read cur c = some e) (h : DecodedStrings (pre ++ [cur] ++ [e]) ps cs bad) :
    DecodedStrings (pre ++ [cur]) (e :: ps) (c :: cs) bad := by
  have hnext := next_phraseDict (phrases := pre ++ [cur]) (by simp)
  have hall : pre ++ [cur] ++ e :: ps = pre ++ [cur] ++ [e] ++ ps := by simp
  have hlen : (pre ++ [cur] ++ [e]).length = (pre ++ [cur]).length + 1 := by simp
  have hpos : (pre ++ [cur]).length = pre.length + 1 := by simp
  constructor
  · intro hbad
    simp [h.whole hbad]
  · intro i x hx
    obtain ⟨hi, hcode⟩ := h.stopped i x hx
    exact ⟨by simp only [List.length_cons]; omega, hcode⟩
  · rintro (_ | j) x hx hj hlt
    · cases hx
      have hentry := entry_phraseDict (phrases := pre ++ [cur]) (c := c) (by rw [hnext]; omega)
      rw [phraseEntry_append _ _ (by omega)]
      exact he.symm.trans (Dict.read_of_entry hentry)
    · rw [hall]
      exact h.known j x hx (by simpa using hj) (by omega)
  · rintro (_ | j) x hx hj heq
    · cases hx
      obtain rfl : c = (phraseDict (pre ++ [cur])).next := by omega
      have hprev : (pre ++ [cur] ++ e :: ps).getD ((pre ++ [cur]).length + 0 - 1) [] = cur := by simp
      rw [hprev]
      exact he.symm.trans Dict.read_next
    · rw [hall, show (pre ++ [cur]).length + (j + 1) - 1 = (pre ++ [cur] ++ [e]).length + j - 1 by omega]
      exact h.atNext j x hx (by simpa using hj) (by omega)
  · rintro (_ | j) x hx hj hlt
    · cases hx
      rw [Dict.read_of_next_lt (by omega)] at he
      cases he
    · rw [show (pre ++ [cur]).length + (j + 1) = (pre ++ [cur] ++ [e]).length + j by omega]
      exact h.invalid j x hx (by simpa using hj) (by omega)

end DecodedStrings

/-- What the decoder's loop makes of any codes after some strings (42_lzw R222). -/
theorem lzwDecodeFrom_strings (cs : List Nat) (pre : List (List Byte)) (cur : List Byte) :
    ∃ ps, (lzwDecodeFrom (phraseDict (pre ++ [cur])) cur (pre ++ [cur]).length cs).1 = ps.flatten ∧
      DecodedStrings (pre ++ [cur]) ps cs (lzwDecodeFrom (phraseDict (pre ++ [cur])) cur (pre ++ [cur]).length cs).2 := by
  induction cs generalizing pre cur with
  | nil => exact ⟨[], rfl, .nil⟩
  | cons c cs ih =>
    cases hread : (phraseDict (pre ++ [cur])).read cur c with
    | none =>
      rw [lzwDecodeFrom_cons_of_none hread]
      refine ⟨[], rfl, .stop (by simp) ?_⟩
      by_contra hle
      rcases Nat.lt_or_eq_of_le (Nat.not_lt.1 hle) with hlt | rfl
      · rw [Dict.read_of_entry (entry_phraseDict (.inr hlt))] at hread
        cases hread
      · rw [Dict.read_next] at hread
        cases hread
    | some e =>
      obtain ⟨ps, hflat, hps⟩ := ih (pre ++ [cur]) e
      rw [phraseDict_append, List.length_append, List.length_singleton] at hflat hps
      rw [lzwDecodeFrom_cons_of_some hread]
      exact ⟨e :: ps, by rw [hflat, List.flatten_cons], hps.cons hread⟩

/-- What the decoder makes of any codes, string by string. -/
theorem lzwDecode_strings (codes : List Nat) :
    ∃ phrases : List (List Byte), (lzwDecode codes).1 = phrases.flatten ∧
      ((lzwDecode codes).2 = none → phrases.length = codes.length) ∧
      (∀ i c, (lzwDecode codes).2 = some (i, c) → phrases.length = i ∧ codes[i]? = some c) ∧
      ∀ j c, codes[j]? = some c → j ≤ phrases.length →
        (c < 256 ∨ c < min 4096 (255 + j) → phrases[j]? = some (phraseEntry phrases c)) ∧
          (0 < j → c = min 4096 (255 + j) →
            phrases[j]? = some (phrases.getD (j - 1) [] ++ (phrases.getD (j - 1) []).take 1)) ∧
          (256 ≤ c → j = 0 ∨ min 4096 (255 + j) < c → (lzwDecode codes).2 = some (j, c)) := by
  cases codes with
  | nil => exact ⟨[], rfl, fun _ => rfl, by rintro i c ⟨⟩, by rintro j c ⟨⟩⟩
  | cons c₀ cs =>
    by_cases hbyte : c₀ < 256
    · have hentry : Dict.entry [] c₀ = some [BitVec.ofNat 8 c₀] := if_pos hbyte
      obtain ⟨ps, hflat, hps⟩ := lzwDecodeFrom_strings cs [] [BitVec.ofNat 8 c₀]
      have hdict : phraseDict ([] ++ [[BitVec.ofNat 8 c₀]]) = [] := rfl
      rw [hdict] at hflat hps
      have hdec : lzwDecode (c₀ :: cs) = (BitVec.ofNat 8 c₀ :: (lzwDecodeFrom [] [BitVec.ofNat 8 c₀] 1 cs).1,
          (lzwDecodeFrom [] [BitVec.ofNat 8 c₀] 1 cs).2) := by
        rw [lzwDecode, hentry]
        rfl
      rw [hdec]
      refine ⟨[BitVec.ofNat 8 c₀] :: ps, congrArg (BitVec.ofNat 8 c₀ :: ·) hflat, fun h => by simp [hps.whole h],
        fun i c h => ?_, ?_⟩
      · obtain ⟨hi, hc⟩ := hps.stopped i c h
        obtain rfl : i = ps.length + 1 := by simp at hi; omega
        exact ⟨rfl, hc⟩
      · rintro (_ | j) c hc hj
        · cases hc
          refine ⟨fun _ => by simp [phraseEntry, hbyte], fun h => absurd h (lt_irrefl 0), fun h => absurd hbyte (by omega)⟩
        · have hj : j ≤ ps.length := by simpa using hj
          have hlen : ([] ++ [[BitVec.ofNat 8 c₀]]).length + j = j + 1 := by simp [Nat.add_comm]
          have hknown := hps.known j c hc hj
          have hnext := hps.atNext j c hc hj
          have hinvalid := hps.invalid j c hc hj
          rw [hlen] at hknown hnext hinvalid
          exact ⟨hknown, fun _ => hnext, fun _ h => hinvalid (h.resolve_left (by omega))⟩
    · have hentry : Dict.entry [] c₀ = none := entry_eq_none (Nat.not_lt.1 hbyte)
      have hdec : lzwDecode (c₀ :: cs) = ([], some (0, c₀)) := by rw [lzwDecode, hentry]
      rw [hdec]
      refine ⟨[], rfl, by rintro ⟨⟩, by rintro i c ⟨⟩; exact ⟨rfl, rfl⟩, fun j c hc hj => ?_⟩
      obtain rfl : j = 0 := Nat.le_zero.1 hj
      cases hc
      exact ⟨fun h => by omega, fun h => absurd h (lt_irrefl 0), fun _ _ => rfl⟩

/-! ### The commands (42_lzw R223, R224) -/

section Commands

variable {s : State}

/-- LZW_ENCODE whose codes fit. -/
theorem exec_lzwEncode_of_fit (hpass : s.ChecksPass .lzwEncode)
    (hfit : 2 * (lzwEncode s.srcBytes).1.length ≤ s.cur.dstCap.toNat) :
    exec .lzwEncode s =
      .next (s.completed
        { s.cur with
          bwAcc := 0, bwCnt := 0, bwOpen := false
          dstLen := BitVec.ofNat 64 (2 * (lzwEncode s.srcBytes).1.length)
          codeCount := BitVec.ofNat 64 (lzwEncode s.srcBytes).1.length
          dictSize := BitVec.ofNat 16 (lzwEncode s.srcBytes).2
          origSize := s.cur.srcLen }
        (s.mem.writeBytes s.cur.dstAddr.toNat (codeBytes (lzwEncode s.srcBytes).1))) := by
  have hle : (lzwEncode s.srcBytes).1.length ≤ s.cur.dstCap.toNat / 2 := by omega
  refine (State.guard_of_pass _ hpass).trans ?_
  simp only [if_neg (Nat.not_lt.2 hle), List.take_of_length_le hle, Nat.min_eq_left hle]
  rfl

/-- LZW_ENCODE whose codes do not fit: those that do are written. -/
theorem exec_lzwEncode_of_full {k : Nat} (hpass : s.ChecksPass .lzwEncode) (hk : k < (lzwEncode s.srcBytes).1.length)
    (hroom : 2 * k ≤ s.cur.dstCap.toNat) (hfull : s.cur.dstCap.toNat < 2 * (k + 1)) :
    exec .lzwEncode s =
      .next
        { s with
          cur :=
            Block.raise
              { s.cur with bwAcc := 0, bwCnt := 0, bwOpen := false, dstLen := BitVec.ofNat 64 (2 * k) }
              .capacity (2 * (k + 1))
          mem := s.mem.writeBytes s.cur.dstAddr.toNat (codeBytes ((lzwEncode s.srcBytes).1.take k)) } := by
  obtain rfl : k = s.cur.dstCap.toNat / 2 := by omega
  refine (State.guard_of_pass _ hpass).trans ?_
  simp only [if_pos hk, Nat.min_eq_right hk.le]
  rfl

/-- Settles O49: half of DST_CAP is how many codes fit. -/
theorem lzwEncodeWritesCodes : Obligations.LzwEncodeWritesCodes := by
  intro s codes ds hpass hcodes
  have hlist : (lzwEncode s.srcBytes).1 = codes := congrArg Prod.fst hcodes
  have hcounter : (lzwEncode s.srcBytes).2 = ds := congrArg Prod.snd hcodes
  subst hlist hcounter
  exact ⟨exec_lzwEncode_of_fit hpass, fun k => exec_lzwEncode_of_full hpass⟩

section Decode

variable {strict : Bool} {out : List Byte} (hpass : s.ChecksPass (.lzwDecode strict))
  (hcap : s.cur.origSize.toNat ≤ s.cur.dstCap.toNat)
include hpass hcap

/-- LZW_DECODE that gives ORIG_SIZE bytes, or more if not STRICT. -/
theorem exec_lzwDecode_of_enough
    (hdecode : lzwDecode (s.mem.readCodes s.cur.srcAddr.toNat s.cur.codeCount.toNat) = (out, none))
    (henough : s.cur.origSize.toNat ≤ out.length) (hstrict : strict = true → out.length = s.cur.origSize.toNat) :
    exec (.lzwDecode strict) s =
      .next (s.completed { s.cur with bwAcc := 0, bwCnt := 0, bwOpen := false, dstLen := s.cur.origSize }
        (s.mem.writeBytes s.cur.dstAddr.toNat (out.take s.cur.origSize.toNat))) := by
  have hlong : ¬(s.cur.origSize.toNat < out.length ∧ strict = true) := fun ⟨hlt, hs⟩ => hlt.ne' (hstrict hs)
  refine (State.guard_of_pass _ hpass).trans ((if_neg (Nat.not_lt.2 hcap)).trans ?_)
  simp only [hdecode, if_neg (Nat.not_lt.2 henough), if_neg hlong, Nat.min_eq_right henough, BitVec.ofNat_toNat,
    BitVec.setWidth_eq]
  rfl

/-- LZW_DECODE whose codes have an invalid one, or give too few bytes, or too many if STRICT. -/
theorem exec_lzwDecode_of_dataFault {bad : Option (Nat × Nat)} {code : FaultCode} {info : Nat}
    (hdecode : lzwDecode (s.mem.readCodes s.cur.srcAddr.toNat s.cur.codeCount.toNat) = (out, bad))
    (hfault : (∃ i c, bad = some (i, c) ∧ code = .lzwInvalidCode ∧ info = lzwInfo i c) ∨
      (bad = none ∧ out.length < s.cur.origSize.toNat ∧ code = .lzwShortOutput ∧ info = out.length) ∨
      (bad = none ∧ s.cur.origSize.toNat < out.length ∧ strict = true ∧ code = .lzwLongOutput ∧ info = out.length)) :
    exec (.lzwDecode strict) s =
      .next
        { s with
          cur :=
            Block.raise
              { s.cur with
                bwAcc := 0, bwCnt := 0, bwOpen := false
                dstLen := BitVec.ofNat 64 (min out.length s.cur.origSize.toNat) }
              code info
          mem := s.mem.writeBytes s.cur.dstAddr.toNat (out.take s.cur.origSize.toNat) } := by
  refine (State.guard_of_pass _ hpass).trans ((if_neg (Nat.not_lt.2 hcap)).trans ?_)
  rcases hfault with ⟨i, c, rfl, rfl, rfl⟩ | ⟨rfl, hshort, rfl, rfl⟩ | ⟨rfl, hlong, rfl, rfl, rfl⟩
  · simp only [hdecode]
    rfl
  · simp only [hdecode, if_pos hshort]
    rfl
  · simp only [hdecode, if_neg hlong.not_gt, hlong, and_self, if_true]
    rfl

end Decode

end Commands

/-- Settles O51: enough bytes, and no more than enough if STRICT. -/
theorem lzwDecodeWritesBytes : Obligations.LzwDecodeWritesBytes := fun _ _ _ hpass hdecode hcap =>
  exec_lzwDecode_of_enough hpass hcap hdecode

/-- Settles O52: the decoder's strings, and the order in which LZW_DECODE judges what they give. -/
theorem lzwDecodeFaults : Obligations.LzwDecodeFaults :=
  ⟨lzwDecode_strings, fun _ _ _ _ _ _ hpass hdecode hcap => exec_lzwDecode_of_dataFault hpass hcap hdecode⟩

end Sys2Proof.Machine
end

section
/-! Everything a command can do, said once: how each of the seventeen commands ends past its checks; then the statements O16
to O18, O20 and O21 (10_state R53, 60_exceptions R273 to R275). -/

namespace Sys2Proof.Machine

/-! ### How a command ends past its prerequisites and its region checks -/

/-- The state in which the current command has ended in a partial fault, leaving `b` and memory `m` (60_exceptions R276). -/
def State.aborted (s : State) (code : FaultCode) (info : Nat) (b : Block) (m : Memory) : State :=
  { s with cur := b.raise code info, mem := m }

/-- The command completes, leaving `b` and memory: one rule for each way of succeeding. -/
inductive Completes (s : State) : Instr → Block → Memory → Prop where
  | nop : Completes s .nop s.cur s.mem
  | softReset : Completes s .softReset s.cur.softReset s.mem
  | hufCount {f : FreqTable} (hok : countBytes s.srcBytes FreqTable.zero = .ok f) :
      Completes s .hufCount { s.cur with freq := f, treeValid := false, origSize := s.cur.srcLen }
        (s.mem.writeBytes s.cur.metaAddr.toNat f.bytes)
  | hufLoadFreq :
      Completes s .hufLoadFreq { s.cur with freq := s.mem.readFreq s.cur.metaAddr.toNat, treeValid := false } s.mem
  | hufBuild : Completes s .hufBuild { s.cur with treeValid := true } s.mem
  | hufCode {sym : Byte} (hcode : codeOf s.cur.codeTable sym ≠ []) :
      Completes s (.hufCode sym)
        { s.cur with
          codeLen := BitVec.ofNat 8 (codeOf s.cur.codeTable sym).length
          code := BitVec.ofNat 256 (bitsValue (codeOf s.cur.codeTable sym)) } s.mem
  | hufPutSym {sym : Byte} (hcode : codeOf s.cur.codeTable sym ≠ [])
      (hroom : s.cur.Room (codeOf s.cur.codeTable sym).length) :
      Completes s (.hufPutSym sym) (putBits (s.cur, s.mem) (codeOf s.cur.codeTable sym)).1
        (putBits (s.cur, s.mem) (codeOf s.cur.codeTable sym)).2
  | hufGetSym {root : HufTree} {sym : Byte} {b : Block} (htree : buildTree s.cur.freq = some root)
      (hout : decodeSymbol s.mem root s.cur = (some sym, b)) : Completes s .hufGetSym { b with symOut := sym } s.mem
  | hufEncode {f : FreqTable} (hok : countBytes s.srcBytes FreqTable.zero = .ok f)
      (hfit : ((payload (codeTable (buildTree f)) s.srcBytes).length + 7) / 8 ≤ s.cur.dstCap.toNat) :
      Completes s .hufEncode
        { s.cur with
          freq := f, treeValid := true, origSize := s.cur.srcLen
          dstLen := BitVec.ofNat 64 (((payload (codeTable (buildTree f)) s.srcBytes).length + 7) / 8)
          bwAcc := 0, bwCnt := 0, bwOpen := false }
        ((s.mem.writeBytes s.cur.metaAddr.toNat f.bytes).writeBytes s.cur.dstAddr.toNat
          (packAll (payload (codeTable (buildTree f)) s.srcBytes)))
  | hufDecodeNothing (hcap : s.cur.origSize.toNat ≤ s.cur.dstCap.toNat)
      (htree : buildTree (s.mem.readFreq s.cur.metaAddr.toNat) = none) (hsize : s.cur.origSize = 0) :
      Completes s .hufDecode (s.cur.decodeStart (s.mem.readFreq s.cur.metaAddr.toNat)) s.mem
  | hufDecode {root : HufTree} {out : List Byte} {b : Block} (hcap : s.cur.origSize.toNat ≤ s.cur.dstCap.toNat)
      (htree : buildTree (s.mem.readFreq s.cur.metaAddr.toNat) = some root)
      (hout : decodeSymbols s.mem root s.cur.origSize.toNat
        (s.cur.decodeStart (s.mem.readFreq s.cur.metaAddr.toNat)) = (out, b, false)) :
      Completes s .hufDecode { b with dstLen := BitVec.ofNat 64 out.length }
        (s.mem.writeBytes s.cur.dstAddr.toNat out)
  | lzwEncode (hfit : 2 * (Machine.lzwEncode s.srcBytes).1.length ≤ s.cur.dstCap.toNat) :
      Completes s .lzwEncode
        { s.cur with
          bwAcc := 0, bwCnt := 0, bwOpen := false
          dstLen := BitVec.ofNat 64 (2 * (Machine.lzwEncode s.srcBytes).1.length)
          codeCount := BitVec.ofNat 64 (Machine.lzwEncode s.srcBytes).1.length
          dictSize := BitVec.ofNat 16 (Machine.lzwEncode s.srcBytes).2
          origSize := s.cur.srcLen }
        (s.mem.writeBytes s.cur.dstAddr.toNat (codeBytes (Machine.lzwEncode s.srcBytes).1))
  | lzwDecode {strict : Bool} {out : List Byte} (hcap : s.cur.origSize.toNat ≤ s.cur.dstCap.toNat)
      (hout : Machine.lzwDecode (s.mem.readCodes s.cur.srcAddr.toNat s.cur.codeCount.toNat) = (out, none))
      (henough : s.cur.origSize.toNat ≤ out.length) (hstrict : strict = true → out.length = s.cur.origSize.toNat) :
      Completes s (.lzwDecode strict) { s.cur with bwAcc := 0, bwCnt := 0, bwOpen := false, dstLen := s.cur.origSize }
        (s.mem.writeBytes s.cur.dstAddr.toNat (out.take s.cur.origSize.toNat))
  | bwInit : Completes s .bwInit s.cur.openWriter s.mem
  | bwPut {n : BitVec 7} (hroom : s.cur.Room n.toNat) :
      Completes s (.bwPut n) (putBits (s.cur, s.mem) (lowBits n.toNat s.cur.bwData)).1
        (putBits (s.cur, s.mem) (lowBits n.toNat s.cur.bwData)).2
  | bwFinishEmpty (hcnt : s.cur.bwCnt = 0) : Completes s .bwFinish s.cur.closeWriter s.mem
  | bwFinish (hcnt : s.cur.bwCnt ≠ 0) (hcap : s.cur.dstLen.toNat + 1 ≤ s.cur.dstCap.toNat) :
      Completes s .bwFinish { s.cur.closeWriter with dstLen := s.cur.dstLen + 1 }
        (s.mem.write (s.cur.dstAddr.toNat + s.cur.dstLen.toNat) s.cur.flushByte)
  | brInit : Completes s .brInit { s.cur with brByte := 0, brBit := 0 } s.mem
  | brGet {n : BitVec 7} (havail : n.toNat ≤ s.cur.avail) :
      Completes s (.brGet n)
        { (getBits s.mem s.cur n.toNat).2 with brData := BitVec.ofNat 64 (bitsValue (getBits s.mem s.cur n.toNat).1) } s.mem

/-- The command ends in a precise fault past its checks: one rule for each way (60_exceptions R275). -/
inductive FailsEarly (s : State) : Instr → FaultCode → Nat → Prop where
  | hufCount {sym : Byte} (h : countBytes s.srcBytes FreqTable.zero = .error sym) :
      FailsEarly s .hufCount .hufFreqOverflow sym.toNat
  | hufCode {sym : Byte} (h : codeOf s.cur.codeTable sym = []) : FailsEarly s (.hufCode sym) .hufEmptyCode sym.toNat
  | hufPutSymEmpty {sym : Byte} (h : codeOf s.cur.codeTable sym = []) :
      FailsEarly s (.hufPutSym sym) .hufEmptyCode sym.toNat
  | hufPutSymFull {sym : Byte} (hcode : codeOf s.cur.codeTable sym ≠ [])
      (hroom : ¬s.cur.Room (codeOf s.cur.codeTable sym).length) :
      FailsEarly s (.hufPutSym sym) .capacity (s.cur.dstLen.toNat + s.cur.pushes (codeOf s.cur.codeTable sym).length)
  | hufGetSymNull (htree : buildTree s.cur.freq = none) : FailsEarly s .hufGetSym .hufNullChild 0
  | hufGetSymEnd {root : HufTree} {b : Block} (htree : buildTree s.cur.freq = some root)
      (hout : decodeSymbol s.mem root s.cur = (none, b)) : FailsEarly s .hufGetSym .hufEndOfStream 0
  | hufEncode {sym : Byte} (h : countBytes s.srcBytes FreqTable.zero = .error sym) :
      FailsEarly s .hufEncode .hufFreqOverflow sym.toNat
  | hufEncodeFull {f : FreqTable} (hok : countBytes s.srcBytes FreqTable.zero = .ok f)
      (hfull : s.cur.dstCap.toNat < ((payload (codeTable (buildTree f)) s.srcBytes).length + 7) / 8) :
      FailsEarly s .hufEncode .capacity (((payload (codeTable (buildTree f)) s.srcBytes).length + 7) / 8)
  | hufDecode (hcap : s.cur.dstCap.toNat < s.cur.origSize.toNat) :
      FailsEarly s .hufDecode .capacity s.cur.origSize.toNat
  | hufDecodeNull (hcap : s.cur.origSize.toNat ≤ s.cur.dstCap.toNat)
      (htree : buildTree (s.mem.readFreq s.cur.metaAddr.toNat) = none) (hsize : s.cur.origSize ≠ 0) :
      FailsEarly s .hufDecode .hufNullChild 0
  | lzwDecode {strict : Bool} (hcap : s.cur.dstCap.toNat < s.cur.origSize.toNat) :
      FailsEarly s (.lzwDecode strict) .capacity s.cur.origSize.toNat
  | bwPut {n : BitVec 7} (hroom : ¬s.cur.Room n.toNat) :
      FailsEarly s (.bwPut n) .capacity (s.cur.dstLen.toNat + s.cur.pushes n.toNat)
  | bwFinish (hcnt : s.cur.bwCnt ≠ 0) (hcap : s.cur.dstCap.toNat < s.cur.dstLen.toNat + 1) :
      FailsEarly s .bwFinish .capacity (s.cur.dstLen.toNat + 1)
  | brGet {n : BitVec 7} (havail : s.cur.avail < n.toNat) : FailsEarly s (.brGet n) .bitEndOfStream s.cur.avail

/-- The command ends in a partial fault, leaving a block and memory: one rule for each way (60_exceptions R276). -/
inductive FailsLate (s : State) : Instr → FaultCode → Nat → Block → Memory → Prop where
  | hufDecode {root : HufTree} {out : List Byte} {b : Block} (hcap : s.cur.origSize.toNat ≤ s.cur.dstCap.toNat)
      (htree : buildTree (s.mem.readFreq s.cur.metaAddr.toNat) = some root)
      (hout : decodeSymbols s.mem root s.cur.origSize.toNat
        (s.cur.decodeStart (s.mem.readFreq s.cur.metaAddr.toNat)) = (out, b, true)) :
      FailsLate s .hufDecode .hufEndOfStream out.length { b with dstLen := BitVec.ofNat 64 out.length }
        (s.mem.writeBytes s.cur.dstAddr.toNat out)
  | lzwEncode {k : Nat} (hk : k < (Machine.lzwEncode s.srcBytes).1.length) (hroom : 2 * k ≤ s.cur.dstCap.toNat)
      (hfull : s.cur.dstCap.toNat < 2 * (k + 1)) :
      FailsLate s .lzwEncode .capacity (2 * (k + 1))
        { s.cur with bwAcc := 0, bwCnt := 0, bwOpen := false, dstLen := BitVec.ofNat 64 (2 * k) }
        (s.mem.writeBytes s.cur.dstAddr.toNat (codeBytes ((Machine.lzwEncode s.srcBytes).1.take k)))
  | lzwDecode {strict : Bool} {out : List Byte} {bad : Option (Nat × Nat)} {code : FaultCode} {info : Nat}
      (hcap : s.cur.origSize.toNat ≤ s.cur.dstCap.toNat)
      (hout : Machine.lzwDecode (s.mem.readCodes s.cur.srcAddr.toNat s.cur.codeCount.toNat) = (out, bad))
      (hfault : (∃ i c, bad = some (i, c) ∧ code = .lzwInvalidCode ∧ info = lzwInfo i c) ∨
        (bad = none ∧ out.length < s.cur.origSize.toNat ∧ code = .lzwShortOutput ∧ info = out.length) ∨
        (bad = none ∧ s.cur.origSize.toNat < out.length ∧ strict = true ∧ code = .lzwLongOutput ∧ info = out.length)) :
      FailsLate s (.lzwDecode strict) code info
        { s.cur with
          bwAcc := 0, bwCnt := 0, bwOpen := false
          dstLen := BitVec.ofNat 64 (min out.length s.cur.origSize.toNat) }
        (s.mem.writeBytes s.cur.dstAddr.toNat (out.take s.cur.origSize.toNat))

/-- How a command ends past its checks. -/
inductive Ends (s : State) (i : Instr) : State → Prop where
  | completed {b : Block} {m : Memory} (h : Completes s i b m) : Ends s i (s.completed b m)
  | faulted {code : FaultCode} {info : Nat} (h : FailsEarly s i code info) : Ends s i (s.faulted code info)
  | aborted {code : FaultCode} {info : Nat} {b : Block} {m : Memory} (h : FailsLate s i code info b m) :
      Ends s i (s.aborted code info b m)

section Rules

variable {s : State} {i : Instr} (hpre : s.cur.prereqFault i = none) (hpass : s.ChecksPass i)
include hpre hpass

theorem exec_of_completes {b : Block} {m : Memory} (h : Completes s i b m) : exec i s = .next (s.completed b m) := by
  cases h with
  | nop => exact exec_nop s
  | softReset => exact exec_softReset s
  | hufCount hok => exact exec_hufCount_of_ok hpass hok
  | hufLoadFreq => exact exec_hufLoadFreq_of_pass hpass
  | hufBuild => exact exec_hufBuild s
  | hufCode hcode => exact exec_hufCode_of_code ((Block.prereqFault_hufCode _).1 hpre) hcode
  | hufPutSym hcode hroom =>
    obtain ⟨htree, hopen⟩ := (Block.prereqFault_hufPutSym _).1 hpre
    exact exec_hufPutSym_of_room htree hopen hpass hcode hroom
  | hufGetSym htree hout => exact exec_hufGetSym_of_decoded (Block.prereqFault_hufGetSym.1 hpre) hpass htree hout
  | hufEncode hok hfit => exact exec_hufEncode_of_fit hpass hok hfit
  | hufDecodeNothing hcap htree hsize => exact exec_hufDecode_of_nothing hpass hcap htree hsize
  | hufDecode hcap htree hout => exact exec_hufDecode_of_decoded hpass hcap htree hout
  | lzwEncode hfit => exact exec_lzwEncode_of_fit hpass hfit
  | lzwDecode hcap hout henough hstrict => exact exec_lzwDecode_of_enough hpass hcap hout henough hstrict
  | bwInit => exact exec_bwInit s
  | bwPut hroom => exact exec_bwPut_of_room ((Block.prereqFault_bwPut _).1 hpre) hpass hroom
  | bwFinishEmpty hcnt => exact exec_bwFinish_of_empty (Block.prereqFault_bwFinish.1 hpre) hpass hcnt
  | bwFinish hcnt hcap => exact exec_bwFinish_of_partial (Block.prereqFault_bwFinish.1 hpre) hpass hcnt hcap
  | brInit => exact exec_brInit s
  | brGet havail => exact exec_brGet_of_avail hpass havail

theorem exec_of_failsEarly {code : FaultCode} {info : Nat} (h : FailsEarly s i code info) :
    exec i s = .next (s.faulted code info) := by
  cases h with
  | hufCount h => exact exec_hufCount_of_overflow hpass h
  | hufCode h => exact exec_hufCode_of_empty ((Block.prereqFault_hufCode _).1 hpre) h
  | hufPutSymEmpty h =>
    obtain ⟨htree, hopen⟩ := (Block.prereqFault_hufPutSym _).1 hpre
    exact exec_hufPutSym_of_empty htree hopen hpass h
  | hufPutSymFull hcode hroom =>
    obtain ⟨htree, hopen⟩ := (Block.prereqFault_hufPutSym _).1 hpre
    exact exec_hufPutSym_of_not_room htree hopen hpass hcode hroom
  | hufGetSymNull htree => exact exec_hufGetSym_of_null (Block.prereqFault_hufGetSym.1 hpre) hpass htree
  | hufGetSymEnd htree hout => exact exec_hufGetSym_of_end (Block.prereqFault_hufGetSym.1 hpre) hpass htree hout
  | hufEncode h => exact exec_hufEncode_of_overflow hpass h
  | hufEncodeFull hok hfull => exact exec_hufEncode_of_full hpass hok hfull
  | hufDecode hcap => exact exec_hufDecode_of_capacity hpass hcap
  | hufDecodeNull hcap htree hsize => exact exec_hufDecode_of_null hpass hcap htree hsize
  | lzwDecode hcap => exact exec_lzwDecode_of_capacity hpass hcap
  | bwPut hroom => exact exec_bwPut_of_not_room ((Block.prereqFault_bwPut _).1 hpre) hpass hroom
  | bwFinish hcnt hcap => exact exec_bwFinish_of_full (Block.prereqFault_bwFinish.1 hpre) hpass hcnt hcap
  | brGet havail => exact exec_brGet_of_endOfStream hpass havail

omit hpre in
theorem exec_of_failsLate {code : FaultCode} {info : Nat} {b : Block} {m : Memory} (h : FailsLate s i code info b m) :
    exec i s = .next (s.aborted code info b m) := by
  cases h with
  | hufDecode hcap htree hout => exact exec_hufDecode_of_end hpass hcap htree hout
  | lzwEncode hk hroom hfull => exact exec_lzwEncode_of_full hpass hk hroom hfull
  | lzwDecode hcap hout hfault => exact exec_lzwDecode_of_dataFault hpass hcap hout hfault

/-- What the rules say is what `exec` does. -/
theorem exec_of_ends {t : State} (h : Ends s i t) : exec i s = .next t := by
  cases h with
  | completed h => exact exec_of_completes hpre hpass h
  | faulted h => exact exec_of_failsEarly hpre hpass h
  | aborted h => exact exec_of_failsLate hpass h

end Rules

/-- The rules leave no case out. -/
theorem exists_ends (s : State) (i : Instr) : ∃ t, Ends s i t := by
  cases i with
  | nop => exact ⟨_, .completed .nop⟩
  | softReset => exact ⟨_, .completed .softReset⟩
  | hufLoadFreq => exact ⟨_, .completed .hufLoadFreq⟩
  | hufBuild => exact ⟨_, .completed .hufBuild⟩
  | bwInit => exact ⟨_, .completed .bwInit⟩
  | brInit => exact ⟨_, .completed .brInit⟩
  | hufCount =>
    cases h : countBytes s.srcBytes FreqTable.zero with
    | error sym => exact ⟨_, .faulted (.hufCount h)⟩
    | ok f => exact ⟨_, .completed (.hufCount h)⟩
  | hufCode sym =>
    by_cases h : codeOf s.cur.codeTable sym = []
    · exact ⟨_, .faulted (.hufCode h)⟩
    · exact ⟨_, .completed (.hufCode h)⟩
  | hufPutSym sym =>
    by_cases h : codeOf s.cur.codeTable sym = []
    · exact ⟨_, .faulted (.hufPutSymEmpty h)⟩
    · by_cases hroom : s.cur.Room (codeOf s.cur.codeTable sym).length
      · exact ⟨_, .completed (.hufPutSym h hroom)⟩
      · exact ⟨_, .faulted (.hufPutSymFull h hroom)⟩
  | hufGetSym =>
    cases htree : buildTree s.cur.freq with
    | none => exact ⟨_, .faulted (.hufGetSymNull htree)⟩
    | some root =>
      rcases hout : decodeSymbol s.mem root s.cur with ⟨_ | sym, b⟩
      · exact ⟨_, .faulted (.hufGetSymEnd htree hout)⟩
      · exact ⟨_, .completed (.hufGetSym htree hout)⟩
  | hufEncode =>
    cases h : countBytes s.srcBytes FreqTable.zero with
    | error sym => exact ⟨_, .faulted (.hufEncode h)⟩
    | ok f =>
      rcases Nat.lt_or_ge s.cur.dstCap.toNat (((payload (codeTable (buildTree f)) s.srcBytes).length + 7) / 8) with
        hfull | hfit
      · exact ⟨_, .faulted (.hufEncodeFull h hfull)⟩
      · exact ⟨_, .completed (.hufEncode h hfit)⟩
  | hufDecode =>
    rcases Nat.lt_or_ge s.cur.dstCap.toNat s.cur.origSize.toNat with hfull | hcap
    · exact ⟨_, .faulted (.hufDecode hfull)⟩
    · cases htree : buildTree (s.mem.readFreq s.cur.metaAddr.toNat) with
      | none =>
        by_cases hsize : s.cur.origSize = 0
        · exact ⟨_, .completed (.hufDecodeNothing hcap htree hsize)⟩
        · exact ⟨_, .faulted (.hufDecodeNull hcap htree hsize)⟩
      | some root =>
        rcases hout : decodeSymbols s.mem root s.cur.origSize.toNat
          (s.cur.decodeStart (s.mem.readFreq s.cur.metaAddr.toNat)) with ⟨out, b, _ | _⟩
        · exact ⟨_, .completed (.hufDecode hcap htree hout)⟩
        · exact ⟨_, .aborted (.hufDecode hcap htree hout)⟩
  | lzwEncode =>
    rcases Nat.lt_or_ge s.cur.dstCap.toNat (2 * (Machine.lzwEncode s.srcBytes).1.length) with hfull | hfit
    · exact ⟨_, .aborted (.lzwEncode (k := s.cur.dstCap.toNat / 2) (by omega) (by omega) (by omega))⟩
    · exact ⟨_, .completed (.lzwEncode hfit)⟩
  | lzwDecode strict =>
    rcases Nat.lt_or_ge s.cur.dstCap.toNat s.cur.origSize.toNat with hfull | hcap
    · exact ⟨_, .faulted (.lzwDecode hfull)⟩
    · rcases hout : Machine.lzwDecode (s.mem.readCodes s.cur.srcAddr.toNat s.cur.codeCount.toNat) with
        ⟨out, _ | ⟨k, c⟩⟩
      · rcases Nat.lt_or_ge out.length s.cur.origSize.toNat with hshort | henough
        · exact ⟨_, .aborted (.lzwDecode hcap hout (.inr (.inl ⟨rfl, hshort, rfl, rfl⟩)))⟩
        · by_cases hlong : strict = true ∧ s.cur.origSize.toNat < out.length
          · exact ⟨_, .aborted (.lzwDecode hcap hout (.inr (.inr ⟨rfl, hlong.2, hlong.1, rfl, rfl⟩)))⟩
          · refine ⟨_, .completed (.lzwDecode hcap hout henough fun hstrict => ?_)⟩
            exact henough.antisymm' (Nat.not_lt.1 fun hlt => hlong ⟨hstrict, hlt⟩)
      · exact ⟨_, .aborted (.lzwDecode hcap hout (.inl ⟨k, c, rfl, rfl, rfl⟩))⟩
  | bwPut n =>
    by_cases hroom : s.cur.Room n.toNat
    · exact ⟨_, .completed (.bwPut hroom)⟩
    · exact ⟨_, .faulted (.bwPut hroom)⟩
  | bwFinish =>
    by_cases hcnt : s.cur.bwCnt = 0
    · exact ⟨_, .completed (.bwFinishEmpty hcnt)⟩
    · rcases Nat.lt_or_ge s.cur.dstCap.toNat (s.cur.dstLen.toNat + 1) with hfull | hcap
      · exact ⟨_, .faulted (.bwFinish hcnt hfull)⟩
      · exact ⟨_, .completed (.bwFinish hcnt hcap)⟩
  | brGet n =>
    rcases Nat.lt_or_ge s.cur.avail n.toNat with hend | havail
    · exact ⟨_, .faulted (.brGet hend)⟩
    · exact ⟨_, .completed (.brGet havail)⟩

/-- Everything a command can do: it misses a prerequisite, fails a check, is refused, or ends as its rules say. -/
inductive Executes (s : State) (i : Instr) : Result → Prop where
  | prerequisite {code : FaultCode} (hpre : s.cur.prereqFault i = some code) : Executes s i (.next (s.faulted code 0))
  | check {code : FaultCode} {info : Nat} (hpre : s.cur.prereqFault i = none)
      (hcheck : checkRegions s.denied s.platform.devices (s.cur.regions i) = .fault code info) :
      Executes s i (.next (s.faulted code info))
  | device (hpre : s.cur.prereqFault i = none)
      (hcheck : checkRegions s.denied s.platform.devices (s.cur.regions i) = .refuse) :
      Executes s i (.refused .notIdempotent)
  | ended {t : State} (hpre : s.cur.prereqFault i = none) (hpass : s.ChecksPass i) (h : Ends s i t) :
      Executes s i (.next t)

/-- What a command does is one of these. -/
theorem exec_executes (i : Instr) (s : State) : Executes s i (exec i s) := by
  cases hpre : s.cur.prereqFault i with
  | some code =>
    rw [statePrerequisites i s code hpre]
    exact .prerequisite hpre
  | none =>
    cases hcheck : checkRegions s.denied s.platform.devices (s.cur.regions i) with
    | fault code info =>
      rw [exec_of_checkFault hpre hcheck]
      exact .check hpre hcheck
    | refuse =>
      rw [exec_of_refuse hpre hcheck]
      exact .device hpre hcheck
    | pass =>
      obtain ⟨t, ht⟩ := exists_ends s i
      rw [exec_of_ends hpre hcheck ht]
      exact .ended hpre hcheck ht

/-- The same for a next state. -/
theorem executes_of_exec {i : Instr} {s t : State} (h : exec i s = .next t) : Executes s i (.next t) := h ▸ exec_executes i s

end Sys2Proof.Machine
end

section
/-! What every command leaves alone, and how its end is recorded: the statements O16 to O18, O20 and O21 (10_state R53,
60_exceptions R273 to R275). -/

namespace Sys2Proof.Machine

section Frames

variable {s t : State} {i : Instr}

/-! ### The registers a command does not write -/

/-- A block that differs from another at most in the registers commands write. -/
def Block.SameButWork (b c : Block) : Prop :=
  c = { b with
    dstLen := c.dstLen, origSize := c.origSize, codeCount := c.codeCount, dictSize := c.dictSize
    bwAcc := c.bwAcc, bwCnt := c.bwCnt, bwOpen := c.bwOpen, brByte := c.brByte, brBit := c.brBit, brData := c.brData
    symOut := c.symOut, codeLen := c.codeLen, code := c.code, treeValid := c.treeValid, freq := c.freq }

/-- What a command that completes leaves before its end is recorded. -/
theorem Completes.sameButWork {b : Block} {m : Memory} (h : Completes s i b m) : s.cur.SameButWork b := by
  cases h with
  | hufPutSym | bwPut =>
    obtain ⟨acc, cnt, len, hblock⟩ := putBits_block (s.cur, s.mem) _
    rw [hblock]
    rfl
  | hufGetSym htree hout =>
    obtain ⟨p, q, hblock⟩ := decodeSymbol_block s.mem _ s.cur
    rw [hout] at hblock
    cases hblock
    rfl
  | hufDecode hcap htree hout =>
    obtain ⟨-, p, q, hblock⟩ := decodeSymbols_block s.mem _ s.cur.origSize.toNat
      (s.cur.decodeStart (s.mem.readFreq s.cur.metaAddr.toNat))
    rw [hout] at hblock
    cases hblock
    rfl
  | brGet =>
    obtain ⟨p, q, hblock⟩ := getBits_block s.mem s.cur _
    rw [hblock]
    rfl
  | _ => rfl

/-- What a partial fault leaves before it is recorded. -/
theorem FailsLate.sameButWork {code : FaultCode} {info : Nat} {b : Block} {m : Memory} (h : FailsLate s i code info b m) :
    s.cur.SameButWork b := by
  cases h with
  | hufDecode hcap htree hout =>
    obtain ⟨-, p, q, hblock⟩ := decodeSymbols_block s.mem _ s.cur.origSize.toNat
      (s.cur.decodeStart (s.mem.readFreq s.cur.metaAddr.toNat))
    rw [hout] at hblock
    cases hblock
    rfl
  | lzwEncode | lzwDecode => rfl

/-- Which registers of those that commands write a command leaves alone (10_state R41 to R51). -/
structure RegistersKept (i : Instr) (b c : Block) : Prop where
  origSize : i ∉ [.hufCount, .hufEncode, .lzwEncode] → c.origSize = b.origSize
  codeCount : i ≠ .lzwEncode → c.codeCount = b.codeCount
  dictSize : i ∉ [.lzwEncode, .softReset] → c.dictSize = b.dictSize
  brData : i ≠ .softReset → (∀ n, i ≠ .brGet n) → c.brData = b.brData
  symOut : i ∉ [.hufGetSym, .softReset] → c.symOut = b.symOut
  codeword : i ≠ .softReset → (∀ sym, i ≠ .hufCode sym) → c.codeLen = b.codeLen ∧ c.code = b.code
  freq : i ∉ [.hufCount, .hufLoadFreq, .hufEncode, .hufDecode, .softReset] → c.freq = b.freq
  treeValid : i ∉ [.hufCount, .hufLoadFreq, .hufBuild, .hufEncode, .hufDecode, .softReset] → c.treeValid = b.treeValid
  reader : i ∉ [.brInit, .hufGetSym, .hufDecode, .softReset] → (∀ n, i ≠ .brGet n) →
    c.brByte = b.brByte ∧ c.brBit = b.brBit
  writer : i ∉ [.bwInit, .bwFinish, .hufEncode, .hufDecode, .lzwEncode, .softReset] → (∀ strict, i ≠ .lzwDecode strict) →
    c.bwOpen = b.bwOpen ∧
      ((∀ n, i ≠ .bwPut n) → (∀ sym, i ≠ .hufPutSym sym) →
        c.bwAcc = b.bwAcc ∧ c.bwCnt = b.bwCnt ∧ c.dstLen = b.dstLen)

/-- Recording a fault writes none of these registers. -/
theorem RegistersKept.raise {b c : Block} (h : RegistersKept i b c) (code : FaultCode) (info : Nat) :
    RegistersKept i b (c.raise code info) := ⟨h.1, h.2, h.3, h.4, h.5, h.6, h.7, h.8, h.9, h.10⟩

/-- Recording success writes none of these registers. -/
theorem RegistersKept.complete {b c : Block} (h : RegistersKept i b c) : RegistersKept i b c.complete :=
  ⟨h.1, h.2, h.3, h.4, h.5, h.6, h.7, h.8, h.9, h.10⟩

theorem RegistersKept.refl (i : Instr) (b : Block) : RegistersKept i b b := by constructor <;> simp

theorem Completes.registersKept {b : Block} {m : Memory} (h : Completes s i b m) : RegistersKept i s.cur b := by
  cases h with
  | nop => exact .refl _ _
  | hufPutSym | bwPut =>
    obtain ⟨acc, cnt, len, hblock⟩ := putBits_block (s.cur, s.mem) _
    rw [hblock]
    constructor <;> simp
  | hufGetSym htree hout =>
    obtain ⟨p, q, hblock⟩ := decodeSymbol_block s.mem _ s.cur
    rw [hout] at hblock
    cases hblock
    constructor <;> simp
  | hufDecode hcap htree hout =>
    obtain ⟨-, p, q, hblock⟩ := decodeSymbols_block s.mem _ s.cur.origSize.toNat
      (s.cur.decodeStart (s.mem.readFreq s.cur.metaAddr.toNat))
    rw [hout] at hblock
    cases hblock
    constructor <;> simp [Block.decodeStart]
  | brGet =>
    obtain ⟨p, q, hblock⟩ := getBits_block s.mem s.cur _
    rw [hblock]
    constructor <;> simp
  | hufDecodeNothing => constructor <;> simp [Block.decodeStart]
  | _ => constructor <;> simp

theorem FailsLate.registersKept {code : FaultCode} {info : Nat} {b : Block} {m : Memory} (h : FailsLate s i code info b m) :
    RegistersKept i s.cur b := by
  cases h with
  | hufDecode hcap htree hout =>
    obtain ⟨-, p, q, hblock⟩ := decodeSymbols_block s.mem _ s.cur.origSize.toNat
      (s.cur.decodeStart (s.mem.readFreq s.cur.metaAddr.toNat))
    rw [hout] at hblock
    cases hblock
    constructor <;> simp [Block.decodeStart]
  | lzwEncode | lzwDecode => constructor <;> simp

/-- Settles O21: a fault recorded before the command's work keeps every register; the rules say the rest. -/
theorem registerWriters : Obligations.RegisterWriters := by
  intro i s t h
  have hkept : RegistersKept i s.cur t.cur := by
    cases executes_of_exec h with
    | prerequisite | check => exact (RegistersKept.refl i s.cur).raise _ _
    | ended hpre hpass hends =>
      cases hends with
      | completed hdone => exact hdone.registersKept.complete
      | faulted => exact (RegistersKept.refl i s.cur).raise _ _
      | aborted hlate => exact hlate.registersKept.raise _ _
  exact ⟨hkept.origSize, hkept.codeCount, hkept.dictSize, hkept.brData, hkept.symOut, hkept.codeword, hkept.freq,
    hkept.treeValid, hkept.reader, hkept.writer⟩

/-! ### The faults a command can raise (60_exceptions R273, R276) -/

/-- The faults that come before a command's work. -/
theorem mem_commandFaults_of_check {code : FaultCode} {info : Nat}
    (h : checkRegions s.denied s.platform.devices (s.cur.regions i) = .fault code info) :
    code ∈ commandFaults i ∧ code ∉ partialFaults i := by
  have hmem := checkRegions_fault_mem h
  cases i with
  | nop | softReset | bwInit | brInit | hufBuild | hufCode =>
    have hpass : checkRegions s.denied s.platform.devices [] = .pass := rfl
    cases hpass.symm.trans h
  | hufLoadFreq | hufPutSym | hufGetSym | bwPut | bwFinish | brGet =>
    rcases hmem with rfl | ⟨-, hlen⟩ | rfl
    · simp [commandFaults, partialFaults]
    · exact absurd hlen (by simp [Block.regions])
    · simp [commandFaults, partialFaults]
  | hufCount | hufEncode | hufDecode | lzwEncode | lzwDecode =>
    rcases hmem with rfl | ⟨rfl, -⟩ | rfl <;> simp [commandFaults, partialFaults]

theorem mem_commandFaults_of_prereq {code : FaultCode} (h : s.cur.prereqFault i = some code) :
    code ∈ commandFaults i ∧ code ∉ partialFaults i := by
  cases i with
  | hufCode | hufGetSym | hufPutSym | bwPut | bwFinish =>
    rcases Block.prereqFault_mem h with rfl | rfl <;> simp_all [Block.prereqFault, commandFaults, partialFaults]
  | _ => cases h

theorem FailsEarly.mem_commandFaults {code : FaultCode} {info : Nat} (h : FailsEarly s i code info) :
    code ∈ commandFaults i ∧ code ∉ partialFaults i := by
  cases h <;> simp [commandFaults, partialFaults]

theorem FailsLate.mem_partialFaults {code : FaultCode} {info : Nat} {b : Block} {m : Memory}
    (h : FailsLate s i code info b m) : code ∈ commandFaults i ∧ code ∈ partialFaults i := by
  cases h with
  | hufDecode | lzwEncode => simp [commandFaults, partialFaults]
  | lzwDecode hcap hout hfault =>
    rcases hfault with ⟨-, -, -, rfl, -⟩ | ⟨-, -, rfl, -⟩ | ⟨-, -, rfl, rfl, -⟩ <;> simp [commandFaults, partialFaults]

theorem ne_noFault_of_mem_commandFaults {code : FaultCode} (h : code ∈ commandFaults i) : code ≠ .noFault := by
  rintro rfl
  cases i with
  | lzwDecode strict => cases strict <;> simp [commandFaults] at h
  | _ => simp [commandFaults] at h

/-- A command that answers a next state succeeds, faults precisely or faults partway. -/
theorem exec_cases (h : exec i s = .next t) :
    (∃ b m, Completes s i b m ∧ t = s.completed b m) ∨
      (∃ code info, code ∈ commandFaults i ∧ code ∉ partialFaults i ∧ t = s.faulted code info) ∨
      ∃ code info b m, FailsLate s i code info b m ∧ t = s.aborted code info b m := by
  cases executes_of_exec h with
  | prerequisite hpre =>
    obtain ⟨hmem, hnot⟩ := mem_commandFaults_of_prereq hpre
    exact .inr (.inl ⟨_, _, hmem, hnot, rfl⟩)
  | check hpre hcheck =>
    obtain ⟨hmem, hnot⟩ := mem_commandFaults_of_check hcheck
    exact .inr (.inl ⟨_, _, hmem, hnot, rfl⟩)
  | ended hpre hpass hends =>
    cases hends with
    | completed hdone => exact .inl ⟨_, _, hdone, rfl⟩
    | faulted hearly =>
      obtain ⟨hmem, hnot⟩ := hearly.mem_commandFaults
      exact .inr (.inl ⟨_, _, hmem, hnot, rfl⟩)
    | aborted hlate => exact .inr (.inr ⟨_, _, _, _, hlate, rfl⟩)

/-! ### The statements -/

/-- Settles O20: a command's work writes its own registers, and its end STATUS, FAULT_INFO and the pending command. -/
theorem commandFrame : Obligations.CommandFrame := by
  intro i s t h
  rcases exec_cases h with ⟨b, m, hdone, rfl⟩ | ⟨code, info, -, -, rfl⟩ | ⟨code, info, b, m, hlate, rfl⟩
  · have hb : s.cur.SameButWork b := hdone.sameButWork
    rw [hb]
    exact ⟨⟨rfl, rfl, rfl, rfl, rfl, rfl⟩, ⟨rfl, rfl, rfl, rfl, rfl, rfl⟩, rfl, rfl, rfl, rfl, rfl, rfl⟩
  · exact ⟨⟨rfl, rfl, rfl, rfl, rfl, rfl⟩, ⟨rfl, rfl, rfl, rfl, rfl, rfl⟩, rfl, rfl, rfl, rfl, rfl, rfl⟩
  · have hb : s.cur.SameButWork b := hlate.sameButWork
    rw [hb]
    exact ⟨⟨rfl, rfl, rfl, rfl, rfl, rfl⟩, ⟨rfl, rfl, rfl, rfl, rfl, rfl⟩, rfl, rfl, rfl, rfl, rfl, rfl⟩

/-- The checks refuse a region on a device only. -/
theorem exists_device_of_refuse {denied devices : List Range} {rs : List Region}
    (h : checkRegions denied devices rs = .refuse) : ∃ r ∈ rs, ∃ d ∈ devices, d.overlaps r.range = true := by
  simp only [checkRegions] at h
  (repeat' split at h) <;> cases h
  next hany => simpa using hany

/-- Settles O16: only a device makes a command answer anything but a next state, and every end writes one outcome. -/
theorem everyCommandEnds : Obligations.EveryCommandEnds := by
  refine fun i s => ⟨fun hdevices => ?_, ?_, fun t h => ?_⟩
  · cases hexec : exec i s with
    | next t => exact ⟨t, rfl⟩
    | fault f => cases hexec ▸ exec_executes i s
    | refused r =>
      cases hexec ▸ exec_executes i s with
      | device hpre hcheck =>
        obtain ⟨r, hr, d, hd, hoverlaps⟩ := exists_device_of_refuse hcheck
        cases (hdevices r hr d hd).symm.trans hoverlaps
  · cases hexec : exec i s with
    | next t => exact .inr ⟨t, rfl⟩
    | fault f => cases hexec ▸ exec_executes i s
    | refused r =>
      cases hexec ▸ exec_executes i s
      exact .inl rfl
  · rcases exec_cases h with ⟨b, m, hdone, rfl⟩ | ⟨code, info, hmem, -, rfl⟩ | ⟨code, info, b, m, hlate, rfl⟩
    · have hb : s.cur.SameButWork b := hdone.sameButWork
      rw [hb]
      exact ⟨rfl, rfl, .inl ⟨rfl, rfl, rfl, rfl⟩⟩
    · exact ⟨rfl, rfl, .inr ⟨rfl, rfl, ne_noFault_of_mem_commandFaults hmem⟩⟩
    · have hb : s.cur.SameButWork b := hlate.sameButWork
      rw [hb]
      exact ⟨rfl, rfl, .inr ⟨rfl, rfl, ne_noFault_of_mem_commandFaults hlate.mem_partialFaults.1⟩⟩

/-- Settles O18: of the three ends of a command only the partial faults leave more than STATUS and FAULT_INFO. -/
theorem preciseFaults : Obligations.PreciseFaults := by
  intro i s t herr h hterr hcode
  rcases exec_cases h with ⟨b, m, hdone, rfl⟩ | ⟨code, info, -, -, rfl⟩ | ⟨code, info, b, m, hlate, rfl⟩
  · have hb : s.cur.SameButWork b := hdone.sameButWork
    rw [hb] at hterr
    cases herr.symm.trans hterr
  · exact ⟨info, rfl⟩
  · exact absurd hlate.mem_partialFaults.2 hcode

/-- Settles O17: a fault recorded on what a command leaves writes ERR, FAULT and BUSY of STATUS only. -/
theorem faultRecorded : Obligations.FaultRecorded := by
  intro i s t herr h hterr
  have hrecorded : ∃ code info b, s.cur.SameButWork b ∧ code ∈ commandFaults i ∧ t.cur = b.raise code info := by
    rcases exec_cases h with ⟨b, m, hdone, rfl⟩ | ⟨code, info, hmem, -, rfl⟩ | ⟨code, info, b, m, hlate, rfl⟩
    · have hb : s.cur.SameButWork b := hdone.sameButWork
      rw [hb] at hterr
      cases herr.symm.trans hterr
    · exact ⟨code, info, s.cur, rfl, hmem, rfl⟩
    · exact ⟨code, info, b, hlate.sameButWork, hlate.mem_partialFaults.1, rfl⟩
  obtain ⟨code, info, b, hb, hmem, ht⟩ := hrecorded
  have hidle : t.cur.status.busy = false := by rw [ht]; rfl
  refine ⟨?_, hidle, ?_, ?_, ?_, ?_, ?_, ?_, fun w hreset => ?_⟩
  · rw [ht]; exact hmem
  · rw [ht, hb]; rfl
  · rw [ht, hb]; rfl
  · rw [ht, hb]; rfl
  · rw [ht, hb]; rfl
  · simp [Block.irq, ht]
  · rw [ht]; rfl
  · rw [State.hostWrite_cmd_of_idle hreset hidle]
    rfl

end Frames

end Sys2Proof.Machine
end

section
/-! What a command does to memory: the bytes it writes, the form it keeps, the bytes it depends on; the statements O19 and O22
(20_memory R84 to R86, 60_exceptions R276). -/

namespace Sys2Proof.Machine

section MemoryEffects

variable {s t : State} {i : Instr}

/-! ### The bytes a command writes -/

/-- `m'` comes from `m` by writes to the written regions `rs` names: no other byte changes, and the form and the bound of
memory are kept. -/
structure WritesRegions (rs : List Region) (m m' : Memory) : Prop where
  outside : ∀ a, (∀ r ∈ rs, r.write = true → r.range.has a = false) → m'.read a = m.read a
  wf : m.wf = true → m'.wf = true
  inSpace : m.inSpace = true → m'.inSpace = true

theorem WritesRegions.refl (rs : List Region) (m : Memory) : WritesRegions rs m m := ⟨fun _ _ => rfl, id, id⟩

theorem WritesRegions.trans {rs : List Region} {m₁ m₂ m₃ : Memory} (h : WritesRegions rs m₁ m₂)
    (h' : WritesRegions rs m₂ m₃) : WritesRegions rs m₁ m₃ :=
  ⟨fun a ha => (h'.outside a ha).trans (h.outside a ha), h'.wf ∘ h.wf, h'.inSpace ∘ h.inSpace⟩

/-- Bytes stored from the start of a written region. -/
theorem WritesRegions.writeBytes (hpass : s.ChecksPass i) {r : Region} (hr : r ∈ s.cur.regions i) (hw : r.write = true)
    {bytes : List Byte} (hl : bytes.length ≤ r.len) (m : Memory) :
    WritesRegions (s.cur.regions i) m (m.writeBytes r.base bytes) := by
  obtain ⟨houtside, hwf, hspace⟩ := State.writeBytes_region hpass hr hw bytes hl m
  exact ⟨houtside, hwf, hspace⟩

/-- Bits put into a destination with room for them. -/
theorem WritesRegions.putBits (hpass : s.ChecksPass i) (hr : s.cur.dstRegion ∈ s.cur.regions i) {bits : Bits}
    (hroom : s.cur.Room bits.length) : WritesRegions (s.cur.regions i) s.mem (putBits (s.cur, s.mem) bits).2 := by
  have hfit : 0 < s.cur.pushes bits.length → s.cur.dstLen.toNat + s.cur.pushes bits.length ≤ s.cur.dstCap.toNat := by
    intro hpos
    rcases hroom with h | h
    · omega
    · exact h
  obtain ⟨houtside, hwf, hspace⟩ := putBits_mem (s.cur, s.mem) bits (s.cur.dstAddr.toNat + s.cur.dstCap.toNat)
    fun hpos => ⟨by have := hfit hpos; simp only [Block.pushes] at this ⊢; omega, hroom.lt⟩
  have hspaceFits : s.cur.dstAddr.toNat + s.cur.dstCap.toNat ≤ Config.addressSpace := by
    rcases Nat.eq_zero_or_pos s.cur.dstCap.toNat with hzero | hpos
    · rw [hzero, Nat.add_zero]
      exact s.cur.dstAddr.isLt.le
    · exact State.region_fits hpass hr hpos
  refine ⟨fun a ha => houtside a ?_, hwf, hspace hspaceFits⟩
  have hrange := (Range.has_eq_false _ _).1 (ha _ hr rfl)
  simp only [Region.range, Block.dstRegion] at hrange ⊢
  omega

/-- One byte stored inside the destination. -/
theorem WritesRegions.write (hpass : s.ChecksPass i) (hr : s.cur.dstRegion ∈ s.cur.regions i)
    (hroom : s.cur.dstLen.toNat + 1 ≤ s.cur.dstCap.toNat) (v : Byte) :
    WritesRegions (s.cur.regions i) s.mem (s.mem.write (s.cur.dstAddr.toNat + s.cur.dstLen.toNat) v) := by
  have hfits : s.cur.dstAddr.toNat + s.cur.dstCap.toNat ≤ Config.addressSpace :=
    State.region_fits hpass hr (show 0 < s.cur.dstCap.toNat by omega)
  refine ⟨fun a ha => ?_, Memory.wf_write _ _ _, Memory.inSpace_write _ _ _ (by omega)⟩
  have hrange := (Range.has_eq_false _ _).1 (ha _ hr rfl)
  simp only [Region.range, Block.dstRegion] at hrange
  exact Memory.read_write_other _ _ (by omega)

/-- A command that completes writes its written regions only. -/
theorem Completes.writesRegions {b : Block} {m : Memory} (hpass : s.ChecksPass i) (h : Completes s i b m) :
    WritesRegions (s.cur.regions i) s.mem m := by
  cases h with
  | @hufCount f hok => exact .writeBytes hpass (r := s.cur.metaRegion true) (by simp [Block.regions]) rfl f.length_bytes.le _
  | hufPutSym hcode hroom => exact .putBits hpass (by simp [Block.regions]) hroom
  | bwPut hroom => exact .putBits hpass (by simp [Block.regions]) (by rwa [length_lowBits])
  | bwFinish hcnt hcap => exact .write hpass (by simp [Block.regions]) hcap _
  | @hufEncode f hok hfit =>
    refine .trans (.writeBytes hpass (r := s.cur.metaRegion true) (by simp [Block.regions]) rfl f.length_bytes.le _) ?_
    exact .writeBytes hpass (r := s.cur.dstRegion) (by simp [Block.regions]) rfl (by simpa [packAll] using hfit : _ ≤ s.cur.dstCap.toNat) _
  | @hufDecode root out b hcap htree hout =>
    have hlen := (decodeSymbols_block s.mem root s.cur.origSize.toNat
      (s.cur.decodeStart (s.mem.readFreq s.cur.metaAddr.toNat))).1
    rw [hout] at hlen
    exact .writeBytes hpass (r := s.cur.dstRegion) (by simp [Block.regions]) rfl (hlen.trans hcap) _
  | lzwEncode hfit =>
    exact .writeBytes hpass (r := s.cur.dstRegion) (by simp [Block.regions]) rfl (by rwa [length_codeBytes]) _
  | lzwDecode hcap hout henough hstrict =>
    exact .writeBytes hpass (r := s.cur.dstRegion) (by simp [Block.regions]) rfl
      ((List.length_take_le _ _).trans hcap) _
  | _ => exact .refl _ _

/-- What a partial fault has written: as many bytes as DST_LEN says, from the start of the destination (60_exceptions
R276). -/
theorem FailsLate.written {code : FaultCode} {info : Nat} {b : Block} {m : Memory} (h : FailsLate s i code info b m) :
    ∃ bytes : List Byte, m = s.mem.writeBytes s.cur.dstAddr.toNat bytes ∧ b.dstLen.toNat = bytes.length ∧
      bytes.length ≤ s.cur.dstCap.toNat ∧ s.cur.dstRegion ∈ s.cur.regions i ∧ b.bwOpen = false ∧ b.bwAcc = 0 ∧ b.bwCnt = 0 := by
  have hcap64 := s.cur.dstCap.isLt
  cases h with
  | @hufDecode root out b hcap htree hout =>
    obtain ⟨hlen, p, q, hblock⟩ := decodeSymbols_block s.mem root s.cur.origSize.toNat
      (s.cur.decodeStart (s.mem.readFreq s.cur.metaAddr.toNat))
    rw [hout] at hlen hblock
    cases hblock
    refine ⟨_, rfl, ?_, hlen.trans hcap, by simp [Block.regions], rfl, rfl, rfl⟩
    simp only [BitVec.toNat_ofNat] at hlen ⊢
    omega
  | lzwEncode hk hroom hfull =>
    refine ⟨_, rfl, ?_, ?_, by simp [Block.regions], rfl, rfl, rfl⟩
    · simp only [BitVec.toNat_ofNat, length_codeBytes, List.length_take]
      omega
    · simp only [length_codeBytes, List.length_take]
      omega
  | lzwDecode hcap hout hfault =>
    refine ⟨_, rfl, ?_, (List.length_take_le _ _).trans hcap, by simp [Block.regions], rfl, rfl, rfl⟩
    simp only [BitVec.toNat_ofNat, List.length_take]
    omega

theorem FailsLate.writesRegions {code : FaultCode} {info : Nat} {b : Block} {m : Memory} (hpass : s.ChecksPass i)
    (h : FailsLate s i code info b m) : WritesRegions (s.cur.regions i) s.mem m := by
  obtain ⟨bytes, rfl, -, hle, hr, -⟩ := h.written
  exact .writeBytes hpass (r := s.cur.dstRegion) hr rfl hle _

/-- Every command writes its written regions only (20_memory R84). -/
theorem exec_writesRegions (h : exec i s = .next t) : WritesRegions (s.cur.regions i) s.mem t.mem := by
  cases executes_of_exec h with
  | prerequisite | check => exact .refl _ _
  | ended hpre hpass hends =>
    cases hends with
    | completed hdone => exact hdone.writesRegions hpass
    | faulted => exact .refl _ _
    | aborted hlate => exact hlate.writesRegions hpass

/-- Settles O19: a partial fault has written DST_LEN bytes from DST_ADDR up and closed the writer. -/
theorem partialFaultsHold : Obligations.PartialFaults := by
  intro i s t herr h hterr hcode
  rcases exec_cases h with ⟨b, m, hdone, rfl⟩ | ⟨code, info, -, hnot, rfl⟩ | ⟨code, info, b, m, hlate, rfl⟩
  · have hb : s.cur.SameButWork b := hdone.sameButWork
    rw [hb] at hterr
    cases herr.symm.trans hterr
  · exact absurd hcode hnot
  · obtain ⟨bytes, rfl, hlen, hle, -, hopen, -⟩ := hlate.written
    refine ⟨hlen.trans_le hle, hopen, fun a ha => ?_⟩
    have hrange := (Range.has_eq_false _ _).1 ha
    simp only [State.aborted, Block.raise_dstLen, hlen] at hrange ⊢
    exact Memory.read_writeBytes_outside _ _ _ _ hrange

/-! ### The bytes a command depends on (20_memory R86) -/

/-- Memory `m` reads as the state's on the read regions of the command. -/
def State.AgreesOnReads (s : State) (i : Instr) (m : Memory) : Prop :=
  ∀ r ∈ s.cur.regions i, r.write = false → ∀ a, r.range.has a = true → m.read a = s.mem.read a

section Dependence

variable {m : Memory} (hagree : s.AgreesOnReads i m)
include hagree

/-- The bytes of a read region are the same. -/
theorem State.AgreesOnReads.read_eq {r : Region} (hr : r ∈ s.cur.regions i) (hw : r.write = false) {a : Nat}
    (hlo : r.base ≤ a) (hhi : a < r.base + r.len) : m.read a = s.mem.read a :=
  hagree r hr hw a ((Range.has_iff _ _).2 ⟨hlo, hhi⟩)

theorem State.AgreesOnReads.srcBytes_eq (hr : s.cur.srcRegion ∈ s.cur.regions i) :
    ({ s with mem := m } : State).srcBytes = s.srcBytes :=
  Memory.readBytes_congr fun _ hlo hhi => hagree.read_eq hr rfl hlo hhi

theorem State.AgreesOnReads.source_eq (hr : s.cur.srcRegion ∈ s.cur.regions i) (x : Nat) (hx : x < s.cur.srcLen.toNat) :
    m.read (s.cur.srcAddr.toNat + x) = s.mem.read (s.cur.srcAddr.toNat + x) :=
  hagree.read_eq hr rfl (Nat.le_add_right _ _) (Nat.add_lt_add_left hx _)

theorem State.AgreesOnReads.readFreq_eq (hr : s.cur.metaRegion false ∈ s.cur.regions i) :
    m.readFreq s.cur.metaAddr.toNat = s.mem.readFreq s.cur.metaAddr.toNat :=
  Memory.readFreq_congr fun _ hlo hhi => hagree.read_eq hr rfl hlo hhi

theorem State.AgreesOnReads.readCodes_eq (hr : s.cur.codesRegion ∈ s.cur.regions i) :
    m.readCodes s.cur.srcAddr.toNat s.cur.codeCount.toNat = s.mem.readCodes s.cur.srcAddr.toNat s.cur.codeCount.toNat :=
  Memory.readCodes_congr fun _ hlo hhi => hagree.read_eq hr rfl hlo hhi

theorem State.AgreesOnReads.decodeSymbols_eq (hr : s.cur.srcRegion ∈ s.cur.regions i) (root : HufTree) (n : Nat)
    (f : FreqTable) : decodeSymbols m root n (s.cur.decodeStart f) = decodeSymbols s.mem root n (s.cur.decodeStart f) :=
  decodeSymbols_congr root n _ fun x _ hx => hagree.source_eq hr x hx

/-- A command that completes on one memory completes on the other, and leaves the same block and alike bytes alike. -/
theorem Completes.congr {b : Block} {m₁ : Memory} (hwf : s.mem.wf = true) (hwf' : m.wf = true) (h : Completes s i b m₁) :
    ∃ m₂, Completes { s with mem := m } i b m₂ ∧ ∀ a, m.read a = s.mem.read a → m₂.read a = m₁.read a := by
  have hsame {a : Nat} {bytes : List Byte} (x : Nat) (hx : m.read x = s.mem.read x) :
      (m.writeBytes a bytes).read x = (s.mem.writeBytes a bytes).read x :=
    Memory.read_writeBytes_congr (P := fun x => m.read x = s.mem.read x) hwf' hwf (fun _ h => h) a bytes bytes
      (fun _ _ => rfl) x hx
  cases h with
  | nop => exact ⟨_, .nop, fun _ h => h⟩
  | softReset => exact ⟨_, .softReset, fun _ h => h⟩
  | hufBuild => exact ⟨_, .hufBuild, fun _ h => h⟩
  | hufCode hcode => exact ⟨_, .hufCode hcode, fun _ h => h⟩
  | bwInit => exact ⟨_, .bwInit, fun _ h => h⟩
  | brInit => exact ⟨_, .brInit, fun _ h => h⟩
  | bwFinishEmpty hcnt => exact ⟨_, .bwFinishEmpty hcnt, fun _ h => h⟩
  | bwFinish hcnt hcap => exact ⟨_, .bwFinish hcnt hcap, hsame (bytes := [_])⟩
  | hufCount hok =>
    have hsrc := hagree.srcBytes_eq (by simp [Block.regions])
    exact ⟨_, .hufCount (hsrc ▸ hok), hsame⟩
  | hufLoadFreq =>
    have hfreq := hagree.readFreq_eq (by simp [Block.regions])
    exact ⟨_, hfreq ▸ Completes.hufLoadFreq (s := { s with mem := m }), fun _ h => h⟩
  | hufPutSym hcode hroom =>
    obtain ⟨hblock, -, -, hread⟩ := putBits_congr (P := fun x => m.read x = s.mem.read x) s.cur hwf' hwf (fun _ h => h) _
    exact ⟨_, hblock ▸ Completes.hufPutSym (s := { s with mem := m }) hcode hroom, hread⟩
  | bwPut hroom =>
    obtain ⟨hblock, -, -, hread⟩ := putBits_congr (P := fun x => m.read x = s.mem.read x) s.cur hwf' hwf (fun _ h => h) _
    exact ⟨_, hblock ▸ Completes.bwPut (s := { s with mem := m }) hroom, hread⟩
  | @hufGetSym root sym b htree hout =>
    have hdec := decodeSymbol_congr (m := m) (m' := s.mem) root s.cur fun x _ hx => hagree.source_eq (by simp [Block.regions]) x hx
    exact ⟨_, .hufGetSym htree (hdec.trans hout), fun _ h => h⟩
  | hufEncode hok hfit =>
    have hsrc := hagree.srcBytes_eq (by simp [Block.regions])
    refine ⟨_, hsrc ▸ Completes.hufEncode (s := { s with mem := m }) (hsrc ▸ hok) (hsrc ▸ hfit), fun a ha => ?_⟩
    exact Memory.read_writeBytes_congr (P := fun x => m.read x = s.mem.read x) (Memory.wf_writeBytes _ _ _ hwf')
      (Memory.wf_writeBytes _ _ _ hwf) hsame _ _ _ (fun _ _ => rfl) a ha
  | hufDecodeNothing hcap htree hsize =>
    have hfreq := hagree.readFreq_eq (by simp [Block.regions])
    exact ⟨_, hfreq ▸ Completes.hufDecodeNothing (s := { s with mem := m }) hcap (hfreq ▸ htree) hsize, fun _ h => h⟩
  | @hufDecode root out b hcap htree hout =>
    have hfreq := hagree.readFreq_eq (by simp [Block.regions])
    have hdec := hagree.decodeSymbols_eq (by simp [Block.regions]) root s.cur.origSize.toNat
      (s.mem.readFreq s.cur.metaAddr.toNat)
    exact ⟨_, .hufDecode hcap (hfreq ▸ htree) (hfreq ▸ hdec.trans hout), hsame⟩
  | lzwEncode hfit =>
    have hsrc := hagree.srcBytes_eq (by simp [Block.regions])
    exact ⟨_, hsrc ▸ Completes.lzwEncode (s := { s with mem := m }) (hsrc ▸ hfit), hsame⟩
  | lzwDecode hcap hout henough hstrict =>
    have hcodes := hagree.readCodes_eq (by simp [Block.regions])
    exact ⟨_, .lzwDecode hcap (hcodes ▸ hout) henough hstrict, hsame⟩
  | brGet havail =>
    have hbits := getBits_congr (m := m) (m' := s.mem) s.cur _ havail fun x _ hx => hagree.source_eq (by simp [Block.regions]) x hx
    exact ⟨_, hbits ▸ Completes.brGet (s := { s with mem := m }) havail, fun _ h => h⟩

theorem FailsEarly.congr {code : FaultCode} {info : Nat} (h : FailsEarly s i code info) :
    FailsEarly { s with mem := m } i code info := by
  cases h with
  | hufCode h => exact .hufCode h
  | hufPutSymEmpty h => exact .hufPutSymEmpty h
  | hufPutSymFull hcode hroom => exact .hufPutSymFull hcode hroom
  | hufGetSymNull htree => exact .hufGetSymNull htree
  | hufDecode hcap => exact .hufDecode hcap
  | lzwDecode hcap => exact .lzwDecode hcap
  | bwPut hroom => exact .bwPut hroom
  | bwFinish hcnt hcap => exact .bwFinish hcnt hcap
  | brGet havail => exact .brGet havail
  | hufCount h => exact .hufCount ((hagree.srcBytes_eq (by simp [Block.regions])).symm ▸ h)
  | hufEncode h => exact .hufEncode ((hagree.srcBytes_eq (by simp [Block.regions])).symm ▸ h)
  | hufEncodeFull hok hfull =>
    have hsrc := hagree.srcBytes_eq (by simp [Block.regions])
    exact hsrc ▸ FailsEarly.hufEncodeFull (s := { s with mem := m }) (hsrc ▸ hok) (hsrc ▸ hfull)
  | hufDecodeNull hcap htree hsize =>
    exact .hufDecodeNull hcap ((hagree.readFreq_eq (by simp [Block.regions])).symm ▸ htree) hsize
  | @hufGetSymEnd root b htree hout =>
    have hdec := decodeSymbol_congr (m := m) (m' := s.mem) root s.cur fun x _ hx => hagree.source_eq (by simp [Block.regions]) x hx
    exact .hufGetSymEnd htree (hdec.trans hout)

/-- A partial fault on one memory is one on the other, with the same block and alike bytes alike. -/
theorem FailsLate.congr {code : FaultCode} {info : Nat} {b : Block} {m₁ : Memory} (hwf : s.mem.wf = true)
    (hwf' : m.wf = true) (h : FailsLate s i code info b m₁) :
    ∃ m₂, FailsLate { s with mem := m } i code info b m₂ ∧ ∀ a, m.read a = s.mem.read a → m₂.read a = m₁.read a := by
  have hsame {a : Nat} {bytes : List Byte} (x : Nat) (hx : m.read x = s.mem.read x) :
      (m.writeBytes a bytes).read x = (s.mem.writeBytes a bytes).read x :=
    Memory.read_writeBytes_congr (P := fun x => m.read x = s.mem.read x) hwf' hwf (fun _ h => h) a bytes bytes
      (fun _ _ => rfl) x hx
  cases h with
  | @hufDecode root out b hcap htree hout =>
    have hfreq := hagree.readFreq_eq (by simp [Block.regions])
    have hdec := hagree.decodeSymbols_eq (by simp [Block.regions]) root s.cur.origSize.toNat
      (s.mem.readFreq s.cur.metaAddr.toNat)
    exact ⟨_, .hufDecode hcap (hfreq ▸ htree) (hfreq ▸ hdec.trans hout), hsame⟩
  | lzwEncode hk hroom hfull =>
    have hsrc := hagree.srcBytes_eq (by simp [Block.regions])
    exact ⟨_, .lzwEncode (hsrc.symm ▸ hk) hroom hfull, hsrc ▸ hsame⟩
  | lzwDecode hcap hout hfault =>
    have hcodes := hagree.readCodes_eq (by simp [Block.regions])
    exact ⟨_, .lzwDecode hcap (hcodes ▸ hout) hfault, hsame⟩

/-- What a command does depends on the bytes of its read regions only (20_memory R86). -/
theorem exec_congr (hwf : s.mem.wf = true) (hwf' : m.wf = true) (h : exec i s = .next t) :
    ∃ m', exec i { s with mem := m } = .next { t with mem := m' } ∧
      ∀ a, m.read a = s.mem.read a → m'.read a = t.mem.read a := by
  cases executes_of_exec h with
  | prerequisite hpre => exact ⟨m, statePrerequisites i { s with mem := m } _ hpre, fun _ h => h⟩
  | check hpre hcheck => exact ⟨m, exec_of_checkFault (s := { s with mem := m }) hpre hcheck, fun _ h => h⟩
  | ended hpre hpass hends =>
    cases hends with
    | completed hdone =>
      obtain ⟨m', hdone', hread⟩ := hdone.congr hagree hwf hwf'
      exact ⟨m', exec_of_completes (s := { s with mem := m }) hpre hpass hdone', hread⟩
    | faulted hearly =>
      exact ⟨m, exec_of_failsEarly (s := { s with mem := m }) hpre hpass (hearly.congr hagree), fun _ h => h⟩
    | aborted hlate =>
      obtain ⟨m', hlate', hread⟩ := hlate.congr hagree hwf hwf'
      exact ⟨m', exec_of_failsLate (s := { s with mem := m }) hpass hlate', hread⟩

end Dependence

/-- Settles O22, by the two facts on the rules: the bytes they write, and the bytes they depend on. -/
theorem commandMemoryFrame : Obligations.CommandMemoryFrame := by
  intro i s t h
  refine ⟨(exec_writesRegions h).outside, fun m hwf hwf' hagree => ?_⟩
  obtain ⟨m', hexec, hread⟩ := exec_congr (m := m) hagree hwf hwf' h
  exact ⟨_, hexec, rfl, hread⟩

end MemoryEffects

end Sys2Proof.Machine
end

section
/-! Every operation keeps the invariant of an instance, and every move that of the system: the statements O7 and O8
(10_state R36, R47, R52, 70_reset R311). -/

namespace Sys2Proof.Machine

/-! ### An instance stays legal -/

section Legal

variable {b c : Block}

/-- What 10_state R47 says of the writer. -/
structure Block.WriterLegal (b : Block) : Prop where
  closed : b.bwOpen = false → b.bwAcc = 0 ∧ b.bwCnt = 0
  bits : b.bwAcc.toNat < 2 ^ b.bwCnt.toNat

theorem Block.Legal.writerLegal (h : b.Legal) : b.WriterLegal := ⟨h.closedWriter, h.accBits⟩

/-- A closed writer has no partial byte. -/
theorem Block.writerLegal_of_zero (hacc : b.bwAcc = 0) (hcnt : b.bwCnt = 0) : b.WriterLegal :=
  ⟨fun _ => ⟨hacc, hcnt⟩, by simp [hacc, hcnt]⟩

/-- The invariant reads STATUS, FAULT_INFO, the writer, the reset input and the pending command, and nothing else. -/
theorem Block.Legal.of_eq (h : b.Legal) (hstatus : c.status = b.status) (hinfo : c.faultInfo = b.faultInfo)
    (hopen : c.bwOpen = b.bwOpen) (hacc : c.bwAcc = b.bwAcc) (hcnt : c.bwCnt = b.bwCnt) (hreset : c.inReset = b.inReset)
    (hpending : c.pending = b.pending) : c.Legal := by
  obtain ⟨hone, hbusy, hiff, hfault, hop, hdone, herr, hclosed, hbits, hidle⟩ := h
  constructor <;> simpa only [hstatus, hinfo, hopen, hacc, hcnt, hreset, hpending]

/-- An instance with no command pending. -/
theorem Block.legal_of_idle (hbusy : b.status.busy = false) (hpending : b.pending = none)
    (hone : ¬(b.status.done = true ∧ b.status.err = true)) (hdone : b.status.done = true → b.status.fault = .noFault)
    (herr : b.status.err = true → b.status.fault ≠ .noFault) (hwriter : b.WriterLegal) : b.Legal where
  oneOutcome := hone
  busyOutcome h := absurd h (by simp [hbusy])
  busyPending := by simp [hbusy, hpending]
  busyFault h := absurd h (by simp [hbusy])
  pendingOp w h := absurd h (by simp [hpending])
  doneFault := hdone
  errFault := herr
  closedWriter := hwriter.closed
  accBits := hwriter.bits
  resetIdle _ := hpending

theorem Block.reset_legal (base : Word) (asserted : Bool) : ({ Block.reset base with inReset := asserted } : Block).Legal :=
  Block.legal_of_idle rfl rfl (by simp [Block.reset]) (fun _ => rfl) (by simp [Block.reset])
    (Block.writerLegal_of_zero rfl rfl)

/-- While a command is pending BUSY is 1 and no outcome is recorded (10_state R52). -/
theorem Block.Legal.running {w : Word} (h : b.Legal) (hw : b.pending = some w) :
    b.status.done = false ∧ b.status.err = false ∧ b.status.fault = .noFault := by
  have hbusy : b.status.busy = true := by rw [h.busyPending, hw]; rfl
  obtain ⟨hdone, herr⟩ := h.busyOutcome hbusy
  exact ⟨hdone, herr, (h.busyFault hbusy).1⟩

/-- A running command ends in a fault other than NONE. -/
theorem Block.legal_raise {code : FaultCode} (hdone : b.status.done = false) (hcode : code ≠ .noFault)
    (hwriter : b.WriterLegal) (info : Nat) : (b.raise code info).Legal :=
  Block.legal_of_idle rfl rfl (by simp [hdone]) (by simp [hdone]) (fun _ => hcode) ⟨hwriter.closed, hwriter.bits⟩

/-- A running command completes. -/
theorem Block.legal_complete (herr : b.status.err = false) (hfault : b.status.fault = .noFault)
    (hwriter : b.WriterLegal) : b.complete.Legal :=
  Block.legal_of_idle rfl rfl (by simp [herr]) (fun _ => hfault) (by simp [herr]) ⟨hwriter.closed, hwriter.bits⟩

theorem Block.Legal.submit (h : b.Legal) (hreset : b.inReset = false) (w : Word) : (b.submit w).Legal where
  oneOutcome := by simp [Block.submit]
  busyOutcome _ := ⟨rfl, rfl⟩
  busyPending := rfl
  busyFault _ := ⟨rfl, rfl⟩
  pendingOp v hv := by cases hv; exact BitVec.setWidth_eq_extractLsb' (show 8 ≤ 64 by decide)
  doneFault _ := rfl
  errFault he := absurd he (by simp [Block.submit])
  closedWriter := h.closedWriter
  accBits := h.accBits
  resetIdle hr := absurd hr (by simp [Block.submit, hreset])

theorem Block.Legal.markRaces (h : b.Legal) (theirs : List Region) : (b.markRaces theirs).Legal :=
  h.of_eq rfl rfl rfl rfl rfl rfl rfl

theorem Block.Legal.unmark (h : b.Legal) : b.unmark.Legal := h.of_eq rfl rfl rfl rfl rfl rfl rfl

theorem Block.Legal.acquire (h : b.Legal) : b.acquire.Legal := h.of_eq rfl rfl rfl rfl rfl rfl rfl

theorem Block.Legal.hostWrote (h : b.Legal) (a : Nat) : (b.hostWrote a).Legal := by
  unfold Block.hostWrote
  split
  · exact h.of_eq rfl rfl rfl rfl rfl rfl rfl
  · exact h

/-- Clearing DONE, ERR and WERR keeps what STATUS promises. -/
theorem Block.Legal.writeStatus (h : b.Legal) (v : Word) : (b.writeStatus v).Legal where
  oneOutcome hone := by
    simp only [Block.writeStatus_status, Bool.and_eq_true] at hone
    exact h.oneOutcome ⟨hone.1.1, hone.2.1⟩
  busyOutcome hbusy := by
    obtain ⟨hdone, herr⟩ := h.busyOutcome hbusy
    simp [hdone, herr]
  busyPending := h.busyPending
  busyFault := h.busyFault
  pendingOp := h.pendingOp
  doneFault hdone := h.doneFault (by simp_all)
  errFault herr := h.errFault (by simp_all)
  closedWriter := h.closedWriter
  accBits := h.accBits
  resetIdle := h.resetIdle

theorem Block.Legal.writeReg (h : b.Legal) (v : Word) (r : Reg) : (b.writeReg v r).Legal := by
  cases r with
  | status => exact h.writeStatus v
  | irqEn | srcAddr | srcLen | dstAddr | dstCap | metaAddr | origSize | codeCount | bwData =>
    exact h.of_eq rfl rfl rfl rfl rfl rfl rfl
  | _ => exact h

theorem Block.Legal.setWerr (h : b.Legal) : ({ b with status := { b.status with werr := true } } : Block).Legal :=
  ⟨h.1, h.2, h.3, h.4, h.5, h.6, h.7, h.8, h.9, h.10⟩

theorem Block.Legal.writeBusy (h : b.Legal) (v : Word) (r : Option Reg) : (b.writeBusy v r).Legal := by
  unfold Block.writeBusy
  split
  · exact h.writeReg v .status
  · exact h.writeReg v .irqEn
  · exact h.setWerr

/-! ### Draws keep an instance legal (entry 7) -/

theorem drawError_ne_noFault (e : Nat) : drawError e ≠ .noFault := by
  unfold drawError
  split
  · decide
  · assumption

theorem drawAcc_lt (e : Nat) (cnt : BitVec 3) : (drawAcc e cnt).toNat < 2 ^ cnt.toNat := by
  have hcnt : cnt.toNat ≤ 7 := Nat.le_of_lt_succ cnt.isLt
  have hle : 2 ^ cnt.toNat ≤ 2 ^ 7 := Nat.pow_le_pow_right (by decide) hcnt
  have hpos := Nat.one_le_two_pow (n := cnt.toNat)
  rw [drawAcc, BitVec.toNat_and, BitVec.toNat_ofNat, Nat.mod_eq_of_lt (by omega)]
  exact (Nat.and_le_right).trans_lt (by omega)

theorem drawAcc_zero (e : Nat) : drawAcc e 0 = 0 := by simp [drawAcc]

/-- A drawn writer is legal; an OPEN drawn alone needs a partial byte that is empty whatever OPEN is. -/
theorem Block.WriterLegal.drawOutputs (h : b.WriterLegal) (e : Nat) (os : List Output)
    (hopen : .bwOpen ∈ os → .writer ∉ os → b.bwAcc = 0 ∧ b.bwCnt = 0) : (b.drawOutputs e os).WriterLegal := by
  have drawn := b.drawOutputs_drawn e os
  by_cases hw : Output.writer ∈ os
  · have hcnt := drawn.bwCnt
    have hacc := drawn.bwAcc
    rw [if_pos hw] at hcnt hacc
    refine ⟨fun hclosed => ?_, hacc ▸ drawAcc_lt e _⟩
    have hzero : (b.drawOutputs e os).bwCnt = 0 := by rw [hcnt, hclosed]; rfl
    exact ⟨by rw [hacc, hzero]; exact drawAcc_zero e, hzero⟩
  · have hcnt := drawn.bwCnt
    have hacc := drawn.bwAcc
    rw [if_neg hw] at hcnt hacc
    by_cases ho : Output.bwOpen ∈ os
    · obtain ⟨hacc0, hcnt0⟩ := hopen ho hw
      exact Block.writerLegal_of_zero (hacc.trans hacc0) (hcnt.trans hcnt0)
    · have hopen' := drawn.bwOpen
      rw [if_neg ho] at hopen'
      exact ⟨by rw [hopen', hacc, hcnt]; exact h.closed, by rw [hacc, hcnt]; exact h.bits⟩

end Legal

/-! ### A command keeps its instance legal -/

section Commands

variable {s t : State} {i : Instr} {b : Block} {m : Memory}

theorem Completes.writerLegal (hpre : s.cur.prereqFault i = none) (h : Completes s i b m) (hs : s.cur.WriterLegal) :
    b.WriterLegal := by
  have hput {bits : Bits} (hopen : s.cur.bwOpen = true) : (putBits (s.cur, s.mem) bits).1.WriterLegal := by
    obtain ⟨acc, cnt, len, hblock⟩ := putBits_block (s.cur, s.mem) bits
    refine ⟨fun hclosed => ?_, putBits_acc (s.cur, s.mem) bits hs.bits⟩
    rw [hblock] at hclosed
    cases hopen.symm.trans hclosed
  cases h with
  | hufPutSym => exact hput ((Block.prereqFault_hufPutSym _).1 hpre).2
  | bwPut => exact hput ((Block.prereqFault_bwPut _).1 hpre)
  | nop | hufCount | hufLoadFreq | hufBuild | hufCode | brInit => exact ⟨hs.closed, hs.bits⟩
  | hufGetSym htree hout =>
    obtain ⟨p, q, hblock⟩ := decodeSymbol_block s.mem _ s.cur
    rw [hout] at hblock
    cases hblock
    exact ⟨hs.closed, hs.bits⟩
  | brGet =>
    obtain ⟨p, q, hblock⟩ := getBits_block s.mem s.cur _
    rw [hblock]
    exact ⟨hs.closed, hs.bits⟩
  | hufDecode hcap htree hout =>
    obtain ⟨-, p, q, hblock⟩ := decodeSymbols_block s.mem _ s.cur.origSize.toNat
      (s.cur.decodeStart (s.mem.readFreq s.cur.metaAddr.toNat))
    rw [hout] at hblock
    cases hblock
    exact Block.writerLegal_of_zero rfl rfl
  | softReset | hufEncode | hufDecodeNothing | lzwEncode | lzwDecode | bwInit | bwFinishEmpty | bwFinish =>
    exact Block.writerLegal_of_zero rfl rfl

theorem FailsLate.writerLegal {code : FaultCode} {info : Nat} (h : FailsLate s i code info b m) : b.WriterLegal := by
  obtain ⟨bytes, -, -, -, -, -, hacc, hcnt⟩ := h.written
  exact Block.writerLegal_of_zero hacc hcnt

/-- A command leaves its instance legal. -/
theorem exec_legal {w : Word} (h : exec i s = .next t) (hs : s.cur.Legal) (hw : s.cur.pending = some w) : t.cur.Legal := by
  obtain ⟨hdone, herr, hfault⟩ := hs.running hw
  have hprecise {code : FaultCode} {info : Nat} (hmem : code ∈ commandFaults i) : (s.cur.raise code info).Legal :=
    Block.legal_raise hdone (ne_noFault_of_mem_commandFaults hmem) hs.writerLegal info
  cases executes_of_exec h with
  | prerequisite hpre => exact hprecise (mem_commandFaults_of_prereq hpre).1
  | check hpre hcheck => exact hprecise (mem_commandFaults_of_check hcheck).1
  | ended hpre hpass hends =>
    cases hends with
    | faulted hearly => exact hprecise hearly.mem_commandFaults.1
    | completed hcompletes =>
      have hsame : s.cur.SameButWork _ := hcompletes.sameButWork
      have hstatus := congrArg Block.status hsame
      exact Block.legal_complete (by rw [hstatus]; exact herr) (by rw [hstatus]; exact hfault) (hcompletes.writerLegal hpre hs.writerLegal)
    | aborted hlate =>
      have hsame : s.cur.SameButWork _ := hlate.sameButWork
      have hstatus := congrArg Block.status hsame
      exact Block.legal_raise (by rw [hstatus]; exact hdone) (ne_noFault_of_mem_commandFaults hlate.mem_partialFaults.1)
        hlate.writerLegal _

end Commands

/-! ### The moves keep the invariant -/

section Moves

variable {s t : State} {i : Instr}

theorem State.mem_blocks {b : Block} : b ∈ s.blocks ↔ b ∈ s.before ∨ b = s.cur ∨ b ∈ s.after := by
  simp [State.blocks]

theorem State.Inv.cur_legal (h : s.Inv) : s.cur.Legal := h.blocksLegal _ (State.mem_blocks.2 (.inr (.inl rfl)))

/-- The invariant reads memory and the instances, and nothing else. -/
theorem State.Inv.of_eq (h : s.Inv) (hmem : t.mem = s.mem) (hblocks : t.blocks = s.blocks) : t.Inv :=
  ⟨hmem ▸ h.memCanonical, hmem ▸ h.memInSpace, hblocks ▸ h.blocksLegal⟩

/-- A move of the current instance. -/
theorem State.Inv.of_cur (h : s.Inv) (hbefore : t.before = s.before) (hafter : t.after = s.after) (hcur : t.cur.Legal)
    (hwf : t.mem.wf = true) (hspace : t.mem.inSpace = true) : t.Inv := by
  refine ⟨hwf, hspace, fun b hb => ?_⟩
  rcases State.mem_blocks.1 hb with hb | rfl | hb
  · exact h.blocksLegal b (State.mem_blocks.2 (.inl (hbefore ▸ hb)))
  · exact hcur
  · exact h.blocksLegal b (State.mem_blocks.2 (.inr (.inr (hafter ▸ hb))))

theorem State.Inv.logged (h : s.Inv) (v : Word) : (s.logged v).Inv := h.of_eq rfl rfl

/-- A move made with instance `k` in focus. -/
theorem State.Inv.on (h : s.Inv) {k : Nat} {f : State → Result} (hf : ∀ u, u.Inv → f u = .next t → t.Inv)
    (hnext : s.on k f = .next t) : t.Inv := by
  unfold State.on at hnext
  split at hnext
  · cases hnext
  · rename_i u hfocus
    obtain ⟨hblocks, -, hmem, -⟩ := State.focus_some hfocus
    exact hf u (h.of_eq hmem hblocks) hnext

/-- What a command leaves keeps the invariant. -/
theorem exec_inv {w : Word} (h : exec i s = .next t) (hs : s.Inv) (hw : s.cur.pending = some w) : t.Inv := by
  obtain ⟨-, hwf, hspace⟩ := exec_writesRegions h
  obtain ⟨⟨hbefore, hafter, -⟩, -⟩ := commandFrame i s t h
  exact hs.of_cur hbefore hafter (exec_legal h hs.cur_legal hw) (hwf hs.memCanonical) (hspace hs.memInSpace)

/-- No command draws OPEN without the writer. -/
theorem writer_mem_outputs (h : Output.bwOpen ∈ outputs i) : Output.writer ∈ outputs i := by
  cases i <;> simp_all [outputs, freqOutputs]

/-- The drawn outcome of a race keeps the invariant (entry 7). -/
theorem State.Inv.raceOutcome (h : s.Inv) (i : Instr) : (s.raceOutcome i).Inv := by
  refine h.of_cur rfl rfl ?_ (wf_drawAll _ _ _ h.memCanonical) (inSpace_drawAll _ _ _ h.memInSpace)
  have hwriter := h.cur_legal.writerLegal.drawOutputs s.draws (.ending :: .faultInfo :: outputs i) fun hopen hno =>
    absurd (writer_mem_outputs (i := i) (by simpa using hopen)) fun hmem => hno (by simp [hmem])
  have hstatus := (s.cur.drawOutputs_drawn s.draws (.ending :: .faultInfo :: outputs i)).status
  rw [if_pos List.mem_cons_self] at hstatus
  have hcur : (s.raceOutcome i).cur.status = _ := hstatus
  exact Block.legal_of_idle (by rw [hcur]) rfl (by simp [hcur]) (by simp [hcur]) (by simp [hcur])
    ⟨hwriter.closed, hwriter.bits⟩

/-- The runs of a pending command over the values of the shared bytes are all legal. -/
theorem State.legal_of_mem_sharedRuns {w : Word} (h : s.Inv) (hw : s.cur.pending = some w) (ht : t ∈ s.sharedRuns i) :
    t.cur.Legal := by
  obtain ⟨m, -, hexec⟩ := (State.mem_sharedRuns h.memCanonical i t).1 ht
  exact exec_legal hexec h.cur_legal hw

/-- Where OPEN depends on shared bytes and the writer does not, some run has closed it, so the partial byte is empty in every
run. -/
theorem State.writer_zero_of_drawn {w : Word} (h : s.Inv) (hw : s.cur.pending = some w) (ht : t ∈ s.sharedRuns i)
    (hopen : Output.bwOpen ∈ (s.computedFromShared i).outs) (hno : Output.writer ∉ (s.computedFromShared i).outs) :
    t.cur.bwAcc = 0 ∧ t.cur.bwCnt = 0 := by
  obtain ⟨hmem, hvaries⟩ := List.mem_filter.1 hopen
  have hfixed : ∀ u ∈ s.sharedRuns i, t.cur.bwAcc = u.cur.bwAcc ∧ t.cur.bwCnt = u.cur.bwCnt := by
    intro u hu
    by_contra hne
    refine hno (List.mem_filter.2 ⟨?_, (varies_iff _ _).2 ⟨t, ht, u, hu, fun heq => ?_⟩⟩)
    · have := writer_mem_outputs (i := i) (by simpa using hmem)
      simp [this]
    · exact hne ((Output.value_eq_iff .writer _ _).1 heq)
  obtain ⟨u, hu, v, hv, hne⟩ := (varies_iff _ _).1 hvaries
  obtain ⟨z, hz, hclosed⟩ : ∃ z ∈ s.sharedRuns i, z.cur.bwOpen = false := by
    cases hu' : u.cur.bwOpen with
    | false => exact ⟨u, hu, hu'⟩
    | true =>
      cases hv' : v.cur.bwOpen with
      | false => exact ⟨v, hv, hv'⟩
      | true => exact absurd ((Output.value_eq_iff .bwOpen _ _).2 (hu'.trans hv'.symm)) hne
  obtain ⟨hacc, hcnt⟩ := (State.legal_of_mem_sharedRuns h hw hz).closedWriter hclosed
  obtain ⟨hacc', hcnt'⟩ := hfixed z hz
  exact ⟨hacc'.trans hacc, hcnt'.trans hcnt⟩

/-- What a command leaves is one of its runs. -/
theorem State.exec_mem_sharedRuns (hwf : s.mem.wf = true) (h : exec i s = .next t) : t ∈ s.sharedRuns i :=
  (State.mem_sharedRuns hwf i t).2 ⟨s.mem, ⟨hwf, fun _ _ => rfl⟩, h⟩

/-- Drawing what is computed from shared bytes keeps the invariant (entry 7). -/
theorem State.Inv.sharedOutcome {w : Word} (h : s.Inv) (hw : s.cur.pending = some w) (ht : exec i s = .next t) :
    (s.sharedOutcome i t).Inv := by
  have htInv := exec_inv ht h hw
  have hmem := State.exec_mem_sharedRuns h.memCanonical ht
  obtain ⟨hbusy, hpending, hone⟩ := (everyCommandEnds i s).2.2 t ht
  refine htInv.of_cur rfl rfl (Block.Legal.unmark ?_) (wf_drawAll _ _ _ htInv.memCanonical)
    (inSpace_drawAll _ _ _ htInv.memInSpace)
  have hwriter := htInv.cur_legal.writerLegal.drawOutputs s.draws (s.computedFromShared i).outs
    (State.writer_zero_of_drawn h hw hmem)
  have hstatus := (t.cur.drawOutputs_drawn s.draws (s.computedFromShared i).outs).status
  have hlegal := htInv.cur_legal
  have hone' := hlegal.oneOutcome
  have hdone := hlegal.doneFault
  split at hstatus
  · exact Block.legal_of_idle (by rw [hstatus]) hpending (by simp [hstatus]) (by simp [hstatus]) (by simp [hstatus]) hwriter
  · split at hstatus
    next hcode =>
      refine Block.legal_of_idle (by rw [hstatus]; exact hbusy) hpending (by rw [hstatus]; exact hone')
        (fun hd => absurd ⟨by rw [hstatus] at hd; exact hd, hcode.2⟩ hone') (fun _ => ?_) hwriter
      rw [hstatus]
      exact drawError_ne_noFault s.draws
    next =>
      rw [← hstatus] at hbusy hone' hdone
      exact Block.legal_of_idle hbusy hpending hone' hdone (by rw [hstatus]; exact hlegal.errFault) hwriter

/-- The engine with a legal word pending and a host race noted draws its outcome, or is refused as its checks say. -/
theorem State.engineTurn_raced {w : Word} (hw : s.cur.pending = some w) (hi : decode w = .ok i)
    (hraced : s.cur.track.raced = true) : s.engineTurn = s.racedTurn i := by
  simp [State.engineTurn, hw, hi, hraced]

theorem State.racedTurn_next (h : s.racedTurn i = .next t) : t = s.raceOutcome i := by
  simp only [State.racedTurn] at h
  split at h <;> cases h
  rfl

/-- Everything a move of the engine can leave. -/
inductive EngineLeaves (s : State) : State → Prop where
  | idle (hw : s.cur.pending = none) : EngineLeaves s s
  | illegal {w : Word} {e : Illegal} (hw : s.cur.pending = some w) (hi : decode w = .error e) :
      EngineLeaves s (s.faulted .illegalCmd w.toNat)
  | executed {w : Word} {i : Instr} {t : State} (hw : s.cur.pending = some w) (hi : decode w = .ok i)
      (h : exec i s = .next t) : EngineLeaves s t
  | raced {w : Word} {i : Instr} (hw : s.cur.pending = some w) (hi : decode w = .ok i) : EngineLeaves s (s.raceOutcome i)
  | shared {w : Word} {i : Instr} {t : State} (hw : s.cur.pending = some w) (hi : decode w = .ok i)
      (h : exec i s = .next t) : EngineLeaves s (s.sharedOutcome i t)

theorem State.engineTurn_next (h : s.engineTurn = .next t) : EngineLeaves s t := by
  cases hw : s.cur.pending with
  | none =>
    rw [State.engineTurn_idle s hw] at h
    cases h
    exact .idle hw
  | some w =>
    cases hi : decode w with
    | error e =>
      rw [State.engineTurn_illegal hw hi] at h
      cases h
      exact .illegal hw hi
    | ok i =>
      by_cases hraced : s.cur.track.raced = true
      · rw [State.engineTurn_raced hw hi hraced] at h
        rw [State.racedTurn_next h]
        exact .raced hw hi
      · by_cases hshared : s.cur.track.shared = []
        · rw [State.engineTurn_exec hw hi ⟨by simpa using hraced, hshared⟩] at h
          exact .executed hw hi h
        · rw [State.engineTurn_shared hw hi (by simpa using hraced) hshared] at h
          obtain ⟨u, hu, rfl⟩ := State.sharedTurn_next h
          exact .shared hw hi hu

/-- The engine's move keeps the invariant. -/
theorem State.Inv.engineTurn (h : s.Inv) (hnext : s.engineTurn = .next t) : t.Inv := by
  cases State.engineTurn_next hnext with
  | idle => exact h
  | illegal hw =>
    exact h.of_cur rfl rfl (Block.legal_raise (h.cur_legal.running hw).1 (by decide) h.cur_legal.writerLegal _)
      h.memCanonical h.memInSpace
  | executed hw hi hexec => exact exec_inv hexec h hw
  | raced => exact h.raceOutcome _
  | shared hw hi hexec => exact h.sharedOutcome hw hexec

/-- Acceptance marks the other instances and takes the word. -/
theorem State.Inv.accept (h : s.Inv) (hreset : s.cur.inReset = false) (w : Word) : (s.accept w).Inv := by
  refine ⟨h.memCanonical, h.memInSpace, fun b hb => ?_⟩
  rcases State.mem_blocks.1 hb with hb | rfl | hb
  · obtain ⟨o, ho, rfl⟩ := List.mem_map.1 hb
    exact (h.blocksLegal o (State.mem_blocks.2 (.inl ho))).markRaces _
  · exact (h.cur_legal.submit hreset w).markRaces _
  · obtain ⟨o, ho, rfl⟩ := List.mem_map.1 hb
    exact (h.blocksLegal o (State.mem_blocks.2 (.inr (.inr ho)))).markRaces _

theorem State.Inv.setCur (h : s.Inv) {b : Block} (hb : b.Legal) : ({ s with cur := b } : State).Inv :=
  h.of_cur rfl rfl hb h.memCanonical h.memInSpace

theorem State.Inv.hostWrite (h : s.Inv) (off : Nat) (v : Word) : (s.hostWrite off v).Inv := by
  unfold State.hostWrite
  split
  · exact h
  next hreset =>
    split
    · exact h.setCur (h.cur_legal.writeBusy v _)
    · split
      · exact h.accept (by simpa using hreset) v
      · exact h.setCur (h.cur_legal.writeReg v _)
      · exact h

/-- A register read changes no other instance and no memory. -/
theorem State.hostRead_frame (s : State) (off : Nat) :
    (s.hostRead off).before = s.before ∧ (s.hostRead off).after = s.after ∧ (s.hostRead off).mem = s.mem := by
  unfold State.hostRead
  repeat' split
  all_goals exact ⟨rfl, rfl, rfl⟩

theorem State.Inv.hostRead (h : s.Inv) (off : Nat) : (s.hostRead off).Inv := by
  obtain ⟨hbefore, hafter, hmem⟩ := s.hostRead_frame off
  refine h.of_cur hbefore hafter ?_ (hmem ▸ h.memCanonical)
    (hmem ▸ h.memInSpace)
  rcases State.hostRead_cur s off with hcur | hcur
  · rw [hcur]; exact h.cur_legal
  · rw [hcur]; exact h.cur_legal.acquire

/-- A host access to memory does what `k` says, at an address of the DMA space. -/
theorem State.hostMem_next {a : Nat} {k : Result} (h : s.hostMem a k = .next t) : a < Config.addressSpace ∧ k = .next t := by
  simp only [State.hostMem] at h
  split at h
  · cases h
  next hlt =>
    (repeat' split at h) <;> cases h
    exact ⟨Nat.lt_of_not_le hlt, rfl⟩

theorem State.Inv.hostOp (h : s.Inv) {op : HostOp} (hnext : s.hostOp op = .next t) : t.Inv := by
  cases op with
  | wr k off size v =>
    simp only [State.hostOp] at hnext
    split at hnext
    · exact h.on (fun u hu hn => by cases hn; exact hu.hostWrite off v) hnext
    · cases hnext
  | rd k off size =>
    simp only [State.hostOp] at hnext
    split at hnext
    · exact h.on (fun u hu hn => by cases hn; exact hu.hostRead off) hnext
    · cases hnext
  | wait k => exact h.on (fun u hu hn => by cases hn; exact hu.hostRead _) hnext
  | memRd a =>
    obtain ⟨-, hk⟩ := State.hostMem_next hnext
    cases hk
    split
    · exact h.of_eq rfl rfl
    · exact h.logged _
  | memWr a v =>
    obtain ⟨ha, hk⟩ := State.hostMem_next hnext
    cases hk
    refine ⟨Memory.wf_write _ _ _ h.memCanonical, Memory.inSpace_write _ _ _ ha h.memInSpace, fun b hb => ?_⟩
    have hb' : b ∈ s.blocks.map (Block.hostWrote a) := by simpa [State.blocks] using hb
    obtain ⟨o, ho, rfl⟩ := List.mem_map.1 hb'
    exact (h.blocksLegal o ho).hostWrote a

/-- Draws of ranges of memory are the one change. -/
@[simp] theorem State.drawBytes_mem (s : State) (rs : List Range) : (s.drawBytes rs).mem = drawAll s.draws s.mem rs := by
  cases rs <;> rfl

@[simp] theorem State.drawBytes_before (s : State) (rs : List Range) : (s.drawBytes rs).before = s.before := by
  cases rs <;> rfl

@[simp] theorem State.drawBytes_after (s : State) (rs : List Range) : (s.drawBytes rs).after = s.after := by
  cases rs <;> rfl

theorem State.Inv.resetTurn (h : s.Inv) (asserted : Bool) : (s.resetTurn asserted).Inv := by
  cases asserted with
  | true =>
    refine h.of_cur (State.drawBytes_before s _) (State.drawBytes_after s _) (Block.reset_legal _ _) ?_ ?_
    · exact (State.drawBytes_mem s _).symm ▸ wf_drawAll _ _ _ h.memCanonical
    · exact (State.drawBytes_mem s _).symm ▸ inSpace_drawAll _ _ _ h.memInSpace
  | false =>
    have hlegal := h.cur_legal
    exact h.setCur ⟨hlegal.1, hlegal.2, hlegal.3, hlegal.4, hlegal.5, hlegal.6, hlegal.7, hlegal.8, hlegal.9, nofun⟩

theorem State.Inv.idleTurn (h : s.Inv) (hnext : s.idleTurn = .next t) : t.Inv := by
  simp only [State.idleTurn] at hnext
  split at hnext
  · exact h.engineTurn hnext
  · split at hnext
    · cases hnext
      exact h
    · split at hnext
      · cases hnext
        exact h
      next u hfocus =>
        obtain ⟨hblocks, -, hmem, -⟩ := State.focus_some hfocus
        exact (h.of_eq hmem hblocks).engineTurn hnext

theorem State.Inv.waitTurn (h : s.Inv) {k : Nat} {rest : List Turn} (hnext : s.waitTurn k rest = .next t) : t.Inv := by
  refine h.on (fun u hu hn => ?_) hnext
  split at hn
  · exact hu.engineTurn hn
  · exact State.Inv.hostOp (s := { u with turns := rest }) (hu.of_eq rfl rfl) hn

/-- Settles O8, turn by turn. -/
theorem stepKeepsInvariant : Obligations.StepKeepsInvariant := by
  intro s t h hnext
  have hrest (rest : List Turn) : ({ s with turns := rest } : State).Inv := h.of_eq rfl rfl
  simp only [step, State.takeTurn] at hnext
  split at hnext
  · exact h.idleTurn hnext
  · exact (hrest _).on (fun u hu hn => hu.engineTurn hn) hnext
  · exact h.waitTurn hnext
  · exact (hrest _).hostOp hnext
  · exact (hrest _).on (fun u hu hn => by cases hn; exact hu.resetTurn _) hnext

/-- Settles O7: every instance is `Block.reset`. -/
theorem resetIsLegal : Obligations.ResetIsLegal := by
  intro p base bases mem hwf hspace
  refine ⟨hwf, hspace, fun b hb => ?_⟩
  obtain ⟨a, rfl⟩ := eq_reset_of_mem_resetOn hb
  exact Block.reset_legal a false

end Moves

end Sys2Proof.Machine
end

section
/-! The moves: whose turn it is, what WAIT, reset, the host's accesses and acceptance do, and what a move leaves to other
blocks; the statements O5, O9, O56, O57, O58 and O60 (10_state R34, 20_memory R90 to R92, 70_reset R310). -/

namespace Sys2Proof.Machine

section Turns

variable {s t : State} {rest : List Turn}

/-! ### A turn of the current instance -/

/-- A turn of the current instance's engine. -/
theorem step_engine (hturn : s.turns = .engine s.before.length :: rest) :
    step s = { s with turns := rest }.engineTurn := by
  simp only [step, State.takeTurn, hturn]
  exact State.on_self { s with turns := rest } State.engineTurn

/-- A turn that reads 8 aligned bytes of the current instance's registers is `hostRead`. -/
theorem step_hostRead {off : Nat} (hturn : s.turns = .host (.rd s.before.length off 8) :: rest) (halign : off % 8 = 0)
    (hoff : off < 256) : step s = .next ({ s with turns := rest }.hostRead off) := by
  have hok : accessOk off 8 = true := by simp [accessOk, halign, hoff, Config.mmioSize]
  simp only [step, State.takeTurn, hturn, State.hostOp, hok, if_true]
  exact State.on_self { s with turns := rest } fun t => .next (t.hostRead off)

/-- A turn of the current instance's reset input. -/
theorem step_reset {asserted : Bool} (hturn : s.turns = .reset s.before.length asserted :: rest) :
    step s = .next ({ s with turns := rest }.resetTurn asserted) := by
  simp only [step, State.takeTurn, hturn]
  exact State.on_self { s with turns := rest } fun t => .next (t.resetTurn asserted)

/-- Settles O60: with BUSY = 1 the wait is the engine's move, else the read of STATUS. -/
theorem waitRunsEngine : Obligations.WaitRunsEngine := by
  intro s rest hturn
  have hstep : step s = if s.cur.status.busy then s.engineTurn else
      { s with turns := rest }.hostOp (.wait s.before.length) := by
    simp only [step, State.takeTurn, hturn, State.waitTurn]
    exact State.on_self s _
  refine ⟨fun hbusy => by rw [hstep, if_pos hbusy], fun hidle hreset => ?_⟩
  rw [hstep, if_neg (by simp [hidle])]
  refine (State.on_self { s with turns := rest } _).trans ?_
  have hread := State.hostRead_status (s := { s with turns := rest }) hreset
  rw [if_neg (by simp [hidle])] at hread
  exact congrArg Host.Outcome.next hread

/-- Settles O9: the drawn bytes are `drawAll`'s, and under reset no access does anything. -/
theorem hardwareReset : Obligations.HardwareReset := by
  intro s rest hwf
  refine ⟨fun hturn => ⟨_, step_reset hturn, rfl, State.drawBytes_before _ _, State.drawBytes_after _ _, ?_, ?_⟩, ?_,
    fun hturn => step_reset hturn⟩
  · intro a ha
    exact (congrArg (·.read a) (State.drawBytes_mem { s with turns := rest } _)).trans (read_drawAll_outside _ _ _ _ ha)
  · intro a hlt ha
    exact (congrArg (·.read a) (State.drawBytes_mem { s with turns := rest } _)).trans
      (read_drawAll_inside _ _ _ _ hwf ha hlt)
  · intro hreset off v
    exact ⟨by simp [State.hostWrite, hreset], by simp [State.hostRead, hreset]⟩

/-! ### The host's accesses to memory (20_memory R90, 10_state R34) -/

/-- An address outside register blocks and devices is the host's as memory. -/
theorem State.hostMem_of_memory {a : Nat} (ha : a < 2 ^ 64) (hblocks : ∀ b ∈ s.blocks, b.window.has a = false)
    (hdevices : ∀ d ∈ s.platform.devices, d.has a = false) (k : Result) : s.hostMem a k = k := by
  have hspace : ¬Config.addressSpace ≤ a := Nat.not_le.2 ha
  have hwindow : (s.blocks.any fun b => b.window.has a) = false := List.any_eq_false.2 fun b hb => by simp [hblocks b hb]
  have hdevice : (s.platform.devices.any fun d => d.has a) = false :=
    List.any_eq_false.2 fun d hd => by simp [hdevices d hd]
  simp only [State.hostMem, hspace, hwindow, hdevice, Bool.false_eq_true, if_false]

/-- An access to a byte of a register block is refused. -/
theorem State.hostMem_of_window {a : Nat} (ha : a < 2 ^ 64) (h : ∃ b ∈ s.blocks, b.window.has a = true) (k : Result) :
    s.hostMem a k = .refused .badAccess := by
  have hspace : ¬Config.addressSpace ≤ a := Nat.not_le.2 ha
  have hwindow : (s.blocks.any fun b => b.window.has a) = true := List.any_eq_true.2 h
  simp only [State.hostMem, hspace, hwindow, if_false, if_true]

theorem step_memRd {a : Nat} (hturn : s.turns = .host (.memRd a) :: rest) :
    step s = { s with turns := rest }.hostMem a (.next (if s.unseenByte a then { s with turns := rest }.loggedByteDraw a
      else { s with turns := rest }.logged ((s.mem.read a).setWidth 64))) := by
  simp only [step, State.takeTurn, hturn]
  rfl

theorem step_memWr {a : Nat} {v : Byte} (hturn : s.turns = .host (.memWr a v) :: rest) :
    step s = { s with turns := rest }.hostMem a (.next
      { s with
        mem := s.mem.write a v
        before := s.before.map (Block.hostWrote a)
        cur := s.cur.hostWrote a
        after := s.after.map (Block.hostWrote a)
        turns := rest }) := by
  simp only [step, State.takeTurn, hturn]
  rfl

/-- Settles O57: `accessOk` fails, or the byte lies in a register block. -/
theorem badAccessRefused : Obligations.BadAccessRefused := by
  refine fun s rest => ⟨fun k off size v hbad hturn => ?_, fun a x ha hwindow hturn => ?_⟩
  · have hok : accessOk off size = false := by
      rcases hbad with h | h <;> simp [accessOk, h]
    rcases hturn with hturn | hturn <;>
      simp only [step, State.takeTurn, hturn, State.hostOp, hok, Bool.false_eq_true, if_false]
  · rcases hturn with hturn | hturn
    · rw [step_memRd hturn]
      exact State.hostMem_of_window (s := { s with turns := rest }) ha hwindow _
    · rw [step_memWr hturn]
      exact State.hostMem_of_window (s := { s with turns := rest }) ha hwindow _

theorem State.unseenByte_iff {a : Nat} :
    s.unseenByte a = true ↔ ∃ b ∈ s.blocks, ∃ r ∈ b.track.unseen, r.has a = true := by
  simp only [State.unseenByte, List.any_eq_true]

/-- The regions of a pending legal word. -/
theorem Block.regionsInFlight_of_pending {b : Block} {w : Word} {i : Instr} (hw : b.pending = some w)
    (hi : decode w = .ok i) : b.regionsInFlight = b.regions i := by
  simp [Block.regionsInFlight, hw, hi]

theorem Block.regionsInFlight_submit {w : Word} {i : Instr} (hi : decode w = .ok i) (b : Block) :
    (b.submit w).regionsInFlight = b.regions i := by
  rw [Block.regionsInFlight_of_pending (b := b.submit w) rfl hi]
  cases i <;> rfl

/-- Settles O56: a byte some instance has yet to have acquired reads as a draw; acceptance adds the written regions and the
read of STATUS drops them. -/
theorem hostMemoryReads : Obligations.HostMemoryReads := by
  refine ⟨fun s a rest hturn ha hblocks hdevices => ?_, fun b w i hi r hr hw => ?_, fun s hreset hidle => ?_⟩
  · have hstep := (step_memRd hturn).trans
      (State.hostMem_of_memory (s := { s with turns := rest }) ha hblocks hdevices _)
    refine ⟨fun hunseen => ?_, fun hseen => ?_⟩
    · rw [hstep, if_pos (State.unseenByte_iff.2 hunseen)]
      rfl
    · rw [hstep, if_neg]
      · rfl
      · rintro hunseen
        obtain ⟨b, hb, r, hr, hhas⟩ := State.unseenByte_iff.1 hunseen
        rw [hseen b hb r hr] at hhas
        cases hhas
  · have hflight : r ∈ (b.accept w).regionsInFlight := by
      have := Block.regionsInFlight_submit hi b
      exact (this : (b.accept w).regionsInFlight = _) ▸ hr
    exact List.mem_append.2 (.inr (List.mem_map.2 ⟨r, List.mem_filter.2 ⟨hflight, by simpa using hw⟩, rfl⟩))
  · rw [State.hostRead_status hreset, if_neg (by simp [hidle])]
    exact ⟨rfl, rfl, rfl⟩

/-! ### Races between instances (20_memory R92) -/

/-- A byte that clashing regions of two commands have in common is marked. -/
theorem exists_sharedRange {mine theirs : List Region} {p q : Region} (hp : p ∈ mine) (hq : q ∈ theirs)
    (hclash : RegionsClash p q) {a : Nat} (hpa : p.range.has a = true) (hqa : q.range.has a = true) :
    ∃ r ∈ sharedRanges mine theirs, r.has a = true := by
  refine ⟨p.range.inter q.range, ?_, (Range.has_inter _ _ _).2 ⟨hpa, hqa⟩⟩
  have hoverlap := (clash_iff p q).2 hclash
  exact List.mem_flatMap.2 ⟨p, hp, List.mem_map.2 ⟨q, List.mem_filter.2 ⟨hq, hoverlap⟩, rfl⟩⟩

/-- Regions that do not clash mark nothing. -/
theorem sharedRanges_eq_nil {mine theirs : List Region} (h : ∀ q ∈ theirs, ∀ p ∈ mine, ¬RegionsClash p q) :
    sharedRanges mine theirs = [] := by
  simp only [sharedRanges, List.flatMap_eq_nil_iff, List.map_eq_nil_iff, List.filter_eq_nil_iff]
  exact fun p hp q hq hoverlap => h q hq p hp ((clash_iff p q).1 hoverlap)

theorem RegionsClash.symm {p q : Region} (h : RegionsClash p q) : RegionsClash q p := by
  obtain ⟨hp, hq, hwrite, hlt, hlt'⟩ := h
  exact ⟨hq, hp, hwrite.symm, hlt', hlt⟩

/-- The bytes acceptance marks in the accepting instance. -/
theorem State.accept_cur_shared {w : Word} {i : Instr} (hi : decode w = .ok i) (s : State) :
    (s.accept w).cur.track.shared = sharedRanges (s.cur.regions i) ((s.before ++ s.after).flatMap Block.atStake) := by
  rw [← Block.regionsInFlight_submit hi s.cur]
  rfl

/-- Settles O58: acceptance marks, in both instances, what `sharedRanges` says. -/
theorem instanceRaces : Obligations.InstanceRaces := by
  refine fun s w i hi => ⟨fun w' i' o p q hi' ho hw' hp hq hclash => ?_, fun hnone => ?_⟩
  · have hflight : o.regionsInFlight = o.regions i' := Block.regionsInFlight_of_pending hw' hi'
    refine ⟨o.markRaces (s.cur.submit w).regionsInFlight, ?_, rfl, fun a hpa hqa => ⟨?_, ?_⟩⟩
    · exact List.mem_append.2 (ho.imp (List.mem_map_of_mem (f := fun o : Block => o.markRaces _))
        (List.mem_map_of_mem (f := fun o : Block => o.markRaces _)))
    · rw [State.accept_cur_shared hi]
      refine exists_sharedRange hp (List.mem_flatMap.2 ⟨o, List.mem_append.2 ho, ?_⟩) hclash hpa hqa
      exact List.mem_append.2 (.inl (hflight ▸ hq))
    · obtain ⟨r, hr, hhas⟩ := exists_sharedRange (hflight.symm ▸ hq)
        ((Block.regionsInFlight_submit hi s.cur).symm ▸ hp) hclash.symm hqa hpa
      exact ⟨r, List.mem_append.2 (.inr hr), hhas⟩
  · rw [State.accept_cur_shared hi]
    refine sharedRanges_eq_nil fun q hq p hp => ?_
    obtain ⟨o, ho, hq⟩ := List.mem_flatMap.1 hq
    exact hnone o (List.mem_append.1 ho) q hq p hp

/-! ### What a move leaves to the other instances (60_exceptions R283) -/

/-- A block that differs from another at most in the marks of the bytes it shares. -/
def Block.SameButMarks (b c : Block) : Prop := c = { b with track := { b.track with shared := c.track.shared } }

/-- The other instances keep all but those marks. -/
structure State.OthersKept (s t : State) : Prop where
  before : List.Forall₂ Block.SameButMarks s.before t.before
  after : List.Forall₂ Block.SameButMarks s.after t.after

theorem forall₂_sameButMarks_refl (bs : List Block) : List.Forall₂ Block.SameButMarks bs bs :=
  List.forall₂_same.2 fun _ _ => rfl

theorem State.OthersKept.of_eq (hbefore : t.before = s.before) (hafter : t.after = s.after) : s.OthersKept t :=
  ⟨hbefore ▸ forall₂_sameButMarks_refl _, hafter ▸ forall₂_sameButMarks_refl _⟩

theorem State.othersKept_accept (s : State) (w : Word) : s.OthersKept (s.accept w) := by
  have hmap (bs : List Block) (theirs : List Region) :
      List.Forall₂ Block.SameButMarks bs (bs.map fun o => o.markRaces theirs) :=
    List.forall₂_map_right_iff.2 (List.forall₂_same.2 fun _ _ => rfl)
  exact ⟨hmap _ _, hmap _ _⟩

theorem State.othersKept_hostWrite (s : State) (off : Nat) (v : Word) : s.OthersKept (s.hostWrite off v) := by
  unfold State.hostWrite
  split
  · exact .of_eq rfl rfl
  · split
    · exact .of_eq rfl rfl
    · split
      · exact s.othersKept_accept v
      · exact .of_eq rfl rfl
      · exact .of_eq rfl rfl

theorem State.othersKept_hostRead (s : State) (off : Nat) : s.OthersKept (s.hostRead off) := by
  obtain ⟨hbefore, hafter, -⟩ := s.hostRead_frame off
  exact .of_eq hbefore hafter

theorem State.othersKept_resetTurn (s : State) (asserted : Bool) : s.OthersKept (s.resetTurn asserted) := by
  cases asserted with
  | true => exact .of_eq (State.drawBytes_before s _) (State.drawBytes_after s _)
  | false => exact .of_eq rfl rfl

theorem State.othersKept_engineTurn (h : s.engineTurn = .next t) : s.OthersKept t := by
  have hexec {i : Instr} {u : State} (h : exec i s = .next u) : u.before = s.before ∧ u.after = s.after := by
    obtain ⟨⟨hbefore, hafter, -⟩, -⟩ := commandFrame i s u h
    exact ⟨hbefore, hafter⟩
  cases State.engineTurn_next h with
  | idle | illegal | raced => exact .of_eq rfl rfl
  | executed hw hi hu | shared hw hi hu => exact .of_eq (hexec hu).1 (hexec hu).2

/-- The instance at a position other than the one in focus is among those before or after it. -/
theorem State.OthersKept.blocks (h : s.OthersKept t) :
    t.blocks.length = s.blocks.length ∧
      ∀ j b, j ≠ s.before.length → s.blocks[j]? = some b → ∃ c, t.blocks[j]? = some c ∧ b.SameButMarks c := by
  have hlen := h.before.length_eq
  have hlen' := h.after.length_eq
  refine ⟨by simp [State.blocks, hlen, hlen'], fun j b hj hb => ?_⟩
  have hget {bs cs : List Block} (hall : List.Forall₂ Block.SameButMarks bs cs) {n : Nat} (hn : bs[n]? = some b) :
      ∃ c, cs[n]? = some c ∧ b.SameButMarks c := by
    obtain ⟨hlt, rfl⟩ := List.getElem?_eq_some_iff.1 hn
    have hlt' : n < cs.length := hall.length_eq ▸ hlt
    exact ⟨_, List.getElem?_eq_getElem hlt', hall.get hlt hlt'⟩
  simp only [State.blocks] at hb ⊢
  rcases Nat.lt_or_gt_of_ne hj with hlt | hgt
  · rw [List.getElem?_append_left hlt] at hb
    rw [List.getElem?_append_left (hlen ▸ hlt)]
    exact hget h.before hb
  · obtain ⟨n, rfl⟩ := Nat.exists_eq_add_of_lt hgt
    rw [List.getElem?_append_right (by omega), show s.before.length + n + 1 - s.before.length = n + 1 by omega,
      List.getElem?_cons_succ] at hb
    rw [List.getElem?_append_right (by omega), show s.before.length + n + 1 - t.before.length = n + 1 by omega,
      List.getElem?_cons_succ]
    exact hget h.after hb

/-- Focusing puts the instance at its position. -/
theorem State.length_before_of_focus {k : Nat} (h : s.focus k = some t) : t.before.length = k := by
  simp only [State.focus] at h
  split at h
  · cases h
  next b bs hdrop =>
    cases h
    have hlt : k < s.blocks.length := by
      by_contra hge
      rw [List.drop_eq_nil_of_le (Nat.le_of_not_lt hge)] at hdrop
      cases hdrop
    exact List.length_take_of_le hlt.le

/-- Focusing reads the instances as one list. -/
theorem State.focus_congr {l r : List Block} {b : Block} (h : s.blocks = l ++ b :: r) (k : Nat) :
    ({ s with before := l, cur := b, after := r } : State).focus k = s.focus k := by
  have hblocks : ({ s with before := l, cur := b, after := r } : State).blocks = s.blocks := h.symm
  simp only [State.focus, hblocks]

theorem State.on_congr {l r : List Block} {b : Block} (h : s.blocks = l ++ b :: r) (k : Nat) (f : State → Result) :
    ({ s with before := l, cur := b, after := r } : State).on k f = s.on k f := by
  simp only [State.on, State.focus_congr h]

/-- A move of instance `k` leaves the others all but their marks. -/
theorem State.blocks_of_on {k : Nat} {f : State → Result} (hf : ∀ u, u.before.length = k → f u = .next t → u.OthersKept t)
    (h : s.on k f = .next t) : t.blocks.length = s.blocks.length ∧
      ∀ j b, j ≠ k → s.blocks[j]? = some b → ∃ c, t.blocks[j]? = some c ∧ b.SameButMarks c := by
  unfold State.on at h
  split at h
  · cases h
  next u hfocus =>
    obtain ⟨hblocks, -⟩ := State.focus_some hfocus
    have hlen := State.length_before_of_focus hfocus
    rw [← hblocks, ← hlen]
    exact (hf u hlen h).blocks

/-- The rest of the turns may be taken off before the focus or after it. -/
theorem State.on_setTurns (s : State) (rest : List Turn) (k : Nat) (f : State → Result) :
    ({ s with turns := rest } : State).on k f = s.on k fun u => f { u with turns := rest } := by
  simp only [State.on, State.focus, State.blocks]
  cases (s.before ++ s.cur :: s.after).drop k <;> rfl

/-- The rest of the turns is no instance's. -/
theorem State.OthersKept.of_setTurns {u : State} (h : ({ u with turns := rest } : State).OthersKept t) : u.OthersKept t :=
  ⟨h.before, h.after⟩

/-- A turn that names instance `k` is refused for its width or alignment, or is a move made with that instance in focus. -/
theorem step_of_named {turn : Turn} {k : Nat} (rest : List Turn) (hk : instanceOf turn = some k) :
    (∀ s : State, s.turns = turn :: rest → step s = .refused .badAccess) ∨
      ∃ f : State → Result, (∀ u t, u.before.length = k → f u = .next t → u.OthersKept t) ∧
        ∀ s : State, s.turns = turn :: rest → step s = s.on k f := by
  cases turn with
  | engine j =>
    cases hk
    refine .inr ⟨fun u => State.engineTurn { u with turns := rest },
      fun u t _ h => (State.othersKept_engineTurn h).of_setTurns, fun s hturn => ?_⟩
    rw [step, State.takeTurn, hturn]
    exact s.on_setTurns rest k State.engineTurn
  | reset j asserted =>
    cases hk
    refine .inr ⟨fun u => .next (State.resetTurn { u with turns := rest } asserted), fun u t hk h => ?_, fun s hturn => ?_⟩
    · cases h
      exact (State.othersKept_resetTurn _ asserted).of_setTurns
    · rw [step, State.takeTurn, hturn]
      exact s.on_setTurns rest k _
  | host op =>
    cases op with
    | memWr | memRd => cases hk
    | wait j =>
      cases hk
      refine .inr ⟨fun u => if u.cur.status.busy then u.engineTurn else
        State.hostOp { u with turns := rest } (.wait k), fun u t hk h => ?_, fun s hturn => ?_⟩
      · simp only at h
        split at h
        · exact State.othersKept_engineTurn h
        · subst hk
          have hread := (State.on_self { u with turns := rest } _).symm.trans h
          cases hread
          exact (State.othersKept_hostRead _ _).of_setTurns
      · rw [step, State.takeTurn, hturn]
        rfl
    | wr j off size v =>
      cases hk
      cases hok : accessOk off size with
      | false => exact .inl fun s hturn => by simp [step, State.takeTurn, hturn, State.hostOp, hok]
      | true =>
        refine .inr ⟨fun u => .next (State.hostWrite { u with turns := rest } off v), fun u t hk h => ?_, fun s hturn => ?_⟩
        · cases h
          exact (State.othersKept_hostWrite _ off v).of_setTurns
        · simp only [step, State.takeTurn, hturn, State.hostOp, hok, if_true]
          exact s.on_setTurns rest k _
    | rd j off size =>
      cases hk
      cases hok : accessOk off size with
      | false => exact .inl fun s hturn => by simp [step, State.takeTurn, hturn, State.hostOp, hok]
      | true =>
        refine .inr ⟨fun u => .next (State.hostRead { u with turns := rest } off), fun u t hk h => ?_, fun s hturn => ?_⟩
        · cases h
          exact (State.othersKept_hostRead _ off).of_setTurns
        · simp only [step, State.takeTurn, hturn, State.hostOp, hok, if_true]
          exact s.on_setTurns rest k _

/-- Settles O5: a listed turn is made with its instance in focus, and focusing reads the instances as one list. -/
theorem stepRunsPendingCommand : Obligations.StepRunsPendingCommand := by
  refine ⟨fun s w hw => ⟨fun hturns => State.takeTurn_nil hturns hw, fun i hi hquiet => State.engineTurn_exec hw hi hquiet⟩,
    fun s rest => ⟨fun hturn => step_engine hturn, fun off halign hoff => ⟨fun v hturn => step_hostWrite hturn halign hoff,
      fun hturn => step_hostRead hturn halign hoff⟩⟩,
    fun s w hreset hidle => ⟨State.hostWrite_cmd_of_idle hreset hidle w, _, rfl⟩,
    fun s turn rest k hturn hk => ?_⟩
  rcases step_of_named rest hk with hrefused | ⟨f, hkept, hstep⟩
  · refine ⟨fun l r b _ _ => (hrefused s hturn).trans (hrefused { s with before := l, cur := b, after := r } hturn).symm, fun t hnext => ?_⟩
    rw [hrefused s hturn] at hnext
    cases hnext
  · refine ⟨fun l r b hblocks _ => ?_, fun t hnext => ?_⟩
    · rw [hstep s hturn, hstep { s with before := l, cur := b, after := r } hturn]
      exact (State.on_congr hblocks k f).symm
    · rw [hstep s hturn] at hnext
      exact State.blocks_of_on (fun u hu h => hkept u t hu h) hnext

end Turns

end Sys2Proof.Machine
end

section
/-! A host write into a region of a pending command: the statement O55 (20_memory R91). -/

namespace Sys2Proof.Machine

section HostRace

variable {s : State} {i : Instr}

/-- The pending command of `b` has a region at byte `a`. -/
theorem Block.hostWrote_of_region {b : Block} {w : Word} {r : Region} {a : Nat} (hw : b.pending = some w)
    (hi : decode w = .ok i) (hr : r ∈ b.regions i) (hhas : r.range.has a = true) :
    b.hostWrote a = { b with track := { b.track with raced := true } } := by
  have hany : (b.regionsInFlight.any fun r => r.range.has a) = true :=
    List.any_eq_true.2 ⟨r, Block.regionsInFlight_of_pending hw hi ▸ hr, hhas⟩
  rw [Block.hostWrote, if_pos hany]

/-- No region of a pending command lies at byte `a`. -/
theorem Block.hostWrote_of_no_region {b : Block} {a : Nat}
    (h : ∀ w i r, b.pending = some w → decode w = .ok i → r ∈ b.regions i → r.range.has a = false) : b.hostWrote a = b := by
  refine if_neg fun hany => ?_
  obtain ⟨r, hr, hhas⟩ := List.any_eq_true.1 hany
  simp only [Block.regionsInFlight] at hr
  split at hr
  · cases hr
  next w hw =>
    split at hr
    next j hj => rw [h w j r hw hj hr] at hhas; cases hhas
    · cases hr

/-- A byte of the written ranges of a command is one of its written regions'. -/
theorem Block.has_written_iff (b : Block) (i : Instr) (x : Nat) :
    (∃ q ∈ b.written i, q.has x = true) ↔ ∃ r ∈ b.regions i, r.write = true ∧ r.range.has x = true := by
  simp only [Block.written, List.mem_map, List.mem_filter]
  exact ⟨fun ⟨q, ⟨r, ⟨hr, hw⟩, hq⟩, hx⟩ => ⟨r, hr, hw, hq ▸ hx⟩, fun ⟨r, hr, hw, hx⟩ => ⟨_, ⟨r, ⟨hr, hw⟩, rfl⟩, hx⟩⟩

/-- The drawn outcome of a race, its marks and its pending command taken off. -/
theorem State.raceOutcome_drawn (s : State) (i : Instr) :
    Drawn s.draws (.ending :: .faultInfo :: outputs i) s.cur (s.raceOutcome i).cur := by
  have drawn := s.cur.drawOutputs_drawn s.draws (.ending :: .faultInfo :: outputs i)
  exact ⟨drawn.status, drawn.faultInfo, drawn.bwOpen, drawn.bwCnt, drawn.bwAcc, drawn.dstLen, drawn.brByte, drawn.brBit,
    drawn.brData, drawn.symOut, drawn.treeValid, drawn.freq, drawn.origSize, drawn.codeCount, drawn.dictSize, rfl⟩

/-- A raced command that the checks do not refuse ends in its drawn outcome. -/
theorem State.racedTurn_of_pass (h : checkRegions s.denied s.platform.devices (s.cur.regions i) ≠ .refuse) :
    s.racedTurn i = .next (s.raceOutcome i) := by
  simp only [State.racedTurn]

/-- An output is one of FREQ's exactly when it is some count. -/
theorem mem_freqOutputs_iff (o : Output) : o ∈ freqOutputs ↔ ∃ sym, o = .freq sym := by
  refine ⟨fun h => ?_, by rintro ⟨sym, rfl⟩; exact mem_freqOutputs sym⟩
  obtain ⟨sym, -, rfl⟩ := List.mem_map.1 h
  exact ⟨sym, rfl⟩

/-- Settles O55: `hostWrote` block by block, `raceOutcome`, and the table of `outputs`. -/
theorem hostRaceIsDraw : Obligations.HostRaceIsDraw := by
  refine ⟨fun s a v rest hturn ha hblocks hdevices => ?_, fun s w i hwf hw hi hraced hcheck => ?_, ?_⟩
  · refine ⟨_, (step_memWr hturn).trans
      (State.hostMem_of_memory (s := { s with turns := rest }) ha hblocks hdevices _), rfl, by simp, by simp,
      fun k b hb => ?_⟩
    have hmap : (s.before.map (Block.hostWrote a) ++ s.cur.hostWrote a :: s.after.map (Block.hostWrote a))[k]? =
        some (b.hostWrote a) := by
      have := congrArg (Option.map (Block.hostWrote a)) hb
      simpa [State.blocks, ← List.getElem?_map] using this
    refine ⟨fun ⟨w, i, r, hw, hi, hr, hhas⟩ => ?_, fun hnone => ?_⟩
    · exact hmap.trans (congrArg some (Block.hostWrote_of_region hw hi hr hhas))
    · exact hmap.trans (congrArg some (Block.hostWrote_of_no_region hnone))
  · refine ⟨s.raceOutcome i, (State.engineTurn_raced hw hi hraced).trans (State.racedTurn_of_pass hcheck), rfl,
      fun x hx hdrawn => ?_, fun x hwritten hshared => ?_, rfl, rfl, s.raceOutcome_drawn i⟩
    · refine read_drawAll_inside _ _ _ _ hwf ?_ hx
      rcases hdrawn with hwritten | ⟨q, hq, hhas⟩
      · obtain ⟨q, hq, hhas⟩ := (s.cur.has_written_iff i x).2 hwritten
        exact ⟨q, List.mem_append.2 (.inl hq), hhas⟩
      · exact ⟨q, List.mem_append.2 (.inr hq), hhas⟩
    · refine read_drawAll_outside _ _ _ _ fun q hq => ?_
      rcases List.mem_append.1 hq with hq | hq
      · by_contra hhas
        obtain ⟨r, hr, hwr, hr'⟩ := (s.cur.has_written_iff i x).1 ⟨q, hq, by simpa using hhas⟩
        rw [hwritten r hr hwr] at hr'
        cases hr'
      · exact hshared q hq
  · refine ⟨⟨rfl, rfl, rfl, rfl, rfl, fun _ => rfl⟩, fun _ => rfl, fun _ => rfl, rfl, fun _ => rfl, rfl, ?_, ?_, ?_, ?_,
      rfl, fun _ => rfl⟩
    all_goals
      intro o
      simp only [outputs, List.mem_append, List.mem_cons, List.not_mem_nil, mem_freqOutputs_iff, or_false, or_assoc]

end HostRace

end Sys2Proof.Machine
end

section
/-! The round trips: what the bit writer writes the bit reader reads, and what HUF_ENCODE writes HUF_DECODE decodes; the
statements O34 and O48 (40_bitio R148, R149, 41_huffman R184). -/

namespace Sys2Proof.Machine

section RoundTrips

variable {s t u : State} {i : Instr}

/-- A command that ends without ERR, begun without it, completed past its prerequisites and checks. -/
theorem completes_of_exec (h : exec i s = .next t) (herr : t.cur.status.err = false) :
    s.cur.prereqFault i = none ∧ s.ChecksPass i ∧ ∃ b m, Completes s i b m ∧ t = s.completed b m := by
  cases executes_of_exec h with
  | prerequisite | check => cases herr
  | ended hpre hpass hends =>
    cases hends with
    | completed hdone => exact ⟨hpre, hpass, _, _, hdone, rfl⟩
    | faulted | aborted => cases herr

/-! ### HUF_DECODE of what HUF_ENCODE wrote (41_huffman R184) -/

/-- Where META and DST lie apart, storing the payload leaves the table (20_memory R85). -/
theorem State.readLE_encoded {m : Memory} (hpass : s.ChecksPass .hufEncode) (hwf : m.wf = true) (f : FreqTable)
    {bytes : List Byte} (hfit : bytes.length ≤ s.cur.dstCap.toNat) (sym : Byte) :
    ((m.writeBytes s.cur.metaAddr.toNat f.bytes).writeBytes s.cur.dstAddr.toNat bytes).readLE
      (s.cur.metaAddr.toNat + 4 * sym.toNat) 4 = (f.count sym).toNat := by
  refine Eq.trans ?_ (f.readLE_bytes m s.cur.metaAddr.toNat hwf sym)
  refine congrArg leValue (Memory.readBytes_congr fun x hlo hhi => Memory.read_writeBytes_outside _ _ _ _ ?_)
  have hsym := sym.isLt
  have hin : (s.cur.metaRegion true).range.has x = true :=
    (Range.has_iff _ _).2 ⟨by simp only [Region.range, Block.metaRegion]; omega,
      by simp only [Region.range, Block.metaRegion, Config.freqTableBytes]; omega⟩
  have hout := State.disjoint_of_pass hpass (p := s.cur.dstRegion) (by simp [Block.regions]) (by simp [Block.regions])
    (by simp [Block.dstRegion, Block.metaRegion]) rfl hin
  have hrange := (Range.has_eq_false _ _).1 hout
  simp only [Region.range, Block.dstRegion] at hrange
  omega

/-- Settles O48: META and the payload read back as written, and the payload begins with the source's codewords. -/
theorem huffmanRoundTrip : Obligations.HuffmanRoundTrip := by
  intro s t u hwf hidle hexec herr hmem hmeta horig hsrc hlen hpass hcap
  obtain ⟨-, hchecks, b, m, hdone, rfl⟩ := completes_of_exec hexec herr
  cases hdone with
  | @hufEncode f hok hfit =>
    have hcount := count_of_countBytes_zero hok
    have hmeta : u.cur.metaAddr = s.cur.metaAddr := hmeta
    have hsize : s.srcBytes.length = u.cur.origSize.toNat := by
      rw [horig]
      exact Memory.length_readBytes _ _ _
    have hcap64 := s.cur.dstCap.isLt
    have hdst : (BitVec.ofNat 64 (((payload (codeTable (buildTree f)) s.srcBytes).length + 7) / 8)).toNat =
        (packAll (payload (codeTable (buildTree f)) s.srcBytes)).length := by
      rw [BitVec.toNat_ofNat, packAll, length_packWhole]
      omega
    have htable (sym : Byte) : (f.count sym).toNat = u.mem.readLE (u.cur.metaAddr.toNat + 4 * sym.toNat) 4 := by
      rw [hmem, hmeta]
      exact (State.readLE_encoded hchecks hwf f (by rw [packAll, length_packWhole]; exact hfit) sym).symm
    have hstream : payload (codeTable (buildTree f)) s.srcBytes <+: streamBits u.srcBytes := by
      have hbytes : u.srcBytes = packAll (payload (codeTable (buildTree f)) s.srcBytes) := by
        rw [State.srcBytes, hmem, hsrc, hlen]
        change Memory.readBytes _ _ (BitVec.toNat (BitVec.ofNat 64 _)) = _
        rw [hdst]
        exact Memory.readBytes_writeBytes _ _ _ (Memory.wf_writeBytes _ _ _ hwf)
      rw [hbytes, streamBits_packAll]
      exact List.prefix_append _ _
    obtain ⟨pos, -, -, hdecode⟩ := hufDecodeWritesSymbols u f s.srcBytes hpass htable hcap hsize fun sym hsym hzero => by
      have hpos := List.count_pos_iff.2 hsym
      rw [← hcount, hzero] at hpos
      cases hpos
    exact ⟨_, hdecode (.inr hstream), rfl, rfl, horig, rfl⟩

/-! ### The writer over several commands (40_bitio R148, R149) -/

/-- Two instances whose writers stand alike: what putting bits reads. -/
structure Block.SameWriter (b c : Block) : Prop where
  dstAddr : b.dstAddr = c.dstAddr
  dstLen : b.dstLen = c.dstLen
  acc : b.bwAcc = c.bwAcc
  cnt : b.bwCnt = c.bwCnt

theorem putBit_congr {b c : Block} (h : b.SameWriter c) (m : Memory) (bit : Bool) :
    (putBit (b, m) bit).1.SameWriter (putBit (c, m) bit).1 ∧ (putBit (b, m) bit).2 = (putBit (c, m) bit).2 := by
  obtain ⟨haddr, hlen, hacc, hcnt⟩ := h
  simp only [putBit, haddr, hlen, hacc, hcnt]
  split <;> exact ⟨⟨rfl, rfl, rfl, rfl⟩, rfl⟩

/-- Putting bits reads the writer and nothing else. -/
theorem putBits_congr_writer {b c : Block} (h : b.SameWriter c) (m : Memory) (bits : Bits) :
    (putBits (b, m) bits).1.SameWriter (putBits (c, m) bits).1 ∧ (putBits (b, m) bits).2 = (putBits (c, m) bits).2 := by
  induction bits generalizing b c m with
  | nil => exact ⟨h, rfl⟩
  | cons bit bits ih =>
    obtain ⟨hwriter, hmem⟩ := putBit_congr h m bit
    have heta : ((putBit (b, m) bit).1, (putBit (c, m) bit).2) = putBit (b, m) bit := by rw [← hmem]
    have hrest := ih hwriter (putBit (c, m) bit).2
    rw [heta] at hrest
    exact hrest

/-- Flushing reads the writer and nothing else. -/
theorem flush_congr_writer {b c : Block} (h : b.SameWriter c) (m : Memory) :
    (flush (b, m)).1.dstLen = (flush (c, m)).1.dstLen ∧ (flush (b, m)).2 = (flush (c, m)).2 := by
  obtain ⟨haddr, hlen, hacc, hcnt⟩ := h
  simp only [flush, haddr, hlen, hacc, hcnt, Block.flushByte]
  split <;> exact ⟨by simp [hlen], rfl⟩

/-- The writer has taken the bits `w` since it stood empty as in `b₀`, with memory `m₀`. -/
structure WriterHolds (b₀ : Block) (m₀ : Memory) (w : Bits) (s : State) : Prop where
  writer : s.cur.SameWriter (putBits (b₀, m₀) w).1
  mem : s.mem = (putBits (b₀, m₀) w).2
  bits : s.cur.bwAcc.toNat < 2 ^ s.cur.bwCnt.toNat
  count : 8 * s.cur.dstLen.toNat + s.cur.bwCnt.toNat = w.length
  freq : s.cur.freq = b₀.freq

section Writer

variable {b₀ : Block} {m₀ : Memory} {w : Bits}

/-- Bits put where there is room are taken. -/
theorem WriterHolds.putBits (h : WriterHolds b₀ m₀ w s) {bits : Bits} (hroom : s.cur.Room bits.length) :
    WriterHolds b₀ m₀ (w ++ bits)
      (s.completed (Machine.putBits (s.cur, s.mem) bits).1 (Machine.putBits (s.cur, s.mem) bits).2) := by
  have happend : Machine.putBits (b₀, m₀) (w ++ bits) = Machine.putBits (Machine.putBits (b₀, m₀) w) bits :=
    List.foldl_append
  obtain ⟨hwriter, hmem⟩ := putBits_congr_writer h.writer s.mem bits
  have heta : ((Machine.putBits (b₀, m₀) w).1, s.mem) = Machine.putBits (b₀, m₀) w := by rw [h.mem]
  rw [heta, ← happend] at hwriter hmem
  obtain ⟨acc, cnt, len, hblock⟩ := putBits_block (s.cur, s.mem) bits
  have hput := congrArg Prod.fst (putBits_of_room (m := s.mem) h.bits hroom)
  have hlt := hroom.lt
  refine ⟨⟨hwriter.1, hwriter.2, hwriter.3, hwriter.4⟩, hmem, putBits_acc (s.cur, s.mem) bits h.bits, ?_, ?_⟩
  · have hlen : (Machine.putBits (s.cur, s.mem) bits).1.dstLen.toNat = s.cur.dstLen.toNat + s.cur.pushes bits.length := by
      rw [hput, Block.holding, BitVec.toNat_ofNat]
      omega
    have hcnt : (Machine.putBits (s.cur, s.mem) bits).1.bwCnt.toNat = (s.cur.bwCnt.toNat + bits.length) % 8 := by
      rw [hput, Block.holding, BitVec.toNat_ofNat, List.length_append, Block.length_partialBits]
      omega
    have hcount := h.count
    simp only [State.completed, Block.complete_dstLen, Block.complete_bwCnt, List.length_append]
    rw [hlen, hcnt, Block.pushes]
    omega
  · exact (congrArg Block.freq hblock).trans h.freq

/-- BW_DATA is not the writer's. -/
theorem WriterHolds.setData (h : WriterHolds b₀ m₀ w s) (v : Word) :
    WriterHolds b₀ m₀ w { s with cur := { s.cur with bwData := v } } :=
  ⟨⟨h.writer.1, h.writer.2, h.writer.3, h.writer.4⟩, h.mem, h.bits, h.count, h.freq⟩

/-- A BW_PUT or HUF_PUT_SYM that completes appends its bits. -/
theorem WriterHolds.step (h : WriterHolds b₀ m₀ w s) (hi : (∃ n, i = .bwPut n) ∨ ∃ sym, i = .hufPutSym sym)
    (hexec : exec i s = .next t) (herr : t.cur.status.err = false) :
    WriterHolds b₀ m₀ (w ++ appendedBits b₀.codeTable s.cur.bwData i) t := by
  obtain ⟨-, -, b, m, hdone, rfl⟩ := completes_of_exec hexec herr
  have htable : b₀.codeTable = s.cur.codeTable := by rw [Block.codeTable, ← h.freq]; rfl
  rcases hi with ⟨n, rfl⟩ | ⟨sym, rfl⟩
  · cases hdone with
    | bwPut hroom => exact h.putBits (bits := lowBits _ _) (by rwa [length_lowBits])
  · cases hdone with
    | hufPutSym hcode hroom =>
      rw [htable]
      exact h.putBits hroom

/-- A run of such commands appends the bits of each in turn. -/
theorem WriterHolds.runAll {cmds : List (Instr × Word)} (h : WriterHolds b₀ m₀ w s)
    (hcmds : ∀ c ∈ cmds, (∃ n, c.1 = .bwPut n) ∨ ∃ sym, c.1 = .hufPutSym sym) (hrun : runAll cmds s = some t) :
    WriterHolds b₀ m₀ (w ++ appendedStream b₀.codeTable cmds) t := by
  induction cmds generalizing s w with
  | nil =>
    cases hrun
    rwa [appendedStream, List.flatMap_nil, List.append_nil]
  | cons c cmds ih =>
    obtain ⟨i, v⟩ := c
    simp only [Machine.runAll] at hrun
    split at hrun
    next x hx =>
      split at hrun
      · cases hrun
      next herr =>
        have hstep := (h.setData v).step (hcmds (i, v) List.mem_cons_self) hx (by simpa using herr)
        have := ih hstep (fun c hc => hcmds c (List.mem_cons_of_mem _ hc)) hrun
        rwa [appendedStream, List.flatMap_cons, ← List.append_assoc]
    · cases hrun
    · cases hrun

/-- BW_INIT leaves an empty writer. -/
theorem writerHolds_openWriter (s : State) :
    WriterHolds s.cur.openWriter s.mem [] (s.completed s.cur.openWriter s.mem) :=
  ⟨⟨rfl, rfl, rfl, rfl⟩, rfl, by simp [State.completed, Block.openWriter], rfl, rfl⟩

/-- BW_FINISH packs every bit taken, the last byte zero-padded. -/
theorem WriterHolds.finish (h : WriterHolds b₀ m₀ w s) (hacc : b₀.bwAcc = 0) (hcnt : b₀.bwCnt = 0) (hlen : b₀.dstLen = 0)
    (hexec : exec .bwFinish s = .next t) (herr : t.cur.status.err = false) :
    t.cur.dstLen.toNat = (w.length + 7) / 8 ∧ t.mem = m₀.writeBytes b₀.dstAddr.toNat (packAll w) ∧
      t.cur.dstAddr = s.cur.dstAddr := by
  obtain ⟨-, -, b, m, hdone, rfl⟩ := completes_of_exec hexec herr
  have hcount := h.count
  have hlt := s.cur.dstLen.isLt
  obtain ⟨hflen, hfmem⟩ := flush_congr_writer h.writer s.mem
  have heta : ((Machine.putBits (b₀, m₀) w).1, s.mem) = Machine.putBits (b₀, m₀) w := by rw [h.mem]
  rw [heta] at hflen hfmem
  have hpacked (hfit : (w.length + 7) / 8 < 2 ^ 64) :
      (flush (s.cur, s.mem)).1.dstLen.toNat = (w.length + 7) / 8 ∧
        (flush (s.cur, s.mem)).2 = m₀.writeBytes b₀.dstAddr.toNat (packAll w) := by
    obtain ⟨hblock, hmem⟩ := flush_putBits_of_fresh (m := m₀) hacc hcnt hlen hfit
    have hdst : (flush (Machine.putBits (b₀, m₀) w)).1.dstLen = BitVec.ofNat 64 ((w.length + 7) / 8) :=
      congrArg Block.dstLen hblock
    rw [hflen, hdst, BitVec.toNat_ofNat, Nat.mod_eq_of_lt hfit]
    exact ⟨rfl, hfmem.trans hmem⟩
  cases hdone with
  | bwFinishEmpty hzero =>
    have hflush : flush (s.cur, s.mem) = (s.cur, s.mem) := if_pos hzero
    rw [hflush] at hpacked
    have hnone : s.cur.bwCnt.toNat = 0 := by rw [hzero]; rfl
    obtain ⟨hl, hm⟩ := hpacked (by omega)
    exact ⟨hl, hm, rfl⟩
  | bwFinish hcnt' hcap =>
    have hflush : flush (s.cur, s.mem) = _ := if_neg hcnt'
    rw [hflush] at hpacked
    have hcap64 := s.cur.dstCap.isLt
    have hcnt8 := s.cur.bwCnt.isLt
    obtain ⟨hl, hm⟩ := hpacked (by omega)
    exact ⟨hl, hm, rfl⟩

end Writer

/-! ### The reader over several commands (40_bitio R148) -/

/-- At most 64 bits are the low bits of their number. -/
theorem lowBits_bitsValue {bits : Bits} {n : Nat} (hlen : bits.length = n) (hn : n ≤ 64) :
    lowBits n (BitVec.ofNat 64 (bitsValue bits)) = bits := by
  subst hlen
  refine List.ext_getElem (by simp) fun j h₁ h₂ => ?_
  simp only [lowBits, List.getElem_map, List.getElem_range, BitVec.getLsbD_ofNat]
  rw [testBit_bitsValue _ _ (by omega)]
  have hlt : bits.length - 1 - j < 64 := by omega
  simp only [hlt, decide_true, Bool.true_and]
  congr 1
  omega

/-- The region checks of BR_GET read the source registers and the register blocks. -/
theorem State.checksPass_brGet_completed {b : Block} {m : Memory} {n : BitVec 7} (hbase : b.mmioBase = s.cur.mmioBase)
    (haddr : b.srcAddr = s.cur.srcAddr) (hlen : b.srcLen = s.cur.srcLen) (h : s.ChecksPass (.brGet n)) :
    (s.completed b m).ChecksPass (.brGet n) := by
  have hdenied : (s.completed b m).denied = s.denied := by
    simp [State.denied, State.blocks, State.completed, Block.window, hbase]
  have hregions : (s.completed b m).cur.regions (.brGet n) = s.cur.regions (.brGet n) := by
    simp [State.completed, Block.regions, Block.srcRegion, haddr, hlen]
  rw [State.ChecksPass, hdenied, hregions]
  exact h

/-- BR_GETs of the bits left read them in order. -/
theorem readAll_eq {sizes : List (BitVec 7)} (hpass : ∀ n, s.ChecksPass (.brGet n)) (herr : s.cur.status.err = false)
    (hsizes : ∀ n ∈ sizes, 1 ≤ n.toNat ∧ n.toNat ≤ 64) (hsum : (sizes.map BitVec.toNat).sum ≤ s.unread.length) :
    readAll sizes s = some (s.unread.take (sizes.map BitVec.toNat).sum) := by
  induction sizes generalizing s with
  | nil => simp [readAll]
  | cons n sizes ih =>
    obtain ⟨hpos, hle⟩ := hsizes n List.mem_cons_self
    rw [List.map_cons, List.sum_cons] at hsum ⊢
    have havail : n.toNat ≤ s.cur.avail := by rw [← State.length_unread]; omega
    have hexec := exec_brGet_of_avail (hpass n) havail
    rw [s.getBits_unread hpos havail] at hexec
    have hstream : s.cur.streamPos + n.toNat ≤ 8 * s.cur.srcLen.toNat := by
      have : s.cur.avail = 8 * s.cur.srcLen.toNat - s.cur.streamPos := rfl
      omega
    generalize hb : ({ s.cur.readerAt (s.cur.streamPos + n.toNat) with
      brData := BitVec.ofNat 64 (bitsValue (s.unread.take n.toNat)) } : Block) = b at hexec
    have hunread : (s.completed b s.mem).unread = s.unread.drop n.toNat := by
      have hpos' : (s.completed b s.mem).cur.streamPos = s.cur.streamPos + n.toNat := by
        subst hb
        exact Block.streamPos_readerAt s.cur _ hstream
      rw [State.unread, hpos', State.unread, List.drop_drop]
      subst hb
      rfl
    have hrest := ih (s := s.completed b s.mem) (fun k => by subst hb; exact State.checksPass_brGet_completed rfl rfl rfl (hpass k))
      (by subst hb; exact herr)
      (fun k hk => hsizes k (List.mem_cons_of_mem _ hk)) (by rw [hunread, List.length_drop]; omega)
    have hdata : lowBits n.toNat (s.completed b s.mem).cur.brData = s.unread.take n.toNat := by
      subst hb
      exact lowBits_bitsValue (by rw [List.length_take]; omega) hle
    have hnoerr : (s.completed b s.mem).cur.status.err = false := by subst hb; exact herr
    simp only [readAll, hexec, hnoerr, hrest, hunread, hdata, Option.map_some, Bool.false_eq_true, if_false]
    rw [List.take_add]

/-- Settles O34: the writer takes the bits in turn and packs them, and the reader reads the packed bits. -/
theorem writerStreamRoundTrip : Obligations.WriterStreamRoundTrip := by
  intro cmds sizes s s₁ s₂ s₃ u u₁ bits hwf herr hcmds hinit hrun hfinish herr₃ hbits
  rw [exec_bwInit] at hinit
  cases hinit
  have hholds := (writerHolds_openWriter s).runAll hcmds hrun
  have htable : s.cur.openWriter.codeTable = s.cur.codeTable := rfl
  rw [List.nil_append, htable, ← hbits] at hholds
  obtain ⟨hlen, hmem, haddr⟩ := hholds.finish rfl rfl rfl hfinish herr₃
  have hdst : s₃.cur.dstAddr = s.cur.dstAddr := by
    obtain ⟨acc, cnt, len, hblock⟩ := putBits_block (s.cur.openWriter, s.mem) bits
    rw [haddr, hholds.writer.dstAddr, hblock]
    rfl
  have hread : s₃.mem.readBytes s.cur.dstAddr.toNat s₃.cur.dstLen.toNat = packAll bits := by
    have hpack : (packAll bits).length = s₃.cur.dstLen.toNat := by rw [hlen, packAll, length_packWhole]
    rw [hmem, ← hpack]
    exact Memory.readBytes_writeBytes _ _ _ hwf
  refine ⟨⟨hlen, by rw [hread, streamBits_packAll, hlen]⟩, fun humem huaddr hulen huerr hupass huinit hsizes hsum => ?_⟩
  rw [exec_brInit] at huinit
  cases huinit
  have hunread : (u.completed { u.cur with brByte := 0, brBit := 0 } u.mem).unread =
      bits ++ List.replicate (8 * ((bits.length + 7) / 8) - bits.length) false := by
    rw [← streamBits_packAll, ← hread, ← hdst, ← huaddr, ← hulen, ← humem]
    rfl
  have hread := readAll_eq (s := u.completed { u.cur with brByte := 0, brBit := 0 } u.mem)
    (fun n => State.checksPass_brGet_completed rfl rfl rfl (hupass n)) huerr hsizes
    (by rw [hunread, hsum, List.length_append]; omega)
  rw [hunread, hsum, List.take_left' rfl] at hread
  exact hread

end RoundTrips

end Sys2Proof.Machine
end

section
/-! What a command's results are where its memory varies: the outputs and bytes that do not vary are the same in every run
(20_memory R92). -/

namespace Sys2Proof.Machine

section Runs

variable {s t t' : State} {i : Instr} {m m' : Memory}

/-! ### What a run can change of its instance -/

/-- STATUS at the end of a command: BUSY has fallen, WERR and LAST_OP stay, and without ERR the fault code stays too. -/
theorem exec_status (h : exec i s = .next t) :
    t.cur.status =
        { s.cur.status with
          busy := false, done := t.cur.status.done, err := t.cur.status.err, fault := t.cur.status.fault } ∧
      (t.cur.status.err = false → t.cur.status.fault = s.cur.status.fault) := by
  rcases exec_cases h with ⟨b, m, hdone, rfl⟩ | ⟨code, info, -, -, rfl⟩ | ⟨code, info, b, m, hlate, rfl⟩
  · have hb : s.cur.SameButWork b := hdone.sameButWork
    rw [hb]
    exact ⟨rfl, fun _ => rfl⟩
  · exact ⟨rfl, nofun⟩
  · have hb : s.cur.SameButWork b := hlate.sameButWork
    rw [hb]
    exact ⟨rfl, nofun⟩

/-- The registers a command keeps. -/
theorem exec_registersKept (h : exec i s = .next t) : RegistersKept i s.cur t.cur := by
  rcases exec_cases h with ⟨b, m, hdone, rfl⟩ | ⟨code, info, -, -, rfl⟩ | ⟨code, info, b, m, hlate, rfl⟩
  · exact hdone.registersKept.complete
  · exact (RegistersKept.refl i s.cur).raise _ _
  · exact hlate.registersKept.raise _ _

/-- Commands with regions that write OPEN, the partial byte or DST_LEN other than by appending bits list all three. -/
theorem not_writerCommand {b : Block} (hregions : b.regions i ≠ []) {o : Output} (ho : o ∉ outputs i)
    (hw : o ∈ [Output.bwOpen, .writer, .dstLen]) :
    i ∉ [.bwInit, .bwFinish, .hufEncode, .hufDecode, .lzwEncode, .softReset] ∧ ∀ strict, i ≠ .lzwDecode strict := by
  cases i with
  | bwInit | softReset => exact absurd rfl hregions
  | bwFinish | hufEncode | hufDecode | lzwEncode | lzwDecode =>
    fin_cases hw <;> exact absurd (by simp [outputs]) ho
  | _ => simp

/-- Commands with regions that move the reader list both parts of its position. -/
theorem not_readerCommand {b : Block} (hregions : b.regions i ≠ []) {o : Output} (ho : o ∉ outputs i)
    (hr : o ∈ [Output.brByte, .brBit]) :
    i ∉ [.brInit, .hufGetSym, .hufDecode, .softReset] ∧ ∀ n, i ≠ .brGet n := by
  cases i with
  | brInit | softReset => exact absurd rfl hregions
  | hufGetSym | hufDecode | brGet => fin_cases hr <;> exact absurd (by simp [outputs]) ho
  | _ => simp

/-- Commands with regions that write FREQ or TREE_VALID list them. -/
theorem not_treeCommand {b : Block} (hregions : b.regions i ≠ []) {o : Output} (ho : o ∉ outputs i)
    (ht : o = .treeValid ∨ ∃ sym, o = .freq sym) :
    i ∉ [.hufCount, .hufLoadFreq, .hufBuild, .hufEncode, .hufDecode, .softReset] := by
  cases i with
  | hufBuild | softReset => exact absurd rfl hregions
  | hufCount | hufLoadFreq | hufEncode | hufDecode => rcases ht with rfl | ⟨sym, rfl⟩ <;> exact absurd (by simp [outputs]) ho
  | _ => simp

/-- A command with regions keeps every register that is not in its table of outputs. -/
theorem RegistersKept.same_of_not_mem {b c : Block} (h : RegistersKept i b c) (hregions : b.regions i ≠ []) {o : Output}
    (ho : o ∉ .ending :: .faultCode :: .faultInfo :: outputs i) : o.Same b c := by
  have hout : o ∉ outputs i := fun hmem => ho (by simp [hmem])
  have hsoft : i ≠ .softReset := by
    rintro rfl
    exact hregions rfl
  have hwriter (hw : o ∈ [Output.bwOpen, .writer, .dstLen]) :=
    h.writer (not_writerCommand hregions hout hw).1 (not_writerCommand hregions hout hw).2
  have hreader (hr : o ∈ [Output.brByte, .brBit]) :=
    h.reader (not_readerCommand hregions hout hr).1 (not_readerCommand hregions hout hr).2
  cases o with
  | ending | faultCode | faultInfo => exact absurd (by simp) ho
  | bwOpen => exact (hwriter (by simp)).1.symm
  | writer =>
    obtain ⟨-, hkept⟩ := hwriter (by simp)
    obtain ⟨hacc, hcnt, -⟩ := hkept (by rintro n rfl; simp [outputs] at hout) (by rintro sym rfl; simp [outputs] at hout)
    exact ⟨hacc.symm, hcnt.symm⟩
  | dstLen =>
    obtain ⟨-, hkept⟩ := hwriter (by simp)
    obtain ⟨-, -, hlen⟩ := hkept (by rintro n rfl; simp [outputs] at hout) (by rintro sym rfl; simp [outputs] at hout)
    exact hlen.symm
  | brByte => exact (hreader (by simp)).1.symm
  | brBit => exact (hreader (by simp)).2.symm
  | brData => exact (h.brData hsoft (by rintro n rfl; simp [outputs] at hout)).symm
  | symOut =>
    have hget : i ≠ .hufGetSym := by
      rintro rfl
      simp [outputs] at hout
    exact (h.symOut (by simp [hget, hsoft])).symm
  | freq sym =>
    have htree := not_treeCommand hregions hout (.inr ⟨sym, rfl⟩)
    exact congrArg (·.count sym) (h.freq fun hi => htree (by simp_all)).symm
  | treeValid => exact (h.treeValid (not_treeCommand hregions hout (.inl rfl))).symm
  | origSize => exact (h.origSize (by rintro hi; fin_cases hi <;> simp [outputs] at hout)).symm
  | codeCount => exact (h.codeCount (by rintro rfl; simp [outputs] at hout)).symm
  | dictSize =>
    have hencode : i ≠ .lzwEncode := by
      rintro rfl
      simp [outputs] at hout
    exact (h.dictSize (by simp [hencode, hsoft])).symm

theorem Output.Same.symm {b c : Block} {o : Output} (h : o.Same b c) : o.Same c b :=
  (Output.value_eq_iff o c b).1 ((Output.value_eq_iff o b c).2 h).symm

theorem Output.Same.trans {a b c : Block} {o : Output} (h : o.Same a b) (h' : o.Same b c) : o.Same a c :=
  (Output.value_eq_iff o a c).1 (((Output.value_eq_iff o a b).2 h).trans ((Output.value_eq_iff o b c).2 h'))

theorem Output.Same.refl (o : Output) (b : Block) : o.Same b b := (Output.value_eq_iff o b b).1 rfl

/-! ### Runs on alike memory -/

/-- A command on memory that reads alike in its read regions. -/
theorem exec_setMem_congr (hwf : m.wf = true) (hwf' : m'.wf = true)
    (hagree : ∀ r ∈ s.cur.regions i, r.write = false → ∀ a, r.range.has a = true → m'.read a = m.read a)
    (h : exec i { s with mem := m } = .next t) (h' : exec i { s with mem := m' } = .next t') :
    t'.cur = t.cur ∧ ∀ a, m'.read a = m.read a → t'.mem.read a = t.mem.read a := by
  obtain ⟨m₁, hexec, hread⟩ := exec_congr (s := { s with mem := m }) (m := m') hagree hwf hwf' h
  cases hexec.symm.trans h'
  exact ⟨rfl, hread⟩

/-- Where a prerequisite or a check fails, the command reads no memory: the fault is the same whatever memory holds. -/
theorem exec_of_not_pass (hfail : (∃ code, s.cur.prereqFault i = some code) ∨ ¬s.ChecksPass i)
    (h : exec i { s with mem := m } = .next t) :
    ∃ code info, ∀ m' : Memory, exec i { s with mem := m' } = .next ({ s with mem := m' }.faulted code info) := by
  cases executes_of_exec h with
  | prerequisite hpre => exact ⟨_, 0, fun m' => statePrerequisites i { s with mem := m' } _ hpre⟩
  | check hpre hcheck => exact ⟨_, _, fun m' => exec_of_checkFault (s := { s with mem := m' }) hpre hcheck⟩
  | ended hpre hpass =>
    rcases hfail with ⟨code, hcode⟩ | hfail
    · cases hcode.symm.trans hpre
    · exact absurd hpass hfail

/-- Past its prerequisites and checks a command ends as its rules say, whatever memory holds. -/
theorem ends_of_exec (hpre : s.cur.prereqFault i = none) (hpass : s.ChecksPass i)
    (h : exec i { s with mem := m } = .next t) : Ends { s with mem := m } i t := by
  cases executes_of_exec h with
  | prerequisite hcode => cases hcode.symm.trans hpre
  | check _ hcheck => cases hcheck.symm.trans hpass
  | ended _ _ hends => exact hends

/-! ### Variants and runs -/

/-- A byte is an input that is shared where the command reads it, writes it not, and shares it. -/
theorem State.mem_sharedInputs (s : State) (i : Instr) (a : Nat) :
    a ∈ s.sharedInputs i ↔ (∃ q ∈ s.cur.track.shared, q.has a = true) ∧
      (∃ r ∈ s.cur.regions i, r.write = false ∧ r.range.has a = true) ∧
        ∀ r ∈ s.cur.regions i, r.write = true → r.range.has a = false := by
  have hshared : (a ∈ s.cur.track.shared.flatMap fun q => List.range' q.base q.len) ↔
      ∃ q ∈ s.cur.track.shared, q.has a = true := by
    simp only [List.mem_flatMap, List.mem_range'_1, Range.has_iff]
  have hread : ((s.cur.regions i).any fun r => !r.write && r.range.has a) = true ↔
      ∃ r ∈ s.cur.regions i, r.write = false ∧ r.range.has a = true := by
    simp only [List.any_eq_true, Bool.and_eq_true, Bool.not_eq_true']
  have hwritten : (!(s.cur.written i).any fun q => q.has a) = true ↔
      ∀ r ∈ s.cur.regions i, r.write = true → r.range.has a = false := by
    rw [Bool.not_eq_true', ← Bool.not_eq_true, List.any_eq_true, s.cur.has_written_iff i a]
    simp only [not_exists, not_and, Bool.not_eq_true]
  rw [State.sharedInputs, List.mem_dedup, List.mem_filter, hshared, Bool.and_eq_true, hread, hwritten]

/-- Memory with the bytes of some addresses as another memory has them. -/
theorem exists_memory_of_reads (hwf : m.wf = true) (m' : Memory) (addrs : List Nat) :
    ∃ m₁ : Memory, m₁.wf = true ∧ (∀ a ∈ addrs, m₁.read a = m'.read a) ∧ ∀ a, a ∉ addrs → m₁.read a = m.read a := by
  induction addrs with
  | nil => exact ⟨m, hwf, by simp, fun _ _ => rfl⟩
  | cons x addrs ih =>
    obtain ⟨m₁, hwf₁, hin, hout⟩ := ih
    refine ⟨m₁.write x (m'.read x), Memory.wf_write _ _ _ hwf₁, fun a ha => ?_, fun a ha => ?_⟩
    · by_cases hx : a = x
      · rw [hx, Memory.read_write_same _ _ _ hwf₁]
      · rw [Memory.read_write_other _ _ hx]
        exact hin a ((List.mem_cons.1 ha).resolve_left hx)
    · obtain ⟨hx, ha⟩ := not_or.1 (List.mem_cons.not.1 ha)
      rw [Memory.read_write_other _ _ hx]
      exact hout a ha

/-- Whatever the shared bytes hold, a command leaves its instance as in some run over the shared bytes it reads, and every
other byte alike. -/
theorem exists_run_of_exec (hwf : s.mem.wf = true) (hwf' : m.wf = true)
    (hshared : ∀ a, (∀ r ∈ s.cur.track.shared, r.has a = false) → m.read a = s.mem.read a)
    (h : exec i { s with mem := m } = .next t) :
    ∃ u ∈ s.sharedRuns i, u.cur = t.cur ∧
      ∀ a, (∀ r ∈ s.cur.track.shared, r.has a = false) → u.mem.read a = t.mem.read a := by
  obtain ⟨m₁, hwf₁, hin, hout⟩ := exists_memory_of_reads hwf m (s.sharedInputs i)
  have hkept : ∀ a, (∀ r ∈ s.cur.track.shared, r.has a = false) → m₁.read a = m.read a := by
    intro a ha
    rw [hout a fun hmem => ?_, hshared a ha]
    obtain ⟨⟨q, hq, hhas⟩, -⟩ := (s.mem_sharedInputs i a).1 hmem
    rw [ha q hq] at hhas
    cases hhas
  by_cases hpass : s.ChecksPass i
  · have hagree : ∀ r ∈ s.cur.regions i, r.write = false → ∀ a, r.range.has a = true → m₁.read a = m.read a := by
      intro r hr hw a ha
      by_cases hmem : a ∈ s.sharedInputs i
      · exact hin a hmem
      · refine hkept a fun q hq => Bool.eq_false_iff.2 fun hhas => hmem ((s.mem_sharedInputs i a).2
          ⟨⟨q, hq, hhas⟩, ⟨r, hr, hw, ha⟩, fun p hp hpw => ?_⟩)
        refine State.disjoint_of_pass hpass hp hr (fun hpr => ?_) hpw ha
        rw [hpr, hw] at hpw
        cases hpw
    obtain ⟨m₂, hexec, hread⟩ := exec_congr (s := { s with mem := m }) (m := m₁) hagree hwf' hwf₁ h
    exact ⟨_, (State.mem_sharedRuns hwf i _).2 ⟨m₁, ⟨hwf₁, hout⟩, hexec⟩, rfl, fun a ha => hread a (hkept a ha)⟩
  · obtain ⟨code, info, hfault⟩ := exec_of_not_pass (.inr hpass) h
    cases (hfault m).symm.trans h
    exact ⟨_, (State.mem_sharedRuns hwf i _).2 ⟨m₁, ⟨hwf₁, hout⟩, hfault m₁⟩, rfl, hkept⟩

end Runs

end Sys2Proof.Machine
end

section
/-! What is computed from shared bytes, and what is not, over every value of those bytes (20_memory R92). -/

namespace Sys2Proof.Machine

section Computed

variable {s t u : State} {i : Instr}

/-! ### What `computedFromShared` names -/

theorem State.mem_outs_iff (s : State) (i : Instr) (o : Output) :
    o ∈ (s.computedFromShared i).outs ↔ o ∈ .ending :: .faultCode :: .faultInfo :: outputs i ∧
      ∃ t ∈ s.sharedRuns i, ∃ u ∈ s.sharedRuns i, ¬o.Same t.cur u.cur := by
  simp only [State.computedFromShared, List.mem_filter, varies_iff, ne_eq, Output.value_eq_iff]

theorem State.mem_bytes_iff (s : State) (i : Instr) (q : Range) :
    q ∈ (s.computedFromShared i).bytes ↔ q ∈ s.cur.places i ∧
      ∃ t ∈ s.sharedRuns i, ∃ u ∈ s.sharedRuns i, ∃ a, q.has a = true ∧ t.mem.read a ≠ u.mem.read a := by
  simp only [State.computedFromShared, List.mem_filter, varies_iff, ne_eq, Memory.readBytes_eq_iff, Range.has_iff, not_forall,
    exists_prop, and_assoc]

/-- The places of a command's writes make up its written regions. -/
theorem Block.has_places_iff (b : Block) (i : Instr) (a : Nat) :
    (∃ q ∈ b.places i, q.has a = true) ↔ ∃ r ∈ b.regions i, r.write = true ∧ r.range.has a = true := by
  have hwidth (r : Region) : 0 < writeWidth i r.id := by
    unfold writeWidth
    split <;> decide
  simp only [Block.places, List.mem_flatMap]
  constructor
  · rintro ⟨q, ⟨r, hr, hq⟩, ha⟩
    split at hq
    next hw => exact ⟨r, hr, hw, (r.has_places _ a (hwidth r)).1 ⟨q, hq, ha⟩⟩
    · cases hq
  · rintro ⟨r, hr, hw, ha⟩
    obtain ⟨q, hq, hqa⟩ := (r.has_places (writeWidth i r.id) a (hwidth r)).2 ha
    exact ⟨q, ⟨r, hr, by rwa [if_pos hw]⟩, hqa⟩

section Canonical

variable (hwf : s.mem.wf = true)
include hwf

/-- A run is what `exec` leaves on canonical memory, alike but for the inputs shared. -/
theorem State.exec_of_mem_sharedRuns (ht : t ∈ s.sharedRuns i) :
    ∃ m : Memory, m.wf = true ∧ (∀ a, a ∉ s.sharedInputs i → m.read a = s.mem.read a) ∧
      exec i { s with mem := m } = .next t := by
  obtain ⟨m, ⟨hm, hsame⟩, hexec⟩ := (State.mem_sharedRuns hwf i t).1 ht
  exact ⟨m, hm, hsame, hexec⟩

/-- A command with no region leaves its instance the same in every run. -/
theorem State.cur_eq_of_no_region (hregions : s.cur.regions i = []) (ht : t ∈ s.sharedRuns i) (hu : u ∈ s.sharedRuns i) :
    t.cur = u.cur := by
  obtain ⟨m, hm, -, hexec⟩ := State.exec_of_mem_sharedRuns hwf ht
  obtain ⟨m', hm', -, hexec'⟩ := State.exec_of_mem_sharedRuns hwf hu
  exact (exec_setMem_congr hm' hm (by simp [hregions]) hexec' hexec).1

/-- An output not named is the same in every run. -/
theorem State.same_of_not_mem_outs {o : Output} (ho : o ∉ (s.computedFromShared i).outs) (ht : t ∈ s.sharedRuns i)
    (hu : u ∈ s.sharedRuns i) : o.Same t.cur u.cur := by
  by_cases hcand : o ∈ .ending :: .faultCode :: .faultInfo :: outputs i
  · by_contra hne
    exact ho ((s.mem_outs_iff i o).2 ⟨hcand, t, ht, u, hu, hne⟩)
  · by_cases hregions : s.cur.regions i = []
    · rw [State.cur_eq_of_no_region hwf hregions ht hu]
      exact .refl o _
    · obtain ⟨m, -, -, hexec⟩ := State.exec_of_mem_sharedRuns hwf ht
      obtain ⟨m', -, -, hexec'⟩ := State.exec_of_mem_sharedRuns hwf hu
      have hkept := (exec_registersKept hexec).same_of_not_mem hregions hcand
      have hkept' := (exec_registersKept hexec').same_of_not_mem hregions hcand
      exact hkept.symm.trans hkept'

/-- The codeword registers are the same in every run. -/
theorem State.codeword_eq_of_runs (ht : t ∈ s.sharedRuns i) (hu : u ∈ s.sharedRuns i) :
    t.cur.codeLen = u.cur.codeLen ∧ t.cur.code = u.cur.code := by
  by_cases hregions : s.cur.regions i = []
  · rw [State.cur_eq_of_no_region hwf hregions ht hu]
    exact ⟨rfl, rfl⟩
  · have hsoft : i ≠ .softReset := by rintro rfl; exact hregions rfl
    have hcode : ∀ sym, i ≠ .hufCode sym := by rintro sym rfl; exact hregions rfl
    obtain ⟨m, -, -, hexec⟩ := State.exec_of_mem_sharedRuns hwf ht
    obtain ⟨m', -, -, hexec'⟩ := State.exec_of_mem_sharedRuns hwf hu
    obtain ⟨hlen, hword⟩ := (exec_registersKept hexec).codeword hsoft hcode
    obtain ⟨hlen', hword'⟩ := (exec_registersKept hexec').codeword hsoft hcode
    exact ⟨hlen.trans hlen'.symm, hword.trans hword'.symm⟩

/-- A byte outside the places named is alike in every run on alike bytes. -/
theorem State.read_eq_of_runs {a : Nat} (ha : ∀ q ∈ (s.computedFromShared i).bytes, q.has a = false)
    (hnot : a ∉ s.sharedInputs i) (ht : t ∈ s.sharedRuns i) (hu : u ∈ s.sharedRuns i) : t.mem.read a = u.mem.read a := by
  by_cases hplace : ∃ q ∈ s.cur.places i, q.has a = true
  · obtain ⟨q, hq, hhas⟩ := hplace
    by_contra hne
    have hmem := (s.mem_bytes_iff i q).2 ⟨hq, t, ht, u, hu, a, hhas, hne⟩
    rw [ha q hmem] at hhas
    cases hhas
  · have houtside : ∀ r ∈ s.cur.regions i, r.write = true → r.range.has a = false := by
      intro r hr hw
      by_contra hhas
      exact hplace ((s.cur.has_places_iff i a).2 ⟨r, hr, hw, by simpa using hhas⟩)
    obtain ⟨m, -, hm, hexec⟩ := State.exec_of_mem_sharedRuns hwf ht
    obtain ⟨m', -, hm', hexec'⟩ := State.exec_of_mem_sharedRuns hwf hu
    calc t.mem.read a = m.read a := (exec_writesRegions hexec).outside a houtside
      _ = m'.read a := (hm a hnot).trans (hm' a hnot).symm
      _ = u.mem.read a := ((exec_writesRegions hexec').outside a houtside).symm

/-- What one run leaves, with the outputs named drawn, is what any other leaves with them drawn. -/
theorem State.drawn_of_runs (ht : t ∈ s.sharedRuns i) (hu : u ∈ s.sharedRuns i) (e : Nat) :
    Drawn e (s.computedFromShared i).outs t.cur (u.cur.drawOutputs e (s.computedFromShared i).outs).unmark := by
  have drawn := u.cur.drawOutputs_drawn e (s.computedFromShared i).outs
  have hsame {o : Output} (ho : o ∉ (s.computedFromShared i).outs) : o.Same u.cur t.cur :=
    State.same_of_not_mem_outs hwf ho hu ht
  obtain ⟨m, -, -, hexec⟩ := State.exec_of_mem_sharedRuns hwf ht
  obtain ⟨m', -, -, hexec'⟩ := State.exec_of_mem_sharedRuns hwf hu
  obtain ⟨hstatus, hcode⟩ := exec_status hexec
  obtain ⟨hstatus', hcode'⟩ := exec_status hexec'
  have hkeep {α : Type} {o : Output} {c x y z : α} (hc : c = if o ∈ (s.computedFromShared i).outs then x else y)
      (hyz : o.Same u.cur t.cur → y = z) : c = if o ∈ (s.computedFromShared i).outs then x else z := by
    by_cases ho : o ∈ (s.computedFromShared i).outs
    · rw [hc, if_pos ho, if_pos ho]
    · rw [hc, if_neg ho, if_neg ho, hyz (hsame ho)]
  constructor
  case status =>
    have hstat : u.cur.status =
        { t.cur.status with done := u.cur.status.done, err := u.cur.status.err, fault := u.cur.status.fault } :=
      hstatus'.trans (by rw [hstatus])
    refine drawn.status.trans ?_
    by_cases hending : Output.ending ∈ (s.computedFromShared i).outs
    · rw [if_pos hending, if_pos hending, hstat]
    · obtain ⟨hdone, herr⟩ := hsame hending
      rw [hdone, herr] at hstat
      rw [if_neg hending, if_neg hending, herr]
      by_cases hdrawn : Output.faultCode ∈ (s.computedFromShared i).outs ∧ t.cur.status.err = true
      · rw [if_pos hdrawn, if_pos hdrawn, hstat]
      · rw [if_neg hdrawn, if_neg hdrawn, hstat]
        have hfault : u.cur.status.fault = t.cur.status.fault := by
          by_cases hmem : Output.faultCode ∈ (s.computedFromShared i).outs
          · have hnoerr : t.cur.status.err = false := by simpa [hmem] using hdrawn
            exact (hcode' (herr.trans hnoerr)).trans (hcode hnoerr).symm
          · exact hsame hmem
        rw [hfault]
  case faultInfo => exact hkeep drawn.faultInfo id
  case bwOpen => exact hkeep drawn.bwOpen id
  case bwCnt => exact hkeep drawn.bwCnt And.right
  case bwAcc => exact hkeep drawn.bwAcc And.left
  case dstLen => exact hkeep drawn.dstLen id
  case brByte => exact hkeep drawn.brByte id
  case brBit => exact hkeep drawn.brBit id
  case brData => exact hkeep drawn.brData id
  case symOut => exact hkeep drawn.symOut id
  case treeValid => exact hkeep drawn.treeValid id
  case freq => exact fun sym => hkeep (drawn.freq sym) id
  case origSize => exact hkeep drawn.origSize id
  case codeCount => exact hkeep drawn.codeCount id
  case dictSize => exact hkeep drawn.dictSize id
  case rest =>
    obtain ⟨-, ⟨hbase, hreset, -, -, hirq, -⟩, hsrc, hlen, hdst, hcap, hmeta, hdata⟩ := commandFrame i _ t hexec
    obtain ⟨-, ⟨hbase', hreset', -, -, hirq', -⟩, hsrc', hlen', hdst', hcap', hmeta', hdata'⟩ := commandFrame i _ u hexec'
    obtain ⟨hcodeLen, hword⟩ := State.codeword_eq_of_runs hwf ht hu
    simp only [Block.unmark, Block.drawOutputs, hbase, hbase', hreset, hreset', hirq, hirq', hsrc, hsrc',
      hlen, hlen', hdst, hdst', hcap, hcap', hmeta, hmeta', hdata, hdata', hcodeLen, hword]

end Canonical

/-! ### The engine's move over shared bytes -/

/-- A drawn end leaves BUSY 0. -/
theorem Drawn.busy {e : Nat} {os : List Output} {b c : Block} (h : Drawn e os b c) (hb : b.status.busy = false) :
    c.status.busy = false := by
  rw [h.status]
  split
  · rfl
  · split <;> exact hb

/-- What the engine's move over shared bytes leaves: the draws, and everything else as `exec` leaves it. -/
theorem engineTurn_of_shared {w : Word} (hwf : s.mem.wf = true) (hw : s.cur.pending = some w) (hi : decode w = .ok i)
    (hraced : s.cur.track.raced = false) (hshared : s.cur.track.shared ≠ [])
    (hdevices : ∀ r ∈ s.cur.regions i, ∀ d ∈ s.platform.devices, d.overlaps r.range = false) :
    ∃ v c, s.engineTurn = .next v ∧ c = s.computedFromShared i ∧
      v = { s with cur := v.cur, mem := v.mem, draws := s.draws + 1 } ∧
      v.cur.status.busy = false ∧ v.cur.pending = none ∧ v.cur.track = { s.cur.track with shared := [] } ∧
      (∀ a, a < 2 ^ 64 → (∃ r ∈ c.bytes ++ s.cur.track.shared, r.has a = true) →
        v.mem.read a = Config.drawByte s.draws a) ∧
      ∀ (m : Memory) (t : State), m.wf = true →
        (∀ a, (∀ r ∈ s.cur.track.shared, r.has a = false) → m.read a = s.mem.read a) →
        exec i { s with mem := m } = .next t →
          Drawn s.draws c.outs t.cur v.cur ∧
            ∀ a, (∀ r ∈ c.bytes ++ s.cur.track.shared, r.has a = false) → v.mem.read a = t.mem.read a := by
  obtain ⟨hnext, -, hends⟩ := everyCommandEnds i s
  obtain ⟨u, hu⟩ := hnext hdevices
  have hrun := State.exec_mem_sharedRuns hwf hu
  have hwfu := (exec_writesRegions hu).wf hwf
  obtain ⟨hbusy, hpending, -⟩ := hends u hu
  obtain ⟨⟨hbefore, hafter, hplatform, hturns, hlog, -⟩, ⟨-, -, -, -, -, htrack⟩, -⟩ := commandFrame i s u hu
  refine ⟨s.sharedOutcome i u, _, ?_, rfl, ?_, ?_, hpending, ?_, ?_, ?_⟩
  · rw [State.engineTurn_shared hw hi hraced hshared, State.sharedTurn, hu]
  · simp only [State.sharedOutcome, hbefore, hafter, hplatform, hturns, hlog]
  · exact (u.cur.drawOutputs_drawn s.draws _).busy hbusy
  · have htrack' : (s.sharedOutcome i u).cur.track = { u.cur.track with raced := false, shared := [] } := rfl
    rw [htrack', htrack, ← hraced]
  · exact fun a ha hin => read_drawAll_inside _ _ _ _ hwfu hin ha
  · intro m t hm hsame ht
    obtain ⟨x, hx, hcur, hmem⟩ := exists_run_of_exec hwf hm hsame ht
    refine ⟨hcur ▸ State.drawn_of_runs hwf hx hrun s.draws, fun a ha => ?_⟩
    have hout : ∀ r ∈ s.cur.track.shared, r.has a = false := fun r hr => ha r (List.mem_append.2 (.inr hr))
    have hnot : a ∉ s.sharedInputs i := by
      intro hmem
      obtain ⟨⟨q, hq, hhas⟩, -⟩ := (s.mem_sharedInputs i a).1 hmem
      rw [hout q hq] at hhas
      cases hhas
    calc (s.sharedOutcome i u).mem.read a = u.mem.read a := read_drawAll_outside _ _ _ _ ha
      _ = x.mem.read a := State.read_eq_of_runs hwf (fun q hq => ha q (List.mem_append.2 (.inl hq))) hnot hrun hx
      _ = t.mem.read a := hmem a hout

/-! ### Where nothing is named -/

/-- An output that no two runs leave different is not named. -/
theorem State.not_mem_outs {o : Output} (h : ∀ t ∈ s.sharedRuns i, ∀ u ∈ s.sharedRuns i, o.Same t.cur u.cur) :
    o ∉ (s.computedFromShared i).outs := by
  intro ho
  obtain ⟨-, t, ht, u, hu, hne⟩ := (s.mem_outs_iff i o).1 ho
  exact hne (h t ht u hu)

/-- Where all runs leave the instance and the written bytes alike, nothing is named. -/
theorem State.computed_eq_empty (hcur : ∀ t ∈ s.sharedRuns i, ∀ u ∈ s.sharedRuns i, t.cur = u.cur)
    (hmem : ∀ t ∈ s.sharedRuns i, ∀ u ∈ s.sharedRuns i, ∀ a, a ∉ s.sharedInputs i → t.mem.read a = u.mem.read a) :
    s.computedFromShared i = { outs := [], bytes := [] } := by
  have houts : (s.computedFromShared i).outs = [] := List.eq_nil_iff_forall_not_mem.2 fun o =>
    State.not_mem_outs fun t ht u hu => hcur t ht u hu ▸ .refl o _
  have hbytes : (s.computedFromShared i).bytes = [] := by
    refine List.eq_nil_iff_forall_not_mem.2 fun q hq => ?_
    obtain ⟨hplace, t, ht, u, hu, a, hhas, hne⟩ := (s.mem_bytes_iff i q).1 hq
    obtain ⟨r, hr, hw, hra⟩ := (s.cur.has_places_iff i a).1 ⟨q, hplace, hhas⟩
    refine hne (hmem t ht u hu a fun hin => ?_)
    obtain ⟨-, -, hout⟩ := (s.mem_sharedInputs i a).1 hin
    rw [hout r hr hw] at hra
    cases hra
  calc s.computedFromShared i = ⟨(s.computedFromShared i).outs, (s.computedFromShared i).bytes⟩ := rfl
    _ = { outs := [], bytes := [] } := by rw [houts, hbytes]

section Canonical

variable (hwf : s.mem.wf = true)
include hwf

/-- The same with every run's memory the one it started from. -/
theorem State.computed_eq_empty_of_fixed {b : Block}
    (h : ∀ (m : Memory) (t : State), exec i { s with mem := m } = .next t → t.cur = b ∧ t.mem = m) :
    s.computedFromShared i = { outs := [], bytes := [] } := by
  have hrun : ∀ t ∈ s.sharedRuns i, t.cur = b ∧ ∀ a, a ∉ s.sharedInputs i → t.mem.read a = s.mem.read a := by
    intro t ht
    obtain ⟨m, -, hsame, hexec⟩ := State.exec_of_mem_sharedRuns hwf ht
    obtain ⟨hcur, hmem⟩ := h m t hexec
    exact ⟨hcur, fun a ha => hmem ▸ hsame a ha⟩
  exact State.computed_eq_empty (fun t ht u hu => (hrun t ht).1.trans (hrun u hu).1.symm)
    fun t ht u hu a ha => ((hrun t ht).2 a ha).trans ((hrun u hu).2 a ha).symm

/-- Where a prerequisite or a check faults the command nothing is named. -/
theorem State.computed_of_not_pass (hfail : (∃ code, s.cur.prereqFault i = some code) ∨ ¬s.ChecksPass i) :
    s.computedFromShared i = { outs := [], bytes := [] } := by
  by_cases hany : ∃ m t, exec i { s with mem := m } = .next t
  · obtain ⟨m₀, t₀, h₀⟩ := hany
    obtain ⟨code, info, hfault⟩ := exec_of_not_pass hfail h₀
    refine State.computed_eq_empty_of_fixed hwf (b := s.cur.raise code info) fun m t h => ?_
    cases (hfault m).symm.trans h
    exact ⟨rfl, rfl⟩
  · exact State.computed_eq_empty_of_fixed hwf (b := s.cur) fun m t h => absurd ⟨m, t, h⟩ hany

/-- Where no byte the command reads is shared nothing is named. -/
theorem State.computed_of_no_input (hnone : s.sharedInputs i = []) :
    s.computedFromShared i = { outs := [], bytes := [] } := by
  have hrun : ∀ t ∈ s.sharedRuns i, exec i s = .next t := by
    intro t ht
    obtain ⟨m, hm, hsame, hexec⟩ := State.exec_of_mem_sharedRuns hwf ht
    obtain rfl : m = s.mem := Memory.ext_of_read hm hwf fun a => hsame a (by simp [hnone])
    exact hexec
  have heq : ∀ t ∈ s.sharedRuns i, ∀ u ∈ s.sharedRuns i, t = u := fun t ht u hu => by
    cases (hrun t ht).symm.trans (hrun u hu)
    rfl
  exact State.computed_eq_empty (fun t ht u hu => heq t ht u hu ▸ rfl) fun t ht u hu a _ => heq t ht u hu ▸ rfl

/-- Storing a value in an input shared gives one of the memories. -/
theorem State.variant_write {a : Nat} (ha : a ∈ s.sharedInputs i) (v : Byte) : s.Variant i (s.mem.write a v) :=
  ⟨Memory.wf_write _ _ _ hwf, fun _ hx => Memory.read_write_other _ _ fun h => hx (h ▸ ha)⟩

/-- A run past the prerequisites and checks ends as the rules say. -/
theorem State.ends_of_mem_sharedRuns (hpre : s.cur.prereqFault i = none) (hpass : s.ChecksPass i)
    (ht : t ∈ s.sharedRuns i) :
    ∃ m : Memory, m.wf = true ∧ (∀ a, a ∉ s.sharedInputs i → m.read a = s.mem.read a) ∧ Ends { s with mem := m } i t := by
  obtain ⟨m, hm, hsame, hexec⟩ := State.exec_of_mem_sharedRuns hwf ht
  exact ⟨m, hm, hsame, ends_of_exec hpre hpass hexec⟩

end Canonical

end Computed

end Sys2Proof.Machine
end

section
/-! What each command computes from shared bytes: the readers, the decoders and LZW_ENCODE (20_memory R92). -/

namespace Sys2Proof.Machine

section SharedReads

variable {s t u : State}

/-! ### BR_GET and HUF_GET_SYM -/

/-- The bits BR_GET reads on memory `m`, their number 0 included. -/
theorem State.getBits_setMem {n : Nat} (m : Memory) (havail : n ≤ s.cur.avail) :
    getBits m s.cur n = (({ s with mem := m } : State).unread.take n, s.cur.readerAt (s.cur.streamPos + n)) := by
  rcases Nat.eq_zero_or_pos n with rfl | hpos
  · rw [List.take_zero, Nat.add_zero, Block.readerAt_streamPos]
    rfl
  · exact State.getBits_unread (s := { s with mem := m }) hpos havail

/-- A bit left to read is one of a byte of the source. -/
theorem State.getElem_unread (m : Memory) {j : Nat} (hj : j < ({ s with mem := m } : State).unread.length) :
    ({ s with mem := m } : State).unread[j] =
      (m.read (s.cur.srcAddr.toNat + (s.cur.streamPos + j) / 8)).getLsbD (7 - (s.cur.streamPos + j) % 8) := by
  simp only [State.unread, State.srcBytes, List.getElem_drop, getElem_streamBits, Memory.getElem_readBytes]

/-- What BR_GET leaves where there are bits enough. -/
def Block.afterGet (b : Block) (n : Nat) (bits : Bits) : Block :=
  ({ b.readerAt (b.streamPos + n) with brData := BitVec.ofNat 64 (bitsValue bits) } : Block).complete

theorem exec_brGet_setMem {n : BitVec 7} (hpass : s.ChecksPass (.brGet n)) (havail : n.toNat ≤ s.cur.avail) (m : Memory) :
    exec (.brGet n) { s with mem := m } =
      .next { s with mem := m, cur := s.cur.afterGet n.toNat (({ s with mem := m } : State).unread.take n.toNat) } := by
  rw [exec_brGet_of_avail (s := { s with mem := m }) hpass havail, State.getBits_setMem m havail]
  rfl

/-- BR_GET computes BR_DATA from the bytes of the bits it reads, and nothing else. -/
theorem mem_outs_brGet {n : BitVec 7} (hwf : s.mem.wf = true) (hn : n.toNat ≤ 64) (hpass : s.ChecksPass (.brGet n))
    (o : Output) :
    o ∈ (s.computedFromShared (.brGet n)).outs ↔ o = .brData ∧ n.toNat ≤ s.cur.avail ∧
      ∃ j < n.toNat, ∃ q ∈ s.cur.track.shared, q.has (s.cur.srcAddr.toNat + (s.cur.streamPos + j) / 8) = true := by
  rcases Nat.lt_or_ge s.cur.avail n.toNat with hend | havail
  · refine iff_of_false ?_ fun h => by omega
    rw [State.computed_eq_empty_of_fixed hwf (b := s.cur.raise .bitEndOfStream s.cur.avail) fun m t h => ?_]
    · exact List.not_mem_nil
    · cases (exec_brGet_of_endOfStream (s := { s with mem := m }) hpass hend).symm.trans h
      exact ⟨rfl, rfl⟩
  have hlen (m : Memory) : ({ s with mem := m } : State).unread.length = s.cur.avail := State.length_unread _
  have hstream {j : Nat} (hj : j < n.toNat) : s.cur.streamPos + j < 8 * s.cur.srcLen.toNat := by
    have : s.cur.avail = 8 * s.cur.srcLen.toNat - s.cur.streamPos := rfl
    omega
  have hinput {j : Nat} (hj : j < n.toNat) {q : Range} (hq : q ∈ s.cur.track.shared)
      (hhas : q.has (s.cur.srcAddr.toNat + (s.cur.streamPos + j) / 8) = true) :
      s.cur.srcAddr.toNat + (s.cur.streamPos + j) / 8 ∈ s.sharedInputs (.brGet n) := by
    have hbit := hstream hj
    refine (s.mem_sharedInputs _ _).2 ⟨⟨q, hq, hhas⟩, ⟨s.cur.srcRegion, by simp [Block.regions], rfl, ?_⟩, ?_⟩
    · exact (Range.has_iff _ _).2 ⟨Nat.le_add_right _ _, by simp only [Region.range, Block.srcRegion]; omega⟩
    · intro r hr hw
      obtain rfl : r = s.cur.srcRegion := by simpa [Block.regions] using hr
      cases hw
  have hrun {t : State} (ht : t ∈ s.sharedRuns (.brGet n)) : ∃ m : Memory,
      (∀ a, a ∉ s.sharedInputs (.brGet n) → m.read a = s.mem.read a) ∧
        t.cur = s.cur.afterGet n.toNat (({ s with mem := m } : State).unread.take n.toNat) := by
    obtain ⟨m, -, hsame, hexec⟩ := State.exec_of_mem_sharedRuns hwf ht
    cases (exec_brGet_setMem hpass havail m).symm.trans hexec
    exact ⟨m, hsame, rfl⟩
  constructor
  · intro ho
    have hdata : o = .brData := by
      by_contra hne
      refine State.not_mem_outs (fun t ht u hu => ?_) ho
      obtain ⟨m, -, hcur⟩ := hrun ht
      obtain ⟨m', -, hcur'⟩ := hrun hu
      rw [hcur, hcur']
      cases o with
      | brData => exact absurd rfl hne
      | ending | writer => exact ⟨rfl, rfl⟩
      | _ => rfl
    refine ⟨hdata, havail, ?_⟩
    by_contra hnone
    refine State.not_mem_outs (fun t ht u hu => ?_) ho
    obtain ⟨m, hsame, hcur⟩ := hrun ht
    obtain ⟨m', hsame', hcur'⟩ := hrun hu
    have hbits : ({ s with mem := m } : State).unread.take n.toNat = ({ s with mem := m' } : State).unread.take n.toNat := by
      refine List.ext_getElem (by rw [List.length_take, List.length_take, hlen, hlen]) fun j h₁ h₂ => ?_
      have hj : j < n.toNat := by rw [List.length_take] at h₁; omega
      have hbyte : s.cur.srcAddr.toNat + (s.cur.streamPos + j) / 8 ∉ s.sharedInputs (.brGet n) := by
        intro hin
        obtain ⟨⟨q, hq, hhas⟩, -⟩ := (s.mem_sharedInputs _ _).1 hin
        exact hnone ⟨j, hj, q, hq, hhas⟩
      rw [List.getElem_take, List.getElem_take, State.getElem_unread, State.getElem_unread, hsame _ hbyte, hsame' _ hbyte]
    rw [hcur, hcur', hbits]
    exact .refl o _
  · rintro ⟨rfl, -, j, hj, q, hq, hhas⟩
    have hin := hinput hj hq hhas
    set a := s.cur.srcAddr.toNat + (s.cur.streamPos + j) / 8 with ha
    refine (s.mem_outs_iff _ _).2 ⟨by simp [outputs], _, (State.mem_sharedRuns hwf _ _).2
      ⟨_, State.variant_write hwf hin 0, exec_brGet_setMem hpass havail _⟩, _, (State.mem_sharedRuns hwf _ _).2
      ⟨_, State.variant_write hwf hin 255, exec_brGet_setMem hpass havail _⟩, fun hsame => ?_⟩
    have htake (m : Memory) : (({ s with mem := m } : State).unread.take n.toNat).length = n.toNat := by
      rw [List.length_take, hlen]
      omega
    have hbits := congrArg (lowBits n.toNat) hsame
    simp only [Block.afterGet, Block.complete_brData] at hbits
    rw [lowBits_bitsValue (htake _) hn, lowBits_bitsValue (htake _) hn] at hbits
    have hbit := congrArg (·[j]?) hbits
    have hget (v : Byte) : (({ s with mem := s.mem.write a v } : State).unread.take n.toNat)[j]? =
        some (v.getLsbD (7 - (s.cur.streamPos + j) % 8)) := by
      rw [List.getElem?_eq_getElem (by rw [htake]; exact hj), List.getElem_take, State.getElem_unread, ← ha,
        Memory.read_write_same _ _ _ hwf]
    simp only [hget, Option.some.injEq] at hbit
    have hpos : 7 - (s.cur.streamPos + j) % 8 < 8 := by omega
    generalize 7 - (s.cur.streamPos + j) % 8 = k at hbit hpos
    have hzero : (0 : Byte).getLsbD k = false := by simp
    rw [hzero] at hbit
    have hall : ∀ k < 8, (255 : Byte).getLsbD k = true := by decide
    rw [hall k hpos] at hbit
    cases hbit

/-- HUF_GET_SYM's faults all leave FAULT_INFO 0 (60_exceptions R271). -/
theorem faultInfo_not_mem_outs_hufGetSym (hwf : s.mem.wf = true) (hinfo : s.cur.faultInfo = 0) :
    Output.faultInfo ∉ (s.computedFromShared .hufGetSym).outs := by
  by_cases hfail : (∃ code, s.cur.prereqFault .hufGetSym = some code) ∨ ¬s.ChecksPass .hufGetSym
  · rw [State.computed_of_not_pass hwf hfail]
    exact List.not_mem_nil
  · obtain ⟨hpre, hpass⟩ := not_or.1 hfail
    have hpre : s.cur.prereqFault .hufGetSym = none := Option.eq_none_iff_forall_ne_some.2 fun code h => hpre ⟨code, h⟩
    have hrun : ∀ t ∈ s.sharedRuns .hufGetSym, t.cur.faultInfo = 0 := by
      intro t ht
      obtain ⟨m, -, -, hends⟩ := State.ends_of_mem_sharedRuns hwf hpre (not_not.1 hpass) ht
      cases hends with
      | completed hdone =>
        have hsame : s.cur.SameButWork _ := hdone.sameButWork
        exact (congrArg Block.faultInfo hsame).trans hinfo
      | faulted hearly => cases hearly <;> rfl
      | aborted hlate => cases hlate
    exact State.not_mem_outs fun t ht u hu => (hrun t ht).trans (hrun u hu).symm

/-! ### HUF_LOAD_FREQ -/

theorem leValue_inj {bs cs : List Byte} (hlen : bs.length = cs.length) (h : leValue bs = leValue cs) : bs = cs := by
  induction bs generalizing cs with
  | nil => exact (List.length_eq_zero_iff.1 hlen.symm).symm
  | cons b bs ih =>
    cases cs with
    | nil => cases hlen
    | cons c cs =>
      have hb := b.isLt
      have hc := c.isLt
      simp only [leValue] at h
      rw [BitVec.eq_of_toNat_eq (show b.toNat = c.toNat by omega), ih (by simpa using hlen) (by omega)]

/-- Numbers read alike exactly where their bytes do. -/
theorem Memory.readLE_eq_iff (m m' : Memory) (a n : Nat) :
    m.readLE a n = m'.readLE a n ↔ ∀ x, a ≤ x → x < a + n → m.read x = m'.read x := by
  rw [← Memory.readBytes_eq_iff]
  exact ⟨leValue_inj (by simp), congrArg leValue⟩

theorem exec_hufLoadFreq_setMem (hpass : s.ChecksPass .hufLoadFreq) (m : Memory) :
    exec .hufLoadFreq { s with mem := m } =
      .next { s with
        mem := m
        cur := ({ s.cur with freq := m.readFreq s.cur.metaAddr.toNat, treeValid := false } : Block).complete } :=
  exec_hufLoadFreq_of_pass (s := { s with mem := m }) hpass

/-- HUF_LOAD_FREQ computes a count from its own four bytes, and nothing else. -/
theorem mem_outs_hufLoadFreq (hwf : s.mem.wf = true) (hpass : s.ChecksPass .hufLoadFreq) (o : Output) :
    o ∈ (s.computedFromShared .hufLoadFreq).outs ↔ ∃ sym : Byte, o = .freq sym ∧
      ∃ q ∈ s.cur.track.shared, ∃ k < 4, q.has (s.cur.metaAddr.toNat + 4 * sym.toNat + k) = true := by
  have hrun {t : State} (ht : t ∈ s.sharedRuns .hufLoadFreq) : ∃ m : Memory,
      (∀ a, a ∉ s.sharedInputs .hufLoadFreq → m.read a = s.mem.read a) ∧
        t.cur = ({ s.cur with freq := m.readFreq s.cur.metaAddr.toNat, treeValid := false } : Block).complete := by
    obtain ⟨m, -, hsame, hexec⟩ := State.exec_of_mem_sharedRuns hwf ht
    cases (exec_hufLoadFreq_setMem hpass m).symm.trans hexec
    exact ⟨m, hsame, rfl⟩
  constructor
  · intro ho
    have hfreq : ∃ sym : Byte, o = .freq sym := by
      by_contra hne
      refine State.not_mem_outs (fun t ht u hu => ?_) ho
      obtain ⟨m, -, hcur⟩ := hrun ht
      obtain ⟨m', -, hcur'⟩ := hrun hu
      rw [hcur, hcur']
      cases o with
      | freq sym => exact absurd ⟨sym, rfl⟩ hne
      | ending | writer => exact ⟨rfl, rfl⟩
      | _ => rfl
    obtain ⟨sym, rfl⟩ := hfreq
    refine ⟨sym, rfl, ?_⟩
    by_contra hnone
    refine State.not_mem_outs (fun t ht u hu => ?_) ho
    obtain ⟨m, hsame, hcur⟩ := hrun ht
    obtain ⟨m', hsame', hcur'⟩ := hrun hu
    rw [hcur, hcur']
    refine BitVec.eq_of_toNat_eq ?_
    simp only [Block.complete_freq, FreqTable.count_readFreq]
    refine (Memory.readLE_eq_iff _ _ _ _).2 fun x hlo hhi => ?_
    have hnot : x ∉ s.sharedInputs .hufLoadFreq := by
      intro hin
      obtain ⟨⟨q, hq, hhas⟩, -⟩ := (s.mem_sharedInputs _ _).1 hin
      exact hnone ⟨q, hq, x - (s.cur.metaAddr.toNat + 4 * sym.toNat), by omega, by rwa [Nat.add_sub_cancel' hlo]⟩
    rw [hsame x hnot, hsame' x hnot]
  · rintro ⟨sym, rfl, q, hq, k, hk, hhas⟩
    have hsym := sym.isLt
    set a := s.cur.metaAddr.toNat + 4 * sym.toNat + k with ha
    have hin : a ∈ s.sharedInputs .hufLoadFreq := by
      refine (s.mem_sharedInputs _ _).2 ⟨⟨q, hq, hhas⟩, ⟨s.cur.metaRegion false, by simp [Block.regions], rfl, ?_⟩, ?_⟩
      · exact (Range.has_iff _ _).2 ⟨by simp only [Region.range, Block.metaRegion]; omega,
          by simp only [Region.range, Block.metaRegion, Config.freqTableBytes]; omega⟩
      · intro r hr hw
        obtain rfl : r = s.cur.metaRegion false := by simpa [Block.regions] using hr
        cases hw
    refine (s.mem_outs_iff _ _).2 ⟨by simp [outputs], _, (State.mem_sharedRuns hwf _ _).2
      ⟨_, State.variant_write hwf hin 0, exec_hufLoadFreq_setMem hpass _⟩, _, (State.mem_sharedRuns hwf _ _).2
      ⟨_, State.variant_write hwf hin 1, exec_hufLoadFreq_setMem hpass _⟩, fun hsame => ?_⟩
    have hcount := congrArg BitVec.toNat hsame
    simp only [Block.complete_freq, FreqTable.count_readFreq] at hcount
    have hbyte := (Memory.readLE_eq_iff _ _ _ _).1 hcount a (by omega) (by omega)
    rw [Memory.read_write_same _ _ _ hwf, Memory.read_write_same _ _ _ hwf] at hbyte
    cases hbyte

end SharedReads

end Sys2Proof.Machine
end

section
/-! What the decoders and LZW_ENCODE compute from shared bytes (20_memory R92). -/

namespace Sys2Proof.Machine

section SharedStreams

variable {s t u : State} {i : Instr}

/-- The writer closed, as every command that takes the destination over leaves it (10_state R47). -/
structure Block.WriterClosed (b : Block) : Prop where
  bwOpen : b.bwOpen = false
  acc : b.bwAcc = 0
  cnt : b.bwCnt = 0

/-- Two closed writers are the same writer. -/
theorem Block.WriterClosed.same {b c : Block} (hb : b.WriterClosed) (hc : c.WriterClosed) :
    Output.Same b c .bwOpen ∧ Output.Same b c .writer :=
  ⟨hb.bwOpen.trans hc.bwOpen.symm, hb.acc.trans hc.acc.symm, hb.cnt.trans hc.cnt.symm⟩

/-- Where every run closes the writer it is not named. -/
theorem State.writer_not_mem_outs (h : ∀ t ∈ s.sharedRuns i, t.cur.WriterClosed) :
    Output.bwOpen ∉ (s.computedFromShared i).outs ∧ Output.writer ∉ (s.computedFromShared i).outs :=
  ⟨State.not_mem_outs fun t ht u hu => ((h t ht).same (h u hu)).1,
    State.not_mem_outs fun t ht u hu => ((h t ht).same (h u hu)).2⟩

theorem FailsLate.writerClosed {code : FaultCode} {info : Nat} {b : Block} {m : Memory} (h : FailsLate s i code info b m) :
    (b.raise code info).WriterClosed := by
  obtain ⟨bytes, -, -, -, -, hopen, hacc, hcnt⟩ := h.written
  exact ⟨hopen, hacc, hcnt⟩

/-! ### HUF_DECODE -/

/-- What HUF_DECODE leaves past its capacity check and the null tree, whether it ends early or not. -/
structure Block.Decoded (b : Block) (f : FreqTable) : Prop where
  closed : b.WriterClosed
  treeValid : b.treeValid = true
  freq : b.freq = f

theorem ends_hufDecode (hcap : s.cur.origSize.toNat ≤ s.cur.dstCap.toNat)
    (htree : buildTree (s.mem.readFreq s.cur.metaAddr.toNat) = none → s.cur.origSize = 0) (h : Ends s .hufDecode t) :
    t.cur.Decoded (s.mem.readFreq s.cur.metaAddr.toNat) := by
  have hwalk {root : HufTree} {out : List Byte} {b : Block} {late : Bool}
      (hout : decodeSymbols s.mem root s.cur.origSize.toNat
        (s.cur.decodeStart (s.mem.readFreq s.cur.metaAddr.toNat)) = (out, b, late)) :
      b.Decoded (s.mem.readFreq s.cur.metaAddr.toNat) := by
    obtain ⟨-, p, q, hblock⟩ := decodeSymbols_block s.mem root s.cur.origSize.toNat
      (s.cur.decodeStart (s.mem.readFreq s.cur.metaAddr.toNat))
    rw [hout] at hblock
    cases hblock
    exact ⟨⟨rfl, rfl, rfl⟩, rfl, rfl⟩
  cases h with
  | completed hdone =>
    cases hdone with
    | hufDecodeNothing => exact ⟨⟨rfl, rfl, rfl⟩, rfl, rfl⟩
    | hufDecode _ _ hout =>
      obtain ⟨hclosed, hvalid, hfreq⟩ := hwalk hout
      exact ⟨⟨hclosed.1, hclosed.2, hclosed.3⟩, hvalid, hfreq⟩
  | faulted hearly =>
    cases hearly with
    | hufDecode hfull => omega
    | hufDecodeNull _ hnone hsize => exact absurd (htree hnone) hsize
  | aborted hlate =>
    cases hlate with
    | hufDecode _ _ hout =>
      obtain ⟨hclosed, hvalid, hfreq⟩ := hwalk hout
      exact ⟨⟨hclosed.1, hclosed.2, hclosed.3⟩, hvalid, hfreq⟩

/-- HUF_DECODE with a table that is not shared computes neither FREQ nor TREE_VALID nor the writer from shared bytes. -/
theorem mem_outs_hufDecode (hwf : s.mem.wf = true)
    (hmeta : ∀ q ∈ s.cur.track.shared, q.overlaps (s.cur.metaRegion false).range = false) {o : Output}
    (ho : o ∈ (s.computedFromShared .hufDecode).outs) : o ∈ [.ending, .faultCode, .faultInfo, .dstLen, .brByte, .brBit] := by
  have hempty (h : s.computedFromShared .hufDecode = { outs := [], bytes := [] }) : False := by
    rw [h] at ho
    cases ho
  have hpass : s.ChecksPass .hufDecode := by
    by_contra hfail
    exact hempty (State.computed_of_not_pass hwf (.inr hfail))
  have hfreq {m : Memory} (hsame : ∀ a, a ∉ s.sharedInputs .hufDecode → m.read a = s.mem.read a) :
      m.readFreq s.cur.metaAddr.toNat = s.mem.readFreq s.cur.metaAddr.toNat := by
    refine Memory.readFreq_congr fun x hlo hhi => hsame x fun hin => ?_
    obtain ⟨⟨q, hq, hhas⟩, -⟩ := (s.mem_sharedInputs _ _).1 hin
    have hoverlap := (Range.overlaps_iff q (s.cur.metaRegion false).range).2 ⟨x, hhas, (Range.has_iff _ _).2 ⟨hlo, hhi⟩⟩
    rw [hmeta q hq] at hoverlap
    cases hoverlap
  have hcap : s.cur.origSize.toNat ≤ s.cur.dstCap.toNat := by
    by_contra hfull
    refine hempty (State.computed_eq_empty_of_fixed hwf (b := s.cur.raise .capacity s.cur.origSize.toNat) fun m t h => ?_)
    cases (exec_hufDecode_of_capacity (s := { s with mem := m }) hpass (Nat.lt_of_not_le hfull)).symm.trans h
    exact ⟨rfl, rfl⟩
  have htree : buildTree (s.mem.readFreq s.cur.metaAddr.toNat) = none → s.cur.origSize = 0 := by
    intro hnone
    by_contra hsize
    have hrun : ∀ t ∈ s.sharedRuns .hufDecode, t.cur = s.cur.raise .hufNullChild 0 ∧
        ∀ a, a ∉ s.sharedInputs .hufDecode → t.mem.read a = s.mem.read a := by
      intro t ht
      obtain ⟨m, -, hsame, hexec⟩ := State.exec_of_mem_sharedRuns hwf ht
      cases (exec_hufDecode_of_null (s := { s with mem := m }) hpass hcap ((hfreq hsame).symm ▸ hnone) hsize).symm.trans
        hexec
      exact ⟨rfl, hsame⟩
    exact hempty (State.computed_eq_empty (fun t ht u hu => (hrun t ht).1.trans (hrun u hu).1.symm)
      fun t ht u hu a ha => ((hrun t ht).2 a ha).trans ((hrun u hu).2 a ha).symm)
  have hrun : ∀ t ∈ s.sharedRuns .hufDecode, t.cur.Decoded (s.mem.readFreq s.cur.metaAddr.toNat) := by
    intro t ht
    obtain ⟨m, -, hsame, hends⟩ := State.ends_of_mem_sharedRuns hwf rfl hpass ht
    rw [← hfreq hsame] at htree ⊢
    exact ends_hufDecode (s := { s with mem := m }) hcap htree hends
  obtain ⟨hopen, hwriter⟩ := State.writer_not_mem_outs fun t ht => (hrun t ht).closed
  have hcand := ((s.mem_outs_iff _ _).1 ho).1
  cases o with
  | ending | faultCode | faultInfo | dstLen | brByte | brBit => simp
  | bwOpen => exact absurd ho hopen
  | writer => exact absurd ho hwriter
  | treeValid =>
    exact absurd ho (State.not_mem_outs fun t ht u hu => (hrun t ht).treeValid.trans (hrun u hu).treeValid.symm)
  | freq sym =>
    refine absurd ho (State.not_mem_outs fun t ht u hu => ?_)
    exact congrArg (·.count sym) ((hrun t ht).freq.trans (hrun u hu).freq.symm)
  | brData | symOut | origSize | codeCount | dictSize => exact absurd hcand (by simp [outputs, freqOutputs])

/-! ### LZW_DECODE and LZW_ENCODE -/

/-- LZW_DECODE closes the writer in every run, or faults CAPACITY in every run. -/
theorem mem_outs_lzwDecode {strict : Bool} (hwf : s.mem.wf = true) {o : Output}
    (ho : o ∈ (s.computedFromShared (.lzwDecode strict)).outs) : o ∈ [.ending, .faultCode, .faultInfo, .dstLen] := by
  have hempty (h : s.computedFromShared (.lzwDecode strict) = { outs := [], bytes := [] }) : False := by
    rw [h] at ho
    cases ho
  have hpass : s.ChecksPass (.lzwDecode strict) := by
    by_contra hfail
    exact hempty (State.computed_of_not_pass hwf (.inr hfail))
  have hcap : s.cur.origSize.toNat ≤ s.cur.dstCap.toNat := by
    by_contra hfull
    refine hempty (State.computed_eq_empty_of_fixed hwf (b := s.cur.raise .capacity s.cur.origSize.toNat) fun m t h => ?_)
    cases (exec_lzwDecode_of_capacity (s := { s with mem := m }) hpass (Nat.lt_of_not_le hfull)).symm.trans h
    exact ⟨rfl, rfl⟩
  have hrun : ∀ t ∈ s.sharedRuns (.lzwDecode strict), t.cur.WriterClosed := by
    intro t ht
    obtain ⟨m, -, -, hends⟩ := State.ends_of_mem_sharedRuns hwf rfl hpass ht
    cases hends with
    | completed hdone => cases hdone; exact ⟨rfl, rfl, rfl⟩
    | faulted hearly =>
      cases hearly with
      | lzwDecode hfull => exact absurd hcap (Nat.not_le.2 hfull)
    | aborted hlate => exact hlate.writerClosed
  obtain ⟨hopen, hwriter⟩ := State.writer_not_mem_outs hrun
  have hcand := ((s.mem_outs_iff _ _).1 ho).1
  simp only [outputs, List.mem_cons, List.not_mem_nil, or_false] at hcand ⊢
  rcases hcand with rfl | rfl | rfl | rfl | rfl | rfl
  · simp
  · simp
  · simp
  · exact absurd ho hopen
  · exact absurd ho hwriter
  · simp

/-- A string has no more codes than bytes. -/
theorem length_lzwEncode_le (bytes : List Byte) : (lzwEncode bytes).1.length ≤ bytes.length := by
  cases bytes with
  | nil => exact Nat.le_refl _
  | cons b bytes =>
    obtain ⟨-, -, hle, -⟩ := lzwCodesBounded.2 (b :: bytes) (by simp)
    exact hle

/-- LZW_ENCODE with room for two bytes a source byte completes in every run. -/
theorem mem_outs_lzwEncode (hwf : s.mem.wf = true) (hroom : 2 * s.cur.srcLen.toNat ≤ s.cur.dstCap.toNat) {o : Output}
    (ho : o ∈ (s.computedFromShared .lzwEncode).outs) : o ∈ [.dstLen, .codeCount, .dictSize] := by
  have hpass : s.ChecksPass .lzwEncode := by
    by_contra hfail
    rw [State.computed_of_not_pass hwf (.inr hfail)] at ho
    cases ho
  have hrun : ∀ t ∈ s.sharedRuns .lzwEncode, ∃ dstLen codeCount dictSize, t.cur =
      ({ s.cur with
        bwAcc := 0, bwCnt := 0, bwOpen := false, dstLen := dstLen, codeCount := codeCount, dictSize := dictSize
        origSize := s.cur.srcLen } : Block).complete := by
    intro t ht
    obtain ⟨m, -, -, hends⟩ := State.ends_of_mem_sharedRuns hwf rfl hpass ht
    have hle := length_lzwEncode_le ({ s with mem := m } : State).srcBytes
    have hlen : ({ s with mem := m } : State).srcBytes.length = s.cur.srcLen.toNat := Memory.length_readBytes _ _ _
    cases hends with
    | completed hdone => cases hdone; exact ⟨_, _, _, rfl⟩
    | faulted hearly => cases hearly
    | aborted hlate =>
      cases hlate with
      | @lzwEncode k hk _ hfull =>
        have hfull : s.cur.dstCap.toNat < 2 * (k + 1) := hfull
        omega
  have hcand := ((s.mem_outs_iff _ _).1 ho).1
  by_contra hnot
  refine State.not_mem_outs (fun t ht u hu => ?_) ho
  obtain ⟨_, _, _, hcur⟩ := hrun t ht
  obtain ⟨_, _, _, hcur'⟩ := hrun u hu
  rw [hcur, hcur']
  cases o with
  | dstLen | codeCount | dictSize => exact absurd (by simp) hnot
  | ending | writer => exact ⟨rfl, rfl⟩
  | _ => rfl

/-- LZW_ENCODE without room for one code fits no code in any run. -/
theorem computed_lzwEncode_of_no_room (hwf : s.mem.wf = true) (hroom : s.cur.dstCap.toNat < 2) :
    s.computedFromShared .lzwEncode = { outs := [], bytes := [] } := by
  by_cases hpass : s.ChecksPass .lzwEncode
  · rcases Nat.eq_zero_or_pos s.cur.srcLen.toNat with hzero | hpos
    · refine State.computed_of_no_input hwf (List.eq_nil_iff_forall_not_mem.2 fun a ha => ?_)
      obtain ⟨-, ⟨r, hr, hw, hhas⟩, -⟩ := (s.mem_sharedInputs _ _).1 ha
      simp only [Block.regions, List.mem_cons, List.not_mem_nil, or_false] at hr
      rcases hr with rfl | rfl
      · obtain ⟨hlo, hhi⟩ := (Range.has_iff _ _).1 hhas
        simp only [Region.range, Block.srcRegion] at hlo hhi
        omega
      · cases hw
    · refine State.computed_eq_empty_of_fixed hwf
        (b := ({ s.cur with bwAcc := 0, bwCnt := 0, bwOpen := false, dstLen := 0 } : Block).raise .capacity 2)
        fun m t h => ?_
      have hends := ends_of_exec rfl hpass h
      cases hends with
      | completed hdone =>
        cases hdone with
        | lzwEncode hfit =>
          have hne : ({ s with mem := m } : State).srcBytes ≠ [] := fun hnil => by
            have hlen := Memory.length_readBytes m s.cur.srcAddr.toNat s.cur.srcLen.toNat
            rw [show m.readBytes s.cur.srcAddr.toNat s.cur.srcLen.toNat = [] from hnil] at hlen
            simp only [List.length_nil] at hlen
            omega
          obtain ⟨-, hcodes, -⟩ := lzwCodesBounded.2 _ hne
          have hfit : 2 * (lzwEncode ({ s with mem := m } : State).srcBytes).1.length ≤ s.cur.dstCap.toNat := hfit
          omega
      | faulted hearly => cases hearly
      | aborted hlate =>
        cases hlate with
        | @lzwEncode k hk hle hfull =>
          have hle : 2 * k ≤ s.cur.dstCap.toNat := hle
          obtain rfl : k = 0 := by omega
          exact ⟨rfl, rfl⟩
  · exact State.computed_of_not_pass hwf (.inr hpass)

end SharedStreams

end Sys2Proof.Machine
end

section
/-! What HUF_COUNT and HUF_ENCODE compute from a shared source byte, and the statement O59 (20_memory R92). -/

namespace Sys2Proof.Machine

section SharedSource

variable {s t u : State} {i : Instr}

/-! ### A source byte changes every count -/

/-- Storing one byte sets one of the bytes read. -/
theorem Memory.readBytes_write {m : Memory} (hwf : m.wf = true) (a n x : Nat) (v : Byte) :
    (m.write (a + x) v).readBytes a n = (m.readBytes a n).set x v := by
  refine List.ext_getElem (by simp) fun j h₁ h₂ => ?_
  rw [Memory.getElem_readBytes, List.getElem_set, Memory.getElem_readBytes]
  split
  next h => rw [h, Memory.read_write_same _ _ _ hwf]
  next h => exact Memory.read_write_other _ _ (by omega)

/-- A symbol occurs once more where it is put than where another is. -/
theorem count_set_ne {bytes : List Byte} {x : Nat} (hx : x < bytes.length) (sym : Byte) :
    (bytes.set x sym).count sym ≠ (bytes.set x (sym + 1)).count sym := by
  have hne : (sym + 1 == sym) = false := by
    rw [beq_eq_false_iff_ne]
    exact fun h => absurd (congrArg (· - sym) h) (by simp)
  rw [List.count_set hx, List.count_set hx, hne]
  simp

/-- Some shared byte of the source is one the command reads and writes not. -/
theorem State.exists_source_input (hpass : s.ChecksPass i) (hregion : s.cur.srcRegion ∈ s.cur.regions i)
    (hshared : ∃ q ∈ s.cur.track.shared, q.overlaps s.cur.srcRegion.range = true) :
    ∃ x < s.cur.srcLen.toNat, s.cur.srcAddr.toNat + x ∈ s.sharedInputs i := by
  obtain ⟨q, hq, hoverlap⟩ := hshared
  obtain ⟨a, hqa, ha⟩ := (Range.overlaps_iff _ _).1 hoverlap
  obtain ⟨hlo, hhi⟩ := (Range.has_iff _ _).1 ha
  simp only [Region.range, Block.srcRegion] at hlo hhi
  refine ⟨a - s.cur.srcAddr.toNat, by omega, ?_⟩
  rw [Nat.add_sub_cancel' hlo]
  refine (s.mem_sharedInputs _ _).2 ⟨⟨q, hq, hqa⟩, ⟨_, hregion, rfl, ha⟩, fun r hr hw => ?_⟩
  exact State.disjoint_of_pass hpass hr hregion (fun h => by rw [h] at hw; cases hw) hw ha

/-- A source of fewer than 2^32 bytes is counted whatever memory holds. -/
theorem State.exists_table (hlen : s.cur.srcLen.toNat < 2 ^ 32) (m : Memory) :
    ∃ f, countBytes ({ s with mem := m } : State).srcBytes FreqTable.zero = .ok f ∧
      ∀ sym : Byte, (f.count sym).toNat = ({ s with mem := m } : State).srcBytes.count sym := by
  refine countBytes_zero_ok fun sym => List.count_le_length.trans_lt ?_
  rwa [State.srcBytes, Memory.length_readBytes]

/-- With a source byte shared every count differs between some two memories. -/
theorem State.exists_counts_ne (hwf : s.mem.wf = true) (hlen : s.cur.srcLen.toNat < 2 ^ 32)
    {x : Nat} (hx : x < s.cur.srcLen.toNat) (hin : s.cur.srcAddr.toNat + x ∈ s.sharedInputs i) (sym : Byte) :
    ∃ m m' f f', s.Variant i m ∧ s.Variant i m' ∧
      countBytes ({ s with mem := m } : State).srcBytes FreqTable.zero = .ok f ∧
      countBytes ({ s with mem := m' } : State).srcBytes FreqTable.zero = .ok f' ∧ f.count sym ≠ f'.count sym := by
  obtain ⟨f, hf, hcount⟩ := State.exists_table hlen (s.mem.write (s.cur.srcAddr.toNat + x) sym)
  obtain ⟨f', hf', hcount'⟩ := State.exists_table hlen (s.mem.write (s.cur.srcAddr.toNat + x) (sym + 1))
  refine ⟨_, _, f, f', State.variant_write hwf hin sym, State.variant_write hwf hin (sym + 1), hf, hf', fun heq => ?_⟩
  have hsource (v : Byte) : ({ s with mem := s.mem.write (s.cur.srcAddr.toNat + x) v } : State).srcBytes =
      s.srcBytes.set x v := Memory.readBytes_write hwf _ _ _ _
  have hcounts : (s.srcBytes.set x sym).count sym = (s.srcBytes.set x (sym + 1)).count sym := by
    rw [← hsource, ← hsource, ← hcount, ← hcount', heq]
  exact count_set_ne (by rwa [State.srcBytes, Memory.length_readBytes]) sym hcounts

/-! ### The places of META -/

/-- The writes to META are one count of four bytes each. -/
theorem Block.mem_metaPlaces (b : Block) (q : Range) :
    q ∈ (b.metaRegion true).places 4 ↔ ∃ sym : Byte, q = { base := b.metaAddr.toNat + 4 * sym.toNat, len := 4 } := by
  simp only [Region.places, Block.metaRegion, Config.freqTableBytes, List.mem_map, List.mem_range]
  constructor
  · rintro ⟨k, hk, rfl⟩
    refine ⟨BitVec.ofNat 8 k, ?_⟩
    rw [BitVec.toNat_ofNat, Nat.mod_eq_of_lt (by omega), Nat.min_eq_left (by omega)]
  · rintro ⟨sym, rfl⟩
    have hsym := sym.isLt
    exact ⟨sym.toNat, by omega, by rw [Nat.min_eq_left (by omega)]⟩

/-- Where a count in META differs between two runs its place is named. -/
theorem State.metaPlace_mem_bytes {sym : Byte} {f f' : FreqTable} (hregion : s.cur.metaRegion true ∈ s.cur.regions i)
    (ht : t ∈ s.sharedRuns i) (hu : u ∈ s.sharedRuns i)
    (hcount : t.mem.readLE (s.cur.metaAddr.toNat + 4 * sym.toNat) 4 = (f.count sym).toNat)
    (hcount' : u.mem.readLE (s.cur.metaAddr.toNat + 4 * sym.toNat) 4 = (f'.count sym).toNat)
    (hne : f.count sym ≠ f'.count sym) :
    { base := s.cur.metaAddr.toNat + 4 * sym.toNat, len := 4 } ∈ (s.computedFromShared i).bytes := by
  refine (s.mem_bytes_iff _ _).2 ⟨?_, t, ht, u, hu, ?_⟩
  · refine List.mem_flatMap.2 ⟨_, hregion, ?_⟩
    exact (s.cur.mem_metaPlaces _).2 ⟨sym, rfl⟩
  · by_contra hnone
    refine hne (BitVec.eq_of_toNat_eq ?_)
    rw [← hcount, ← hcount', Memory.readLE_eq_iff]
    intro x hlo hhi
    by_contra hx
    exact hnone ⟨x, (Range.has_iff _ _).2 ⟨hlo, hhi⟩, hx⟩

/-! ### HUF_COUNT -/

section Shared

variable (hwf : s.mem.wf = true) (hlen : s.cur.srcLen.toNat < 2 ^ 32) (hpass : s.ChecksPass i)
  (hshared : ∃ q ∈ s.cur.track.shared, q.overlaps s.cur.srcRegion.range = true)
include hwf hlen hpass hshared

/-- A run of HUF_COUNT commits a table of the source. -/
theorem hufCount_of_shared (hi : i = .hufCount) :
    (∀ o, o ∈ (s.computedFromShared i).outs ↔ ∃ sym, o = .freq sym) ∧
      ∀ q, q ∈ (s.computedFromShared i).bytes ↔
        ∃ sym : Byte, q = { base := s.cur.metaAddr.toNat + 4 * sym.toNat, len := 4 } := by
  subst hi
  obtain ⟨x, hx, hin⟩ := State.exists_source_input hpass (by simp [Block.regions]) hshared
  have hrun {m : Memory} {f : FreqTable} (hvariant : s.Variant .hufCount m)
      (hf : countBytes ({ s with mem := m } : State).srcBytes FreqTable.zero = .ok f) :
      State.completed { s with mem := m } { s.cur with freq := f, treeValid := false, origSize := s.cur.srcLen }
        (m.writeBytes s.cur.metaAddr.toNat f.bytes) ∈ s.sharedRuns .hufCount :=
    (State.mem_sharedRuns hwf _ _).2 ⟨m, hvariant, exec_hufCount_of_ok (s := { s with mem := m }) hpass hf⟩
  have hcur {t : State} (ht : t ∈ s.sharedRuns .hufCount) : ∃ f : FreqTable,
      t.cur = ({ s.cur with freq := f, treeValid := false, origSize := s.cur.srcLen } : Block).complete := by
    obtain ⟨m, -, -, hexec⟩ := State.exec_of_mem_sharedRuns hwf ht
    obtain ⟨f, hf, -⟩ := State.exists_table hlen m
    cases (exec_hufCount_of_ok (s := { s with mem := m }) hpass hf).symm.trans hexec
    exact ⟨f, rfl⟩
  refine ⟨fun o => ⟨fun ho => ?_, ?_⟩, fun q => ⟨fun hq => ?_, ?_⟩⟩
  · by_contra hne
    refine State.not_mem_outs (fun t ht u hu => ?_) ho
    obtain ⟨f, hcur₁⟩ := hcur ht
    obtain ⟨f', hcur₂⟩ := hcur hu
    rw [hcur₁, hcur₂]
    cases o with
    | freq sym => exact absurd ⟨sym, rfl⟩ hne
    | ending | writer => exact ⟨rfl, rfl⟩
    | _ => rfl
  · rintro ⟨sym, rfl⟩
    obtain ⟨m, m', f, f', hm, hm', hf, hf', hne⟩ := State.exists_counts_ne hwf hlen hx hin sym
    exact (s.mem_outs_iff _ _).2 ⟨by simp [outputs], _, hrun hm hf, _, hrun hm' hf', hne⟩
  · obtain ⟨hplace, -⟩ := (s.mem_bytes_iff _ _).1 hq
    refine (s.cur.mem_metaPlaces q).1 ?_
    simpa [Block.places, Block.regions, Block.srcRegion, Block.metaRegion, writeWidth] using hplace
  · rintro ⟨sym, rfl⟩
    obtain ⟨m, m', f, f', hm, hm', hf, hf', hne⟩ := State.exists_counts_ne hwf hlen hx hin sym
    exact State.metaPlace_mem_bytes (by simp [Block.regions]) (hrun hm hf) (hrun hm' hf')
      (f.readLE_bytes m _ hm.1 sym) (f'.readLE_bytes m' _ hm'.1 sym) hne

/-! ### HUF_ENCODE -/

omit hwf hlen hpass hshared in
/-- A codeword has at most 255 bits. -/
theorem length_payload_le (f : FreqTable) (bytes : List Byte) :
    (payload (codeTable (buildTree f)) bytes).length ≤ 255 * bytes.length := by
  induction bytes with
  | nil => exact Nat.le_refl _
  | cons sym bytes ih =>
    have hcode := length_codeOf_le_255 f sym
    rw [payload, List.flatMap_cons, List.length_append, List.length_cons]
    rw [payload] at ih
    omega

omit hwf hlen hpass hshared in
/-- A codeword has at least one bit. -/
theorem length_le_length_payload {ct : List (Byte × Bits)} {bytes : List Byte} (h : ∀ sym ∈ bytes, codeOf ct sym ≠ []) :
    bytes.length ≤ (payload ct bytes).length := by
  induction bytes with
  | nil => exact Nat.zero_le _
  | cons sym bytes ih =>
    have hcode := List.length_pos_iff.2 (h sym List.mem_cons_self)
    have hrest := ih fun sym hsym => h sym (List.mem_cons_of_mem _ hsym)
    rw [payload, List.flatMap_cons, List.length_append, List.length_cons]
    rw [payload] at hrest
    omega

/-- Where any payload fits, HUF_ENCODE commits a table in every run. -/
theorem hufEncode_of_room (hi : i = .hufEncode) (hroom : 255 * s.cur.srcLen.toNat ≤ 8 * s.cur.dstCap.toNat) (sym : Byte) :
    Output.freq sym ∈ (s.computedFromShared i).outs ∧
      { base := s.cur.metaAddr.toNat + 4 * sym.toNat, len := 4 } ∈ (s.computedFromShared i).bytes := by
  subst hi
  obtain ⟨x, hx, hin⟩ := State.exists_source_input hpass (by simp [Block.regions]) hshared
  have hfit (m : Memory) (f : FreqTable) :
      ((payload (codeTable (buildTree f)) ({ s with mem := m } : State).srcBytes).length + 7) / 8 ≤
        s.cur.dstCap.toNat := by
    have hle := length_payload_le f ({ s with mem := m } : State).srcBytes
    have hbytes : ({ s with mem := m } : State).srcBytes.length = s.cur.srcLen.toNat := Memory.length_readBytes _ _ _
    rw [hbytes] at hle
    omega
  obtain ⟨m, m', f, f', hm, hm', hf, hf', hne⟩ := State.exists_counts_ne hwf hlen hx hin sym
  have hrun := (State.mem_sharedRuns hwf .hufEncode _).2
    ⟨m, hm, exec_hufEncode_of_fit (s := { s with mem := m }) hpass hf (hfit m f)⟩
  have hrun' := (State.mem_sharedRuns hwf .hufEncode _).2
    ⟨m', hm', exec_hufEncode_of_fit (s := { s with mem := m' }) hpass hf' (hfit m' f')⟩
  have hpacked (m : Memory) (f : FreqTable) :
      (packAll (payload (codeTable (buildTree f)) ({ s with mem := m } : State).srcBytes)).length ≤ s.cur.dstCap.toNat := by
    rw [packAll, length_packWhole]
    exact hfit m f
  refine ⟨(s.mem_outs_iff _ _).2 ⟨by simp [outputs], _, hrun, _, hrun', hne⟩, ?_⟩
  exact State.metaPlace_mem_bytes (by simp [Block.regions]) hrun hrun'
    (State.readLE_encoded hpass hm.1 f (hpacked m f) sym) (State.readLE_encoded hpass hm'.1 f' (hpacked m' f') sym) hne

omit hshared in
/-- Where no payload fits, HUF_ENCODE faults CAPACITY in every run. -/
theorem hufEncode_of_no_room (hi : i = .hufEncode) (hroom : 8 * s.cur.dstCap.toNat < s.cur.srcLen.toNat) :
    (∀ o ∈ (s.computedFromShared i).outs, o = .faultInfo) ∧ (s.computedFromShared i).bytes = [] := by
  subst hi
  have hrun : ∀ t ∈ s.sharedRuns .hufEncode, ∃ info, t.cur = s.cur.raise .capacity info ∧
      ∀ a, a ∉ s.sharedInputs .hufEncode → t.mem.read a = s.mem.read a := by
    intro t ht
    obtain ⟨m, -, hsame, hexec⟩ := State.exec_of_mem_sharedRuns hwf ht
    obtain ⟨f, hf, hcount⟩ := State.exists_table hlen m
    have hbytes : ({ s with mem := m } : State).srcBytes.length = s.cur.srcLen.toNat := Memory.length_readBytes _ _ _
    have hle := length_le_length_payload fun sym hsym => codeOf_ne_nil_of_mem hcount hsym
    rw [hbytes] at hle
    have hfull : s.cur.dstCap.toNat <
        ((payload (codeTable (buildTree f)) ({ s with mem := m } : State).srcBytes).length + 7) / 8 := by omega
    cases (exec_hufEncode_of_full (s := { s with mem := m }) hpass hf hfull).symm.trans hexec
    exact ⟨_, rfl, hsame⟩
  refine ⟨fun o ho => ?_, List.eq_nil_iff_forall_not_mem.2 fun q hq => ?_⟩
  · by_contra hne
    refine State.not_mem_outs (fun t ht u hu => ?_) ho
    obtain ⟨info, hcur, -⟩ := hrun t ht
    obtain ⟨info', hcur', -⟩ := hrun u hu
    rw [hcur, hcur']
    cases o with
    | faultInfo => exact absurd rfl hne
    | ending | writer => exact ⟨rfl, rfl⟩
    | _ => rfl
  · obtain ⟨hplace, t, ht, u, hu, a, hhas, hne⟩ := (s.mem_bytes_iff _ _).1 hq
    obtain ⟨r, hr, hw, hra⟩ := (s.cur.has_places_iff _ a).1 ⟨q, hplace, hhas⟩
    have hnot : a ∉ s.sharedInputs .hufEncode := by
      intro hin
      obtain ⟨-, -, hout⟩ := (s.mem_sharedInputs _ _).1 hin
      rw [hout r hr hw] at hra
      cases hra
    obtain ⟨-, -, hmem⟩ := hrun t ht
    obtain ⟨-, -, hmem'⟩ := hrun u hu
    exact hne ((hmem a hnot).trans (hmem' a hnot).symm)

end Shared

/-! ### The statement -/

/-- Over two runs, each named by its memory. -/
theorem State.exists_runs_iff (hwf : s.mem.wf = true) (i : Instr) (P : State → State → Prop) :
    (∃ t ∈ s.sharedRuns i, ∃ u ∈ s.sharedRuns i, P t u) ↔ ∃ m m' t u, s.Variant i m ∧ s.Variant i m' ∧
      exec i { s with mem := m } = .next t ∧ exec i { s with mem := m' } = .next u ∧ P t u := by
  simp only [State.mem_sharedRuns hwf]
  constructor
  · rintro ⟨t, ⟨m, hm, ht⟩, u, ⟨m', hm', hu⟩, hP⟩
    exact ⟨m, m', t, u, hm, hm', ht, hu, hP⟩
  · rintro ⟨m, m', t, u, hm, hm', ht, hu, hP⟩
    exact ⟨t, ⟨m, hm, ht⟩, u, ⟨m', hm', hu⟩, hP⟩

/-- Settles O59: the engine's move, what varies over the runs, and what that is for each command. -/
theorem sharedBytesDrawn : Obligations.SharedBytesDrawn := by
  refine ⟨fun s w i => engineTurn_of_shared, fun s i c hwf hc => ?_⟩
  subst hc
  refine ⟨fun o => ?_, fun q => ?_, s.mem_sharedInputs i, s.cur.has_places_iff i, State.computed_of_not_pass hwf, ?_, ?_, ?_, ?_,
    ?_, ?_, ?_, ?_⟩
  · rw [s.mem_outs_iff, State.exists_runs_iff hwf i fun t u => ¬o.Same t.cur u.cur]
  · rw [s.mem_bytes_iff, State.exists_runs_iff hwf i fun t u => ∃ a, q.has a = true ∧ t.mem.read a ≠ u.mem.read a]
    simp only [exists_and_left]
  · intro hnone
    refine State.computed_of_no_input hwf (List.eq_nil_iff_forall_not_mem.2 fun a ha => ?_)
    obtain ⟨⟨q, hq, hqa⟩, ⟨r, hr, hw, hra⟩, -⟩ := (s.mem_sharedInputs i a).1 ha
    have hoverlap := (Range.overlaps_iff q r.range).2 ⟨a, hqa, hra⟩
    rw [hnone r hr hw q hq] at hoverlap
    cases hoverlap
  · rintro n rfl hn hpass
    exact mem_outs_brGet hwf hn hpass
  · rintro rfl hinfo
    exact faultInfo_not_mem_outs_hufGetSym hwf hinfo
  · rintro rfl hpass
    exact mem_outs_hufLoadFreq hwf hpass
  · rintro rfl hmeta o ho
    exact mem_outs_hufDecode hwf hmeta ho
  · rintro ⟨strict, rfl⟩ o ho
    exact mem_outs_lzwDecode hwf ho
  · rintro rfl
    exact ⟨fun hroom o ho => mem_outs_lzwEncode hwf hroom ho, computed_lzwEncode_of_no_room hwf⟩
  · intro hpass hshared hlen
    exact ⟨hufCount_of_shared hwf hlen hpass hshared,
      fun hi hroom sym => hufEncode_of_room hwf hlen hpass hshared hi hroom sym, hufEncode_of_no_room hwf hlen hpass⟩

end SharedSource

end Sys2Proof.Machine
end
